-- ==== Sys2Proof/Word.lean ====
section
/-!
DEFINITION. The word types of the part: bytes of the line and of pages, and the raw sample code (R1).
Quantities that the manual counts or compares exactly (voltages, times, sequence numbers) are plain
`Nat`s in the manual's unit; they become bytes only in a layout of chapter 11.
-/

namespace Sys2Proof

/-- One byte of a frame, a page header or a page body (R170, R74). -/
abbrev Byte := BitVec 8

/-- One converted sample: a signed 16-bit code (section 1.1). -/
abbrev SampleCode := BitVec 16

/-- A byte from a number, taken modulo 256. -/
def byte (n : Nat) : Byte := BitVec.ofNat 8 n

end Sys2Proof
end

