-- ==== Sys2Proof/Config.lean ====
section
/-!
DEFINITION. What one part fixes and what the manual leaves open.
Constants with a body are numbers the manual states.
Constants without a body (`opaque`) are free values: nothing can be proved about which value they take,
so a claim that holds, holds whatever the hardware does there. Each is named in the assumption log.
-/

namespace Sys2Proof.Config

/-- Vendor code (R181). -/
def vendorCode : Nat := 0x0D4B
/-- Part code (R181). -/
def partCode : Nat := 416
/-- Silicon revision (R181): the manual gives no number (log 3). -/
opaque siliconRevision : BitVec 8
/-- The 64-bit serial number fixed at manufacture (R181, log 3). -/
opaque serialNumber : BitVec 64

/-- FREE VALUE (log 4): what an unsigned 32-bit count holds after it is raised at 4 294 967 295, where
the manual states no saturation. -/
opaque countPast : Nat → Nat
/-- FREE VALUE (log 4): what a field of `w` bytes carries for a number that does not fit it. -/
opaque fieldPast : (w : Nat) → (n : Nat) → Nat
/-- FREE VALUE (log 4): the clock's seconds after 4 294 967 295 (R149: beyond the life of the part). -/
opaque clockPast : Nat
/-- FREE VALUE (log 4): the time, in milliseconds, of an interval's start that would lie before the clock's zero. -/
opaque beforeZero : (ms : Nat) → Nat
/-- FREE VALUE (log 5): whether a frequency exactly half way between two millihertz goes up (R11). -/
opaque tieUp : (num : Nat) → (den : Nat) → Bool
/-- FREE VALUE (log 6): whether a percentage of Udecl or a deviation of an RVC entry whose remainder is
at least one half goes up to the next unit. -/
opaque restUp : (num : Nat) → (den : Nat) → Bool
/-- FREE VALUE (log 7): whether the later of two phases takes the extreme when both are equally extreme, at
`num / den`, on one value set (R22); phases by their codes. -/
opaque laterPhaseTakesTie : (earlier later : Nat) → (num den : Nat) → Bool
/-- FREE VALUE (log 8): the direction of the deviation of a value or mean from an equal mean (R19). -/
opaque zeroDeviationUp : (aNum aDen bNum bDen : Nat) → Bool

/-- Log blocks and their pages (R74). -/
def firstLogBlock : Nat := 2
def blockCount : Nat := 256
def logBlockCount : Nat := 254
def pagesPerBlock : Nat := 128
/-- Bytes in a page body (R74). -/
def bodyBytes : Nat := 512
/-- Tracker entries (R18), capture slots (R47), case slots (R122). -/
def entryCount : Nat := 12
def slotCount : Nat := 4
def caseCount : Nat := 8
/-- The count of BAD log blocks that makes the store READ_ONLY (R111). -/
def badLimit : Nat := 13
/-- 31 days in seconds (R125). -/
def monthSeconds : Nat := 2678400

end Sys2Proof.Config
end

