-- ==== Sys2Proof/Syntax.lean ====
section
/-!
DEFINITION. The commands of the part: one constructor of `Instr` for each row of the table of operations
and events. Requests carry the tag and the raw body bytes of their frame (R170), so that every length and
every unassigned bit of R199 can be written. Reports between blocks carry no contents: the contents are in
flight in the state, and the command is their arrival (log 9).
-/

namespace Sys2Proof

/-- A character received on RXD: its 8 data bits, or one whose stop bit was sampled low (R169). -/
inductive RxChar where
  | data (b : Byte)
  | framingError
deriving DecidableEq, Repr

/-- What the correction unit finds on a page (R91). -/
inductive ReadResult where
  | blank
  | clean
  | corrected (bits : Nat)
  | uncorrectable
deriving DecidableEq, Repr

/-- Receivers of a series restart notice (R15). -/
inductive RestartReceiver where
  | tracker | capture | aggregator
deriving DecidableEq, Repr

/-- Receivers of an apply notification (R194). -/
inductive ApplyReceiver where
  | measurement | tracker | capture | aggregator | link
deriving DecidableEq, Repr

/-- Receivers of a missed counter report, the link unit apart (R37). -/
inductive MissReceiver where
  | aggregator | caseUnit
deriving DecidableEq, Repr

/-- Receivers of a step report (R152). -/
inductive StepReceiver where
  | tracker | aggregator | caseUnit
deriving DecidableEq, Repr

/-- The commands, in the order of spec/opcode_table.json. -/
inductive Instr where
  /-- The sampling timer fires: the four converted codes (R1). -/
  | sampleSet (l1 l2 l3 ne : SampleCode)
  /-- The oldest sample block handed over reaches the capture unit (R4, R46). -/
  | sampleBlock
  /-- The oldest half-cycle value set handed over reaches the tracker (R20). -/
  | halfCycleValueSet
  /-- The oldest window value set handed over reaches the aggregator and the link unit (R13). -/
  | windowValueSet
  /-- The oldest frequency value handed over reaches the aggregator (R64). -/
  | frequencyValue
  /-- A series restart notice reaches one block (R15). -/
  | seriesRestart (dest : RestartReceiver)
  /-- An apply notification reaches one block (R194, R195). -/
  | applyNotification (dest : ApplyReceiver)
  /-- The oldest claim reaches the capture unit (R48). -/
  | slotClaim
  /-- The oldest relink request reaches the capture unit (R51). -/
  | relink
  /-- The oldest hand-back request reaches the capture unit (R52). -/
  | handBack
  /-- The oldest slot FULL report reaches the tracker (R25). -/
  | slotFull
  /-- The oldest slot dropped report reaches the tracker (R25). -/
  | slotDropped
  /-- The page program in progress completes (R79). -/
  | pageProgramDone
  /-- The oldest committed record not yet delivered reaches the case unit (R136). -/
  | commitDelivery
  /-- The page program in progress passes 2 ms (R87). -/
  | pageProgramTimeout
  /-- The program or erase in progress in the settings area times out (R102). -/
  | settingsAreaTimeout
  /-- The block erase in progress completes (R88). -/
  | blockEraseDone
  /-- The block erase in progress passes 40 ms (R88). -/
  | blockEraseTimeout
  /-- The page read in progress transfers its page into the correction unit (R90). -/
  | pageReadDone
  /-- The correction in progress ends (R91). `body` is what a RECORDS page whose program was cut short
  reads back as, when it differs from what was being programmed (R198); it has no meaning otherwise. -/
  | correctionDone (result : ReadResult) (body : Option (List Byte))
  /-- A place request for a case slot reaches the store controller (R127). -/
  | holdPlace (slot : Fin 8)
  /-- A judge-block request for a case slot and a block reaches the store controller (R127). -/
  | holdJudgeBlock (slot : Fin 8) (block : Nat)
  /-- A remove request for a case slot reaches the store controller (R127). -/
  | holdRemove (slot : Fin 8)
  /-- The oldest loss counter report reaches the case unit (R143). -/
  | lossCounterReport
  /-- The oldest missed counter report reaches one block (R65, R143). -/
  | missedCounterReport (dest : MissReceiver)
  /-- The oldest step report reaches one block (R40, R68, R140). -/
  | timeStepReport (dest : StepReceiver)
  /-- The oldest boundary report reaches the settings section (R194). -/
  | intervalBoundary
  /-- One millisecond of the backup domain's oscillator (R149). -/
  | clockTick
  /-- The oldest clock arrival reaches the case unit (R138). -/
  | clockArrival
  /-- The supply-fail warning (R156). -/
  | supplyFailWarning
  /-- The supply becomes good (R156). -/
  | supplyGood
  /-- The stability timer reaches 200 ms; `cellLow` is the backup cell's level, judged at a start (R155). -/
  | stabilityTimerExpiry (cellLow : Bool)
  /-- Core power is lost (R161). -/
  | corePowerLost
  /-- RESETN goes low (R156). -/
  | resetnLow
  /-- RESETN goes high (R156). -/
  | resetnHigh
  /-- Core supply and backup cell are both absent (R155). -/
  | backupDomainLoss
  /-- The 60 s judgement of the backup cell (R155). -/
  | backupCellJudgement (low : Bool)
  /-- These characters arrive, then none for more than 20 ms (R172). -/
  | rxTimeout (chars : List RxChar)
  /-- These characters arrive, the last of them ending a frame as a check failure (R172). -/
  | checkFailure (chars : List RxChar)
  /-- A complete frame arrives while the request slot is HELD (R173). -/
  | overrun (kind tag : Byte) (body : List Byte)
  /-- A complete frame of a kind assigned to no request arrives (R174). -/
  | unknownKind (kind tag : Byte) (body : List Byte)
  /-- The transmitter has sent the last character of its frame (R176). -/
  | frameSent
  /-- 1 ms has passed since the latest masked change from clear to latched (R185). -/
  | attnPulseEnd
  | identify (tag : Byte) (body : List Byte)
  | getStatus (tag : Byte) (body : List Byte)
  | ackCauses (tag : Byte) (body : List Byte)
  | setAttention (tag : Byte) (body : List Byte)
  | getSettings (tag : Byte) (body : List Byte)
  | setSettings (tag : Byte) (body : List Byte)
  | applySettings (tag : Byte) (body : List Byte)
  | discardStaged (tag : Byte) (body : List Byte)
  | setTime (tag : Byte) (body : List Byte)
  | getTime (tag : Byte) (body : List Byte)
  | getLive (tag : Byte) (body : List Byte)
  | readRecords (tag : Byte) (body : List Byte)
  | readCapture (tag : Byte) (body : List Byte)
  | exportMark (tag : Byte) (body : List Byte)
  | getStore (tag : Byte) (body : List Byte)
  | formatStore (tag : Byte) (body : List Byte)
  | openCase (tag : Byte) (body : List Byte)
  | closeCase (tag : Byte) (body : List Byte)
  | releaseCase (tag : Byte) (body : List Byte)
  | listCases (tag : Byte) (body : List Byte)
  | caseSummary (tag : Byte) (body : List Byte)
  | caseRecords (tag : Byte) (body : List Byte)
  | watchStart (tag : Byte) (body : List Byte)
  | watchStop (tag : Byte) (body : List Byte)
  | abort (tag : Byte) (body : List Byte)
  | restart (tag : Byte) (body : List Byte)
deriving DecidableEq, Repr

end Sys2Proof
end

