-- ==== Sys2Proof/Machine/State.lean ====
section
/-!
DEFINITION. The state of the part as plain data, unit by unit in the names of chapters 1 to 10, and the
machine right after reset. The relations between fields (lengths of tables, bounds of queues) are
invariants of Safety.lean, not types.
-/

namespace Sys2Proof.Machine

/-! ## Quantities -/

/-- The three phases (00_scope.md, Phases). -/
inductive Phase where
  | l1 | l2 | l3
deriving DecidableEq, Repr

/-- A set over {L1, L2, L3}. -/
structure PhaseSet where
  l1 : Bool
  l2 : Bool
  l3 : Bool
deriving DecidableEq, Repr

/-- One thing for each phase. -/
structure Tri (α : Type) where
  l1 : α
  l2 : α
  l3 : α
deriving DecidableEq, Repr

/-- One thing for each channel L1, L2, L3, NE. -/
structure Quad (α : Type) where
  l1 : α
  l2 : α
  l3 : α
  ne : α
deriving DecidableEq, Repr

/-- Kinds of disturbance (section 2.1). -/
inductive Kind where
  | dip | swell | interruption | rvc
deriving DecidableEq, Repr

/-- One count for each kind of disturbance. -/
structure PerKind where
  dip : Nat
  swell : Nat
  interruption : Nat
  rvc : Nat
deriving DecidableEq, Repr

/-- The nominal frequency (R189). -/
inductive Freq where
  | hz50 | hz60
deriving DecidableEq, Repr

/-- The aggregation modes (sections 2.3 and 2.5). -/
inductive AggMode where
  | polyphase | perPhase
deriving DecidableEq, Repr

/-- The attention modes (R184). -/
inductive AttnMode where
  | level | pulse
deriving DecidableEq, Repr

/-- An epoch number, or the unsettled mark with its step count (R149, R150). -/
inductive Epoch where
  | settled (n : Nat)
  | unsettled (steps : Nat)
deriving DecidableEq, Repr

/-- A time stamp: a time and the epoch in force when it was taken (R150). -/
structure TimeStamp where
  sec : Nat
  ms : Nat
  epoch : Epoch
deriving DecidableEq, Repr

/-- A time without epoch: window edges (R122). -/
structure WTime where
  sec : Nat
  ms : Nat
deriving DecidableEq, Repr

/-- A magnitude in 0.01 V as an exact fraction, with a direction for RVC (R19, R32). -/
structure Extreme where
  num : Nat
  den : Nat
  up : Bool
deriving DecidableEq, Repr

/-- A set over the eight attention causes, bit `i` for the cause of code `i` (R197). -/
abbrev CauseSet := BitVec 8

/-- Attention causes (R182). -/
inductive Cause where
  | restarted | exportReady | disturbance | caseCause | store | loss | clock | link
deriving DecidableEq, Repr

/-- A settings set (R189). -/
structure Settings where
  freq : Freq
  udecl : Nat
  threePhases : Bool
  mode : AggMode
  dip : Nat
  swell : Nat
  interruption : Nat
  hysteresis : Nat
  rvc : Nat
  rvcCapture : Bool
  preCycles : Nat
  postCycles : Nat
  intervalLength : Nat
  tolerance : Nat
  exportThreshold : Nat
  replyBurst : Nat
  attentionMask : CauseSet
  attentionMode : AttnMode
  linkRate : Nat
deriving DecidableEq, Repr

/-- The defaults of R189. -/
def Settings.default : Settings where
  freq := .hz50
  udecl := 23000
  threePhases := true
  mode := .polyphase
  dip := 9000
  swell := 11000
  interruption := 500
  hysteresis := 200
  rvc := 500
  rvcCapture := false
  preCycles := 4
  postCycles := 12
  intervalLength := 600
  tolerance := 1000
  exportThreshold := 16
  replyBurst := 4
  attentionMask := 0xFB#8
  attentionMode := .level
  linkRate := 115200

/-- The identifiers of R189, in the order of its table. -/
inductive SettingId where
  | nominalFrequency | declaredVoltage | phasesFitted | aggregationMode | dipThreshold | swellThreshold
  | interruptionThreshold | hysteresis | rvcThreshold | rvcCapture | capturePreCycles | capturePostCycles
  | intervalLength | toleranceBand | exportThreshold | replyBurst | attentionMask | attentionMode | linkRate
deriving DecidableEq, Repr

/-- An active set with its generation, as one block last took it (R194). -/
structure InForce where
  set : Settings
  generation : Nat
deriving DecidableEq, Repr

/-! ## Measurement unit (chapter 1) -/

/-- The four samples of one instant. -/
abbrev SampleSet := Quad SampleCode

/-- A sample block: 64 sample sets (R4). -/
structure SampleBlock where
  number : Nat
  stamp : TimeStamp
  freq : Freq
  samples : List SampleSet
deriving DecidableEq, Repr

/-- A half-cycle value set (R3). -/
structure HalfCycleSet where
  number : Nat
  window : Nat
  position : Nat
  stamp : TimeStamp
  values : Quad Nat
  clipped : Quad Bool
  fitted : PhaseSet
  freq : Freq
deriving DecidableEq, Repr

/-- A window value set (R6). -/
structure WindowSet where
  window : Nat
  halfCycles : Nat
  stamp : TimeStamp
  values : Quad Nat
  clipped : Quad Bool
  fitted : PhaseSet
deriving DecidableEq, Repr

/-- Why a frequency value is invalid (R11). -/
inductive InvalidReason where
  | noReference | shortSpan | outOfRange
deriving DecidableEq, Repr

/-- A frequency value (R11): valid when `frequency` is present. -/
structure FrequencyValue where
  period : Nat
  stamp : TimeStamp
  frequency : Option Nat
  reference : Option Phase
  reason : Option InvalidReason
  crossings : Option Nat
deriving DecidableEq, Repr

/-- An instant on the sample clock, in sample intervals: `num / den` (R10). -/
structure Instant where
  num : Nat
  den : Nat
deriving DecidableEq, Repr

/-- A crossing tally (R11). -/
structure Tally where
  count : Nat
  first : Option Instant
  last : Option Instant
deriving DecidableEq, Repr

/-- What the measurement unit has handed over and the receiver has not yet taken (R13, R15). -/
inductive Output where
  | block (b : SampleBlock)
  | halfCycle (v : HalfCycleSet)
  | frequency (f : FrequencyValue)
  | window (w : WindowSet)
  | restart (dest : RestartReceiver)
deriving DecidableEq, Repr

structure Measurement where
  freq : Freq
  udecl : Nat
  threePhases : Bool
  /-- The numbers of the latest sample set, half-cycle value set, window and period of this series: 32-bit counts, 0
  before the first (R2). -/
  samples : Nat
  halfCycles : Nat
  windows : Nat
  periods : Nat
  /-- Sample sets since the last block, and the block before, each in sample order. -/
  current : List SampleSet
  previous : Option (List SampleSet)
  /-- Open window: sample sets, sums of squares, CLIPPED, half-cycle value sets so far; and the windows completed in the
  period in progress. -/
  windowSamples : Nat
  windowSquares : Quad Nat
  windowClipped : Quad Bool
  windowHalfCycles : Nat
  periodWindows : Nat
  armed : Tri Bool
  lastSample : Option SampleSet
  tallies : Tri Tally
  latestWindow : Option WindowSet
  latestFrequency : Option FrequencyValue
  outbox : List Output
deriving DecidableEq, Repr

/-! ## Disturbance tracker (chapter 2) -/

inductive EntryState where
  | opened | tail | commitWait
deriving DecidableEq, Repr

/-- Reasons of NO_CAPTURE (R19). -/
inductive NoCapture where
  | slot | store | supply
deriving DecidableEq, Repr

/-- The flags that an entry and its record share (R19). -/
structure Flags where
  clipped : Bool := false
  noCapture : Option NoCapture := none
  captureTruncated : Bool := false
  precededByRvc : Bool := false
  acrossSupplyLoss : Bool := false
  measurementGap : Bool := false
  timeStepped : Bool := false
  closedBySettings : Bool := false
  endUnknown : Bool := false
  nestedOverflow : Bool := false
deriving DecidableEq, Repr

/-- The generation values an entry keeps (R19). -/
structure GenValues where
  udecl : Nat
  dip : Nat
  swell : Nat
  interruption : Nat
  hysteresis : Nat
  rvc : Nat
  freq : Freq
  mode : AggMode
  threePhases : Bool
deriving DecidableEq, Repr

/-- An entry's capture slot with its last reported condition (R19). -/
structure SlotLink where
  slot : Nat
  full : Bool
deriving DecidableEq, Repr

/-- A non-FREE entry of the tracker table (R19). -/
structure Entry where
  state : EntryState
  kind : Kind
  phases : PhaseSet
  start : TimeStamp
  finish : Option TimeStamp
  halfCycles : Nat
  duration : Option Nat
  extreme : Option Extreme
  extremePhase : Option Phase
  perPhase : Tri (Option Extreme)
  steady : Option Extreme
  /-- RVC: the steady deviation of each phase from its latest excursion (R33). -/
  steadyOf : Tri (Option Extreme)
  enclosing : Option (Nat × TimeStamp)
  slot : Option SlotLink
  generation : Nat
  values : GenValues
  nested : List Nat
  flags : Flags
deriving DecidableEq, Repr

/-- States of a rapid-voltage-change detector (R31). -/
inductive DetectorState where
  | warmup | steady | excursion | suppressed
deriving DecidableEq, Repr

/-- One value of a detector's buffer with the stamp of its value set. -/
structure Sampled where
  value : Nat
  stamp : TimeStamp
deriving DecidableEq, Repr

/-- A detector: state, value buffer (oldest first), and the pre-event mean as sum over count (R31, R32). -/
structure Detector where
  state : DetectorState
  buffer : List Sampled
  preSum : Nat
  preCount : Nat
deriving DecidableEq, Repr

/-- A missed mark (R36). -/
structure MissedMark where
  kind : Kind
  phase : Option Phase
  covers : PhaseSet
deriving DecidableEq, Repr

/-- The window flag mark (R35). -/
structure WindowFlag where
  window : Nat
  set : Bool
deriving DecidableEq, Repr

structure Tracker where
  entries : List (Option Entry)
  commitQueue : List Nat
  tailOrder : List Nat
  marks : List MissedMark
  missed : PerKind
  detectors : Tri Detector
  windowFlag : Option WindowFlag
  lastStamp : Option TimeStamp
  inForce : InForce
deriving DecidableEq, Repr

/-! ## Capture unit (chapter 3) -/

inductive SlotState where
  | filling | full | writing
deriving DecidableEq, Repr

/-- A capture slot that is not FREE (R47). -/
structure CaptureSlot where
  state : SlotState
  entry : Nat
  preCycles : Nat
  postCycles : Nat
  triggerBlock : Nat
  triggerStamp : TimeStamp
  held : List SampleBlock
  written : Nat
deriving DecidableEq, Repr

structure Capture where
  ring : List SampleBlock
  slots : List (Option CaptureSlot)
  preCycles : Nat
  postCycles : Nat
deriving DecidableEq, Repr

/-! ## Records and pages (chapters 5 and 11) -/

/-- A value in 0.01 V and in 0.01 % of Udecl, with its direction. -/
structure Measured where
  volts : Nat
  percent : Nat
  up : Bool
deriving DecidableEq, Repr

structure Continuation where
  segment : Nat
  block : Nat
  page : Nat
deriving DecidableEq, Repr

/-- A DISTURBANCE record (R24, R59, R78). `perPhase` has an item for each phase of the set. -/
structure DisturbanceRecord where
  seq : Nat
  kind : Kind
  phases : PhaseSet
  start : TimeStamp
  finish : Option TimeStamp
  halfCycles : Nat
  duration : Option Nat
  extreme : Option Measured
  extremePhase : Option Phase
  perPhase : Tri (Option Measured)
  steady : Option Measured
  enclosing : Option TimeStamp
  generation : Nat
  nested : List Nat
  flags : Flags
  pageCount : Nat
  triggerSegment : Nat
  firstPage : Nat × Nat
  trigger : Option TimeStamp
  continuation : Option Continuation
deriving DecidableEq, Repr

/-- Truncation causes (R60). -/
structure Truncation where
  timeStep : Bool := false
  start : Bool := false
  holdup : Bool := false
  lengthChange : Bool := false
deriving DecidableEq, Repr

/-- One phase of an INTERVAL record (R66). -/
structure PhaseFigures where
  mean : Option Nat
  lowest : Nat
  highest : Nat
  outside : Nat
deriving DecidableEq, Repr

/-- An INTERVAL record (R66); `seq` is given when its job starts. -/
structure IntervalRecord where
  seq : Nat
  stamp : TimeStamp
  start : TimeStamp
  boundary : Option Nat
  generation : Nat
  length : Nat
  tolerance : Nat
  udecl : Nat
  fitted : PhaseSet
  counted : Nat
  flagged : Nat
  phases : Tri PhaseFigures
  neMean : Option Nat
  neHighest : Nat
  clipped : Quad Bool
  frequency : Option (Nat × Nat × Nat)
  validCount : Nat
  invalidCount : Nat
  missed : PerKind
  causes : Truncation
deriving DecidableEq, Repr

/-- Start causes (R162). -/
inductive StartCause where
  | cold | resume | resetLine | restartRequest
deriving DecidableEq, Repr

/-- Reasons of a retirement (R77). -/
inductive RetireReason where
  | programTimeout | eraseTimeout | weak
deriving DecidableEq, Repr

/-- An item of a SUPPLY_LOSS marker (R159). -/
structure LossItem where
  kind : Kind
  phases : PhaseSet
  start : TimeStamp
deriving DecidableEq, Repr

/-- The loss counters (R117). -/
structure LossCounters where
  disturbance : Nat
  interval : Nat
  marker : Nat
  unexportedReclaimed : Nat
deriving DecidableEq, Repr

/-- Which loss counter rose (R117). -/
inductive LossKind where
  | disturbance | interval | marker | unexportedReclaimed
deriving DecidableEq, Repr

/-- The body of a MARKER record by subkind (R77). -/
inductive MarkerBody where
  | restart (cause : StartCause) (start : TimeStamp)
  | supplyLoss (items : List LossItem)
  | supplyReturn (dark : Option Nat)
  | timeSet (old new : TimeStamp)
  | settingsApplied (generation : Nat) (changed : List SettingId)
  | caseOpened (slot caseNo : Nat) (start : WTime) (finish : Option WTime) (phases : PhaseSet)
  | caseClosed (slot caseNo : Nat) (finish : WTime)
  | caseReleased (slot caseNo : Nat)
  | loss (lost : LossCounters) (missed : PerKind)
  | format (identity floor : Nat)
  | blockRetired (block : Nat) (reason : RetireReason)
deriving DecidableEq, Repr

structure MarkerRecord where
  seq : Nat
  stamp : TimeStamp
  body : MarkerBody
deriving DecidableEq, Repr

/-- A record (section 5.2). -/
inductive Record where
  | disturbance (r : DisturbanceRecord)
  | interval (r : IntervalRecord)
  | marker (r : MarkerRecord)
deriving DecidableEq, Repr

/-- What a SETTINGS image holds (R99). -/
structure SettingsImage where
  set : Settings
  generation : Nat
  identity : Nat
  floor : Nat
  exportMark : Nat
  badList : List Nat
deriving DecidableEq, Repr

/-- States of a case as an image records them (R144). -/
inductive ImageCaseState where
  | pending | scanning | live | ended
deriving DecidableEq, Repr

/-- What a CASE image holds for an occupied slot (R144). -/
structure ImageCase where
  caseNo : Nat
  start : WTime
  finish : Option WTime
  phases : PhaseSet
  state : ImageCaseState
  opened : TimeStamp
  openingMarker : Option Nat
  headLost : Bool
  evidenceLost : Bool
  gap : Bool
  timeStepped : Bool
deriving DecidableEq, Repr

/-- The two kinds of image (R99). -/
inductive ImageKind where
  | settings | cases
deriving DecidableEq, Repr

/-- What is programmed on a page, by page kind (R75). -/
inductive PageData where
  | header (block identity blockSeq : Nat) (stamp : TimeStamp)
  | records (count first earliest latest : Nat) (body : List Byte)
  | capture (owner segment trigger : Nat) (stamp : TimeStamp) (freq : Freq) (samples : List SampleSet)
  | settings (counter : Nat) (image : SettingsImage)
  | cases (counter : Nat) (image : List (Option ImageCase))
deriving DecidableEq, Repr

/-- Whether a page's contents are settled: programmed whole; its program cut short by a stop of the core (R91);
unknown after a timeout or a cut-short erase (R87); or lost, so that no reader finds them again: a content page of a
log block whose erase did not complete (R110), an image page abandoned after a timeout (R101, R102, log 23). -/
inductive PageCondition where
  | whole | torn | unknown | lost
deriving DecidableEq, Repr

structure Page where
  data : PageData
  condition : PageCondition
deriving DecidableEq, Repr

/-- The nonvolatile array: (block × 128 + page, page), addresses strictly rising; an unlisted page is blank
(R74). -/
abbrev Memory := List (Nat × Page)

/-- The canonical form: addresses strictly rising. Every listed page differs from a blank one by its type. -/
def Memory.wf : Memory → Bool
  | [] => true
  | [_] => true
  | a :: b :: rest => decide (a.1 < b.1) && Memory.wf (b :: rest)

/-! ## Interval aggregator (chapter 4) -/

/-- What an interval fixes at its first window (R61). -/
structure IntervalFixed where
  first : TimeStamp
  last : TimeStamp
  boundary : Nat
  generation : Nat
  fitted : PhaseSet
  length : Nat
  tolerance : Nat
  udecl : Nat
deriving DecidableEq, Repr

structure PhaseTally where
  sum : Nat
  count : Nat
  lowest : Option Nat
  highest : Option Nat
  outside : Nat
  clipped : Bool
deriving DecidableEq, Repr

structure NeTally where
  sum : Nat
  count : Nat
  highest : Option Nat
  clipped : Bool
deriving DecidableEq, Repr

structure FrequencyTally where
  valid : Nat
  sum : Nat
  lowest : Option Nat
  highest : Option Nat
  invalid : Nat
deriving DecidableEq, Repr

/-- The open interval accumulator (R60); the interval is empty while `fixed` is absent. -/
structure Accumulator where
  fixed : Option IntervalFixed
  counted : Nat
  flagged : Nat
  phases : Tri PhaseTally
  ne : NeTally
  frequency : FrequencyTally
  missed : PerKind
  causes : Truncation
deriving DecidableEq, Repr

structure Aggregator where
  acc : Accumulator
  queue : List IntervalRecord
  previousLength : Option Nat
  inForce : InForce
deriving DecidableEq, Repr

/-! ## Store controller (chapters 5 and 6) -/

inductive BlockState where
  | erased | stale | active | full | erasing | bad
deriving DecidableEq, Repr

/-- An entry of the block index table (R83). `holds` has bit `k` for case slot `k`. -/
structure BlockEntry where
  state : BlockState
  blockSeq : Option Nat
  firstRecord : Option Nat
  lastRecord : Option Nat
  earliest : Option Nat
  latest : Option Nat
  holds : BitVec 8
  weak : Bool
  unexported : Option Nat
deriving DecidableEq, Repr

inductive StoreState where
  | writable | heldFull | readOnly | formatting
deriving DecidableEq, Repr

inductive Urgency where
  | none | may | need | must
deriving DecidableEq, Repr

/-- An item of the marker queue (R116): a marker with its header stamp and facts, or an image request. The
items of SUPPLY_LOSS and the counters of LOSS are filled in when the job starts. -/
inductive QueueItem where
  | marker (stamp : TimeStamp) (facts : MarkerBody)
  | image (kind : ImageKind)
deriving DecidableEq, Repr

/-- On whose behalf a page is read (R90); `gone` when the requester has gone meanwhile. -/
inductive Requester where
  | host | caseScan | startUp | gone
deriving DecidableEq, Repr

inductive ProgramWhy where
  | header | content | image (direct : Bool)
deriving DecidableEq, Repr

inductive EraseWhy where
  | activation | reclaim | format | settings (direct : Bool)
deriving DecidableEq, Repr

/-- A medium operation in progress (section 5.7). -/
inductive MediumOp where
  | program (block page : Nat) (data : PageData) (why : ProgramWhy)
  | erase (block : Nat) (why : EraseWhy)
  | read (block page : Nat) (who : Requester)
deriving DecidableEq, Repr

/-- The correction unit while CORRECTING: the page as it was transferred; absent when it was blank (R90). -/
structure Correcting where
  block : Nat
  page : Nat
  found : Option Page
  who : Requester
deriving DecidableEq, Repr

/-- A host read as handed over (R177, R178). -/
inductive HostRequest where
  | records (fromSeq maxCount : Nat)
  | capture (seq segment : Nat)
deriving DecidableEq, Repr

/-- A READ_RECORDS collection in progress (R177); `items` are encoded in the order met. -/
structure RecordsRead where
  fromSeq : Nat
  limit : Nat
  block : Nat
  page : Nat
  later : List Nat
  items : List Byte
  itemCount : Nat
  taken : Nat
  unreadable : Nat
  highest : Option Nat
deriving DecidableEq, Repr

/-- A READ_CAPTURE in progress (R178); `target` is present while the segment's page is read. -/
structure CaptureRead where
  seq : Nat
  segment : Nat
  block : Nat
  page : Nat
  firstUnreadable : Option (Nat × Nat)
  target : Option (Nat × Nat)
deriving DecidableEq, Repr

inductive HostRead where
  | records (r : RecordsRead)
  | capture (r : CaptureRead)
deriving DecidableEq, Repr

/-- Work that runs while a disturbance job is set aside (R107). -/
inductive Aside where
  | reclaim (block : Nat)
  | hostRead (r : HostRead)
deriving DecidableEq, Repr

/-- A disturbance commit job (R114). `source` is the tracker entry, absent for a synthesised record
(R166); `slot` the capture slot while WRITING. -/
structure DisturbanceJob where
  source : Option Nat
  record : DisturbanceRecord
  slot : Option Nat
  remaining : List SampleBlock
  sinceRead : Nat
  timeouts : Nat
  stopCapture : Bool
  aside : Option Aside
deriving DecidableEq, Repr

inductive RecordsClass where
  | interval | marker | formatMarker
deriving DecidableEq, Repr

/-- An interval job or a marker job of markers (R115). `ownLoss`: it carries the SUPPLY_LOSS marker of the
current HOLDUP; `returnDue`: a SUPPLY_RETURN marker follows its commit (R160). -/
structure RecordsJob where
  cls : RecordsClass
  records : List Record
  timeouts : Nat
  ownLoss : Bool
  returnDue : Bool
deriving DecidableEq, Repr

/-- For whom an image is written: a queued request, the two steps of a format (R97), or R113. -/
inductive ImageWho where
  | queued | formatStart | formatEnd | direct
deriving DecidableEq, Repr

/-- Where an image job stands (R100): writing its own image into the current block, erasing the other block, or
writing the image of the other kind into the block just erased, which then is the current one. -/
inductive ImageStage where
  | own
  | erasing
  | other (data : PageData) (timeouts : Nat)
deriving DecidableEq, Repr

structure ImageWork where
  kind : ImageKind
  who : ImageWho
  data : PageData
  stage : ImageStage
  timeouts : Nat
deriving DecidableEq, Repr

/-- The job of the store writer (R104). `endingRead` is a host read that entry to HOLDUP has cut short: it ends after its
read in progress (R118). -/
inductive Job where
  | disturbance (j : DisturbanceJob)
  | records (j : RecordsJob)
  | image (w : ImageWork)
  | hostRead (r : HostRead)
  | endingRead
  | scanRead
  | reclaim (block : Nat)
deriving DecidableEq, Repr

/-- What the store state was last reviewed on: F, the BAD count, the hold sets and whether a format runs (R111). -/
structure StoreReview where
  free : Nat
  bad : Nat
  holds : List (BitVec 8)
  formatting : Bool
deriving DecidableEq, Repr

/-- The step a format is at (R97): before its first image, erasing from a block on, activating, the FORMAT
marker, the second image. -/
inductive FormatStep where
  | start
  | erase (block : Nat)
  | activate
  | marker
  | mark
deriving DecidableEq, Repr

/-- The SUPPLY_LOSS marker of the current HOLDUP (R160). -/
inductive LossMarker where
  | absent | queued | running | committed | discarded
deriving DecidableEq, Repr

/-- A RECORDS page met by the start-up scan, as its facts are needed later (R93, R94). -/
structure FoundPage where
  block : Nat
  page : Nat
  lastSeq : Nat
  earliest : Nat
  latest : Nat
  records : List Record
deriving DecidableEq, Repr

/-- Where the start-up scan stands (R92, R93, R95). -/
inductive ScanStage where
  | settingsArea (block page : Nat)
  | header (block : Nat)
  | firstPage (block page : Nat)
  | lastPage (block page : Nat)
  | readBack (block page : Nat) (later : List (Nat × Nat))
deriving DecidableEq, Repr

/-- The start-up scan in progress with what it has found. -/
structure StartScan where
  stage : ScanStage
  bestSettings : Option (Nat × SettingsImage)
  bestCases : Option (Nat × List (Option ImageCase))
  /-- Block and page of the highest image counter, and each settings block's highest page not BLANK. -/
  bestCounter : Option (Nat × Nat)
  top0 : Option Nat
  top1 : Option Nat
  /-- RECORDS page found by step 2 of R93 in the block being classified. -/
  firstFound : Option FoundPage
  /-- Last record page of each block classified so far. -/
  lastPages : List (Nat × Nat)
  /-- The newest number found and its page (R82). -/
  newestNumber : Option (Nat × Nat × Nat)
  newestPage : Option FoundPage
  unreadable : List (Nat × Nat)
  /-- DISTURBANCE records on pages passed over by the read-back (R165). -/
  passed : List (Kind × TimeStamp)
deriving DecidableEq, Repr

structure Store where
  array : Memory
  index : List BlockEntry
  /-- The ACTIVE block and its next blank page. -/
  active : Option (Nat × Nat)
  nextSeq : Nat
  identity : Nat
  floor : Nat
  exportMark : Nat
  proposed : Option Nat
  badList : List Nat
  imageBlock : Nat
  imagePage : Nat
  imageCounter : Nat
  haveSettingsImage : Bool
  haveCaseImage : Bool
  markerQueue : List QueueItem
  lost : LossCounters
  lossPending : Bool
  storeFault : Bool
  state : StoreState
  /-- What `state` was last reviewed on; absent until the review at the conclusion of the start-up scan. -/
  reviewed : Option StoreReview
  urgency : Urgency
  unexportedList : List Nat
  saturated : Bool
  job : Option Job
  op : Option MediumOp
  correcting : Option Correcting
  activationDue : Bool
  direct : Option ImageWork
  format : Option FormatStep
  lossBatch : List Nat
  lossMarker : LossMarker
  holdupInterval : Bool
  synthesised : List DisturbanceRecord
  hostRequest : Option HostRequest
  scan : Option StartScan
deriving DecidableEq, Repr

/-! ## Settings section (chapter 10) -/

structure SettingsSection where
  active : Settings
  generation : Nat
  staged : Settings
  pending : Option Settings
deriving DecidableEq, Repr

/-! ## Case unit (chapter 7) -/

/-- States of an occupied case slot; SCANNING with its scan phase (R122). -/
inductive CaseState where
  | pending | waiting | running | live | ended
deriving DecidableEq, Repr

/-- Interval statistics of one phase (R135). -/
structure PhaseStatistics where
  withMean : Nat
  outside : Nat
  lowest : Option Nat
  highest : Option Nat
deriving DecidableEq, Repr

/-- The settlement table (R133 to R135): 25 bins RB × D and 10 bins S × D, row by row. -/
structure Settlement where
  dipBins : List Nat
  swellBins : List Nat
  dipOther : Nat
  interruptionOther : Nat
  swellOther : Nat
  rvc : Nat
  supplyLoss : Nat
  endUnknown : Nat
  intervals : Nat
  flaggedIntervals : Nat
  phases : Tri PhaseStatistics
deriving DecidableEq, Repr

/-- An occupied case slot (R122). -/
structure CaseSlot where
  caseNo : Nat
  start : WTime
  finish : Option WTime
  phases : PhaseSet
  state : CaseState
  opened : TimeStamp
  openingMarker : Option Nat
  horizon : Option Nat
  headLost : Bool
  evidenceLost : Bool
  gap : Bool
  timeStepped : Bool
  unreadable : Nat
  table : Settlement
  list : List Nat
  listFull : Bool
deriving DecidableEq, Repr

/-- The scan engine while RUNNING (R129, R130): its slot, cursor, and whether it asks for the page. -/
structure Engine where
  slot : Nat
  blockSeq : Nat
  block : Nat
  page : Nat
  asking : Bool
deriving DecidableEq, Repr

structure CaseUnit where
  slots : List (Option CaseSlot)
  loaded : Bool
  engine : Option Engine
  highWater : Option Nat
  pendingGap : Bool
deriving DecidableEq, Repr

/-! ## Timebase and supply supervisor (chapter 8) -/

/-- Which of a case's times an arrival is for (R137). -/
inductive ArrivalKind where
  | start | finish | limit
deriving DecidableEq, Repr

/-- A registered time, in milliseconds (R137, R153). -/
structure Arrival where
  at_ms : Nat
  caseNo : Nat
  kind : ArrivalKind
deriving DecidableEq, Repr

structure Timebase where
  sec : Nat
  ms : Nat
  epoch : Epoch
  /-- The number that the unsettled mark with count 0 stands for, once settled (R154). -/
  base : Option Nat
  qualitySet : Bool
  coreOff : Option WTime
  arrivals : List Arrival
deriving DecidableEq, Repr

/-- The power states, and the stability wait with core powered (section 8.4). -/
inductive Power where
  | starting | run | holdup | retain | wait
deriving DecidableEq, Repr

structure Supply where
  power : Power
  supplyGood : Bool
  resetnHigh : Bool
  timerRunning : Bool
  powerLost : Bool
  resetSeen : Bool
  markAbsent : Bool
  valid : Bool
  startCause : StartCause
  startStamp : TimeStamp
  cellLow : Bool
deriving DecidableEq, Repr

/-! ## Link unit (chapter 9) -/

/-- The receiver (R171): HUNT; LENGTH with its first byte when taken; HEADER with length and kind when
taken; BODY with the bytes taken; CHECK with its first byte when taken. The running check is over the
bytes taken since the sync byte. -/
inductive RxState where
  | hunt
  | length (first : Option Byte)
  | header (len : Nat) (kind : Option Byte)
  | body (len : Nat) (kind tag : Byte) (taken : List Byte)
  | check (kind tag : Byte) (taken : List Byte) (first : Option Byte)
deriving DecidableEq, Repr

structure Receiver where
  state : RxState
  crc : BitVec 16
deriving DecidableEq, Repr

/-- The request slot while HELD, with its reply when ready (R175). -/
structure Held where
  kind : Byte
  tag : Byte
  reply : Option (List Byte)
deriving DecidableEq, Repr

/-- A frame the part sends; `restarts` for the RESTART reply (R180). -/
structure TxFrame where
  kind : Byte
  tag : Byte
  body : List Byte
  restarts : Bool
deriving DecidableEq, Repr

structure LinkCounters where
  timeout : Nat
  checkFail : Nat
  overrun : Nat
  watchDrop : Nat
deriving DecidableEq, Repr

structure Link where
  listening : Bool
  rx : Receiver
  slot : Option Held
  /-- Tags of ABORTs answered STARTING while the slot was HELD, whose replies are still to be sent (log 42). -/
  startingAborts : List Byte
  restarting : Bool
  tx : Option TxFrame
  causes : CauseSet
  exportCondition : Bool
  clockCondition : Bool
  mask : CauseSet
  mode : AttnMode
  pulse : Bool
  watch : Option Nat
  fifo : List WindowSet
  dropCount : Nat
  frameCounter : Byte
  counters : LinkCounters
  exportThreshold : Nat
  /-- The rate of the line in baud, kept from a start to the next (R169). -/
  lineRate : Nat
deriving DecidableEq, Repr

/-! ## Reports in flight between blocks -/

/-- A claim (section 3.3): the entry and its opening value set. -/
structure Claim where
  entry : Nat
  halfCycle : Nat
  stamp : TimeStamp
deriving DecidableEq, Repr

/-- What the timebase reports to the case unit, in its order (R152, R153). -/
inductive CaseTime where
  | step
  | arrival (caseNo : Nat) (kind : ArrivalKind)
deriving DecidableEq, Repr

/-- An apply notification (R194). -/
structure Notice where
  inForce : InForce
  changed : List SettingId
deriving DecidableEq, Repr

/-- What is in flight, each list oldest first (log 9). -/
structure Reports where
  claims : List Claim
  relinks : List (Nat × Nat)
  handBacks : List Nat
  full : List (Nat × Nat)
  dropped : List (Nat × Nat)
  deliveries : List Record
  losses : List LossKind
  missedToAggregator : List Kind
  missedToCases : List Kind
  stepToTracker : List Epoch
  stepToAggregator : Nat
  timeToCases : List CaseTime
  boundaries : List TimeStamp
  applyMeasurement : List Notice
  applyTracker : List Notice
  applyCapture : List Notice
  applyAggregator : List Notice
  applyLink : List Notice
deriving DecidableEq, Repr

/-! ## The whole part -/

structure State where
  /-- Commands waiting, first in, first out. -/
  pending : List Instr
  supply : Supply
  time : Timebase
  meas : Measurement
  tracker : Tracker
  capture : Capture
  agg : Aggregator
  store : Store
  settings : SettingsSection
  cases : CaseUnit
  link : Link
  reports : Reports
deriving DecidableEq, Repr

/-- No command stops the part: the manual describes every failure as an effect on state, so no path of
this model faults (log 10). The type has no value. Safe. -/
inductive Fault where
deriving DecidableEq, Repr

/-- Reasons a command is refused. -/
inductive Refusal where
  /-- Raised by an arm of `exec` that has no meaning yet; no arm raises it. Safe. -/
  | notModelled (mnemonic : String)
deriving DecidableEq, Repr

/-! ## Values at a start, unit by unit -/

def Tri.all {α : Type} (a : α) : Tri α := ⟨a, a, a⟩
def Quad.all {α : Type} (a : α) : Quad α := ⟨a, a, a, a⟩

def PerKind.zero : PerKind := ⟨0, 0, 0, 0⟩
def Tally.empty : Tally := ⟨0, none, none⟩
def Detector.warm : Detector := ⟨.warmup, [], 0, 0⟩

/-- A measurement unit at the beginning of a series (R2, R16). -/
def Measurement.fresh (freq : Freq) (udecl : Nat) (three : Bool) : Measurement where
  freq := freq
  udecl := udecl
  threePhases := three
  samples := 0
  halfCycles := 0
  windows := 0
  periods := 0
  current := []
  previous := none
  windowSamples := 0
  windowSquares := Quad.all 0
  windowClipped := Quad.all false
  windowHalfCycles := 0
  periodWindows := 0
  armed := Tri.all false
  lastSample := none
  tallies := Tri.all Tally.empty
  latestWindow := none
  latestFrequency := none
  outbox := []

/-- The tracker after a COLD start (R43). -/
def Tracker.cold (inForce : InForce) : Tracker where
  entries := List.replicate Config.entryCount none
  commitQueue := []
  tailOrder := []
  marks := []
  missed := PerKind.zero
  detectors := Tri.all Detector.warm
  windowFlag := none
  lastStamp := none
  inForce := inForce

/-- The capture unit at a start (R57). -/
def Capture.fresh (pre post : Nat) : Capture where
  ring := []
  slots := List.replicate Config.slotCount none
  preCycles := pre
  postCycles := post

def PhaseTally.zero : PhaseTally := ⟨0, 0, none, none, 0, false⟩
def NeTally.zero : NeTally := ⟨0, 0, none, false⟩
def FrequencyTally.zero : FrequencyTally := ⟨0, 0, none, none, 0⟩

/-- An empty interval with its causes (R60). -/
def Accumulator.empty (causes : Truncation) : Accumulator where
  fixed := none
  counted := 0
  flagged := 0
  phases := Tri.all PhaseTally.zero
  ne := NeTally.zero
  frequency := FrequencyTally.zero
  missed := PerKind.zero
  causes := causes

/-- The aggregator at a start (R72). -/
def Aggregator.fresh (inForce : InForce) : Aggregator where
  acc := Accumulator.empty { start := true }
  queue := []
  previousLength := none
  inForce := inForce

/-- A log block of which nothing is known or held, in a given state. -/
def BlockEntry.plain (state : BlockState) : BlockEntry where
  state := state
  blockSeq := none
  firstRecord := none
  lastRecord := none
  earliest := none
  latest := none
  holds := 0
  weak := false
  unexported := none

def StartScan.fresh : StartScan where
  stage := .settingsArea 0 0
  bestSettings := none
  bestCases := none
  bestCounter := none
  top0 := none
  top1 := none
  firstFound := none
  lastPages := []
  newestNumber := none
  newestPage := none
  unreadable := []
  passed := []

/-- The store controller at a start, over what the array holds (R92, R104, R116, R117). -/
def Store.fresh (array : Memory) : Store where
  array := array
  index := List.replicate Config.logBlockCount (BlockEntry.plain .stale)
  active := none
  nextSeq := 1
  identity := 0
  floor := 0
  exportMark := 0
  proposed := none
  badList := []
  imageBlock := 0
  imagePage := 0
  imageCounter := 0
  haveSettingsImage := false
  haveCaseImage := false
  markerQueue := []
  lost := ⟨0, 0, 0, 0⟩
  lossPending := false
  storeFault := false
  state := .writable
  reviewed := none
  urgency := .none
  unexportedList := []
  saturated := false
  job := none
  op := some (.read 0 0 .startUp)
  correcting := none
  activationDue := false
  direct := none
  format := none
  lossBatch := []
  lossMarker := .absent
  holdupInterval := false
  synthesised := []
  hostRequest := none
  scan := some StartScan.fresh

/-- The case unit at a start, before its table is reloaded (R145). -/
def CaseUnit.fresh : CaseUnit where
  slots := List.replicate Config.caseCount none
  loaded := false
  engine := none
  highWater := none
  pendingGap := false

def Receiver.hunting : Receiver := ⟨.hunt, 0xFFFF#16⟩

/-- The link unit at a start (R188). -/
def Link.fresh : Link where
  listening := false
  rx := Receiver.hunting
  slot := none
  startingAborts := []
  restarting := false
  tx := none
  causes := 0
  exportCondition := false
  clockCondition := false
  mask := Settings.default.attentionMask
  mode := Settings.default.attentionMode
  pulse := false
  watch := none
  fifo := []
  dropCount := 0
  frameCounter := 0
  counters := ⟨0, 0, 0, 0⟩
  exportThreshold := Settings.default.exportThreshold
  lineRate := Settings.default.linkRate

def Reports.none : Reports where
  claims := []
  relinks := []
  handBacks := []
  full := []
  dropped := []
  deliveries := []
  losses := []
  missedToAggregator := []
  missedToCases := []
  stepToTracker := []
  stepToAggregator := 0
  timeToCases := []
  boundaries := []
  applyMeasurement := []
  applyTracker := []
  applyCapture := []
  applyAggregator := []
  applyLink := []

/-- The start time stamp of the reset state: 200 ms after the backup domain was made valid (log 1). -/
def State.resetStamp : TimeStamp := ⟨0, 200, .unsettled 0⟩

/-- The machine right after reset: a factory-fresh part at the moment it enters STARTING by its first COLD
start, with every page of the array blank (R163, R149, R43, R57, R72, R92, R145, R188; log 1). -/
def State.reset : State where
  pending := []
  supply :=
    { power := .starting, supplyGood := true, resetnHigh := true, timerRunning := false
      powerLost := false, resetSeen := false, markAbsent := false, valid := true
      startCause := .cold, startStamp := State.resetStamp, cellLow := false }
  time :=
    { sec := 0, ms := 200, epoch := .unsettled 0, base := none, qualitySet := false
      coreOff := none, arrivals := [] }
  meas := Measurement.fresh .hz50 23000 true
  tracker := Tracker.cold ⟨Settings.default, 0⟩
  capture := Capture.fresh 4 12
  agg := Aggregator.fresh ⟨Settings.default, 0⟩
  store :=
    { Store.fresh [] with
      markerQueue := [.marker State.resetStamp (.restart .cold State.resetStamp)] }
  settings := { active := Settings.default, generation := 0, staged := Settings.default, pending := none }
  cases := CaseUnit.fresh
  link := { Link.fresh with causes := 0x41#8, clockCondition := true }
  reports := Reports.none

end Sys2Proof.Machine
end

