-- ==== Sys2Proof/Machine/Basics.lean ====
section
/-!
DEFINITION. Plain operations on the small types of the state: phases, kinds, causes, times, counts, lists.
-/

namespace Sys2Proof.Machine

/-! ## Counts -/

/-- A 32-bit count raised by one; past its limit it holds what the part chooses (log 4). -/
def count32 (n : Nat) : Nat := if n + 1 < 2 ^ 32 then n + 1 else Config.countPast n

/-- A 32-bit count raised by `k`. -/
def count32By : (k n : Nat) → Nat
  | 0, n => n
  | k + 1, n => count32By k (count32 n)

/-- A link counter raised by one: it stops at 4 294 967 295 (R172). -/
def countSat (n : Nat) : Nat := if n < 4294967295 then n + 1 else 4294967295

/-! ## Lists -/

/-- Replace the item at a position by its image; out of range nothing changes. -/
def modifyAt {α : Type} (f : α → α) : Nat → List α → List α
  | _, [] => []
  | 0, a :: rest => f a :: rest
  | i + 1, a :: rest => a :: modifyAt f i rest

/-- The item at a position of a table of optional items. -/
def slotAt {α : Type} (l : List (Option α)) (i : Nat) : Option α :=
  match l[i]? with
  | some (some a) => some a
  | _ => none

/-- Change the item at a position of a table, when there is one. -/
def modifySlot {α : Type} (f : α → α) (i : Nat) (l : List (Option α)) : List (Option α) :=
  modifyAt (Option.map f) i l

/-- Fill or free a position of a table. -/
def putSlot {α : Type} (a : Option α) (i : Nat) (l : List (Option α)) : List (Option α) :=
  modifyAt (fun _ => a) i l

/-- The lowest position that is free. -/
def freeSlot {α : Type} : List (Option α) → Option Nat
  | [] => none
  | none :: _ => some 0
  | some _ :: rest => (freeSlot rest).map (· + 1)

/-- The filled positions with their items, in position order. -/
def filledFrom {α : Type} : Nat → List (Option α) → List (Nat × α)
  | _, [] => []
  | i, none :: rest => filledFrom (i + 1) rest
  | i, some a :: rest => (i, a) :: filledFrom (i + 1) rest

def filled {α : Type} (l : List (Option α)) : List (Nat × α) := filledFrom 0 l

/-- The last item of a list. -/
def lastOf {α : Type} : List α → Option α
  | [] => none
  | [a] => some a
  | _ :: rest => lastOf rest

/-- The largest of a list of numbers. -/
def maxOf : List Nat → Option Nat
  | [] => none
  | n :: rest => match maxOf rest with
    | none => some n
    | some m => some (max n m)

/-- The smallest of a list of numbers. -/
def minOf : List Nat → Option Nat
  | [] => none
  | n :: rest => match minOf rest with
    | none => some n
    | some m => some (min n m)

/-- The larger and the smaller of two optional numbers. -/
def maxOpt (a : Option Nat) (n : Nat) : Option Nat := some (match a with | none => n | some m => max m n)
def minOpt (a : Option Nat) (n : Nat) : Option Nat := some (match a with | none => n | some m => min m n)

/-- Insert into an ascending list of distinct numbers. -/
def insertAsc (n : Nat) : List Nat → List Nat
  | [] => [n]
  | m :: rest => if n < m then n :: m :: rest else if n = m then m :: rest else m :: insertAsc n rest

/-- Sort by a key, ascending and stable. -/
def insertBy {α : Type} (key : α → Nat) (a : α) : List α → List α
  | [] => [a]
  | b :: rest => if key a ≤ key b then a :: b :: rest else b :: insertBy key a rest

def sortBy {α : Type} (key : α → Nat) : List α → List α
  | [] => []
  | a :: rest => insertBy key a (sortBy key rest)

/-- The sum of a list. -/
def sumOf : List Nat → Nat
  | [] => 0
  | n :: rest => n + sumOf rest

/-! ## Phases -/

def Phase.all : List Phase := [.l1, .l2, .l3]

/-- 1 L1, 2 L2, 3 L3 (R197). -/
def Phase.code : Phase → Nat
  | .l1 => 1
  | .l2 => 2
  | .l3 => 3

def Phase.ofCode : Nat → Option Phase
  | 1 => some .l1
  | 2 => some .l2
  | 3 => some .l3
  | _ => none

def Tri.get {α : Type} (t : Tri α) : Phase → α
  | .l1 => t.l1
  | .l2 => t.l2
  | .l3 => t.l3

def Tri.set {α : Type} (t : Tri α) (a : α) : Phase → Tri α
  | .l1 => { t with l1 := a }
  | .l2 => { t with l2 := a }
  | .l3 => { t with l3 := a }

def Tri.mapP {α β : Type} (f : Phase → α → β) (t : Tri α) : Tri β :=
  ⟨f .l1 t.l1, f .l2 t.l2, f .l3 t.l3⟩

/-- The phase values of a value set's four. -/
def Quad.phase {α : Type} (q : Quad α) : Phase → α
  | .l1 => q.l1
  | .l2 => q.l2
  | .l3 => q.l3

def Quad.map {α β : Type} (f : α → β) (q : Quad α) : Quad β := ⟨f q.l1, f q.l2, f q.l3, f q.ne⟩

def Quad.zip {α β γ : Type} (f : α → β → γ) (p : Quad α) (q : Quad β) : Quad γ :=
  ⟨f p.l1 q.l1, f p.l2 q.l2, f p.l3 q.l3, f p.ne q.ne⟩

def PhaseSet.none : PhaseSet := ⟨false, false, false⟩

def PhaseSet.has (s : PhaseSet) : Phase → Bool
  | .l1 => s.l1
  | .l2 => s.l2
  | .l3 => s.l3

def PhaseSet.add (s : PhaseSet) : Phase → PhaseSet
  | .l1 => { s with l1 := true }
  | .l2 => { s with l2 := true }
  | .l3 => { s with l3 := true }

def PhaseSet.single (p : Phase) : PhaseSet := PhaseSet.none.add p

def PhaseSet.of (f : Phase → Bool) : PhaseSet := ⟨f .l1, f .l2, f .l3⟩

def PhaseSet.union (s t : PhaseSet) : PhaseSet := PhaseSet.of fun p => s.has p || t.has p
def PhaseSet.inter (s t : PhaseSet) : PhaseSet := PhaseSet.of fun p => s.has p && t.has p
def PhaseSet.isEmpty (s : PhaseSet) : Bool := !(s.l1 || s.l2 || s.l3)
def PhaseSet.meets (s t : PhaseSet) : Bool := !(s.inter t).isEmpty
def PhaseSet.list (s : PhaseSet) : List Phase := Phase.all.filter s.has
def PhaseSet.allOf (s : PhaseSet) (f : Phase → Bool) : Bool := s.list.all f

/-- The phases fitted (R9). -/
def fittedSet (three : Bool) : PhaseSet := ⟨true, three, three⟩

/-! ## Kinds of disturbance -/

/-- 1 DIP, 2 SWELL, 3 INTERRUPTION, 4 RVC (R197). -/
def Kind.code : Kind → Nat
  | .dip => 1
  | .swell => 2
  | .interruption => 3
  | .rvc => 4

def Kind.ofCode : Nat → Option Kind
  | 1 => some .dip
  | 2 => some .swell
  | 3 => some .interruption
  | 4 => some .rvc
  | _ => none

/-- The count of one kind. -/
def PerKind.get (c : PerKind) : Kind → Nat
  | .dip => c.dip
  | .swell => c.swell
  | .interruption => c.interruption
  | .rvc => c.rvc

def PerKind.add (c : PerKind) : Kind → PerKind
  | .dip => { c with dip := count32 c.dip }
  | .swell => { c with swell := count32 c.swell }
  | .interruption => { c with interruption := count32 c.interruption }
  | .rvc => { c with rvc := count32 c.rvc }

/-! ## Causes -/

/-- The bit of a cause (R197). -/
def Cause.index : Cause → Nat
  | .restarted => 0
  | .exportReady => 1
  | .disturbance => 2
  | .caseCause => 3
  | .store => 4
  | .loss => 5
  | .clock => 6
  | .link => 7

/-- The set of one cause. -/
def Cause.bit (c : Cause) : CauseSet := BitVec.ofNat 8 (2 ^ c.index)

/-! ## Times -/

/-- A time stamp's time in milliseconds, without its epoch. -/
def TimeStamp.toMs (t : TimeStamp) : Nat := t.sec * 1000 + t.ms

def WTime.toMs (t : WTime) : Nat := t.sec * 1000 + t.ms

/-- A time in whole seconds, rounded up. -/
def TimeStamp.secUp (t : TimeStamp) : Nat := if t.ms = 0 then t.sec else t.sec + 1

def TimeStamp.time (t : TimeStamp) : WTime := ⟨t.sec, t.ms⟩

/-! ## Frequencies -/

def Freq.hertz : Freq → Nat
  | .hz50 => 50
  | .hz60 => 60

/-- Cycles in a window and half-cycle value sets in a second (section 1.1). -/
def Freq.cyclesPerWindow : Freq → Nat
  | .hz50 => 10
  | .hz60 => 12

def Freq.halfCyclesPerSecond : Freq → Nat
  | .hz50 => 100
  | .hz60 => 120

/-- Sample sets in a second: 128 for each nominal cycle (R1). -/
def Freq.sampleRate : Freq → Nat
  | .hz50 => 6400
  | .hz60 => 7680

/-- Sample sets in a window (R6). -/
def Freq.samplesPerWindow : Freq → Nat
  | .hz50 => 1280
  | .hz60 => 1536

/-! ## Blocks of the log -/

/-- The array address of a page. -/
def pageAddress (block page : Nat) : Nat := block * Config.pagesPerBlock + page

/-- The entry of a log block in the block index table. -/
def indexOf (block : Nat) : Nat := block - Config.firstLogBlock

/-- The blocks 2 to 255. -/
def logBlocks : List Nat := (List.range Config.logBlockCount).map (· + Config.firstLogBlock)

end Sys2Proof.Machine
end

