-- ==== Sys2Proof/Machine/Flags.lean ====
section
/-!
DEFINITION. The judgements of the manual as pure functions: RMS and frequency arithmetic (chapter 1), threshold
levels (R26), durations and deviations (chapter 2), urgency and store state (chapter 6), overlaps and bins
(chapter 7). Comparisons are exact; where a rounding is left open the free value of Config is used.
-/

namespace Sys2Proof.Machine

/-! ## Measured quantities (chapter 1) -/

/-- The square of a sample; a clipped sample enters at its clipped code (R8). -/
def squareOf (c : SampleCode) : Nat := c.toInt.natAbs * c.toInt.natAbs

/-- A sample is clipped when its code is +32767, −32767 or −32768 (R8). -/
def isClipped (c : SampleCode) : Bool := c == 0x7FFF#16 || c == 0x8001#16 || c == 0x8000#16

/-- The largest number below `2^k` above `acc` that a downward-closed test accepts, found bit by bit. -/
def largestBits : (k : Nat) → (ok : Nat → Bool) → (acc : Nat) → Nat
  | 0, _, acc => acc
  | k + 1, ok, acc => largestBits k ok (if ok (acc + 2 ^ k) then acc + 2 ^ k else acc)

/-- RMS in 0.01 V of samples with a given sum of squares and count, rounded to the nearest unit (R3, R6): 600 V
are 60 000 units and code 32 767. The largest `r` with `r − 1/2` at or below the exact value. -/
def rmsOf (squares count : Nat) : Nat :=
  largestBits 17
    (fun r => decide ((2 * r - 1) * (2 * r - 1) * (count * (32767 * 32767)) ≤ 4 * (squares * (60000 * 60000)))) 0

/-- A sample at or below minus the arming level, 10 % of the peak of Udecl (R10). -/
def arms (udecl : Nat) (c : SampleCode) : Bool :=
  decide (c.toInt < 0 ∧ 2 * (udecl * udecl) * (32767 * 32767) ≤ squareOf c * (600000 * 600000))

/-- A quotient rounded to the nearest whole number; an exact half as the part chooses (log 5). -/
def roundTie (num den : Nat) : Nat :=
  let rest := num % den
  if 2 * rest < den then num / den
  else if 2 * rest = den then (if Config.tieUp num den then num / den + 1 else num / den)
  else num / den + 1

/-- A quotient whose rounding is left open: whole part, raised by one as the part chooses when the rest is at
least one half (log 6). -/
def roundRest (num den : Nat) : Nat :=
  if 2 * (num % den) < den then num / den
  else if Config.restUp num den then num / den + 1 else num / den

/-- The zero between an earlier sample at or below zero and a later one above it, as an instant on the sample
clock; the later sample is the `n`th of its period (R10). -/
def crossingInstant (n : Nat) (earlier later : Int) : Instant :=
  let span := (later - earlier).natAbs
  ⟨(n - 1) * span + earlier.natAbs, span⟩

/-- The span between two instants, in sample intervals, as a fraction. -/
def spanOf (first last : Instant) : Nat × Nat :=
  (last.num * first.den - first.num * last.den, last.den * first.den)

/-- The frequency in mHz of a tally (R11), or the first failing reason. -/
def frequencyOf (rate : Nat) (t : Tally) : InvalidReason ⊕ Nat :=
  match t.first, t.last with
  | some f, some l =>
    let (num, den) := spanOf f l
    if t.count < 2 ∨ num < 5 * rate * den ∨ num = 0 then .inl .shortSpan
    else
      let mhz := roundTie ((t.count - 1) * 1000 * rate * den) num
      if 40000 ≤ mhz ∧ mhz ≤ 70000 then .inr mhz else .inl .outOfRange
  | _, _ => .inl .shortSpan

/-! ## Threshold levels (R26) -/

/-- `v` (0.01 V) is below `p` (0.01 %) of `u` (0.01 V). -/
def below (v p u : Nat) : Bool := decide (v * 10000 < p * u)

/-- `v` is above `p` of `u`. -/
def above (v p u : Nat) : Bool := decide (p * u < v * 10000)

/-- A value crosses the threshold of its kind. An RVC entry has no threshold of this sort. -/
def crosses (g : GenValues) : Kind → Nat → Bool
  | .dip, v => below v g.dip g.udecl
  | .swell, v => above v g.swell g.udecl
  | .interruption, v => below v g.interruption g.udecl
  | .rvc, _ => false

/-- A value has recovered from the threshold of its kind. -/
def recovers (g : GenValues) : Kind → Nat → Bool
  | .dip, v => !below v (g.dip + g.hysteresis) g.udecl
  | .swell, v => !above v (g.swell - g.hysteresis) g.udecl
  | .interruption, v => !below v (g.interruption + g.hysteresis) g.udecl
  | .rvc, _ => false

/-- The generation values of a settings set (R19). -/
def Settings.genValues (s : Settings) : GenValues where
  udecl := s.udecl
  dip := s.dip
  swell := s.swell
  interruption := s.interruption
  hysteresis := s.hysteresis
  rvc := s.rvc
  freq := s.freq
  mode := s.mode
  threePhases := s.threePhases

/-- The more extreme of two values in the sense of a kind; an equal value does not displace (R22). -/
def moreExtreme (k : Kind) (new old : Nat) : Bool :=
  match k with
  | .dip | .interruption => decide (new < old)
  | .swell | .rvc => decide (old < new)

/-! ## Durations (R23) -/

/-- A count of half-cycles in milliseconds, rounded to the nearest: 10 ms each at 50 Hz, 25/3 ms at 60 Hz. -/
def countDuration (f : Freq) (count : Nat) : Nat :=
  match f with
  | .hz50 => 10 * count
  | .hz60 => (50 * count + 3) / 6

/-- The duration by clock: end less start on time alone, replaced by the count-based duration when smaller. -/
def clockDuration (f : Freq) (count : Nat) (start finish : TimeStamp) : Nat :=
  max (finish.toMs - start.toMs) (countDuration f count)

/-! ## Rapid voltage change (section 2.6) -/

/-- The values a full buffer holds: one second of half-cycles. -/
def bufferSize (f : Freq) : Nat := f.halfCyclesPerSecond

/-- The magnitude of the difference of a value from a mean `sum / n`, times `n`. -/
def deviationTimes (sum n v : Nat) : Nat := (n * v - sum) + (sum - n * v)

/-- A value departs from the reference mean: it differs by more than the step limit (R32). -/
def departs (g : GenValues) (sum n v : Nat) : Bool :=
  decide (g.rvc * g.udecl * n < deviationTimes sum n v * 10000)

/-- A value lies within the steady limit of the mean (R31). -/
def withinSteady (g : GenValues) (sum n v : Nat) : Bool :=
  decide (deviationTimes sum n v * 20000 ≤ g.rvc * g.udecl * n)

/-- A buffer is a steady run: full, every value within the steady limit of the buffer's mean (R31). -/
def steadyRun (g : GenValues) (f : Freq) (values : List Nat) : Bool :=
  decide (values.length = bufferSize f)
    && values.all (withinSteady g (sumOf values) (bufferSize f))

/-- The deviation of `aNum / aDen` from `bNum / bDen`, as a magnitude with its direction. A deviation of exactly
zero has the direction the part chooses (log 8). -/
def deviation (aNum aDen bNum bDen : Nat) : Extreme :=
  let x := aNum * bDen
  let y := bNum * aDen
  if y < x then ⟨x - y, aDen * bDen, true⟩
  else if x < y then ⟨y - x, aDen * bDen, false⟩
  else ⟨0, aDen * bDen, Config.zeroDeviationUp aNum aDen bNum bDen⟩

/-- One fraction is larger than another. -/
def fracLt (a b : Extreme) : Bool := decide (a.num * b.den < b.num * a.den)

/-- A value in 0.01 V and in 0.01 % of Udecl (R24). -/
def measuredOfExtreme (udecl : Nat) (e : Extreme) : Measured where
  volts := roundRest e.num e.den
  percent := roundRest (e.num * 10000) (e.den * udecl)
  up := e.up

end Sys2Proof.Machine
end

