-- ==== Sys2Proof/Machine/Operands.lean ====
section
/-!
DEFINITION. The encodings of chapter 11: fields, settings pairs, records, pages and frames, as bytes and back.
-/

namespace Sys2Proof.Machine

/-! ## Fields (R197) -/

/-- A number in `w` bytes, little-endian, modulo 256^w. -/
def leBytes : (w n : Nat) → List Byte
  | 0, _ => []
  | w + 1, n => byte n :: leBytes w (n / 256)

/-- An integer field of `w` bytes (R197). A number that does not fit is sent as the part chooses (log 4). -/
def field (w n : Nat) : List Byte := leBytes w (if n < 256 ^ w then n else Config.fieldPast w n)

/-- The number that little-endian bytes carry. -/
def leNat : List Byte → Nat
  | [] => 0
  | b :: rest => b.toNat + 256 * leNat rest

/-- The `w` bytes at an offset, as a number; bytes past the end count 0. -/
def fieldAt (bytes : List Byte) (offset w : Nat) : Nat := leNat ((bytes.drop offset).take w)

/-- Reserved bytes, written as 0. -/
def reserved (n : Nat) : List Byte := List.replicate n 0

def bit (b : Bool) (i : Nat) : Nat := if b then 2 ^ i else 0

/-- A one-byte set of flags, bit 0 first. -/
def bitsFrom : Nat → List Bool → Nat
  | _, [] => 0
  | i, b :: rest => bit b i + bitsFrom (i + 1) rest

def bits (l : List Bool) : Nat := bitsFrom 0 l

/-- A time stamp: bit 14 of the milliseconds field marks an unsettled epoch (R197). -/
def stampBytes (t : TimeStamp) : List Byte :=
  match t.epoch with
  | .settled n => field 4 t.sec ++ field 2 t.ms ++ field 2 n
  | .unsettled k => field 4 t.sec ++ field 2 (t.ms + 2 ^ 14) ++ field 2 k

/-- An absent time stamp where no presence bit covers it: bit 15 alone (R197). -/
def absentStamp : List Byte := field 4 0 ++ field 2 (2 ^ 15) ++ field 2 0

def stampAt (bytes : List Byte) (offset : Nat) : TimeStamp :=
  let m := fieldAt bytes (offset + 4) 2
  let e := fieldAt bytes (offset + 6) 2
  { sec := fieldAt bytes offset 4, ms := m % 1024
    epoch := if m.testBit 14 then .unsettled e else .settled e }

def wtimeBytes (t : WTime) : List Byte := field 4 t.sec ++ field 2 t.ms

/-- A window time as received; its milliseconds field is judged by the serving block (R199). -/
def wtimeAt (bytes : List Byte) (offset : Nat) : WTime := ⟨fieldAt bytes offset 4, fieldAt bytes (offset + 4) 2⟩

def phaseSetBits (s : PhaseSet) : Nat := bits [s.l1, s.l2, s.l3]

def phaseSetOf (n : Nat) : PhaseSet := ⟨n.testBit 0, n.testBit 1, n.testBit 2⟩

def clippedBits (q : Quad Bool) : Nat := bits [q.l1, q.l2, q.l3, q.ne]

def phaseCode : Option Phase → Nat
  | none => 0
  | some p => p.code

/-! ## Settings (R189, section 11.4) -/

def SettingId.all : List SettingId :=
  [.nominalFrequency, .declaredVoltage, .phasesFitted, .aggregationMode, .dipThreshold, .swellThreshold,
   .interruptionThreshold, .hysteresis, .rvcThreshold, .rvcCapture, .capturePreCycles, .capturePostCycles,
   .intervalLength, .toleranceBand, .exportThreshold, .replyBurst, .attentionMask, .attentionMode, .linkRate]

/-- The identifier codes 0x01 to 0x13, in the order of R189. -/
def SettingId.code : SettingId → Nat
  | .nominalFrequency => 0x01
  | .declaredVoltage => 0x02
  | .phasesFitted => 0x03
  | .aggregationMode => 0x04
  | .dipThreshold => 0x05
  | .swellThreshold => 0x06
  | .interruptionThreshold => 0x07
  | .hysteresis => 0x08
  | .rvcThreshold => 0x09
  | .rvcCapture => 0x0A
  | .capturePreCycles => 0x0B
  | .capturePostCycles => 0x0C
  | .intervalLength => 0x0D
  | .toleranceBand => 0x0E
  | .exportThreshold => 0x0F
  | .replyBurst => 0x10
  | .attentionMask => 0x11
  | .attentionMode => 0x12
  | .linkRate => 0x13

def SettingId.ofCode (n : Nat) : Option SettingId := SettingId.all.find? fun i => i.code == n

/-- The value of an identifier as it travels (section 11.4). -/
def Settings.get (s : Settings) : SettingId → Nat
  | .nominalFrequency => s.freq.hertz
  | .declaredVoltage => s.udecl
  | .phasesFitted => if s.threePhases then 3 else 1
  | .aggregationMode => match s.mode with | .polyphase => 0 | .perPhase => 1
  | .dipThreshold => s.dip
  | .swellThreshold => s.swell
  | .interruptionThreshold => s.interruption
  | .hysteresis => s.hysteresis
  | .rvcThreshold => s.rvc
  | .rvcCapture => if s.rvcCapture then 1 else 0
  | .capturePreCycles => s.preCycles
  | .capturePostCycles => s.postCycles
  | .intervalLength => s.intervalLength
  | .toleranceBand => s.tolerance
  | .exportThreshold => s.exportThreshold
  | .replyBurst => s.replyBurst
  | .attentionMask => s.attentionMask.toNat
  | .attentionMode => match s.attentionMode with | .level => 0 | .pulse => 1
  | .linkRate => s.linkRate

/-- The value lies in the identifier's range (R189). -/
def SettingId.inRange (i : SettingId) (v : Nat) : Bool :=
  match i with
  | .nominalFrequency => v == 50 || v == 60
  | .declaredVoltage => decide (5000 ≤ v ∧ v ≤ 30000)
  | .phasesFitted => v == 1 || v == 3
  | .aggregationMode => decide (v ≤ 1)
  | .dipThreshold => decide (7000 ≤ v ∧ v ≤ 9500)
  | .swellThreshold => decide (10500 ≤ v ∧ v ≤ 13000)
  | .interruptionThreshold => decide (100 ≤ v ∧ v ≤ 1000)
  | .hysteresis => decide (100 ≤ v ∧ v ≤ 500)
  | .rvcThreshold => decide (200 ≤ v ∧ v ≤ 800)
  | .rvcCapture => decide (v ≤ 1)
  | .capturePreCycles => decide (2 ≤ v ∧ v ≤ 8)
  | .capturePostCycles => decide (4 ≤ v ∧ v ≤ 28)
  | .intervalLength => decide (60 ≤ v ∧ v ≤ 3600) && 3600 % v == 0
  | .toleranceBand => decide (500 ≤ v ∧ v ≤ 1500)
  | .exportThreshold => decide (1 ≤ v ∧ v ≤ 255)
  | .replyBurst => decide (1 ≤ v ∧ v ≤ 8)
  | .attentionMask => decide (v ≤ 255)
  | .attentionMode => decide (v ≤ 1)
  | .linkRate => v == 19200 || v == 57600 || v == 115200 || v == 460800

/-- The set with one value replaced; meant for a value in range. -/
def Settings.put (s : Settings) (i : SettingId) (v : Nat) : Settings :=
  match i with
  | .nominalFrequency => { s with freq := if v = 50 then .hz50 else .hz60 }
  | .declaredVoltage => { s with udecl := v }
  | .phasesFitted => { s with threePhases := v == 3 }
  | .aggregationMode => { s with mode := if v = 0 then .polyphase else .perPhase }
  | .dipThreshold => { s with dip := v }
  | .swellThreshold => { s with swell := v }
  | .interruptionThreshold => { s with interruption := v }
  | .hysteresis => { s with hysteresis := v }
  | .rvcThreshold => { s with rvc := v }
  | .rvcCapture => { s with rvcCapture := v == 1 }
  | .capturePreCycles => { s with preCycles := v }
  | .capturePostCycles => { s with postCycles := v }
  | .intervalLength => { s with intervalLength := v }
  | .toleranceBand => { s with tolerance := v }
  | .exportThreshold => { s with exportThreshold := v }
  | .replyBurst => { s with replyBurst := v }
  | .attentionMask => { s with attentionMask := BitVec.ofNat 8 v }
  | .attentionMode => { s with attentionMode := if v = 0 then .level else .pulse }
  | .linkRate => { s with linkRate := v }

/-- The identifiers whose values differ, in the order of R189 (R194). -/
def changedIds (old new : Settings) : List SettingId :=
  SettingId.all.filter fun i => old.get i != new.get i

/-- The 19 values as settings pairs in code order (GET_SETTINGS, section 11.4). -/
def settingsPairs (s : Settings) : List Byte :=
  SettingId.all.flatMap fun i => field 1 i.code ++ field 4 (s.get i)

/-- The pairs of a SET_SETTINGS body: identifier code and value. -/
def pairsOf : (fuel : Nat) → List Byte → List (Nat × Nat)
  | 0, _ => []
  | _ + 1, [] => []
  | n + 1, bytes => (fieldAt bytes 0 1, fieldAt bytes 1 4) :: pairsOf n (bytes.drop 5)

/-! ## Records (section 11.3) -/

/-- Reserved bytes up to a multiple of 4. -/
def padTo4 (bytes : List Byte) : List Byte := bytes ++ reserved ((4 - bytes.length % 4) % 4)

/-- The header with the record's length, then its body. -/
def withHeader (kind seq : Nat) (stamp : TimeStamp) (body : List Byte) : List Byte :=
  field 1 kind ++ field 1 1 ++ field 2 (16 + body.length) ++ field 4 seq ++ stampBytes stamp ++ body

/-- A number for an absent or present field's presence bit. -/
def measuredBytes (m : Measured) : List Byte := field 2 m.volts ++ field 2 m.percent

def perPhaseItem (r : Tri (Option Measured)) (p : Phase) : List Byte :=
  match r.get p with
  | none => field 1 p.code ++ reserved 7
  | some m => field 1 p.code ++ field 1 (bits [true, m.up]) ++ measuredBytes m ++ reserved 2

def noCaptureCode : Option NoCapture → Nat
  | none => 0
  | some .slot => 1
  | some .store => 2
  | some .supply => 3

def noCaptureOf : Nat → Option NoCapture
  | 1 => some .slot
  | 2 => some .store
  | 3 => some .supply
  | _ => none

def flagsWord (f : Flags) : Nat :=
  bits [f.clipped, f.noCapture.isSome, f.captureTruncated, f.precededByRvc, f.acrossSupplyLoss,
    f.measurementGap, f.timeStepped, f.closedBySettings, f.endUnknown, f.nestedOverflow]

def flagsOf (w reason : Nat) : Flags where
  clipped := w.testBit 0
  noCapture := if w.testBit 1 then noCaptureOf reason else none
  captureTruncated := w.testBit 2
  precededByRvc := w.testBit 3
  acrossSupplyLoss := w.testBit 4
  measurementGap := w.testBit 5
  timeStepped := w.testBit 6
  closedBySettings := w.testBit 7
  endUnknown := w.testBit 8
  nestedOverflow := w.testBit 9

/-- The direction bit of an optional value. -/
def upBit : Option Measured → Nat
  | some m => bit m.up 0
  | none => 0

def optBytes {α : Type} (f : α → List Byte) : Option α → List Byte
  | none => []
  | some a => f a

def continuationBytes (c : Continuation) : List Byte :=
  field 1 c.segment ++ field 1 c.block ++ field 1 c.page ++ reserved 1

/-- The body of a DISTURBANCE record (section 11.3). -/
def disturbanceBody (r : DisturbanceRecord) : List Byte :=
  field 1 r.kind.code ++ field 1 (phaseSetBits r.phases)
    ++ field 1 (bits [r.finish.isSome, r.duration.isSome, r.extreme.isSome, r.steady.isSome,
        r.enclosing.isSome, r.trigger.isSome, r.continuation.isSome])
    ++ field 1 (noCaptureCode r.flags.noCapture) ++ field 2 (flagsWord r.flags)
    ++ field 1 r.phases.list.length ++ field 1 r.nested.length ++ field 1 r.pageCount
    ++ field 1 r.triggerSegment ++ field 1 r.firstPage.1 ++ field 1 r.firstPage.2
    ++ field 1 (phaseCode r.extremePhase) ++ field 1 (upBit r.extreme) ++ field 1 (upBit r.steady)
    ++ reserved 1 ++ field 4 r.generation ++ field 4 r.halfCycles
    ++ r.phases.list.flatMap (perPhaseItem r.perPhase)
    ++ optBytes stampBytes r.finish ++ optBytes (field 4) r.duration
    ++ optBytes measuredBytes r.extreme ++ optBytes measuredBytes r.steady
    ++ optBytes stampBytes r.enclosing ++ optBytes stampBytes r.trigger
    ++ optBytes continuationBytes r.continuation ++ r.nested.flatMap (field 4)

def truncationBits (t : Truncation) : Nat := bits [t.timeStep, t.start, t.holdup, t.lengthChange]

def truncationOf (n : Nat) : Truncation where
  timeStep := n.testBit 0
  start := n.testBit 1
  holdup := n.testBit 2
  lengthChange := n.testBit 3

def optNum : Option Nat → Nat
  | none => 0
  | some n => n

/-- The eight bytes of one phase; all 0 outside the fitted set. -/
def figuresBytes (fitted : PhaseSet) (t : Tri PhaseFigures) (p : Phase) : List Byte :=
  if fitted.has p then
    field 2 (optNum (t.get p).mean) ++ field 2 (t.get p).lowest ++ field 2 (t.get p).highest
      ++ field 2 (t.get p).outside
  else reserved 8

def perKindBytes (c : PerKind) : List Byte := field 4 c.dip ++ field 4 c.swell ++ field 4 c.interruption ++ field 4 c.rvc

def perKindAt (b : List Byte) (o : Nat) : PerKind :=
  ⟨fieldAt b o 4, fieldAt b (o + 4) 4, fieldAt b (o + 8) 4, fieldAt b (o + 12) 4⟩

def frequencyBytes : Option (Nat × Nat × Nat) → List Byte
  | none => reserved 12
  | some (m, l, h) => field 4 m ++ field 4 l ++ field 4 h

/-- The body of an INTERVAL record (section 11.3), 112 bytes. -/
def intervalBody (r : IntervalRecord) : List Byte :=
  let mean p := r.fitted.has p && (r.phases.get p).mean.isSome
  field 1 (bits [r.boundary.isSome, mean .l1, mean .l2, mean .l3, r.neMean.isSome, r.frequency.isSome])
    ++ field 1 (phaseSetBits r.fitted) ++ field 1 (truncationBits r.causes) ++ field 1 (clippedBits r.clipped)
    ++ field 2 r.tolerance ++ field 2 r.udecl ++ field 2 r.length ++ reserved 2 ++ field 4 r.generation
    ++ stampBytes r.start ++ field 4 (optNum r.boundary) ++ field 2 r.counted ++ field 2 r.flagged
    ++ figuresBytes r.fitted r.phases .l1 ++ figuresBytes r.fitted r.phases .l2
    ++ figuresBytes r.fitted r.phases .l3 ++ field 2 (optNum r.neMean) ++ field 2 r.neHighest
    ++ frequencyBytes r.frequency ++ field 2 r.validCount ++ field 2 r.invalidCount
    ++ perKindBytes r.missed ++ reserved 20

/-- 1 COLD, 2 RESUME, 3 RESET_LINE, 4 RESTART_REQUEST (section 11.3). -/
def StartCause.code : StartCause → Nat
  | .cold => 1
  | .resume => 2
  | .resetLine => 3
  | .restartRequest => 4

def RetireReason.code : RetireReason → Nat
  | .programTimeout => 1
  | .eraseTimeout => 2
  | .weak => 3

def lossItemBytes (i : LossItem) : List Byte :=
  field 1 i.kind.code ++ field 1 (phaseSetBits i.phases) ++ reserved 2 ++ stampBytes i.start

def lossCountersBytes (c : LossCounters) : List Byte :=
  field 4 c.disturbance ++ field 4 c.interval ++ field 4 c.marker ++ field 4 c.unexportedReclaimed

/-- Subkind code and the body after it (section 11.3), before padding. -/
def markerFields : MarkerBody → List Byte
  | .restart c t => field 1 1 ++ field 1 c.code ++ reserved 2 ++ stampBytes t
  | .supplyLoss items => field 1 2 ++ field 1 items.length ++ reserved 2 ++ items.flatMap lossItemBytes
  | .supplyReturn d => field 1 3 ++ field 1 (bit d.isSome 0) ++ reserved 2 ++ field 4 (optNum d)
  | .timeSet old new => field 1 4 ++ reserved 3 ++ stampBytes old ++ stampBytes new
  | .settingsApplied g ids =>
      field 1 5 ++ field 1 ids.length ++ reserved 2 ++ field 4 g ++ ids.flatMap fun i => field 1 i.code
  | .caseOpened slot no a b phases =>
      field 1 6 ++ field 1 slot ++ field 2 no ++ wtimeBytes a
        ++ (match b with | none => reserved 6 | some t => wtimeBytes t)
        ++ field 1 (bit b.isSome 0) ++ field 1 (phaseSetBits phases)
  | .caseClosed slot no b => field 1 7 ++ field 1 slot ++ field 2 no ++ wtimeBytes b
  | .caseReleased slot no => field 1 8 ++ field 1 slot ++ field 2 no
  | .loss lost missed => field 1 9 ++ reserved 3 ++ lossCountersBytes lost ++ perKindBytes missed
  | .format identity floor => field 1 10 ++ reserved 3 ++ field 4 identity ++ field 4 floor
  | .blockRetired b why => field 1 11 ++ field 1 b ++ field 1 why.code

/-- The padded body of a MARKER record: a multiple of 4 and at least 8 bytes. -/
def markerBody (m : MarkerBody) : List Byte :=
  let b := padTo4 (markerFields m)
  b ++ reserved (8 - b.length)

/-- A record as stored. -/
def Record.bytes : Record → List Byte
  | .disturbance r => withHeader 1 r.seq r.start (disturbanceBody r)
  | .interval r => withHeader 2 r.seq r.stamp (intervalBody r)
  | .marker r => withHeader 3 r.seq r.stamp (markerBody r.body)

def Record.seq : Record → Nat
  | .disturbance r => r.seq
  | .interval r => r.seq
  | .marker r => r.seq

/-! ## Reading records back -/

/-- The optional fields of a DISTURBANCE record, read in presence-bit order: the rest of the bytes with
the field, when its bit is set. -/
def takeField {α : Type} (present : Bool) (w : Nat) (read : List Byte → α) (b : List Byte) : Option α × List Byte :=
  if present then (some (read b), b.drop w) else (none, b)

def numsOf : (n : Nat) → List Byte → List Nat
  | 0, _ => []
  | n + 1, b => fieldAt b 0 4 :: numsOf n (b.drop 4)

def perPhaseOf : (n : Nat) → List Byte → Tri (Option Measured) → Tri (Option Measured)
  | 0, _, t => t
  | n + 1, b, t =>
    let f := fieldAt b 1 1
    let m := if f.testBit 0 then some { volts := fieldAt b 2 2, percent := fieldAt b 4 2, up := f.testBit 1 : Measured }
      else none
    let t' := match Phase.ofCode (fieldAt b 0 1) with
      | none => t
      | some p => t.set m p
    perPhaseOf n (b.drop 8) t'

def measuredOf (up : Bool) (b : List Byte) : Measured := ⟨fieldAt b 0 2, fieldAt b 2 2, up⟩

/-- A DISTURBANCE record read back (section 11.3). -/
def disturbanceOf (b : List Byte) : Option DisturbanceRecord :=
  match Kind.ofCode (fieldAt b 16 1) with
  | none => none
  | some kind =>
    let mask := fieldAt b 18 1
    let count := fieldAt b 22 1
    let rest := b.drop (40 + 8 * count)
    let (finish, rest) := takeField (mask.testBit 0) 8 (stampAt · 0) rest
    let (duration, rest) := takeField (mask.testBit 1) 4 (fieldAt · 0 4) rest
    let (extreme, rest) := takeField (mask.testBit 2) 4 (measuredOf (fieldAt b 29 1 == 1)) rest
    let (steady, rest) := takeField (mask.testBit 3) 4 (measuredOf (fieldAt b 30 1 == 1)) rest
    let (enclosing, rest) := takeField (mask.testBit 4) 8 (stampAt · 0) rest
    let (trigger, rest) := takeField (mask.testBit 5) 8 (stampAt · 0) rest
    let (continuation, rest) := takeField (mask.testBit 6) 4
      (fun c => (⟨fieldAt c 0 1, fieldAt c 1 1, fieldAt c 2 1⟩ : Continuation)) rest
    some
      { seq := fieldAt b 4 4, kind := kind, phases := phaseSetOf (fieldAt b 17 1), start := stampAt b 8
        finish := finish, halfCycles := fieldAt b 36 4, duration := duration, extreme := extreme
        extremePhase := Phase.ofCode (fieldAt b 28 1)
        perPhase := perPhaseOf count (b.drop 40) (Tri.all none)
        steady := steady, enclosing := enclosing, generation := fieldAt b 32 4
        nested := numsOf (fieldAt b 23 1) rest, flags := flagsOf (fieldAt b 20 2) (fieldAt b 19 1)
        pageCount := fieldAt b 24 1, triggerSegment := fieldAt b 25 1
        firstPage := (fieldAt b 26 1, fieldAt b 27 1), trigger := trigger, continuation := continuation }

def figuresOf (b : List Byte) (offset : Nat) (mean : Bool) : PhaseFigures where
  mean := if mean then some (fieldAt b offset 2) else none
  lowest := fieldAt b (offset + 2) 2
  highest := fieldAt b (offset + 4) 2
  outside := fieldAt b (offset + 6) 2

/-- An INTERVAL record read back (section 11.3). -/
def intervalOf (b : List Byte) : IntervalRecord :=
  let mask := fieldAt b 16 1
  let clipped := fieldAt b 19 1
  { seq := fieldAt b 4 4, stamp := stampAt b 8, start := stampAt b 32
    boundary := if mask.testBit 0 then some (fieldAt b 40 4) else none
    generation := fieldAt b 28 4, length := fieldAt b 24 2, tolerance := fieldAt b 20 2
    udecl := fieldAt b 22 2, fitted := phaseSetOf (fieldAt b 17 1), counted := fieldAt b 44 2
    flagged := fieldAt b 46 2
    phases := ⟨figuresOf b 48 (mask.testBit 1), figuresOf b 56 (mask.testBit 2), figuresOf b 64 (mask.testBit 3)⟩
    neMean := if mask.testBit 4 then some (fieldAt b 72 2) else none
    neHighest := fieldAt b 74 2
    clipped := ⟨clipped.testBit 0, clipped.testBit 1, clipped.testBit 2, clipped.testBit 3⟩
    frequency := if mask.testBit 5 then some (fieldAt b 76 4, fieldAt b 80 4, fieldAt b 84 4) else none
    validCount := fieldAt b 88 2, invalidCount := fieldAt b 90 2, missed := perKindAt b 92
    causes := truncationOf (fieldAt b 18 1) }

def startCauseOf : Nat → Option StartCause
  | 1 => some .cold
  | 2 => some .resume
  | 3 => some .resetLine
  | 4 => some .restartRequest
  | _ => none

def retireReasonOf : Nat → Option RetireReason
  | 1 => some .programTimeout
  | 2 => some .eraseTimeout
  | 3 => some .weak
  | _ => none

def lossItemsOf : (n : Nat) → List Byte → List LossItem
  | 0, _ => []
  | n + 1, b =>
    match Kind.ofCode (fieldAt b 0 1) with
    | none => lossItemsOf n (b.drop 12)
    | some k => ⟨k, phaseSetOf (fieldAt b 1 1), stampAt b 4⟩ :: lossItemsOf n (b.drop 12)

/-- The body of a MARKER record read back (section 11.3). -/
def markerOf (b : List Byte) : Option MarkerBody :=
  match fieldAt b 16 1 with
  | 1 => (startCauseOf (fieldAt b 17 1)).map fun c => .restart c (stampAt b 20)
  | 2 => some (.supplyLoss (lossItemsOf (fieldAt b 17 1) (b.drop 20)))
  | 3 => some (.supplyReturn (if (fieldAt b 17 1).testBit 0 then some (fieldAt b 20 4) else none))
  | 4 => some (.timeSet (stampAt b 20) (stampAt b 28))
  | 5 => some (.settingsApplied (fieldAt b 20 4)
      (((b.drop 24).take (fieldAt b 17 1)).filterMap fun c => SettingId.ofCode c.toNat))
  | 6 => some (.caseOpened (fieldAt b 17 1) (fieldAt b 18 2) (wtimeAt b 20)
      (if (fieldAt b 32 1).testBit 0 then some (wtimeAt b 26) else none) (phaseSetOf (fieldAt b 33 1)))
  | 7 => some (.caseClosed (fieldAt b 17 1) (fieldAt b 18 2) (wtimeAt b 20))
  | 8 => some (.caseReleased (fieldAt b 17 1) (fieldAt b 18 2))
  | 9 => some (.loss ⟨fieldAt b 20 4, fieldAt b 24 4, fieldAt b 28 4, fieldAt b 32 4⟩ (perKindAt b 36))
  | 10 => some (.format (fieldAt b 20 4) (fieldAt b 24 4))
  | 11 => (retireReasonOf (fieldAt b 18 1)).map fun r => .blockRetired (fieldAt b 17 1) r
  | _ => none

/-- A stored record read back; absent when its contents are none of section 11.3 (log 23). -/
def recordOf (b : List Byte) : Option Record :=
  match fieldAt b 0 1 with
  | 1 => (disturbanceOf b).map .disturbance
  | 2 => some (.interval (intervalOf b))
  | 3 => (markerOf b).map fun m => .marker ⟨fieldAt b 4 4, stampAt b 8, m⟩
  | _ => none

/-- The walk of R198 over a RECORDS body: `count` records from sequence number `seq` on, each as its bytes;
absent when the page is to be treated as unreadable. `room` is the number of bytes left. -/
def walkRecords : (count seq room : Nat) → List Byte → Option (List (Nat × List Byte))
  | 0, _, _, _ => some []
  | n + 1, seq, room, b =>
    let len := fieldAt b 2 2
    let kind := fieldAt b 0 1
    if len < 24 ∨ len % 4 ≠ 0 ∨ room < len ∨ kind < 1 ∨ 3 < kind ∨ fieldAt b 1 1 ≠ 1 ∨ fieldAt b 4 4 ≠ seq
    then none
    else (walkRecords n (seq + 1) (room - len) (b.drop len)).map ((seq, b.take len) :: ·)

/-- The records of a RECORDS page with its header's count and first number, each as its bytes (R198). -/
def recordsOnPage (count first : Nat) (body : List Byte) : Option (List (Nat × List Byte)) :=
  walkRecords count first Config.bodyBytes body

/-! ## Pages (section 11.2) -/

/-- A body of 512 bytes: what is written, then blank bytes (R197). -/
def bodyOf (bytes : List Byte) : List Byte := bytes ++ List.replicate (Config.bodyBytes - bytes.length) 0xFF

/-- The RECORDS page of records of one job (R79), its span given. -/
def recordsPage (records : List Record) (first earliest latest : Nat) : PageData :=
  .records records.length first earliest latest (bodyOf (records.flatMap Record.bytes))

def sampleBytes (s : SampleSet) : List Byte :=
  field 2 s.l1.toNat ++ field 2 s.l2.toNat ++ field 2 s.l3.toNat ++ field 2 s.ne.toNat

/-- The 16-byte header of a CAPTURE page, then its body (section 11.2). -/
def capturePageBytes (owner segment trigger : Nat) (stamp : TimeStamp) (freq : Freq) (samples : List SampleSet) : List Byte :=
  field 1 3 ++ field 1 segment ++ field 1 trigger ++ field 1 freq.hertz ++ field 4 owner ++ stampBytes stamp
    ++ samples.flatMap sampleBytes

/-! ## Frames (R170) -/

/-- Shift the check register by bits, with the generator x¹⁶ + x¹² + x⁵ + 1. -/
def crcShift : Nat → BitVec 16 → BitVec 16
  | 0, c => c
  | n + 1, c => crcShift n (if c.msb then (c <<< 1) ^^^ 0x1021#16 else c <<< 1)

/-- One byte enters the check register, most significant bit first (R170). -/
def crcByte (c : BitVec 16) (b : Byte) : BitVec 16 := crcShift 8 (c ^^^ (b.setWidth 16 <<< 8))

def crcOf (bytes : List Byte) : BitVec 16 := bytes.foldl crcByte 0xFFFF#16

def crcLow (c : BitVec 16) : Byte := c.setWidth 8
def crcHigh (c : BitVec 16) : Byte := (c >>> 8).setWidth 8

/-- The bytes of a frame that the check covers (R170). -/
def coveredBytes (kind tag : Byte) (body : List Byte) : List Byte :=
  byte body.length :: byte (body.length / 256) :: kind :: tag :: body

/-- The characters of a frame (R170). -/
def frameBytes (kind tag : Byte) (body : List Byte) : List Byte :=
  let c := crcOf (coveredBytes kind tag body)
  0xA5#8 :: coveredBytes kind tag body ++ [crcLow c, crcHigh c]

end Sys2Proof.Machine
end

