-- ==== Sys2Proof/WellFormed.lean ====
section
/-!
DEFINITION. Which commands can be written at all: the static bounds of their operands.
A command outside these bounds describes nothing that can reach the part (a body longer than a frame
holds, a block that is no log block). Whether a well-formed command can occur in a given state is not
judged here; `exec` says what it does there (log 10).
-/

namespace Sys2Proof

/-- The kinds assigned to a request (section 11.4). -/
def assignedKinds : List Nat :=
  [0x01, 0x02, 0x03, 0x04, 0x10, 0x11, 0x12, 0x13, 0x18, 0x19, 0x20, 0x28, 0x29, 0x2A, 0x2B, 0x2C,
   0x30, 0x31, 0x32, 0x33, 0x34, 0x35, 0x40, 0x41, 0x71, 0x7E]

/-- The largest body of a frame (R170). -/
def maxBody : Nat := 1024

/-- A body that a complete frame can carry (R170). -/
def bodyFits (body : List Byte) : Bool := decide (body.length ≤ maxBody)

/-- A result the correction unit can give: at most 4 bit errors are corrected (R74, R91). -/
def ReadResult.possible : ReadResult → Bool
  | .corrected n => decide (1 ≤ n ∧ n ≤ 4)
  | _ => true

/-- The operands of a command are within the bounds the manual gives them. -/
def Instr.wellFormed : Instr → Bool
  | .correctionDone result body =>
      result.possible && (match body with
        | none => true
        | some b => decide (b.length = Config.bodyBytes))
  | .holdJudgeBlock _ block =>
      decide (Config.firstLogBlock ≤ block ∧ block < Config.blockCount)
  | .overrun kind _ body => bodyFits body && !(kind == 0x7E && body.isEmpty)
  | .unknownKind kind _ body => bodyFits body && !(assignedKinds.contains kind.toNat)
  | .identify _ b | .getStatus _ b | .ackCauses _ b | .setAttention _ b | .getSettings _ b
  | .setSettings _ b | .applySettings _ b | .discardStaged _ b | .setTime _ b | .getTime _ b
  | .getLive _ b | .readRecords _ b | .readCapture _ b | .exportMark _ b | .getStore _ b
  | .formatStore _ b | .openCase _ b | .closeCase _ b | .releaseCase _ b | .listCases _ b
  | .caseSummary _ b | .caseRecords _ b | .watchStart _ b | .watchStop _ b | .abort _ b
  | .restart _ b => bodyFits b
  | _ => true

end Sys2Proof
end

