-- ==== Sys2Proof/Machine/Ops.lean ====
section
/-!
DEFINITION. Operations shared by the units: the clock's reading, attention causes, the transmitter, the array,
the block index table, the marker queue, the loss counters and the proposed export mark.
-/

namespace Sys2Proof.Machine

/-- A meaning that ends in a next state; every command does (log 10). -/
abbrev Result := Host.Outcome State Fault Refusal

/-! ## Power and clock -/

/-- Core power is on and the part is in STARTING, RUN or HOLDUP (section 8.4). -/
def State.coreRunning (s : State) : Bool :=
  match s.supply.power with
  | .starting | .run | .holdup => true
  | .retain | .wait => false

def State.inHoldup (s : State) : Bool := s.supply.power == .holdup

/-- The clock's reading with the epoch in force (R5, R150). -/
def State.now (s : State) : TimeStamp := ⟨s.time.sec, s.time.ms, s.time.epoch⟩

/-- An unsettled epoch whose number is known by now stands for that number (R154). -/
def resolveEpoch (base : Option Nat) : Epoch → Epoch
  | .settled n => .settled n
  | .unsettled k =>
    match base with
    | some b => .settled ((b + k) % 65536)
    | none => .unsettled k

def TimeStamp.resolve (base : Option Nat) (t : TimeStamp) : TimeStamp := { t with epoch := resolveEpoch base t.epoch }

/-- Two epochs are the same one. -/
def sameEpoch (base : Option Nat) (a b : Epoch) : Bool := resolveEpoch base a == resolveEpoch base b

/-! ## Attention (section 9.8) -/

/-- A cause is reported: it is latched, and in PULSE mode a change from clear to latched of a cause in the mask
begins a pulse (R182, R185). Until the settings area is read ATTN is released (R188). -/
def Link.latch (c : Cause) (l : Link) : Link :=
  { l with
    causes := l.causes ||| c.bit
    pulse := l.pulse
      || (l.listening && l.mode == .pulse && l.causes &&& c.bit == 0 && l.mask &&& c.bit != 0) }

def State.latch (c : Cause) (s : State) : State := { s with link := s.link.latch c }

/-- ATTN is driven low (R185). -/
def State.attnLow (s : State) : Bool :=
  s.coreRunning && s.link.listening &&
    match s.link.mode with
    | .level => s.link.causes &&& s.link.mask != 0
    | .pulse => s.link.pulse

/-- The EXPORT_READY condition judged on an unexported count and SATURATED (R183). -/
def Link.judgeExport (count : Nat) (saturated : Bool) (l : Link) : Link :=
  let holds := decide (l.exportThreshold ≤ count) || saturated
  let l' := { l with exportCondition := holds }
  if holds && !l.exportCondition then l'.latch .exportReady else l'

def State.judgeExport (s : State) : State :=
  { s with link := s.link.judgeExport s.store.unexportedList.length s.store.saturated }

/-- The CLOCK condition as the timebase reports it (R155, R182). -/
def Link.judgeClock (holds : Bool) (l : Link) : Link :=
  let l' := { l with clockCondition := holds }
  if holds && !l.clockCondition then l'.latch .clock else l'

/-! ## The transmitter (section 9.4) -/

/-- The kind of a reply: the request's plus 0x80, or 0xFF for a kind assigned to no request (R170, R174). -/
def replyKind (kind : Byte) : Byte :=
  if assignedKinds.contains kind.toNat then kind + 0x80 else 0xFF

/-- A window block of 24 bytes (section 11.4). -/
def windowBlock (base : Option Nat) (w : WindowSet) : List Byte :=
  field 4 w.window ++ stampBytes (w.stamp.resolve base) ++ field 2 w.values.l1 ++ field 2 w.values.l2 ++ field 2 w.values.l3
    ++ field 2 w.values.ne ++ field 1 (clippedBits w.clipped) ++ field 1 (phaseSetBits w.fitted) ++ reserved 2

/-- The most sets in one WATCH frame (R187), and in the watch FIFO (R186). -/
def watchBatch : Nat := 16
def watchDepth : Nat := 32

/-- The WATCH frame that takes the oldest sets from the FIFO (R187). -/
def Link.sendWatch (base : Option Nat) (l : Link) : Link :=
  let sets := l.fifo.take watchBatch
  { l with
    tx := some
      { kind := 0xF0, tag := l.frameCounter, restarts := false
        body := field 4 l.dropCount ++ field 1 sets.length ++ reserved 3 ++ sets.flatMap (windowBlock base) }
    fifo := l.fifo.drop watchBatch
    dropCount := 0
    frameCounter := l.frameCounter + 1 }

/-- The reply statuses (section 11.4). -/
inductive Status where
  | ok | accepted | starting | busyStore | refusedState | badArgument | badLength | unknownKind | notFound
  | duplicate | tableFull | readOnly
deriving DecidableEq, Repr

def Status.code : Status → Nat
  | .ok => 0
  | .accepted => 1
  | .starting => 2
  | .busyStore => 3
  | .refusedState => 4
  | .badArgument => 5
  | .badLength => 6
  | .unknownKind => 7
  | .notFound => 8
  | .duplicate => 9
  | .tableFull => 10
  | .readOnly => 11

/-- The STARTING reply of an ABORT that found the slot HELD is sent (R179, log 42). -/
def Link.sendStarting (tag : Byte) (rest : List Byte) (l : Link) : Link :=
  { l with
    startingAborts := rest
    tx := some { kind := 0xFE, tag := tag, body := field 1 Status.starting.code, restarts := false } }

/-- An IDLE transmitter chooses its next frame: a ready reply, else the STARTING reply of an ABORT that found the slot HELD
(log 42), else a due WATCH frame (R176). After a RESTART reply has been produced no other frame is sent (R180). -/
def Link.choose (base : Option Nat) (l : Link) : Link :=
  match l.tx with
  | some _ => l
  | none =>
    match l.slot with
    | some ⟨kind, tag, some body⟩ =>
      { l with
        slot := none
        tx := some { kind := replyKind kind, tag := tag, body := body
                     restarts := l.restarting && kind == 0x71 } }
    | _ =>
      match l.startingAborts, l.watch with
      | t :: rest, _ => if l.restarting then l else l.sendStarting t rest
      | [], some threshold => if !l.restarting && decide (threshold ≤ l.fifo.length) then l.sendWatch base else l
      | [], none => l

/-- The reply of the held request becomes ready (R175). -/
def Link.answer (body : List Byte) (l : Link) : Link :=
  match l.slot with
  | some ⟨kind, tag, none⟩ => { l with slot := some ⟨kind, tag, some body⟩ }
  | _ => l

/-- The reply becomes ready and the transmitter chooses (R176). -/
def State.answer (body : List Byte) (s : State) : State := { s with link := (s.link.answer body).choose s.time.base }

/-- A reply with its status first and what follows it (section 9.3). -/
def State.reply (st : Status) (rest : List Byte) (s : State) : State := s.answer (field 1 st.code ++ rest)

/-! ## The nonvolatile array (R74) -/

/-- The page at an address; absent when it is blank. -/
def Memory.read : Memory → Nat → Option Page
  | [], _ => none
  | (a, p) :: rest, at_ => if a = at_ then some p else Memory.read rest at_

/-- Put a page at an address, in address order. -/
def Memory.write (at_ : Nat) (p : Page) : Memory → Memory
  | [] => [(at_, p)]
  | (a, q) :: rest =>
    if at_ < a then (at_, p) :: (a, q) :: rest
    else if at_ = a then (at_, p) :: rest
    else (a, q) :: Memory.write at_ p rest

/-- Blank every page of a block. -/
def Memory.erase (block : Nat) (m : Memory) : Memory :=
  m.filter fun c => c.1 / Config.pagesPerBlock != block

/-- A page whose block's erase did not complete: the records and captures of a log block, and an image that was
abandoned, are lost; a header page and the other images are of unknown contents (R110, log 23). -/
def Page.halfErased (at_ : Nat) (p : Page) : Page :=
  { p with
    condition :=
      if p.condition = .lost ∨ (Config.firstLogBlock ≤ at_ / Config.pagesPerBlock ∧ at_ % Config.pagesPerBlock ≠ 0) then .lost
      else .unknown }

/-- Every page of a block is half erased (a cut-short or timed-out erase, R110, log 23). -/
def Memory.degrade (block : Nat) (m : Memory) : Memory :=
  m.map fun c => if c.1 / Config.pagesPerBlock = block then (c.1, c.2.halfErased c.1) else c

def Store.page (st : Store) (block page : Nat) : Option Page := st.array.read (pageAddress block page)

/-- A page is programmed (R74), whole, torn or with unknown contents. -/
def Store.program (block page : Nat) (d : PageData) (c : PageCondition) (st : Store) : Store :=
  { st with array := st.array.write (pageAddress block page) ⟨d, c⟩ }

/-! ## The block index table (section 5.5) -/

/-- The entry of a log block; a block outside the log has none. -/
def Store.block (st : Store) (b : Nat) : Option BlockEntry :=
  if b < Config.firstLogBlock then none else st.index[indexOf b]?

def Store.modifyBlock (f : BlockEntry → BlockEntry) (b : Nat) (st : Store) : Store :=
  if b < Config.firstLogBlock then st else { st with index := modifyAt f (indexOf b) st.index }

/-- The entries with their block numbers, in block order. -/
def Store.blocks (st : Store) : List (Nat × BlockEntry) := logBlocks.zip st.index

def Store.countState (st : Store) (b : BlockState) : Nat := (st.index.filter fun e => e.state == b).length

/-- F: the number of ERASED and STALE blocks (R83). -/
def Store.free (st : Store) : Nat := st.countState .erased + st.countState .stale

def Store.badCount (st : Store) : Nat := st.countState .bad

/-- The lowest ERASED or STALE block (R86). -/
def Store.candidate (st : Store) : Option Nat :=
  (st.blocks.find? fun e => e.2.state == .erased || e.2.state == .stale).map (·.1)

/-- A FULL block with an empty hold set exists (R111). -/
def Store.hasUnheldFull (st : Store) : Bool := st.index.any fun e => e.state == .full && e.holds == 0

/-- A block holds records: a first record sequence is present and it is ACTIVE, FULL or BAD (R177). -/
def BlockEntry.holdsRecords (e : BlockEntry) : Bool :=
  e.firstRecord.isSome && (e.state == .active || e.state == .full || e.state == .bad)

/-- The fields a block loses when it is erased or its log ends (R88, R97). -/
def BlockEntry.cleared (state : BlockState) (e : BlockEntry) : BlockEntry :=
  { e with state := state, blockSeq := none, firstRecord := none, lastRecord := none, earliest := none
           latest := none, unexported := none }

/-- The newest sequence number: one below the next (R80). -/
def Store.newestSeq (st : Store) : Nat := st.nextSeq - 1

/-! ## Loss counters (R117) -/

def LossCounters.add (k : LossKind) (n : Nat) (c : LossCounters) : LossCounters :=
  match k with
  | .disturbance => { c with disturbance := count32By n c.disturbance }
  | .interval => { c with interval := count32By n c.interval }
  | .marker => { c with marker := count32By n c.marker }
  | .unexportedReclaimed => { c with unexportedReclaimed := count32By n c.unexportedReclaimed }

/-- An increase of a loss counter by `n` records: LOSS pending is set, LOSS is latched, and the case unit will
be told (R117). -/
def State.raiseLoss (k : LossKind) (n : Nat) (s : State) : State :=
  if n = 0 then s
  else
    { s with
      store := { s.store with lost := s.store.lost.add k n, lossPending := true }
      link := s.link.latch .loss
      reports := { s.reports with losses := s.reports.losses ++ [k] } }

/-! ## The proposed export mark (R119) -/

/-- The page to be programmed is a SETTINGS image that carries the mark. -/
def PageData.carries (mark : Nat) : PageData → Bool
  | .settings _ image => image.exportMark == mark
  | _ => false

/-- An image being written carries the mark. -/
def ImageWork.carries (mark : Nat) (w : ImageWork) : Bool :=
  w.data.carries mark ||
    match w.stage with
    | .other d _ => d.carries mark
    | _ => false

/-- The proposal, if one waits, is withdrawn and its deferred reply is given (R119). -/
def State.withdrawProposal (st : Status) (s : State) : State :=
  match s.store.proposed with
  | none => s
  | some _ =>
    let s' := { s with store := { s.store with proposed := none } }
    match s.link.slot with
    | some ⟨kind, _, none⟩ => if kind = 0x2A then s'.reply st [] else s'
    | _ => s'

/-- The image of the job running or of R113 carries the proposed mark. -/
def Store.proposalInHand (st : Store) : Bool :=
  match st.proposed with
  | none => false
  | some mark =>
    (match st.job with
      | some (.image w) => w.carries mark
      | _ => false)
    || (match st.direct with
      | some w => w.carries mark
      | none => false)

/-- A SETTINGS image request has been discarded: a proposal that only it was to carry is withdrawn (R119). -/
def State.requestDiscarded (k : ImageKind) (s : State) : State :=
  match k with
  | .settings => if s.store.proposalInHand then s else s.withdrawProposal .busyStore
  | .cases => s

/-! ## The marker queue (R116) -/

def queueDepth : Nat := 8

def QueueItem.isImage (k : ImageKind) : QueueItem → Bool
  | .image j => k == j
  | _ => false

def QueueItem.isFormat : QueueItem → Bool
  | .marker _ (.format _ _) => true
  | _ => false

def QueueItem.isLoss : QueueItem → Bool
  | .marker _ (.loss _ _) => true
  | _ => false

def QueueItem.isSupplyLoss : QueueItem → Bool
  | .marker _ (.supplyLoss _) => true
  | _ => false

def State.setQueue (q : List QueueItem) (s : State) : State := { s with store := { s.store with markerQueue := q } }

/-- A marker joins the back of the queue, or is discarded and counted when 8 wait (R116). -/
def State.queueMarker (facts : MarkerBody) (s : State) : State :=
  if s.store.markerQueue.length < queueDepth then s.setQueue (s.store.markerQueue ++ [.marker s.now facts])
  else s.raiseLoss .marker 1

/-- An image request joins the queue unless one of its kind waits (R116). -/
def State.queueImage (k : ImageKind) (s : State) : State :=
  if s.store.markerQueue.any (QueueItem.isImage k) then s
  else if s.store.markerQueue.length < queueDepth then s.setQueue (s.store.markerQueue ++ [.image k])
  else (s.raiseLoss .marker 1).requestDiscarded k

/-- The item at the back is discarded when 8 wait, to make room at the head (R116). -/
def State.makeRoom (s : State) : State :=
  if s.store.markerQueue.length < queueDepth then s
  else
    let s' := (s.setQueue s.store.markerQueue.dropLast).raiseLoss .marker 1
    match lastOf s.store.markerQueue with
    | some (.image k) => s'.requestDiscarded k
    | _ => s'

/-- The SUPPLY_LOSS marker is placed at the head, behind a FORMAT marker only (R116, R159). -/
def State.queueSupplyLoss (s : State) : State :=
  let s' := s.makeRoom
  let item := QueueItem.marker s.now (.supplyLoss [])
  match s'.store.markerQueue with
  | i :: rest => if i.isFormat then s'.setQueue (i :: item :: rest) else s'.setQueue (item :: i :: rest)
  | [] => s'.setQueue [item]

/-- The FORMAT marker is placed at the head (R97, R116). -/
def State.queueFormat (s : State) : State :=
  let s' := s.makeRoom
  s'.setQueue (.marker s.now (.format s.store.identity s.store.floor) :: s'.store.markerQueue)

/-- While LOSS is pending in WRITABLE, a LOSS marker joins a queue that has room and holds none (R117). -/
def State.lossReview (s : State) : State :=
  if s.store.lossPending && s.store.scan.isNone && s.store.state == .writable
      && !(s.store.markerQueue.any QueueItem.isLoss) && decide (s.store.markerQueue.length < queueDepth)
  then s.setQueue (s.store.markerQueue ++ [.marker s.now (.loss s.store.lost s.tracker.missed)])
  else s

end Sys2Proof.Machine
end

