-- ==== Sys2Proof/Machine/Entries.lean ====
section
/-!
DEFINITION. Operations on the tracker table: opening, taking in, ending, the commit queue, and the reports that
free an entry (sections 2.1 and 2.3).
-/

namespace Sys2Proof.Machine

def Tracker.entry (t : Tracker) (i : Nat) : Option Entry := slotAt t.entries i

def Tracker.modify (f : Entry → Entry) (i : Nat) (t : Tracker) : Tracker :=
  { t with entries := modifySlot f i t.entries }

/-- The OPEN entries with their indexes, in index order. -/
def Tracker.opened (t : Tracker) : List (Nat × Entry) := (filled t.entries).filter fun e => e.2.state == .opened

def State.modifyTracker (f : Tracker → Tracker) (s : State) : State := { s with tracker := f s.tracker }

/-- TIME_STEPPED, when a stamp's epoch differs from that of the entry's start (R40). -/
def Entry.noteEpoch (base : Option Nat) (e : Epoch) (x : Entry) : Entry :=
  if sameEpoch base e x.start.epoch then x else { x with flags := { x.flags with timeStepped := true } }

/-- NO_CAPTURE carries the first reason set (R55). -/
def Entry.refuse (r : NoCapture) (x : Entry) : Entry :=
  { x with flags := { x.flags with noCapture := some (x.flags.noCapture.getD r) } }

/-! ## Taking in (R22) -/

/-- A phase's value into its per-phase extreme. -/
def takeExtreme (k : Kind) (v : Nat) (old : Option Extreme) : Option Extreme :=
  match old with
  | none => some ⟨v, 1, false⟩
  | some e => if moreExtreme k v e.num then some ⟨v, 1, false⟩ else some e

/-- The phase of a set with the most extreme value, and that value; of equal ones the first, or the last when
the later phase takes a tie (log 7). -/
def extremeOf (k : Kind) (value : Phase → Nat) : List Phase → Option (Phase × Nat)
  | [] => none
  | p :: rest =>
    match extremeOf k value rest with
    | none => some (p, value p)
    | some (q, w) =>
      if moreExtreme k w (value p) || (w == value p && Config.laterPhaseTakesTie p.code q.code w 1) then some (q, w)
      else some (p, value p)

/-- The entry's extreme after a value set; a later value that equals it does not displace it. -/
def Entry.takeOverall (value : Phase → Nat) (x : Entry) : Entry :=
  match extremeOf x.kind value x.phases.list with
  | none => x
  | some (p, v) =>
    match x.extreme with
    | none => { x with extreme := some ⟨v, 1, false⟩, extremePhase := some p }
    | some e =>
      if moreExtreme x.kind v e.num then { x with extreme := some ⟨v, 1, false⟩, extremePhase := some p } else x

/-- CLIPPED when the value of any phase of the set carries a mark (R22). -/
def Entry.noteClipped (v : HalfCycleSet) (x : Entry) : Entry :=
  { x with flags := { x.flags with clipped := x.flags.clipped || x.phases.list.any fun p => v.clipped.phase p } }

/-- An OPEN DIP, SWELL or INTERRUPTION entry takes in a value set (R22, R40). -/
def Entry.takeIn (base : Option Nat) (v : HalfCycleSet) (x : Entry) : Entry :=
  let x1 :=
    { x with
      halfCycles := count32 x.halfCycles
      perPhase := x.perPhase.mapP fun p old => if x.phases.has p then takeExtreme x.kind (v.values.phase p) old else old }
  ((x1.takeOverall fun p => v.values.phase p).noteClipped v).noteEpoch base v.stamp.epoch

/-! ## Ending (R23) -/

/-- The duration of an entry with a given end: by count, or by clock across a loss or a gap (R23). -/
def Entry.durationTo (finish : TimeStamp) (x : Entry) : Nat :=
  if x.flags.acrossSupplyLoss || x.flags.measurementGap then
    clockDuration x.values.freq x.halfCycles x.start finish
  else countDuration x.values.freq x.halfCycles

/-- The entry with its end time stamp and duration (R23, R40). -/
def Entry.finishAt (base : Option Nat) (finish : TimeStamp) (x : Entry) : Entry :=
  { x.noteEpoch base finish.epoch with finish := some finish, duration := some (x.durationTo finish) }

/-- The entry goes to COMMIT_WAIT, at the back of the commit queue (R24). -/
def Tracker.enqueue (i : Nat) (t : Tracker) : Tracker :=
  { t.modify (fun x => { x with state := .commitWait }) i with
    commitQueue := t.commitQueue ++ [i]
    tailOrder := t.tailOrder.filter (· != i) }

/-- An ended entry goes to TAIL while its slot is FILLING, else to COMMIT_WAIT (R23). -/
def Tracker.leaveOpen (i : Nat) (t : Tracker) : Tracker :=
  match t.entry i with
  | none => t
  | some x =>
    match x.slot with
    | some ⟨_, false⟩ =>
      { t.modify (fun x => { x with state := .tail }) i with tailOrder := t.tailOrder ++ [i] }
    | _ => t.enqueue i

/-- An OPEN DIP, SWELL or INTERRUPTION entry ends at a value set (R23). -/
def Tracker.endEntry (base : Option Nat) (finish : TimeStamp) (i : Nat) (t : Tracker) : Tracker :=
  (t.modify (Entry.finishAt base finish) i).leaveOpen i

/-! ## Opening (R21) -/

/-- A new entry, before it takes in its opening value set. -/
def Entry.fresh (k : Kind) (phases : PhaseSet) (start : TimeStamp) (inForce : InForce) : Entry where
  state := .opened
  kind := k
  phases := phases
  start := start
  finish := none
  halfCycles := 0
  duration := none
  extreme := none
  extremePhase := none
  perPhase := Tri.all none
  steady := none
  steadyOf := Tri.all none
  enclosing := none
  slot := none
  generation := inForce.generation
  values := inForce.set.genValues
  nested := []
  flags := {}

/-! ## Reports about an entry (R24, R25, R29) -/

/-- Free an entry and take it out of the orders. -/
def Tracker.free (i : Nat) (t : Tracker) : Tracker :=
  { t with
    entries := putSlot none i t.entries
    commitQueue := t.commitQueue.filter (· != i)
    tailOrder := t.tailOrder.filter (· != i) }

/-- The number of a committed interruption goes to its enclosing dip while that dip is OPEN or TAIL (R29). -/
def Entry.addNested (seq : Nat) (x : Entry) : Entry :=
  if x.nested.length < 4 then { x with nested := x.nested ++ [seq] }
  else { x with flags := { x.flags with nestedOverflow := true } }

/-- The dip at the enclosing index is still the one recorded, and OPEN or TAIL (R29). In PER_PHASE mode nested
lists stay empty (R30). -/
def Tracker.nestInto (seq : Nat) (x : Entry) (t : Tracker) : Tracker :=
  match x.kind, x.enclosing with
  | .interruption, some (i, start) =>
    match t.entry i with
    | none => t
    | some d =>
      if d.kind == .dip && d.start == start && (d.state == .opened || d.state == .tail)
          && d.values.mode == .polyphase
      then t.modify (Entry.addNested seq) i
      else t
  | _, _ => t

/-- Commit done with a sequence number (R24). -/
def Tracker.commitDone (seq i : Nat) (t : Tracker) : Tracker :=
  match t.entry i with
  | none => t
  | some x => (t.nestInto seq x).free i

/-- Record discarded (R24). -/
def Tracker.discard (i : Nat) (t : Tracker) : Tracker := t.free i

/-- Slot FULL, applied only when the entry is linked to that slot (R25). -/
def Tracker.slotFull (i slot : Nat) (t : Tracker) : Tracker :=
  match t.entry i with
  | none => t
  | some x =>
    match x.slot with
    | none => t
    | some l =>
      if l.slot = slot then
        let t' := t.modify (fun x => { x with slot := some ⟨slot, true⟩ }) i
        if x.state == .tail then t'.enqueue i else t'
      else t

/-- Slot dropped, applied only when the entry is linked to that slot (R25). -/
def Tracker.slotDropped (i slot : Nat) (t : Tracker) : Tracker :=
  match t.entry i with
  | none => t
  | some x =>
    match x.slot with
    | none => t
    | some l =>
      if l.slot = slot then
        let t' := t.modify (fun x => { (x.refuse .supply) with slot := none }) i
        if x.state == .tail then t'.enqueue i else t'
      else t

/-- TIME_STEPPED on every OPEN entry that does not start in the new epoch (R40). -/
def Tracker.step (base : Option Nat) (e : Epoch) (t : Tracker) : Tracker :=
  { t with entries := t.entries.map (Option.map fun x => if x.state == .opened then x.noteEpoch base e else x) }

end Sys2Proof.Machine
end

