-- ==== Sys2Proof/Machine/Measure.lean ====
section
/-!
DEFINITION. The measurement unit (chapter 1): the command SAMPLE_SET, and what an apply does to the unit.
Values are formed at the sample that completes them and handed over in the order of R13; each waits in the
outbox until the command of its delivery (log 15).
-/

namespace Sys2Proof.Machine

/-- Half-cycle value sets whose last sample lies in a window (section 1.1): one fewer in the first window. -/
def setsInWindow (f : Freq) (window : Nat) : Nat :=
  if window = 1 then 2 * f.cyclesPerWindow - 1 else 2 * f.cyclesPerWindow

/-- Windows in a frequency period (section 1.6). -/
def windowsPerPeriod : Nat := 50

/-- Arming and crossing detection of one phase on the `n`th sample of the period (R10): the detected instant clears the
mark and enters the tally (R11). -/
def stepPhase (udecl n : Nat) (last : Option SampleCode) (now : SampleCode) (armed : Bool) (t : Tally) : Bool × Tally :=
  let crossed := match last with
    | none => none
    | some e =>
      if armed && decide (e.toInt ≤ 0 ∧ 0 < now.toInt) then some (crossingInstant n e.toInt now.toInt) else none
  match crossed with
  | none => (armed || arms udecl now, t)
  | some i => (arms udecl now, ⟨t.count + 1, some (t.first.getD i), some i⟩)

/-- Zero-crossing detection on the three phases of a sample set (R10). -/
def Measurement.detect (n : Nat) (x : SampleSet) (m : Measurement) : Measurement :=
  let r (p : Phase) := stepPhase m.udecl n (m.lastSample.map (·.phase p)) (x.phase p) (m.armed.get p) (m.tallies.get p)
  { m with
    armed := ⟨(r .l1).1, (r .l2).1, (r .l3).1⟩
    tallies := ⟨(r .l1).2, (r .l2).2, (r .l3).2⟩
    lastSample := some x }

/-- The sample set takes its number and joins the open block and the open window (R2, R4, R6, R8). -/
def Measurement.gather (x : SampleSet) (m : Measurement) : Measurement :=
  { m with
    samples := count32 m.samples
    windowSamples := m.windowSamples + 1
    current := m.current ++ [x]
    windowSquares := Quad.zip (fun a c => a + squareOf c) m.windowSquares x
    windowClipped := Quad.zip (fun a c => a || isClipped c) m.windowClipped x }

def hand (o : Output) (m : Measurement) : Measurement := { m with outbox := m.outbox ++ [o] }

/-- Sums of squares of a channel over sample sets. -/
def squares (ch : SampleSet → SampleCode) (l : List SampleSet) : Nat := sumOf (l.map fun x => squareOf (ch x))

def anyClipped (ch : SampleSet → SampleCode) (l : List SampleSet) : Bool := l.any fun x => isClipped (ch x)

/-- One figure for each channel. -/
def perChannel {α : Type} (f : (SampleSet → SampleCode) → α) : Quad α := ⟨f (·.l1), f (·.l2), f (·.l3), f (·.ne)⟩

/-- At every 64th sample set: the sample block, and from sample 128 the half-cycle value set of the 128 most
recent sample sets. Set j comes with block j + 1 (R3, R4). -/
def Measurement.formHalf (stamp : TimeStamp) (m : Measurement) : Measurement :=
  if m.current.length < 64 then m
  else
    match m.previous with
    | none => hand (.block ⟨1, stamp, m.freq, m.current⟩) { m with previous := some m.current, current := [] }
    | some before =>
      let all := before ++ m.current
      let number := count32 m.halfCycles
      let set : HalfCycleSet :=
        { number := number
          window := count32 m.windows
          position := m.windowHalfCycles + 1
          stamp := stamp
          values := perChannel fun ch => rmsOf (squares ch all) 128
          clipped := perChannel fun ch => anyClipped ch all
          fitted := fittedSet m.threePhases
          freq := m.freq }
      hand (.halfCycle set)
        (hand (.block ⟨number + 1, stamp, m.freq, m.current⟩)
          { m with
            previous := some m.current, current := []
            halfCycles := number, windowHalfCycles := m.windowHalfCycles + 1 })

/-- The reference phase of a period: the lowest-numbered phase of the fitted set whose value is at least 50 % of
Udecl (R12). -/
def referencePhase (udecl : Nat) (w : WindowSet) : Option Phase :=
  Phase.all.find? fun p => w.fitted.has p && decide (udecl ≤ 2 * w.values.phase p)

/-- The frequency value of the period that ends with a window (R11). -/
def Measurement.frequencyValue (w : WindowSet) (stamp : TimeStamp) (m : Measurement) : FrequencyValue :=
  let base : FrequencyValue :=
    { period := count32 m.periods, stamp := stamp, frequency := none, reference := none, reason := none, crossings := none }
  match referencePhase m.udecl w with
  | none => { base with reason := some .noReference }
  | some p =>
    let t := m.tallies.get p
    match frequencyOf m.freq.sampleRate t with
    | .inl r => { base with reason := some r, reference := some p, crossings := some t.count }
    | .inr f => { base with frequency := some f, reference := some p, crossings := some t.count }

/-- At the last sample set of a window: the window value set, and before it the frequency value when the window
ends a period (R6, R11, R13). Both replace the held latest values (R14). -/
def Measurement.formWindow (stamp : TimeStamp) (m : Measurement) : Measurement :=
  if m.windowSamples < m.freq.samplesPerWindow then m
  else
    let w : WindowSet :=
      { window := count32 m.windows
        halfCycles := m.windowHalfCycles
        stamp := stamp
        values := m.windowSquares.map fun q => rmsOf q m.freq.samplesPerWindow
        clipped := m.windowClipped
        fitted := fittedSet m.threePhases }
    let m' :=
      { m with
        windows := count32 m.windows, windowSamples := 0, windowSquares := Quad.all 0, windowClipped := Quad.all false
        windowHalfCycles := 0, periodWindows := m.periodWindows + 1, latestWindow := some w }
    if m'.periodWindows < windowsPerPeriod then hand (.window w) m'
    else
      let f := m.frequencyValue w stamp
      hand (.window w)
        (hand (.frequency f)
          { m' with periods := count32 m.periods, periodWindows := 0, tallies := Tri.all Tally.empty, latestFrequency := some f })

/-- The position of the next sample set in its period: crossings are told apart by differences within a period (R11). -/
def Measurement.periodSample (m : Measurement) : Nat :=
  m.periodWindows * m.freq.samplesPerWindow + m.windowSamples + 1

/-- One sample set through the unit (R1 to R14). -/
def Measurement.take (stamp : TimeStamp) (x : SampleSet) (m : Measurement) : Measurement :=
  (((m.detect m.periodSample x).gather x).formHalf stamp).formWindow stamp

/-- A new active set reaches the unit (R15): Udecl and phases fitted are taken over; a change of the nominal
frequency ends the series, and the series restart notices go ahead of the new series' first output. -/
def Measurement.apply (set : Settings) (m : Measurement) : Measurement :=
  if set.freq = m.freq then { m with udecl := set.udecl, threePhases := set.threePhases }
  else
    { Measurement.fresh set.freq set.udecl set.threePhases with
      outbox := m.outbox ++ [.restart .tracker, .restart .capture, .restart .aggregator] }

/-- SAMPLE_SET (R1): while the core runs, the sample set enters the measurement unit. -/
def execSampleSet (l1 l2 l3 ne : SampleCode) (s : State) : Result :=
  .next (if s.coreRunning then { s with meas := s.meas.take s.now ⟨l1, l2, l3, ne⟩ } else s)

/-! ## What is due for delivery (R13, log 15) -/

/-- The front output when it is a sample block, with the rest. -/
def dueBlock : List Output → Option (SampleBlock × List Output)
  | .block b :: rest => some (b, rest)
  | _ => none

/-- The half-cycle value set at the front, or behind the sample block handed over with it. -/
def dueHalfCycle : List Output → Option (HalfCycleSet × List Output)
  | .halfCycle v :: rest => some (v, rest)
  | .block b :: .halfCycle v :: rest => some (v, .block b :: rest)
  | _ => none

def dueFrequency : List Output → Option (FrequencyValue × List Output)
  | .frequency f :: rest => some (f, rest)
  | _ => none

def dueWindow : List Output → Option (WindowSet × List Output)
  | .window w :: rest => some (w, rest)
  | _ => none

/-- The series restart notice for a receiver, when only notices for others stand before it (R15). -/
def dueRestart (dest : RestartReceiver) : List Output → Option (List Output)
  | .restart r :: rest => if r = dest then some rest else (dueRestart dest rest).map (.restart r :: ·)
  | _ => none

def State.setOutbox (o : List Output) (s : State) : State := { s with meas := { s.meas with outbox := o } }

end Sys2Proof.Machine
end

