-- ==== Sys2Proof/Machine/Capture.lean ====
section
/-!
DEFINITION. The capture unit (chapter 3): the history ring, claims, relinks, hand-backs, and the drop in HOLDUP.
-/

namespace Sys2Proof.Machine

/-- Blocks the history ring holds (R46). -/
def ringDepth : Nat := 16

/-- A block of the series belongs to a slot's capture (R49). -/
def CaptureSlot.includes (c : CaptureSlot) (number : Nat) : Bool :=
  decide (c.triggerBlock + 1 ≤ number + 2 * c.preCycles ∧ number ≤ c.triggerBlock + 2 * c.postCycles)

/-- The last block of a slot's capture (R50). -/
def CaptureSlot.lastBlock (c : CaptureSlot) : Nat := c.triggerBlock + 2 * c.postCycles

/-- The position of the trigger block in the held blocks (R47, R49). -/
def CaptureSlot.triggerSegment (c : CaptureSlot) : Nat :=
  (c.held.filter fun b => decide (b.number < c.triggerBlock)).length

def State.modifyCapture (f : Capture → Capture) (s : State) : State := { s with capture := f s.capture }

def Capture.modifySlot (f : CaptureSlot → CaptureSlot) (i : Nat) (c : Capture) : Capture :=
  { c with slots := Machine.modifySlot f i c.slots }

/-- A slot becomes FREE; its fields and blocks are forgotten (R47). -/
def Capture.release (i : Nat) (c : Capture) : Capture := { c with slots := putSlot none i c.slots }

/-- The slot a claim is granted, with the blocks of its capture that the ring holds (R48, R49). -/
def Capture.granted (claim : Claim) (c : Capture) : CaptureSlot :=
  let base : CaptureSlot :=
    { state := .filling, entry := claim.entry, preCycles := c.preCycles, postCycles := c.postCycles
      triggerBlock := claim.halfCycle + 1, triggerStamp := claim.stamp, held := [], written := 0 }
  { base with held := c.ring.filter fun b => base.includes b.number }

/-- The entry of a claim still stands as it was when it claimed. -/
def claimStands (claim : Claim) : Option Entry → Bool
  | some x => x.state == .opened && x.start == claim.stamp && x.slot.isNone && x.flags.noCapture.isNone
  | none => false

/-- A claim reaches the capture unit (R48). -/
def State.serveClaim (claim : Claim) (s : State) : State :=
  if !claimStands claim (s.tracker.entry claim.entry) then s
  else if s.inHoldup then s.modifyTracker (·.modify (Entry.refuse .supply) claim.entry)
  else
    match freeSlot s.capture.slots with
    | none => s.modifyTracker (·.modify (Entry.refuse .slot) claim.entry)
    | some i =>
      { s with
        capture := { s.capture with slots := putSlot (some (s.capture.granted claim)) i s.capture.slots }
        tracker := s.tracker.modify (fun x => { x with slot := some ⟨i, false⟩ }) claim.entry }

/-- The slot's own linked entry stands and is linked to it: the entry that gave a slot up has been discarded, so a request
that finds this is stale (log 19). -/
def State.stillLinked (slot : Nat) (c : CaptureSlot) (s : State) : Bool :=
  match s.tracker.entry c.entry with
  | some x => x.slot.map (·.slot) == some slot
  | none => false

/-- A relink request reaches the capture unit: the slot keeps all but its linked entry, and the answer gives the
entry the slot's condition (R51). A slot that was dropped meanwhile leaves the entry with NO_CAPTURE (log 19). -/
def State.serveRelink (slot entry : Nat) (s : State) : State :=
  let refused := s.modifyTracker (·.modify (Entry.refuse .supply) entry)
  match slotAt s.capture.slots slot with
  | none => refused
  | some c =>
    if s.stillLinked slot c then refused
    else
      { s with
        capture := s.capture.modifySlot (fun c => { c with entry := entry }) slot
        tracker := s.tracker.modify (fun x => { x with slot := some ⟨slot, c.state != .filling⟩ }) entry }

/-- A hand-back request: the slot becomes FREE at once, from FILLING or FULL (R52). -/
def State.serveHandBack (slot : Nat) (s : State) : State :=
  match slotAt s.capture.slots slot with
  | some c =>
    if c.state == .writing || s.stillLinked slot c then s else s.modifyCapture (·.release slot)
  | none => s

def serveClaims : List Claim → State → State
  | [], s => s
  | c :: rest, s => serveClaims rest (s.serveClaim c)

def serveRelinks : List (Nat × Nat) → State → State
  | [], s => s
  | r :: rest, s => serveRelinks rest (s.serveRelink r.1 r.2)

def serveHandBacks : List Nat → State → State
  | [], s => s
  | h :: rest, s => serveHandBacks rest (s.serveHandBack h)

/-- Every request of the tracker still in flight is served: relinks, hand-backs, claims, each in order. It is done
before the tracker acts again on its table (log 9). -/
def State.settleRequests (s : State) : State :=
  let r := s.reports
  serveClaims r.claims (serveHandBacks r.handBacks (serveRelinks r.relinks
    { s with reports := { r with claims := [], relinks := [], handBacks := [] } }))

/-- The number of the newest block in the ring; 0 when it is empty. -/
def Capture.newest (c : Capture) : Nat :=
  match lastOf c.ring with
  | some b => b.number
  | none => 0

/-- Claims whose trigger block the ring already holds are served before a further block enters it (log 9). -/
def State.serveOverdueClaims (s : State) : State :=
  let due := s.reports.claims.filter fun c => decide (c.halfCycle + 1 ≤ s.capture.newest)
  let rest := s.reports.claims.filter fun c => decide (s.capture.newest < c.halfCycle + 1)
  serveClaims due { s with reports := { s.reports with claims := rest } }

/-- A FILLING slot appends a block of its capture and becomes FULL with the last of it (R50). -/
def CaptureSlot.append (b : SampleBlock) (c : CaptureSlot) : CaptureSlot :=
  if c.state == .filling && c.includes b.number then
    { c with held := c.held ++ [b], state := if b.number = c.lastBlock then .full else .filling }
  else c

/-- The slots that become FULL with a block, as reports to the tracker in slot order (R50). -/
def fullReports (b : SampleBlock) (slots : List (Option CaptureSlot)) : List (Nat × Nat) :=
  (filled slots).filterMap fun (i, c) =>
    if c.state == .filling && c.includes b.number && b.number == c.lastBlock then some (c.entry, i) else none

/-- A sample block reaches the capture unit: into the ring, then into the FILLING slots (R46, R50). -/
def State.takeBlock (b : SampleBlock) (s : State) : State :=
  let ring := s.capture.ring ++ [b]
  { s with
    capture :=
      { s.capture with
        ring := ring.drop (ring.length - ringDepth)
        slots := s.capture.slots.map (Option.map (CaptureSlot.append b)) }
    reports := { s.reports with full := s.reports.full ++ fullReports b s.capture.slots } }

/-- SAMPLE_BLOCK (R46, R50). -/
def execSampleBlock (s : State) : Result :=
  .next <|
    if !s.coreRunning then s
    else
      match dueBlock s.meas.outbox with
      | none => s
      | some (b, rest) => ((s.setOutbox rest).serveOverdueClaims).takeBlock b

/-- The slots whose state passes a test, as (entry, slot) pairs in slot order. -/
def Capture.linked (c : Capture) (test : SlotState → Bool) : List (Nat × Nat) :=
  (filled c.slots).filterMap fun (i, x) => if test x.state then some (x.entry, i) else none

/-- A series restart notice: the ring is emptied and every FILLING slot is cut short and reports FULL (R56). -/
def State.restartCapture (s : State) : State :=
  { s with
    capture :=
      { s.capture with
        ring := []
        slots := s.capture.slots.map (Option.map fun c => if c.state == .filling then { c with state := .full } else c) }
    reports := { s.reports with full := s.reports.full ++ s.capture.linked (· == .filling) } }

/-- Entry to HOLDUP: every FILLING or FULL slot becomes FREE and is reported dropped, in slot order (R55). -/
def State.dropSlots (s : State) : State :=
  { s with
    capture :=
      { s.capture with
        slots := s.capture.slots.map fun c =>
          match c with
          | some x => if x.state == .writing then some x else none
          | none => none }
    reports := { s.reports with dropped := s.reports.dropped ++ s.capture.linked (· != .writing) } }

/-- SLOT_CLAIM: the oldest claim in flight is served (R48). -/
def execSlotClaim (s : State) : Result :=
  .next <|
    match s.reports.claims with
    | [] => s
    | c :: rest =>
      if s.coreRunning then { s with reports := { s.reports with claims := rest } }.serveClaim c else s

/-- RELINK: the oldest relink request in flight is served (R51). -/
def execRelink (s : State) : Result :=
  .next <|
    match s.reports.relinks with
    | [] => s
    | r :: rest =>
      if s.coreRunning then { s with reports := { s.reports with relinks := rest } }.serveRelink r.1 r.2 else s

/-- HAND_BACK: the oldest hand-back request in flight is served (R52). -/
def execHandBack (s : State) : Result :=
  .next <|
    match s.reports.handBacks with
    | [] => s
    | h :: rest =>
      if s.coreRunning then { s with reports := { s.reports with handBacks := rest } }.serveHandBack h else s

end Sys2Proof.Machine
end

