-- ==== Sys2Proof/Machine/Tracker.lean ====
section
/-!
DEFINITION. The disturbance tracker's stages on a half-cycle value set (R20) and its closing of entries at
structural changes (R39): sections 2.1 to 2.9.
-/

namespace Sys2Proof.Machine

/-! ## Stage 1: ends, and the clearing of missed marks -/

/-- An OPEN entry meets its end condition, by the values of its own generation, its phases fitted among them (R26 to R30,
R42, log 17). -/
def Entry.hasEnded (v : HalfCycleSet) (x : Entry) : Bool :=
  let ok (p : Phase) := recovers x.values x.kind (v.values.phase p)
  match x.kind, x.values.mode with
  | .rvc, _ => false
  | _, .perPhase => x.phases.list.all ok
  | .interruption, .polyphase => (fittedSet x.values.threePhases).list.any ok
  | _, .polyphase => (fittedSet x.values.threePhases).list.all ok

/-- The lowest phase of a set, as a number, for the order L1, L2, L3. -/
def PhaseSet.lowest (s : PhaseSet) : Nat := if s.l1 then 0 else if s.l2 then 1 else 2

/-- The OPEN entries of a kind with their indexes, in phase order (R20). -/
def Tracker.openedOf (k : Kind) (t : Tracker) : List (Nat × Entry) :=
  sortBy (fun e => e.2.phases.lowest) (t.opened.filter fun e => e.2.kind == k)

def Tracker.endAll (base : Option Nat) (finish : TimeStamp) : List Nat → Tracker → Tracker
  | [], t => t
  | i :: rest, t => endAll base finish rest (t.endEntry base finish i)

/-- The OPEN entries of a kind that end at a value set. -/
def Tracker.ending (v : HalfCycleSet) (k : Kind) (t : Tracker) : List Nat :=
  (t.openedOf k).filterMap fun e => if e.2.hasEnded v then some e.1 else none

/-- A missed mark's clearing condition holds, with the active thresholds (R36). -/
def MissedMark.clears (g : GenValues) (fitted : PhaseSet) (v : HalfCycleSet) (d : Tri Detector) (m : MissedMark) : Bool :=
  let ok (p : Phase) := recovers g m.kind (v.values.phase p)
  match m.kind, m.phase with
  | .rvc, _ => m.covers.list.all fun p => (d.get p).state != .excursion
  | _, some p => ok p
  | .interruption, none => fitted.list.any ok
  | _, none => fitted.list.all ok

/-- A detector goes to a state with its buffer emptied; the phase's pre-event mean stays until it departs again
(R31, R32, R34). -/
def Detector.emptied (state : DetectorState) (d : Detector) : Detector := { d with state := state, buffer := [] }

/-- A SUPPRESSED detector whose phase no OPEN DIP or SWELL entry holds and no missed mark covers goes to WARMUP
(R34). -/
def Tracker.releaseDetectors (t : Tracker) : Tracker :=
  let held (p : Phase) :=
    (t.opened.any fun e => (e.2.kind == .dip || e.2.kind == .swell) && e.2.phases.has p)
      || t.marks.any fun m => m.covers.has p
  { t with
    detectors := t.detectors.mapP fun p d => if d.state == .suppressed && !held p then d.emptied .warmup else d }

/-- Stage 1 (R20): INTERRUPTION, DIP, SWELL entries that end, then the marks that clear, then the detectors these
release. -/
def Tracker.stage1 (base : Option Nat) (v : HalfCycleSet) (t : Tracker) : Tracker :=
  let g := t.inForce.set.genValues
  let dips := t.ending v .dip
  let swells := t.ending v .swell
  let t1 := t.endAll base v.stamp (t.ending v .interruption)
  let t2 := (t1.endAll base v.stamp dips).endAll base v.stamp swells
  let kept := t2.marks.filter fun m => !m.clears g v.fitted v t2.detectors
  let t3 := { t2 with marks := kept }
  if dips.isEmpty && swells.isEmpty && kept.length == t2.marks.length then t3 else t3.releaseDetectors

/-! ## Stage 2: supersession -/

/-- Fitted phases that cross a kind's threshold of the active settings. -/
def Tracker.crossing (v : HalfCycleSet) (k : Kind) (t : Tracker) : PhaseSet :=
  PhaseSet.of fun p => v.fitted.has p && crosses t.inForce.set.genValues k (v.values.phase p)

/-- The phases that join an OPEN entry (R27): fitted in the value set and, as for its end, in the entry's own generation (R42,
log 17), they cross the thresholds of that generation. -/
def Entry.joining (v : HalfCycleSet) (x : Entry) : PhaseSet :=
  match x.values.mode with
  | .perPhase => PhaseSet.none
  | .polyphase =>
    PhaseSet.of fun p =>
      v.fitted.has p && (fittedSet x.values.threePhases).has p && !x.phases.has p && crosses x.values x.kind (v.values.phase p)

/-- The phases that cross the dip or swell threshold at stage 3: by opening, joining, or under a mark (R34, log 18). -/
def Tracker.crossingSet (v : HalfCycleSet) (t : Tracker) : PhaseSet :=
  (t.opened.filter fun e => e.2.kind == .dip || e.2.kind == .swell).foldl
    (fun s e => s.union (e.2.joining v)) ((t.crossing v .dip).union (t.crossing v .swell))

/-- What supersession leaves for stage 3: the phases that were in EXCURSION, and the slots of discarded RVC entries
with the phases that superseded them. -/
structure Superseded where
  phases : PhaseSet
  slots : List (PhaseSet × Nat)

/-- An OPEN RVC entry is superseded by the crossing phases that are in EXCURSION and in its set (R34). -/
def Tracker.supersededBy (x : PhaseSet) (e : Entry) (t : Tracker) : PhaseSet :=
  PhaseSet.of fun p => x.has p && e.phases.has p && (t.detectors.get p).state == .excursion

/-- Stage 2 (R20, R34): RVC entries superseded are discarded, their other phases in EXCURSION go to WARMUP, and
every crossing phase goes SUPPRESSED. -/
def Tracker.stage2 (v : HalfCycleSet) (t : Tracker) : Tracker × Superseded :=
  let x := t.crossingSet v
  let gone := (t.openedOf .rvc).filter fun e => !(t.supersededBy x e.2).isEmpty
  let others := gone.foldl (fun s e => s.union e.2.phases) PhaseSet.none
  let slots := gone.filterMap fun e => e.2.slot.map fun l => (t.supersededBy x e.2, l.slot)
  let was := PhaseSet.of fun p => x.has p && (t.detectors.get p).state == .excursion
  let t1 := gone.foldl (fun t e => t.free e.1) t
  ({ t1 with
      detectors := t1.detectors.mapP fun p d =>
        if x.has p then d.emptied .suppressed
        else if others.has p && d.state == .excursion then d.emptied .warmup
        else d },
    ⟨was, slots⟩)

/-! ## Opening and missing (R21, R36, R37) -/

/-- A missed mark of a kind is in force (for a phase, in PER_PHASE mode). -/
def Tracker.marked (k : Kind) (p : Option Phase) (t : Tracker) : Bool :=
  t.marks.any fun m => m.kind == k && m.phase == p

/-- Phases come under a mark in force. -/
def Tracker.coverMark (k : Kind) (p : Option Phase) (phases : PhaseSet) (t : Tracker) : Tracker :=
  { t with
    marks := t.marks.map fun m =>
      if m.kind == k && m.phase == p then { m with covers := m.covers.union phases } else m }

/-- A missed mark is set, its counter raised and the increase reported to the link unit, the case unit and the
aggregator (R36, R37). -/
def State.miss (k : Kind) (p : Option Phase) (phases : PhaseSet) (s : State) : State :=
  { s with
    tracker := { s.tracker with marks := s.tracker.marks ++ [⟨k, p, phases⟩], missed := s.tracker.missed.add k }
    link := s.link.latch .loss
    reports :=
      { s.reports with
        missedToAggregator := s.reports.missedToAggregator ++ [k]
        missedToCases := s.reports.missedToCases ++ [k] } }

/-- How an opening entry comes by a capture slot (R21, R34). -/
inductive SlotWish where
  | claim | relink (slot : Nat) | no

/-- An entry opens in the lowest-indexed FREE entry, or is missed (R21, R36). -/
def State.openEntry (v : HalfCycleSet) (x : Entry) (mark : Option Phase) (wish : SlotWish) (s : State) : State :=
  match freeSlot s.tracker.entries with
  | none => s.miss x.kind mark x.phases
  | some i =>
    let s1 :=
      { s with
        tracker := { s.tracker with entries := putSlot (some x) i s.tracker.entries }
        link := s.link.latch .disturbance }
    match wish with
    | .claim => { s1 with reports := { s1.reports with claims := s1.reports.claims ++ [⟨i, v.number, v.stamp⟩] } }
    | .relink slot => { s1 with reports := { s1.reports with relinks := s1.reports.relinks ++ [(slot, i)] } }
    | .no => s1

/-! ## Stage 3: dips and swells -/

/-- The first slot left by a superseded RVC entry that one of these phases superseded, and the others. -/
def takeSlot (phases : PhaseSet) : List (PhaseSet × Nat) → Option Nat × List (PhaseSet × Nat)
  | [] => (none, [])
  | (q, slot) :: rest =>
    if q.meets phases then (some slot, rest)
    else
      let (found, others) := takeSlot phases rest
      (found, (q, slot) :: others)

def Entry.precede (yes : Bool) (x : Entry) : Entry :=
  if yes then { x with flags := { x.flags with precededByRvc := true } } else x

/-- An entry with neither slot nor NO_CAPTURE, nor a slot on its way, can take one by relinking (R34). -/
def State.lacksSlot (i : Nat) (s : State) : Bool :=
  match s.tracker.entry i with
  | none => false
  | some x => x.slot.isNone && x.flags.noCapture.isNone && !s.reports.relinks.any (·.2 == i)
      && !s.reports.claims.any (·.entry == i)

/-- Phases join an OPEN entry (R27), and it takes a superseded RVC entry's slot when it lacks one (R34). -/
def State.join (sup : Superseded) (i : Nat) (phases : PhaseSet) (s : State) : State × Superseded :=
  if phases.isEmpty then (s, sup)
  else
    let s1 := s.modifyTracker (·.modify
      (fun x => Entry.precede (phases.meets sup.phases) { x with phases := x.phases.union phases }) i)
    if s1.lacksSlot i then
      match takeSlot phases sup.slots with
      | (some slot, rest) =>
        ({ s1 with reports := { s1.reports with relinks := s1.reports.relinks ++ [(slot, i)] } }, ⟨sup.phases, rest⟩)
      | (none, _) => (s1, sup)
    else (s1, sup)

def joinAll (v : HalfCycleSet) : List (Nat × Entry) → State × Superseded → State × Superseded
  | [], a => a
  | (i, x) :: rest, a => joinAll v rest (a.1.join a.2 i (x.joining v))

/-- A DIP or SWELL opens for phases that cross, taking a superseded RVC entry's slot when there is one (R21, R34).
While a missed mark is in force the phases fall under it (R36). -/
def State.openDisturbance (v : HalfCycleSet) (k : Kind) (mark : Option Phase) (phases : PhaseSet)
    (a : State × Superseded) : State × Superseded :=
  let (s, sup) := a
  if s.tracker.marked k mark then (s.modifyTracker (·.coverMark k mark phases), sup)
  else
    let x := Entry.precede (phases.meets sup.phases) (Entry.fresh k phases v.stamp s.tracker.inForce)
    match freeSlot s.tracker.entries, takeSlot phases sup.slots with
    | some _, (some slot, rest) => (s.openEntry v x mark (.relink slot), ⟨sup.phases, rest⟩)
    | _, _ => (s.openEntry v x mark .claim, sup)

/-- Openings of one kind in PER_PHASE mode, phase by phase in the order L1, L2, L3 (R30, log 16). -/
def openPerPhase (v : HalfCycleSet) (k : Kind) : List Phase → State × Superseded → State × Superseded
  | [], a => a
  | p :: rest, a =>
    let held := (a.1.tracker.openedOf k).any fun e => e.2.phases.has p
    openPerPhase v k rest (if held then a else State.openDisturbance v k (some p) (PhaseSet.single p) a)

/-- Joins, then openings, of one kind (R27, R30). -/
def stage3Kind (v : HalfCycleSet) (k : Kind) (a : State × Superseded) : State × Superseded :=
  let c := a.1.tracker.crossing v k
  let b := joinAll v (a.1.tracker.openedOf k) a
  match a.1.tracker.inForce.set.mode with
  | .perPhase => openPerPhase v k c.list b
  | .polyphase =>
    if c.isEmpty || !(b.1.tracker.openedOf k).isEmpty then b else State.openDisturbance v k none c b

/-- Slots that no entry took are handed back to the capture unit (R34, R52). -/
def State.handBackRest (sup : Superseded) (s : State) : State :=
  { s with reports := { s.reports with handBacks := s.reports.handBacks ++ sup.slots.map (·.2) } }

/-- Stage 3 (R20): dips before swells (log 16). -/
def State.stage3 (v : HalfCycleSet) (sup : Superseded) (s : State) : State :=
  let (s', rest) := stage3Kind v .swell (stage3Kind v .dip (s, sup))
  s'.handBackRest rest

/-! ## Stage 4: interruptions -/

/-- The enclosing dip of an interruption that opens: the OPEN DIP entry (R28), of its phase in PER_PHASE mode (R30). DESIGN CHOICE
(log 45): when several DIP entries are OPEN in POLYPHASE mode, of a PER_PHASE generation kept across a start, it is the one of the
lowest index. -/
def Tracker.enclosing (p : Option Phase) (t : Tracker) : Option (Nat × TimeStamp) :=
  (t.opened.find? fun e => e.2.kind == .dip && (match p with | none => true | some q => e.2.phases.has q)).map
    fun e => (e.1, e.2.start)

def State.openInterruption (v : HalfCycleSet) (p : Option Phase) (phases : PhaseSet) (s : State) : State :=
  if s.tracker.marked .interruption p then s
  else
    s.openEntry v
      { Entry.fresh .interruption phases v.stamp s.tracker.inForce with enclosing := s.tracker.enclosing p } p .claim

/-- INTERRUPTION entries open in PER_PHASE mode (R30). DESIGN CHOICE (log 16): in phase order L1, L2, L3. -/
def interruptPhases (v : HalfCycleSet) : List Phase → State → State
  | [], s => s
  | p :: rest, s =>
    let held := (s.tracker.openedOf .interruption).any fun e => e.2.phases.has p
    interruptPhases v rest (if held then s else s.openInterruption v (some p) (PhaseSet.single p))

/-- Stage 4 (R20, R28, R30). -/
def State.stage4 (v : HalfCycleSet) (s : State) : State :=
  let c := s.tracker.crossing v .interruption
  match s.tracker.inForce.set.mode with
  | .perPhase => interruptPhases v c.list s
  | .polyphase =>
    if v.fitted.allOf c.has && (s.tracker.openedOf .interruption).isEmpty then s.openInterruption v none v.fitted else s

/-! ## Stage 5: taking in -/

def Tracker.stage5 (base : Option Nat) (v : HalfCycleSet) (t : Tracker) : Tracker :=
  { t with
    entries := t.entries.map (Option.map fun x =>
      if x.state == .opened && x.kind != .rvc then x.takeIn base v else x) }

/-! ## Stage 6: rapid voltage change -/

/-- The buffer with a value added, sliding once it holds N (R31). -/
def slide (n : Nat) (b : List Sampled) (x : Sampled) : List Sampled :=
  let l := b ++ [x]
  l.drop (l.length - n)

/-- What a detector's step asks of the RVC entries. -/
inductive RvcAsk where
  | nothing | departs | ends (firstValue : TimeStamp) (steady : Extreme)

/-- A detector of a fitted phase steps on a value (R31 to R33); `g` gives its limits, `f` the buffer size. -/
def Detector.step (g : GenValues) (f : Freq) (x : Sampled) (d : Detector) : Detector × RvcAsk :=
  let n := bufferSize f
  let values (b : List Sampled) := b.map (·.value)
  match d.state with
  | .suppressed => (d, .nothing)
  | .warmup =>
    let b := slide n d.buffer x
    ({ d with buffer := b, state := if steadyRun g f (values b) then .steady else .warmup }, .nothing)
  | .steady =>
    let sum := sumOf (values d.buffer)
    if departs g sum d.buffer.length x.value then
      (⟨.excursion, [x], sum, d.buffer.length⟩, .departs)
    else ({ d with buffer := slide n d.buffer x }, .nothing)
  | .excursion =>
    let b := slide n d.buffer x
    if steadyRun g f (values b) then
      match b with
      | first :: _ =>
        ({ d with state := .steady, buffer := b },
          .ends first.stamp (deviation (sumOf (values b)) n d.preSum d.preCount))
      | [] => ({ d with buffer := b }, .nothing)
    else ({ d with buffer := b }, .nothing)

/-- The limits of a phase's detector: the entry's in an excursion that belongs to an OPEN RVC entry, else the active
settings' (R33, R38). DESIGN CHOICE (log 48): so in an excursion under a missed RVC mark, which belongs to no entry, a new
RVC_THRESHOLD acts from the next value. -/
def Tracker.limits (p : Phase) (t : Tracker) : GenValues :=
  match (t.detectors.get p).state with
  | .excursion =>
    match (t.openedOf .rvc).find? fun e => e.2.phases.has p with
    | some e => e.2.values
    | none => t.inForce.set.genValues
  | _ => t.inForce.set.genValues

/-- A departing phase joins the OPEN RVC entry or opens one, or falls under the missed mark (R32, R36). -/
def State.depart (v : HalfCycleSet) (p : Phase) (s : State) : State :=
  let mark := match s.tracker.inForce.set.mode with
    | .polyphase => none
    | .perPhase => some p
  match s.tracker.inForce.set.mode, s.tracker.openedOf .rvc with
  | .polyphase, (i, _) :: _ => s.modifyTracker (·.modify (fun x => { x with phases := x.phases.add p }) i)
  | _, _ =>
    if s.tracker.marked .rvc mark then s.modifyTracker (·.coverMark .rvc mark (PhaseSet.single p))
    else
      s.openEntry v (Entry.fresh .rvc (PhaseSet.single p) v.stamp s.tracker.inForce) mark
        (if s.tracker.inForce.set.rvcCapture then .claim else .no)

def State.setDetector (p : Phase) (d : Detector) (s : State) : State :=
  s.modifyTracker fun t => { t with detectors := t.detectors.set d p }

/-- A phase's excursion ends: its entry notes the steady deviation (R33). -/
def Tracker.noteSteady (p : Phase) (e : Extreme) (t : Tracker) : Tracker :=
  { t with
    entries := t.entries.map (Option.map fun x =>
      if x.state == .opened && x.kind == .rvc && x.phases.has p then { x with steadyOf := x.steadyOf.set (some e) p }
      else x) }

/-- One phase of stage 6; the second part gathers, for phases whose excursion ends here, the stamp of the end value. -/
def State.stepDetector (v : HalfCycleSet) (p : Phase) (a : State × List (Phase × TimeStamp)) :
    State × List (Phase × TimeStamp) :=
  let (s, ended) := a
  if !v.fitted.has p then (s.setDetector p ((s.tracker.detectors.get p).emptied .warmup), ended)
  else
    let (d, ask) := (s.tracker.detectors.get p).step (s.tracker.limits p) v.freq ⟨v.values.phase p, v.stamp⟩
    let s1 := s.setDetector p d
    match ask with
    | .nothing => (s1, ended)
    | .departs => (s1.depart v p, ended)
    | .ends first steady => (s1.modifyTracker (·.noteSteady p steady), ended ++ [(p, first)])

/-- A deviation into an extreme; an equal one does not displace (R32). -/
def largerDeviation (new : Extreme) (old : Option Extreme) : Option Extreme :=
  match old with
  | none => some new
  | some e => if fracLt e new then some new else some e

/-- The largest of the phases' deviations on a value set; ties as for R22 (log 7). -/
def deviationOf (dev : Phase → Extreme) : List Phase → Option (Phase × Extreme)
  | [] => none
  | p :: rest =>
    match deviationOf dev rest with
    | none => some (p, dev p)
    | some (q, e) =>
      if fracLt (dev p) e || (!fracLt e (dev p) && Config.laterPhaseTakesTie p.code q.code e.num e.den) then some (q, e) else some (p, dev p)

/-- An OPEN RVC entry takes in a value set (R32). -/
def Entry.takeDeviation (base : Option Nat) (v : HalfCycleSet) (d : Tri Detector) (x : Entry) : Entry :=
  let dev (p : Phase) := deviation (v.values.phase p) 1 (d.get p).preSum (d.get p).preCount
  let x1 :=
    { x with
      halfCycles := count32 x.halfCycles
      perPhase := x.perPhase.mapP fun p old => if x.phases.has p then largerDeviation (dev p) old else old }
  let x2 :=
    match deviationOf dev x.phases.list with
    | none => x1
    | some (p, e) =>
      match x1.extreme with
      | none => { x1 with extreme := some e, extremePhase := some p }
      | some old => if fracLt old e then { x1 with extreme := some e, extremePhase := some p } else x1
  (x2.noteClipped v).noteEpoch base v.stamp.epoch

/-- An RVC entry whose last excursion ended at this value set ends: its end is the first value of the steady run,
its count excludes the run (R33). -/
def Entry.finishRvc (base : Option Nat) (f : Freq) (first : TimeStamp) (x : Entry) : Entry :=
  let steady := match x.extremePhase with
    | some p => x.steadyOf.get p
    | none => none
  Entry.finishAt base first { x with halfCycles := x.halfCycles - bufferSize f, steady := steady }

/-- The OPEN RVC entries none of whose phases is in EXCURSION any longer end (R33). -/
def Tracker.endRvc (base : Option Nat) (f : Freq) (ended : List (Phase × TimeStamp)) :
    List (Nat × Entry) → Tracker → Tracker
  | [], t => t
  | (i, x) :: rest, t =>
    let still := x.phases.list.any fun p => (t.detectors.get p).state == .excursion
    match ended.find? fun e => x.phases.has e.1 with
    | some e =>
      if still then endRvc base f ended rest t
      else endRvc base f ended rest ((t.modify (Entry.finishRvc base f e.2) i).leaveOpen i)
    | none => endRvc base f ended rest t

/-- Stage 6 (R20): detectors step, RVC entries take in the value set, and end. DESIGN CHOICE (log 16): the detectors step in phase
order L1, L2, L3, so that of several phases that depart the first takes the lower FREE entry. -/
def State.stage6 (v : HalfCycleSet) (s : State) : State :=
  let (s1, ended) := State.stepDetector v .l3 (State.stepDetector v .l2 (State.stepDetector v .l1 (s, [])))
  let t := s1.tracker
  let base := s1.time.base
  let t1 : Tracker :=
    { t with
      entries := t.entries.map (Option.map fun x =>
        if x.state == .opened && x.kind == .rvc then x.takeDeviation base v t.detectors else x) }
  { s1 with tracker := t1.endRvc base v.freq ended (t1.openedOf .rvc) }

/-! ## Stage 7: the window flag, and the whole -/

/-- The mark is taken over for a value set's window (R35). -/
def Tracker.takeWindow (w : Nat) (t : Tracker) : Tracker :=
  match t.windowFlag with
  | some f => if f.window = w then t else { t with windowFlag := some ⟨w, false⟩ }
  | none => { t with windowFlag := some ⟨w, false⟩ }

/-- A DIP, SWELL or INTERRUPTION is OPEN, or a mark of such a kind is in force (R35). -/
def Tracker.disturbed (t : Tracker) : Bool :=
  (t.opened.any fun e => e.2.kind != .rvc) || t.marks.any fun m => m.kind != .rvc

def Tracker.stage7 (v : HalfCycleSet) (t : Tracker) : Tracker :=
  { t with
    lastStamp := some v.stamp
    windowFlag := if t.disturbed then some ⟨v.window, true⟩ else t.windowFlag }

/-- A half-cycle value set through the seven stages (R20). -/
def State.track (v : HalfCycleSet) (s : State) : State :=
  let base := s.time.base
  let (t2, sup) := ((s.tracker.takeWindow v.window).stage1 base v).stage2 v
  let s4 := ({ s with tracker := t2 }.stage3 v sup).stage4 v
  let s6 := (s4.modifyTracker (·.stage5 base v)).stage6 v
  s6.modifyTracker (·.stage7 v)

/-- The tracker's answer about a window (R35). -/
def Tracker.flagged (w : Nat) (t : Tracker) : Bool :=
  match t.windowFlag with
  | some f => if f.window = w then f.set else true
  | none => true

/-! ## Closing by settings (R39) -/

/-- Every OPEN entry ends with CLOSED_BY_SETTINGS at the last value set taken in, in index order (R39). -/
def Tracker.closeAll (base : Option Nat) : List Nat → Tracker → Tracker
  | [], t => t
  | i :: rest, t =>
    let close (x : Entry) :=
      let finish := t.lastStamp.getD x.start
      Entry.finishAt base finish { x with flags := { x.flags with closedBySettings := true } }
    closeAll base rest ((t.modify close i).leaveOpen i)

/-- The closing of R39: entries end, missed marks clear, detectors go to WARMUP, the window flag mark stays. -/
def Tracker.closeStructural (base : Option Nat) (t : Tracker) : Tracker :=
  { t.closeAll base (t.opened.map (·.1)) with marks := [], detectors := Tri.all Detector.warm }

/-- The series restart notice (R39): closing, if the apply notification has not come first, and then the window flag
mark and the buffers are cleared. -/
def State.restartTracker (s : State) : State :=
  let s1 := s.settleRequests
  s1.modifyTracker fun t => { t.closeStructural s1.time.base with windowFlag := none }

/-! ## A new series at a start (R42) -/

/-- OPEN RVC entries end where a start begins a series, without a steady deviation, and enter the commit queue (R42). -/
def Tracker.endRvcAt (base : Option Nat) (stamp : TimeStamp) : List Nat → Tracker → Tracker
  | [], t => t
  | i :: rest, t =>
    endRvcAt base stamp rest ((t.modify (fun x => Entry.finishAt base stamp { x with steady := none }) i).enqueue i)

/-- A start begins a series: items 5 and 6 of R42. OPEN DIP, SWELL and INTERRUPTION entries stay OPEN. -/
def Tracker.beginSeries (base : Option Nat) (stamp : TimeStamp) (t : Tracker) : Tracker :=
  let t1 := t.endRvcAt base stamp ((t.opened.filter fun e => e.2.kind == .rvc).map (·.1))
  let held (p : Phase) := t1.opened.any fun e => (e.2.kind == .dip || e.2.kind == .swell) && e.2.phases.has p
  { t1 with
    marks := []
    windowFlag := none
    detectors := t1.detectors.mapP fun p d => d.emptied (if held p then .suppressed else .warmup) }

/-! ## Apply notifications (R38, R39) -/

/-- A change is structural: nominal frequency, phases fitted or aggregation mode (section 10.5). -/
def structural (changed : List SettingId) : Bool :=
  changed.any fun i => i == .nominalFrequency || i == .phasesFitted || i == .aggregationMode

/-- An apply notification reaches the tracker (R38, R39). -/
def State.applyTracker (n : Notice) (s : State) : State :=
  let s1 := s.settleRequests
  s1.modifyTracker fun t =>
    let t' := if structural n.changed then t.closeStructural s1.time.base else t
    { t' with inForce := n.inForce }

end Sys2Proof.Machine
end

