-- ==== Sys2Proof/Machine/Aggregate.lean ====
section
/-!
DEFINITION. The interval aggregator (chapter 4): taking windows, frequency values and missed reports, and closing.
-/

namespace Sys2Proof.Machine

/-- Records the output queue holds (R67). -/
def outputDepth : Nat := 4

/-- The smallest whole multiple of `length` seconds at or after a time (R61). -/
def boundaryAfter (length : Nat) (t : TimeStamp) : Nat :=
  ((t.toMs + length * 1000 - 1) / (length * 1000)) * length

/-- The interval's settings fixed at its first window (R61). -/
def Aggregator.fix (t : TimeStamp) (a : Aggregator) : Aggregator :=
  let set := a.inForce.set
  let changed := match a.previousLength with
    | some l => l != set.intervalLength
    | none => false
  { a with
    previousLength := some set.intervalLength
    acc :=
      { a.acc with
        causes := { a.acc.causes with lengthChange := a.acc.causes.lengthChange || changed }
        fixed := some
          { first := t, last := t, boundary := boundaryAfter set.intervalLength t
            generation := a.inForce.generation, fitted := fittedSet set.threePhases
            length := set.intervalLength, tolerance := set.tolerance, udecl := set.udecl } } }

/-- A value lies outside the tolerance band (R62). -/
def outsideBand (udecl tolerance v : Nat) : Bool :=
  decide (v * 10000 < (10000 - tolerance) * udecl ∨ (10000 + tolerance) * udecl < v * 10000)

/-- A window's value of one phase (R62). -/
def PhaseTally.take (f : IntervalFixed) (flagged clipped : Bool) (v : Nat) (p : PhaseTally) : PhaseTally :=
  { sum := if flagged then p.sum else p.sum + v
    count := if flagged then p.count else p.count + 1
    lowest := minOpt p.lowest v
    highest := maxOpt p.highest v
    outside := if !flagged && outsideBand f.udecl f.tolerance v then p.outside + 1 else p.outside
    clipped := p.clipped || clipped }

def NeTally.take (flagged clipped : Bool) (v : Nat) (n : NeTally) : NeTally :=
  { sum := if flagged then n.sum else n.sum + v
    count := if flagged then n.count else n.count + 1
    highest := maxOpt n.highest v
    clipped := n.clipped || clipped }

/-- A window into an interval whose settings are fixed (R62). -/
def Accumulator.take (flagged : Bool) (w : WindowSet) (f : IntervalFixed) (a : Accumulator) : Accumulator :=
  { a with
    fixed := some { f with last := w.stamp }
    counted := a.counted + 1
    flagged := if flagged then a.flagged + 1 else a.flagged
    phases := a.phases.mapP fun p t =>
      if f.fitted.has p then t.take f flagged (w.clipped.phase p) (w.values.phase p) else t
    ne := a.ne.take flagged w.clipped.ne w.values.ne }

/-- A sum over a count, rounded with a half upward; absent when the count is 0 (R66). -/
def meanOf (sum count : Nat) : Option Nat := if count = 0 then none else some ((2 * sum + count) / (2 * count))

def PhaseTally.figures (t : PhaseTally) : PhaseFigures where
  mean := meanOf t.sum t.count
  lowest := optNum t.lowest
  highest := optNum t.highest
  outside := t.outside

/-- 200 ms before a time, in the same epoch; before the clock's zero it is open (R66, log 4). -/
def windowStart (t : TimeStamp) : TimeStamp :=
  let ms := if 200 ≤ t.toMs then t.toMs - 200 else Config.beforeZero t.toMs
  { t with sec := ms / 1000, ms := ms % 1000 }

/-- The record of an accumulator (R66); its sequence number is given when its job starts. -/
def Accumulator.record (atBoundary : Bool) (f : IntervalFixed) (a : Accumulator) : IntervalRecord where
  seq := 0
  stamp := f.last
  start := windowStart f.first
  boundary := if atBoundary then some f.boundary else none
  generation := f.generation
  length := f.length
  tolerance := f.tolerance
  udecl := f.udecl
  fitted := f.fitted
  counted := a.counted
  flagged := a.flagged
  phases := a.phases.mapP fun _ t => t.figures
  neMean := meanOf a.ne.sum a.ne.count
  neHighest := optNum a.ne.highest
  clipped := ⟨a.phases.l1.clipped, a.phases.l2.clipped, a.phases.l3.clipped, a.ne.clipped⟩
  frequency :=
    match meanOf a.frequency.sum a.frequency.valid with
    | some m => some (m, optNum a.frequency.lowest, optNum a.frequency.highest)
    | none => none
  validCount := a.frequency.valid
  invalidCount := a.frequency.invalid
  missed := a.missed
  causes := a.causes

/-- A record joins the output queue, or is discarded and counted when 4 wait (R67). -/
def State.queueInterval (r : IntervalRecord) (s : State) : State :=
  if s.agg.queue.length < outputDepth then { s with agg := { s.agg with queue := s.agg.queue ++ [r] } }
  else s.raiseLoss .interval 1

/-- The open interval closes into the output queue, and an empty one opens with its causes (R63, R68, R71). -/
def State.closeInterval (atBoundary : Bool) (f : IntervalFixed) (next : Truncation) (s : State) : State :=
  let r := s.agg.acc.record atBoundary f
  { s with agg := { s.agg with acc := Accumulator.empty next } }.queueInterval r

/-- A window value set reaches the aggregator (R62, R63). DESIGN CHOICE (log 40): it counts in the interval open when it is
taken, by R68's own last paragraph, also when it was formed on the new scale and is taken before the step report, and also when it
was formed on the old scale and is taken after it: it then fixes start, boundary and generation of the new interval on the
old scale. The record of that interval shows two epochs in either case, which R66 and R68 exclude. -/
def State.takeWindow (w : WindowSet) (s : State) : State :=
  let a := if s.agg.acc.fixed.isNone then s.agg.fix w.stamp else s.agg
  match a.acc.fixed with
  | none => s
  | some f =>
    let s1 := { s with agg := { a with acc := a.acc.take (s.tracker.flagged w.window) w f } }
    if f.boundary * 1000 ≤ w.stamp.toMs then
      let s2 := s1.closeInterval true { f with last := w.stamp } {}
      { s2 with reports := { s2.reports with boundaries := s2.reports.boundaries ++ [w.stamp] } }
    else s1

/-- A frequency value reaches the aggregator (R64). -/
def FrequencyTally.take (f : FrequencyValue) (t : FrequencyTally) : FrequencyTally :=
  match f.frequency with
  | some v => { t with valid := t.valid + 1, sum := t.sum + v, lowest := minOpt t.lowest v, highest := maxOpt t.highest v }
  | none => { t with invalid := t.invalid + 1 }

def State.takeFrequency (f : FrequencyValue) (s : State) : State :=
  { s with agg := { s.agg with acc := { s.agg.acc with frequency := s.agg.acc.frequency.take f } } }

/-- A missed report reaches the aggregator (R65). -/
def State.takeMiss (k : Kind) (s : State) : State :=
  { s with agg := { s.agg with acc := { s.agg.acc with missed := s.agg.acc.missed.add k } } }

/-- Causes joined. -/
def Truncation.join (a b : Truncation) : Truncation where
  timeStep := a.timeStep || b.timeStep
  start := a.start || b.start
  holdup := a.holdup || b.holdup
  lengthChange := a.lengthChange || b.lengthChange

/-- A step of the clock or entry to HOLDUP cuts the open interval: not empty, it closes with the cause; the interval
then open carries the cause (R68, R71). -/
def State.cutInterval (cause : Truncation) (s : State) : State :=
  let marked := { s with agg := { s.agg with acc := { s.agg.acc with causes := s.agg.acc.causes.join cause } } }
  match s.agg.acc.fixed with
  | none => marked
  | some f => marked.closeInterval false f cause

/-- A window value set reaches the link unit: it joins the watch FIFO, or is dropped and counted (R186), and the
transmitter chooses (R176). -/
def Link.joinFifo (base : Option Nat) (w : WindowSet) (l : Link) : Link :=
  match l.watch with
  | none => l
  | some _ =>
    if l.fifo.length < watchDepth then { l with fifo := l.fifo ++ [w] }.choose base
    else
      { l with
        dropCount := count32 l.dropCount
        counters := { l.counters with watchDrop := countSat l.counters.watchDrop } }

end Sys2Proof.Machine
end

