-- ==== Sys2Proof/Machine/Time.lean ====
section
/-!
DEFINITION. The timebase (sections 8.1 and 8.2): the running clock, SET_TIME, steps, the arrival list, and the
settling of a COLD start's epoch.
-/

namespace Sys2Proof.Machine

/-- The clock's time in milliseconds. -/
def State.nowMs (s : State) : Nat := s.time.sec * 1000 + s.time.ms

/-- One millisecond (R149). -/
def Timebase.tick (t : Timebase) : Timebase :=
  if t.ms + 1 < 1000 then { t with ms := t.ms + 1 }
  else { t with ms := 0, sec := if t.sec + 1 < 2 ^ 32 then t.sec + 1 else Config.clockPast }

/-- Times the clock has reached leave the list and are delivered to the case unit in list order (R153). -/
def State.deliverReached (s : State) : State :=
  let now := s.nowMs
  let due := s.time.arrivals.filter fun a => decide (a.at_ms ≤ now)
  { s with
    time := { s.time with arrivals := s.time.arrivals.filter fun a => decide (now < a.at_ms) }
    reports := { s.reports with timeToCases := s.reports.timeToCases ++ due.map fun a => .arrival a.caseNo a.kind } }

/-- Insert behind the times at or before it (R153). -/
def insertArrival (a : Arrival) : List Arrival → List Arrival
  | [] => [a]
  | b :: rest => if a.at_ms < b.at_ms then a :: b :: rest else b :: insertArrival a rest

/-- A time is registered: delivered at once when the clock has reached it (R153). -/
def State.register (atMs caseNo : Nat) (k : ArrivalKind) (s : State) : State :=
  if atMs ≤ s.nowMs then
    { s with reports := { s.reports with timeToCases := s.reports.timeToCases ++ [.arrival caseNo k] } }
  else { s with time := { s.time with arrivals := insertArrival ⟨atMs, caseNo, k⟩ s.time.arrivals } }

/-- The times registered for a case are withdrawn, those whose arrival is in flight among them (R137). -/
def State.withdraw (caseNo : Nat) (which : ArrivalKind → Bool) (s : State) : State :=
  { s with
    time := { s.time with arrivals := s.time.arrivals.filter fun a => !(a.caseNo == caseNo && which a.kind) }
    reports :=
      { s.reports with
        timeToCases := s.reports.timeToCases.filter fun c =>
          match c with
          | .step => true
          | .arrival n k => !(n == caseNo && which k) } }

/-- The epoch after a step (R152). -/
def Epoch.raise : Epoch → Epoch
  | .settled n => .settled ((n + 1) % 65536)
  | .unsettled k => .unsettled (k + 1)

/-- The CLOCK condition (R155). -/
def State.clockCondition (s : State) : Bool := s.supply.cellLow || !s.time.qualitySet

/-- The CLOCK condition is reported to the link unit when it begins or ceases (R155). -/
def State.reportClock (s : State) : State := { s with link := s.link.judgeClock s.clockCondition }

/-- A step of the clock to a new time (R152). -/
def State.stepClock (new : WTime) (s : State) : State :=
  let old := s.now
  let e := s.time.epoch.raise
  let s1 := State.reportClock
    { s with time := { s.time with sec := new.sec, ms := new.ms, epoch := e, qualitySet := true } }
  let s2 := s1.queueMarker (.timeSet old s1.now)
  State.deliverReached
    { s2 with
      reports :=
        { s2.reports with
          stepToTracker := s2.reports.stepToTracker ++ [e]
          stepToAggregator := s2.reports.stepToAggregator + 1
          timeToCases := s2.reports.timeToCases ++ [.step] } }

/-- A new time lies within one second of the clock (R151). -/
def State.withinSecond (new : WTime) (s : State) : Bool :=
  decide (new.toMs ≤ s.nowMs + 1000 ∧ s.nowMs ≤ new.toMs + 1000)

/-- SET_TIME is taken by the timebase: a correction, or a step (R151). -/
def State.setClock (new : WTime) (s : State) : State :=
  if s.time.qualitySet && s.withinSecond new then
    State.deliverReached { s with time := { s.time with sec := new.sec, ms := new.ms } }
  else s.stepClock new

/-- The epoch of a COLD start is settled from the epoch of the newest record, if the log holds one (R154). -/
def Timebase.settle (newest : Option Nat) (t : Timebase) : Timebase :=
  match t.epoch with
  | .settled _ => t
  | .unsettled k =>
    let base := match newest with
      | some n => (n + 1) % 65536
      | none => 1
    { t with base := some base, epoch := .settled ((base + k) % 65536) }

end Sys2Proof.Machine
end

