-- ==== Sys2Proof/Machine/Cases.lean ====
section
/-!
DEFINITION. The case unit (chapter 7) and the hold sets of the block index table: holds, the scan walk, tallies,
arrivals, gaps, and the reload after a start. Nothing here takes a job of the store writer.
-/

namespace Sys2Proof.Machine

/-! ## The case table (R122) -/

def State.case (i : Nat) (s : State) : Option CaseSlot := slotAt s.cases.slots i

def State.modifyCase (f : CaseSlot → CaseSlot) (i : Nat) (s : State) : State :=
  { s with cases := { s.cases with slots := modifySlot f i s.cases.slots } }

/-- The slot that holds a case number. -/
def State.findCase (no : Nat) (s : State) : Option (Nat × CaseSlot) :=
  (filled s.cases.slots).find? fun c => c.2.caseNo == no

/-- The window end in milliseconds; an open-ended window runs to the present (R122). -/
def CaseSlot.endMs (now : Nat) (c : CaseSlot) : Nat :=
  match c.finish with
  | some t => t.toMs
  | none => now

/-- The window includes the present time (R143). -/
def CaseSlot.includes (now : Nat) (c : CaseSlot) : Bool :=
  decide (c.start.toMs ≤ now) && (match c.finish with | some t => decide (now ≤ t.toMs) | none => true)

def CaseSlot.scanning (c : CaseSlot) : Bool := c.state == .waiting || c.state == .running

/-- A time span overlaps the case's window (R127, R133). -/
def CaseSlot.touches (now lo hi : Nat) (c : CaseSlot) : Bool :=
  decide (lo ≤ c.endMs now ∧ c.start.toMs ≤ hi)

/-- Change every occupied slot that passes a test; whether any changed. -/
def State.flagCases (set : CaseSlot → CaseSlot) (s : State) : State :=
  let slots := s.cases.slots.map (Option.map set)
  let s' := { s with cases := { s.cases with slots := slots } }
  if slots == s.cases.slots then s' else s'.queueImage .cases

/-! ## The log's times (R103) -/

/-- The lowest earliest over the blocks that hold records, in seconds. -/
def Store.oldestTime (st : Store) : Option Nat :=
  minOf (st.index.filterMap fun e => if e.holdsRecords then e.earliest else none)

/-- The highest latest over the blocks that hold records, in seconds. -/
def Store.newestTime (st : Store) : Option Nat :=
  maxOf (st.index.filterMap fun e => if e.holdsRecords then e.latest else none)

/-! ## Holds (R127) -/

/-- A block's span overlaps a case's window. -/
def BlockEntry.overlaps (now : Nat) (c : CaseSlot) (e : BlockEntry) : Bool :=
  match e.firstRecord, e.earliest, e.latest with
  | some _, some lo, some hi => c.touches now (lo * 1000) (hi * 1000)
  | _, _, _ => false

def slotBit (i : Nat) : BitVec 8 := BitVec.ofNat 8 (2 ^ i)

/-- The hold test of one block for one slot (R127). -/
def BlockEntry.judge (now slot : Nat) (c : CaseSlot) (e : BlockEntry) : BlockEntry :=
  if e.overlaps now c then
    if e.state == .erasing then e else { e with holds := e.holds ||| slotBit slot }
  else { e with holds := e.holds &&& ~~~ slotBit slot }

/-- An overlapping block was ERASING (R127). -/
def BlockEntry.missed (now : Nat) (c : CaseSlot) (e : BlockEntry) : Bool := e.overlaps now c && e.state == .erasing

/-- EVIDENCE_LOST on a case; a newly set flag asks for a CASE image (R144). -/
def State.loseEvidence (slot : Nat) (s : State) : State :=
  match s.case slot with
  | none => s
  | some c =>
    if c.evidenceLost then s
    else (s.modifyCase (fun c => { c with evidenceLost := true }) slot).queueImage .cases

/-- A place request changes the hold sets (R127). -/
def Store.place (now slot : Nat) (c : CaseSlot) (st : Store) : Store :=
  { st with index := st.index.map (BlockEntry.judge now slot c) }

/-- A place request for an occupied slot; the answer's report of an ERASING block sets EVIDENCE_LOST (R127, R128). DESIGN CHOICE
(log 50): the window of the request alone decides what overlaps, as R127 states; a block that overlapped the old window only
and is being erased sets nothing, though R128's last sentence names it. -/
def State.placeHolds (slot : Nat) (s : State) : State :=
  match s.case slot with
  | none => s
  | some c =>
    let s' := { s with store := s.store.place s.nowMs slot c }
    if s.store.index.any (BlockEntry.missed s.nowMs c) then s'.loseEvidence slot else s'

/-- A judge-block request (R127). -/
def State.judgeBlock (slot block : Nat) (s : State) : State :=
  match s.case slot with
  | none => s
  | some c =>
    let s' := { s with store := s.store.modifyBlock (BlockEntry.judge s.nowMs slot c) block }
    match s.store.block block with
    | none => s'
    | some e => if e.missed s.nowMs c then s'.loseEvidence slot else s'

/-- A remove request (R127). -/
def State.removeHolds (slot : Nat) (s : State) : State :=
  { s with store := { s.store with index := s.store.index.map fun e => { e with holds := e.holds &&& ~~~ slotBit slot } } }

def judgeForSlots (block : Nat) : List Nat → State → State
  | [], s => s
  | i :: rest, s => judgeForSlots block rest (s.judgeBlock i block)

/-- A block's span has changed: it is judged for every occupied slot, in slot order (R128). -/
def State.spanChanged (block : Nat) (s : State) : State :=
  judgeForSlots block ((filled s.cases.slots).map (·.1)) s

def placeForSlots : List Nat → State → State
  | [], s => s
  | i :: rest, s => placeForSlots rest (s.placeHolds i)

/-! ## Tallies (section 7.5) -/

/-- The time extent of a record in milliseconds: the span between its two times, whichever comes first, since a correction
of the clock may set the later one before the earlier (R76, R133, R151). -/
def Record.extent : Record → Nat × Nat
  | .disturbance r =>
    match r.finish with
    | some f => (min r.start.toMs f.toMs, max r.start.toMs f.toMs)
    | none => (r.start.toMs, r.start.toMs)
  | .interval r => (min r.start.toMs r.stamp.toMs, max r.start.toMs r.stamp.toMs)
  | .marker r => (r.stamp.toMs, r.stamp.toMs)

/-- A record is covered by a case (R133). -/
def CaseSlot.covers (now : Nat) (r : Record) (c : CaseSlot) : Bool :=
  c.touches now r.extent.1 r.extent.2 &&
    match r with
    | .disturbance d => d.phases.meets c.phases
    | _ => true

/-- The duration band D1 to D5, counted from 0; absent below 10 ms (R134). -/
def durationBand (d : Nat) : Option Nat :=
  if d < 10 then none
  else if d < 200 then some 0
  else if d < 1000 then some 1
  else if d < 10000 then some 2
  else if d < 60000 then some 3
  else some 4

/-- The residual band RB1 to RB5, counted from 0; absent at 9000 or more (R134). -/
def residualBand (r : Nat) : Option Nat :=
  if 9000 ≤ r then none
  else if 8000 ≤ r then some 0
  else if 6000 ≤ r then some 1
  else if 3000 ≤ r then some 2
  else if 500 ≤ r then some 3
  else some 4

/-- The swell band S1 or S2, counted from 0; absent below 11000 (R134). -/
def swellBand (h : Nat) : Option Nat :=
  if h < 11000 then none else if h < 12000 then some 0 else some 1

/-- The bin of a band and a duration (R134). -/
def binOf (band : Nat → Option Nat) (m : Option Measured) (d : Option Nat) : Option Nat :=
  match m, d with
  | some m, some d =>
    match band m.percent, durationBand d with
    | some i, some j => some (5 * i + j)
    | _, _ => none
  | _, _ => none

/-- A covered DISTURBANCE record into the table (R134). -/
def Settlement.disturbance (r : DisturbanceRecord) (t : Settlement) : Settlement :=
  if r.flags.endUnknown then { t with endUnknown := count32 t.endUnknown }
  else
    match r.kind with
    | .rvc => { t with rvc := count32 t.rvc }
    | .swell =>
      match binOf swellBand r.extreme r.duration with
      | some b => { t with swellBins := modifyAt count32 b t.swellBins }
      | none => { t with swellOther := count32 t.swellOther }
    | .dip =>
      match binOf residualBand r.extreme r.duration with
      | some b => { t with dipBins := modifyAt count32 b t.dipBins }
      | none => { t with dipOther := count32 t.dipOther }
    | .interruption =>
      match binOf residualBand r.extreme r.duration with
      | some b => { t with dipBins := modifyAt count32 b t.dipBins }
      | none => { t with interruptionOther := count32 t.interruptionOther }

/-- One phase's mean of a covered INTERVAL record (R135). -/
def PhaseStatistics.take (r : IntervalRecord) (mean : Nat) (p : PhaseStatistics) : PhaseStatistics where
  withMean := count32 p.withMean
  outside := if outsideBand r.udecl r.tolerance mean then count32 p.outside else p.outside
  lowest := minOpt p.lowest mean
  highest := maxOpt p.highest mean

/-- A covered INTERVAL record into the table (R135). -/
def Settlement.interval (interest : PhaseSet) (r : IntervalRecord) (t : Settlement) : Settlement :=
  { t with
    intervals := count32 t.intervals
    flaggedIntervals := if 0 < r.flagged then count32 t.flaggedIntervals else t.flaggedIntervals
    phases := t.phases.mapP fun p st =>
      match (r.phases.get p).mean with
      | some m => if interest.has p && r.fitted.has p then st.take r m else st
      | none => st }

/-- Sequence numbers a record list holds (R122). -/
def listDepth : Nat := 512

/-- A number enters the record list, or LIST_FULL is set (R134). -/
def CaseSlot.list_ (seq : Nat) (c : CaseSlot) : CaseSlot :=
  if c.list.length < listDepth then { c with list := insertAsc seq c.list } else { c with listFull := true }

/-- A record is tallied when the case covers it (R133). -/
def CaseSlot.tally (now : Nat) (r : Record) (c : CaseSlot) : CaseSlot :=
  if !c.covers now r then c
  else
    match r with
    | .disturbance d => CaseSlot.list_ d.seq { c with table := c.table.disturbance d }
    | .interval i => { c with table := c.table.interval c.phases i }
    | .marker m =>
      match m.body with
      | .supplyLoss _ => { c with table := { c.table with supplyLoss := count32 c.table.supplyLoss } }
      | _ => c

/-- An empty settlement table. -/
def Settlement.zero : Settlement where
  dipBins := List.replicate 25 0
  swellBins := List.replicate 10 0
  dipOther := 0
  interruptionOther := 0
  swellOther := 0
  rvc := 0
  supplyLoss := 0
  endUnknown := 0
  intervals := 0
  flaggedIntervals := 0
  phases := Tri.all ⟨0, 0, none, none⟩

/-- The live tally of a delivered record: cases with a horizon below its number (R136). -/
def CaseSlot.live (now : Nat) (r : Record) (c : CaseSlot) : CaseSlot :=
  match c.horizon with
  | some h => if h < r.seq then c.tally now r else c
  | none => c

/-- A committed CASE_OPENED marker is noted by the case it names (R144). -/
def State.noteOpening (r : Record) (s : State) : State :=
  match r with
  | .marker ⟨seq, _, .caseOpened slot no _ _ _⟩ =>
    match s.case slot with
    | some c =>
      if c.caseNo = no ∧ c.openingMarker = none then
        (s.modifyCase (fun c => { c with openingMarker := some seq }) slot).queueImage .cases
      else s
    | none => s
  | _ => s

/-- A committed record is delivered to the case unit (R124, R136, R144). -/
def State.deliver (r : Record) (s : State) : State :=
  State.noteOpening r
    { s with
      cases :=
        { s.cases with
          highWater := some r.seq
          slots := s.cases.slots.map (Option.map (CaseSlot.live s.nowMs r)) } }

/-! ## The scan (section 7.4) -/

/-- A block is due to a scan (R130). -/
def BlockEntry.due (slot horizon : Nat) (e : BlockEntry) : Bool :=
  e.holds &&& slotBit slot != 0 && e.blockSeq.isSome &&
    match e.firstRecord with
    | some f => decide (f ≤ horizon)
    | none => false

/-- The due block with the lowest block sequence above a bound, as sequence and block (R130). -/
def Store.nextDue (slot horizon above : Nat) (st : Store) : Option (Nat × Nat) :=
  (sortBy (·.1) (st.blocks.filterMap fun (b, e) =>
    match e.blockSeq with
    | some q => if e.due slot horizon && decide (above < q) then some (q, b) else none
    | none => none)).head?

/-- The case leaves SCANNING: ENDED when its window end has passed, else LIVE; CASE is latched and a CASE image
asked for (R129). -/
def State.scanFinished (slot : Nat) (s : State) : State :=
  let now := s.nowMs
  let done (c : CaseSlot) : CaseSlot :=
    { c with state := match c.finish with
        | some t => if t.toMs ≤ now then .ended else .live
        | none => .live }
  (({ s with cases := { s.cases with engine := none } }.modifyCase done slot).latch .caseCause).queueImage .cases

/-- The lowest-numbered WAITING case (R129). -/
def State.waitingCase (s : State) : Option Nat :=
  ((filled s.cases.slots).find? fun c => c.2.state == .waiting).map (·.1)

/-- The case's scan begins: its horizon is taken and its tallies are zero (R129). -/
def CaseSlot.begin (highWater : Nat) (c : CaseSlot) : CaseSlot :=
  { c with
    state := .running, horizon := some highWater, table := Settlement.zero, list := [], listFull := false
    unreadable := 0 }

/-- The walk goes to the next due block above a block sequence, or finishes (R130). -/
def State.walkFrom (slot above : Nat) (s : State) : State :=
  match s.case slot with
  | none => { s with cases := { s.cases with engine := none } }
  | some c =>
    match s.store.nextDue slot (optNum c.horizon) above with
    | some (q, b) => { s with cases := { s.cases with engine := some ⟨slot, q, b, 1, true⟩ } }
    | none => s.scanFinished slot

/-- While the engine is IDLE and the start-up scan has concluded, it takes the lowest WAITING case; a case with no due
block finishes at once and the next is taken (R129). -/
def State.serveQueue : (fuel : Nat) → State → State
  | 0, s => s
  | n + 1, s =>
    if s.cases.engine.isSome || s.store.scan.isSome then s
    else
      match s.waitingCase with
      | none => s
      | some i => State.serveQueue n ((s.modifyCase (CaseSlot.begin (optNum s.cases.highWater)) i).walkFrom i 0)

/-- Every slot can finish at most once in a row. -/
def State.runScans (s : State) : State := s.serveQueue (Config.caseCount + 1)

/-- What a page read back holds, as its requester sees it (R91, R198). -/
inductive PageView where
  | blank
  | unreadable
  | page (d : PageData)
deriving DecidableEq, Repr

/-- The records of a page at or below the horizon are tallied (R131). -/
def CaseSlot.tallyPage (now : Nat) (records : List (Nat × List Byte)) (c : CaseSlot) : CaseSlot :=
  records.foldl
    (fun c r => if r.1 ≤ optNum c.horizon then
        match recordOf r.2 with
        | some rec_ => c.tally now rec_
        | none => c
      else c) c

/-- The next page of the walk; page 127 ends the block (R130). -/
def State.nextPage (e : Engine) (s : State) : State :=
  if e.page + 1 < Config.pagesPerBlock then
    { s with cases := { s.cases with engine := some { e with page := e.page + 1, asking := true } } }
  else s.walkFrom e.slot e.blockSeq

def CaseSlot.unreadablePage (c : CaseSlot) : CaseSlot := { c with unreadable := count32 c.unreadable }

/-- The scan treats one page result (R131). -/
def State.scanResult (v : PageView) (s : State) : State :=
  match s.cases.engine with
  | none => s
  | some e =>
    match v with
    | .blank => (s.walkFrom e.slot e.blockSeq).runScans
    | .unreadable => ((s.modifyCase CaseSlot.unreadablePage e.slot).nextPage e).runScans
    | .page (.records count first _ _ body) =>
      match s.case e.slot with
      | none => (s.walkFrom e.slot e.blockSeq).runScans
      | some c =>
        match recordsOnPage count first body with
        | none => ((s.modifyCase CaseSlot.unreadablePage e.slot).nextPage e).runScans
        | some records =>
          if optNum c.horizon < first then (s.walkFrom e.slot e.blockSeq).runScans
          else ((s.modifyCase (CaseSlot.tallyPage s.nowMs records) e.slot).nextPage e).runScans
    | .page _ => (s.nextPage e).runScans

/-! ## Gaps and steps (R140, R143) -/

/-- A loss or missed report: GAP on every case that is LIVE, or SCANNING with a window that includes the present
(R143). Before the table is reloaded the pending gap mark is set. -/
def State.gapReport (s : State) : State :=
  if !s.cases.loaded then { s with cases := { s.cases with pendingGap := true } }
  else
    s.flagCases fun c =>
      if c.state == .live || (c.scanning && c.includes s.nowMs) then { c with gap := true } else c

/-- A step report: TIME_STEPPED on every case that is LIVE or SCANNING (R140). -/
def State.stepCases (s : State) : State :=
  s.flagCases fun c => if c.state == .live || c.scanning then { c with timeStepped := true } else c

/-! ## Arrivals, closing (R138, R139, R141) -/

/-- The 31-day limit of an open-ended case, in milliseconds (R137). -/
def CaseSlot.limitMs (c : CaseSlot) : Nat := c.start.toMs + Config.monthSeconds * 1000

/-- The times registered for a case (R137). -/
def State.registerCase (c : CaseSlot) (s : State) : State :=
  let s1 := if c.state == .pending then s.register c.start.toMs c.caseNo .start else s
  match c.finish with
  | some t => s1.register t.toMs c.caseNo .finish
  | none => s1.register c.limitMs c.caseNo .limit

/-- A LIVE case becomes ENDED: CASE is latched and a CASE image asked for (R123, R144). -/
def State.endCase (slot : Nat) (s : State) : State :=
  ((s.modifyCase (fun c => { c with state := .ended }) slot).latch .caseCause).queueImage .cases

/-- The window end is set, by CLOSE_CASE or at the 31-day limit: registered end and limit are withdrawn, holds judged
again, CASE_CLOSED and a CASE image queued, and a LIVE case ends (R137, R139, R141). -/
def State.setEnd (slot : Nat) (c : CaseSlot) (finish : WTime) (s : State) : State :=
  let s1 := (s.withdraw c.caseNo fun k => k != .start).modifyCase (fun c => { c with finish := some finish }) slot
  let s2 := ((s1.placeHolds slot).queueMarker (.caseClosed slot c.caseNo finish)).queueImage .cases
  if c.state == .live then s2.endCase slot else s2

/-- A clock arrival reaches the case unit (R137 to R139). -/
def State.takeArrival (no : Nat) (k : ArrivalKind) (s : State) : State :=
  match s.findCase no with
  | none => s
  | some (i, c) =>
    match k with
    | .start =>
      if c.state == .pending then (s.modifyCase (fun c => { c with state := .live }) i).queueImage .cases else s
    | .finish => if c.state == .live then s.endCase i else s
    | .limit =>
      match c.finish with
      | some _ => s
      | none => s.setEnd i c ⟨c.start.sec + Config.monthSeconds, c.start.ms⟩

/-! ## Reload after a start (R144, R145) -/

def ImageCaseState.load : ImageCaseState → CaseState
  | .pending => .pending
  | .scanning => .waiting
  | .live => .live
  | .ended => .ended

def CaseState.image : CaseState → ImageCaseState
  | .pending => .pending
  | .waiting | .running => .scanning
  | .live => .live
  | .ended => .ended

/-- A case as a CASE image records it (R144). -/
def CaseSlot.image (base : Option Nat) (c : CaseSlot) : ImageCase where
  caseNo := c.caseNo
  start := c.start
  finish := c.finish
  phases := c.phases
  state := c.state.image
  opened := c.opened.resolve base
  openingMarker := c.openingMarker
  headLost := c.headLost
  evidenceLost := c.evidenceLost
  gap := c.gap
  timeStepped := c.timeStepped

/-- A case as a CASE image gives it back: zero tallies, no horizon (R145). -/
def ImageCase.load (i : ImageCase) : CaseSlot where
  caseNo := i.caseNo
  start := i.start
  finish := i.finish
  phases := i.phases
  state := i.state.load
  opened := i.opened
  openingMarker := i.openingMarker
  horizon := none
  headLost := i.headLost
  evidenceLost := i.evidenceLost
  gap := i.gap
  timeStepped := i.timeStepped
  unreadable := 0
  table := Settlement.zero
  list := []
  listFull := false

/-- GAP of a start: the window includes the start time stamp (R143). -/
def CaseSlot.startGap (startMs : Nat) (c : CaseSlot) : CaseSlot :=
  if c.includes startMs then { c with gap := true } else c

/-- A reloaded case is judged: SCANNING, but a PENDING case whose window start lies after the start time stamp stays
PENDING (R145). -/
def CaseSlot.judgeReloaded (startMs : Nat) (c : CaseSlot) : CaseSlot :=
  if c.state == .pending && decide (startMs < c.start.toMs) then c else { c with state := .waiting }

/-- The table is reloaded when the scan has read the settings area (R145). The changes ask for a CASE image. -/
def State.reloadCases (image : Option (List (Option ImageCase))) (s : State) : State :=
  let slots := match image with
    | some l => l.map (Option.map ImageCase.load)
    | none => List.replicate Config.caseCount none
  let s1 := { s with cases := { s.cases with slots := slots, loaded := true, pendingGap := false } }
  let startMs := s.supply.startStamp.toMs
  let s2 := s1.flagCases (CaseSlot.startGap startMs)
  let s3 := if s.cases.pendingGap then s2.gapReport else s2
  s3.flagCases (CaseSlot.judgeReloaded startMs)

/-- A PENDING case whose window start is not later than the log's newest time becomes SCANNING (R145). -/
def CaseSlot.judgeNewest (newest : Option Nat) (c : CaseSlot) : CaseSlot :=
  match newest with
  | some n => if c.state == .pending && decide (c.start.toMs ≤ n * 1000) then { c with state := .waiting } else c
  | none => c

def registerAll : List (Nat × CaseSlot) → State → State
  | [], s => s
  | (_, c) :: rest, s => registerAll rest (s.registerCase c)

/-- The case unit at the conclusion of the start-up scan (R145, R137). The engine takes the queue when the scan is
over. -/
def State.concludeCases (highWater : Nat) (s : State) : State :=
  let s1 := { s with cases := { s.cases with highWater := some highWater } }
  let s2 := placeForSlots ((filled s1.cases.slots).map (·.1)) s1
  let s3 := s2.flagCases (CaseSlot.judgeNewest s2.store.newestTime)
  let take (c : CaseSlot) : CaseSlot := if c.state == .pending then { c with horizon := some highWater } else c
  let s4 := { s3 with cases := { s3.cases with slots := s3.cases.slots.map (Option.map take) } }
  registerAll (filled s4.cases.slots) s4

end Sys2Proof.Machine
end

