-- ==== Sys2Proof/Machine/Store.lean ====
section
/-!
DEFINITION. The store controller apart from its jobs: store state and urgency (R105, R111), activation (R86),
retirement (R89), the export mark and the unexported list (R119, R120), the records it builds, and commits (R81).
-/

namespace Sys2Proof.Machine

def State.modifyStore (f : Store → Store) (s : State) : State := { s with store := f s.store }

/-! ## Urgency and store state -/

/-- The urgency for a count of free blocks, MUST holding until F ≥ 10 (R105). -/
def urgencyOf (previous : Urgency) (free : Nat) : Urgency :=
  if free ≤ 5 then .must
  else if previous = .must ∧ free < 10 then .must
  else if free ≤ 15 then .need
  else if free ≤ 23 then .may
  else .none

/-- The store state (R111). -/
def Store.stateOf (st : Store) : StoreState :=
  if Config.badLimit ≤ st.badCount then .readOnly
  else if st.format.isSome then .formatting
  else if st.free ≤ 4 ∧ st.hasUnheldFull = false then .heldFull
  else .writable

/-- What a review of the store state judges (R111). -/
def Store.reviewKey (st : Store) : StoreReview where
  free := st.free
  bad := st.badCount
  holds := st.index.map (·.holds)
  formatting := st.format.isSome

/-- A review of the store state is due: F, the BAD count or a hold set has changed since the last, a format has begun or
ended, or none has been made since the start. In HELD_FULL it is due too when a FULL block comes to have an empty hold set, an
ACTIVE block that becomes FULL without a hold among them (R111, R112, log 38). -/
def Store.reviewDue (st : Store) : Bool :=
  st.reviewed != some st.reviewKey || (st.state == .heldFull && st.hasUnheldFull)

/-- Entry to HELD_FULL or READ_ONLY is reported (R111); READ_ONLY withdraws a proposal (R119) and ends a format, whose
end is reported too (R98). -/
def State.enterStore (old new : StoreState) (s : State) : State :=
  if old = new then s
  else
    match new with
    | .heldFull => s.latch .store
    | .readOnly => ((s.modifyStore fun st => { st with format := none }).latch .store).withdrawProposal .readOnly
    | _ => s

/-- The review of urgency, which F alone decides, and of the store state when one is due. The state is not reviewed while the
direct image of R113 is to be written, and nothing before the start-up scan has concluded. -/
def State.review (s : State) : State :=
  if s.store.scan.isSome then s
  else
    let u := urgencyOf s.store.urgency s.store.free
    let s1 := if u = .must ∧ s.store.urgency ≠ .must then s.latch .store else s
    let s2 := s1.modifyStore fun st => { st with urgency := u }
    if s.store.direct.isSome || !s.store.reviewDue then s2
    else
      let new := s2.store.stateOf
      (s2.modifyStore fun st => { st with state := new, reviewed := some st.reviewKey }).enterStore s.store.state new

/-! ## Reclaim (R109) -/

/-- A block is eligible for a reclaim step; at MAY an unexported block is not. -/
def BlockEntry.eligible (u : Urgency) (e : BlockEntry) : Bool :=
  e.state == .full && e.holds == 0 && !(u == .may && e.unexported.isSome)

/-- The eligible block with the lowest block sequence (R109). -/
def Store.eligible (st : Store) : Option Nat :=
  ((sortBy (fun e => optNum e.2.blockSeq) (st.blocks.filter fun e => e.2.eligible st.urgency)).head?).map (·.1)

/-- A reclaim step of a level is waiting: never in HOLDUP or READ_ONLY (R106). -/
def State.reclaimWaits (u : Urgency) (s : State) : Option Nat :=
  if s.store.urgency = u ∧ s.inHoldup = false ∧ s.store.state ≠ .readOnly then s.store.eligible else none

/-! ## The settings images (R99, R196) -/

/-- The image of the settings section and the store controller, with the proposed mark while one exists (R119). -/
def State.settingsImage (s : State) : SettingsImage where
  set := s.settings.active
  generation := s.settings.generation
  identity := s.store.identity
  floor := s.store.floor
  exportMark := s.store.proposed.getD s.store.exportMark
  badList := s.store.badList

def State.caseImage (s : State) : List (Option ImageCase) :=
  s.cases.slots.map (Option.map (CaseSlot.image s.time.base))

/-- The next image counter: one above the highest held in the settings area (R99). -/
def Store.nextCounter (st : Store) : Nat := count32 st.imageCounter

/-- The page of an image of a kind, built from the state as it stands, with the next image counter (R99). -/
def State.imagePage (k : ImageKind) (s : State) : PageData :=
  match k with
  | .settings => .settings s.store.nextCounter s.settingsImage
  | .cases => .cases s.store.nextCounter s.caseImage

/-- An image with a counter. -/
def PageData.recount (counter : Nat) : PageData → PageData
  | .settings _ i => .settings counter i
  | .cases _ i => .cases counter i
  | d => d

/-- The counter of an image. -/
def PageData.counter : PageData → Option Nat
  | .settings c _ | .cases c _ => some c
  | _ => none

/-- The image work for a kind, built now; its counter is settled when a page of it is programmed (log 22). -/
def State.imageWork (k : ImageKind) (who : ImageWho) (s : State) : ImageWork where
  kind := k
  who := who
  data := s.imagePage k
  stage := .own
  timeouts := 0

/-! ## Retirement (R89) -/

/-- A block is retired: marker, bad list, SETTINGS image, STORE. The 13th BAD block's image is written directly (R113). -/
def State.retire (block : Nat) (why : RetireReason) (s : State) : State :=
  let s1 := s.queueMarker (.blockRetired block why)
  let s2 := (s1.modifyStore fun st => { st with badList := insertAsc block st.badList }).latch .store
  if Config.badLimit ≤ s2.store.badCount then
    s2.modifyStore fun st => { st with direct := some (s2.imageWork .settings .direct) }
  else s2.queueImage .settings

/-! ## Activation (R86) -/

/-- One above the highest block sequence held in the table; 1 when none is held. -/
def Store.nextBlockSeq (st : Store) : Nat := optNum (maxOf (st.index.filterMap (·.blockSeq))) + 1

/-- The next operation of an activation: the header of an ERASED block, or the erase of a STALE one (R86). Absent when
F is 0. -/
def State.activate (s : State) : Option State :=
  match s.store.candidate with
  | none => none
  | some b =>
    match s.store.block b with
    | none => none
    | some e =>
      if e.state = .erased then
        some (s.modifyStore fun st =>
          { st with op := some (.program b 0 (.header b st.identity st.nextBlockSeq (s.now.resolve s.time.base)) .header) })
      else
        some (s.modifyStore fun st =>
          { st.modifyBlock (fun e => { e with state := .erasing, blockSeq := none }) b with
            op := some (.erase b .activation) })

/-- The header has been programmed: the block becomes ACTIVE (R86). -/
def State.activated (block seq : Nat) (s : State) : State :=
  s.modifyStore fun st =>
    { st.modifyBlock (fun e => { e with state := .active, blockSeq := some seq }) block with
      active := some (block, 1), activationDue := false }

/-- The ACTIVE block is ended as FULL (R79). -/
def State.endActive (s : State) : State :=
  match s.store.active with
  | none => s
  | some (b, _) => s.modifyStore fun st => { st.modifyBlock (fun e => { e with state := .full }) b with active := none }

/-- Blank pages left in the ACTIVE block. -/
def Store.blankPages (st : Store) : Nat :=
  match st.active with
  | none => 0
  | some (_, p) => Config.pagesPerBlock - p

/-- A job of `need` pages can begin: they fit, or a block can be activated (R79, R106). -/
def Store.canBegin (need : Nat) (st : Store) : Bool := decide (need ≤ st.blankPages) || decide (0 < st.free)

/-- The space check before a job's first page: too little room ends the ACTIVE block (R79). -/
def State.spaceCheck (need : Nat) (s : State) : State :=
  if need ≤ s.store.blankPages then s else s.endActive

/-- The next page of the ACTIVE block has been programmed; page 127 makes it FULL and activation due (R79). -/
def State.pageUsed (s : State) : State :=
  match s.store.active with
  | none => s
  | some (b, p) =>
    if p + 1 < Config.pagesPerBlock then s.modifyStore fun st => { st with active := some (b, p + 1) }
    else s.endActive.modifyStore fun st => { st with activationDue := true }

/-! ## The export mark (R119, R120) -/

/-- The newest numbers the unexported list holds (R120). -/
def unexportedDepth : Nat := 256

/-- A DISTURBANCE record above the mark joins the unexported list (R120). -/
def Store.joinUnexported (seq : Nat) (st : Store) : Store :=
  if st.exportMark < seq then
    if st.unexportedList.length < unexportedDepth then { st with unexportedList := st.unexportedList ++ [seq] }
    else { st with unexportedList := st.unexportedList.drop 1 ++ [seq], saturated := true }
  else st

/-- The export mark rises: bounds at or below it go, the list is cut, SATURATED clears when a number went (R85, R120). -/
def Store.raiseMark (mark : Nat) (st : Store) : Store :=
  let kept := st.unexportedList.filter fun n => decide (mark < n)
  { st with
    exportMark := mark
    index := st.index.map fun e =>
      match e.unexported with
      | some u => if u ≤ mark then { e with unexported := none } else e
      | none => e
    unexportedList := kept
    saturated := st.saturated && kept.length == st.unexportedList.length }

/-- The mark rises and the link unit judges EXPORT_READY (R183). -/
def State.raiseMark (mark : Nat) (s : State) : State := (s.modifyStore (Store.raiseMark mark)).judgeExport

/-- A SETTINGS image carrying the proposal has been programmed: the mark rises and the deferred reply is OK (R119). -/
def State.proposalDone (image : SettingsImage) (s : State) : State :=
  match s.store.proposed with
  | none => s
  | some m =>
    if image.exportMark = m then
      let s1 := (s.modifyStore fun st => { st with proposed := none }).raiseMark m
      match s1.link.slot with
      | some ⟨kind, _, none⟩ => if kind = 0x2A then s1.reply .ok [] else s1
      | _ => s1
    else s

/-! ## Records built by the writer (R24, R66, R77) -/

/-- The record of an entry as it stands (R24), before its capture is written. -/
def Entry.record (seq : Nat) (base : Option Nat) (x : Entry) : DisturbanceRecord where
  seq := seq
  kind := x.kind
  phases := x.phases
  start := x.start.resolve base
  finish := x.finish.map (TimeStamp.resolve base)
  halfCycles := x.halfCycles
  duration := x.duration
  extreme := x.extreme.map (measuredOfExtreme x.values.udecl)
  extremePhase := x.extremePhase
  perPhase := x.perPhase.mapP fun p e => if x.phases.has p then e.map (measuredOfExtreme x.values.udecl) else none
  steady := x.steady.map (measuredOfExtreme x.values.udecl)
  enclosing := x.enclosing.map fun e => e.2.resolve base
  generation := x.generation
  nested := x.nested
  flags := x.flags
  pageCount := 0
  triggerSegment := 0
  firstPage := (0, 0)
  trigger := none
  continuation := none

/-- The facts of a marker with their epochs settled (R154). -/
def MarkerBody.resolve (base : Option Nat) : MarkerBody → MarkerBody
  | .restart c t => .restart c (t.resolve base)
  | .timeSet a b => .timeSet (a.resolve base) (b.resolve base)
  | .supplyLoss items => .supplyLoss (items.map fun i => { i with start := i.start.resolve base })
  | b => b

/-- The body of a marker as its job builds it: SUPPLY_LOSS from the OPEN entries, LOSS from the counters as they stand
(R117, R159). -/
def State.markerFacts (facts : MarkerBody) (s : State) : MarkerBody :=
  match facts with
  | .supplyLoss _ =>
    (MarkerBody.supplyLoss (s.tracker.opened.map fun e => ⟨e.2.kind, e.2.phases, e.2.start⟩)).resolve s.time.base
  | .loss _ _ => .loss s.store.lost s.tracker.missed
  | b => b.resolve s.time.base

/-- Interval records with their numbers (R115). -/
def numberIntervals (base : Option Nat) : Nat → List IntervalRecord → List Record
  | _, [] => []
  | n, r :: rest =>
    .interval { r with seq := n, stamp := r.stamp.resolve base, start := r.start.resolve base }
      :: numberIntervals base (n + 1) rest

/-- Markers with their numbers (R115). -/
def State.numberMarkers (s : State) : Nat → List (TimeStamp × MarkerBody) → List Record
  | _, [] => []
  | n, (t, b) :: rest =>
    .marker ⟨n, t.resolve s.time.base, s.markerFacts b⟩ :: State.numberMarkers s (n + 1) rest

/-! ## Commit (R81, R84, R85) -/

/-- The index entry of a block that received a record (R84, R85). -/
def BlockEntry.take (mark : Nat) (r : Record) (e : BlockEntry) : BlockEntry :=
  { e with
    firstRecord := some (e.firstRecord.getD r.seq)
    lastRecord := some r.seq
    earliest := minOpt e.earliest (r.extent.1 / 1000)
    latest := maxOpt e.latest ((r.extent.2 + 999) / 1000)
    unexported := match r with
      | .disturbance d => if mark < d.seq then some d.seq else e.unexported
      | _ => e.unexported }

/-- A block's span after records (R84). -/
def BlockEntry.takeAll (mark : Nat) (records : List Record) (e : BlockEntry) : BlockEntry :=
  records.foldl (fun e r => e.take mark r) e

/-- The RECORDS page of a job's records for a block: its header gives the block's span widened by them (R84). -/
def Store.pageFor (records : List Record) (block : Nat) (st : Store) : PageData :=
  let e := ((st.block block).getD (BlockEntry.plain .active)).takeAll st.exportMark records
  let first := match records with
    | r :: _ => r.seq
    | [] => 0
  recordsPage records first (optNum e.earliest) (optNum e.latest)

/-- One committed record: the tracker has been told; it is on its way to the case unit, and the link unit recounts the
unexported evidence (R81, R120). -/
def State.reportCommit (r : Record) (s : State) : State :=
  let s1 := { s with reports := { s.reports with deliveries := s.reports.deliveries ++ [r] } }
  match r with
  | .disturbance d => (s1.modifyStore (Store.joinUnexported d.seq)).judgeExport
  | _ => s1.judgeExport

/-- The records of a programmed page are committed: reports, then the block index (R81, R84); a changed span is judged
for the holds (R128). -/
def State.commit (block : Nat) (records : List Record) (s : State) : State :=
  let s1 := records.foldl (fun s r => s.reportCommit r) s
  let old := s1.store.block block
  let s2 := s1.modifyStore fun st => st.modifyBlock (BlockEntry.takeAll st.exportMark records) block
  match old, s2.store.block block with
  | some a, some b =>
    if a.earliest = b.earliest ∧ a.latest = b.latest ∧ a.firstRecord.isSome = b.firstRecord.isSome then s2
    else s2.spanChanged block
  | _, _ => s2

end Sys2Proof.Machine
end

