-- ==== Sys2Proof/Machine/Images.lean ====
section
/-!
DEFINITION. Writing images in the settings area (R99 to R102, R113), and the steps of a format that images begin and
end (R97).
-/

namespace Sys2Proof.Machine

/-- The image work in hand: that of R113, or the running image job's. -/
def Store.work (direct : Bool) (st : Store) : Option ImageWork :=
  if direct then st.direct
  else
    match st.job with
    | some (.image w) => some w
    | _ => none

def Store.setWork (direct : Bool) (w : ImageWork) (st : Store) : Store :=
  if direct then { st with direct := some w } else { st with job := some (.image w) }

/-- The next page of the current settings block is programmed with an image, which takes the next counter (R99). -/
def Store.programImage (direct : Bool) (d : PageData) (st : Store) : Store :=
  { st with op := some (.program st.imageBlock st.imagePage (d.recount st.nextCounter) (.image direct)) }

/-- The next operation of an image work: its page in the current block, or the erase of the other block when the current
one has no blank page left (R100). -/
def State.issueImage (direct : Bool) (w : ImageWork) (s : State) : State :=
  let st := s.store
  match w.stage with
  | .other d _ => s.modifyStore (Store.programImage direct d)
  | _ =>
    if st.imagePage < Config.pagesPerBlock then s.modifyStore (Store.programImage direct w.data)
    else
      s.modifyStore fun st =>
        { st.setWork direct { w with stage := .erasing } with op := some (.erase (1 - st.imageBlock) (.settings direct)) }

/-- The format is over: STORE is latched for its end, and a log without an ACTIVE block activates one (R86); the store state is
reviewed by the writer (R97). -/
def State.endFormat (s : State) : State :=
  (s.modifyStore fun st => { st with format := none, activationDue := st.activationDue || st.active.isNone }).latch .store

/-- The log of a new identity begins: every BAD block loses its block sequence, record sequences and span, and erasing
starts at the first block (R97). -/
def State.beginErasing (image : SettingsImage) (s : State) : State :=
  s.modifyStore fun st =>
    { st with
      identity := image.identity
      floor := image.floor
      index := st.index.map fun e => if e.state == .bad then { e.cleared .bad with unexported := e.unexported } else e
      format := some (.erase Config.firstLogBlock)
      activationDue := false }

/-- An image work is over: the job ends, or R113 is done. -/
def State.dropWork (direct : Bool) (s : State) : State :=
  s.modifyStore fun st => if direct then { st with direct := none } else { st with job := none }

/-- An image work's own image has been programmed. -/
def State.workDone (direct : Bool) (w : ImageWork) (s : State) : State :=
  let s1 := s.dropWork direct
  match w.who, w.data with
  | .formatStart, .settings _ image => if s1.store.format.isSome then s1.beginErasing image else s1
  | .formatEnd, _ => if s1.store.format.isSome then s1.endFormat else s1
  | _, _ => s1

/-- An image is discarded in the settings area: STORE_FAULT, STORE, a lost marker, and a proposal it carried is
withdrawn (R102, R119). -/
def State.loseImage (d : PageData) (s : State) : State :=
  let s1 := ((s.modifyStore fun st => { st with storeFault := true }).latch .store).raiseLoss .marker 1
  match s.store.proposed with
  | some m => if d.carries m then s1.withdrawProposal .busyStore else s1
  | none => s1

/-- An image work is discarded; a format whose first image is discarded ends there, one whose last is discarded
completes (R97, R102). -/
def State.workFailed (direct : Bool) (w : ImageWork) (s : State) : State :=
  let s1 := (s.dropWork direct).loseImage w.data
  match w.who with
  | .formatStart | .formatEnd => if s1.store.format.isSome then s1.endFormat else s1
  | _ => s1

/-- What an image page programmed means for the store (R92, R97, R119). -/
def State.imageWritten (d : PageData) (s : State) : State :=
  match d with
  | .settings _ image => (s.modifyStore fun st => { st with haveSettingsImage := true }).proposalDone image
  | .cases _ _ => s.modifyStore fun st => { st with haveCaseImage := true }
  | _ => s

/-- An image page has been programmed: its counter is the highest held in the settings area (R99, R100). -/
def State.imageProgrammed (direct : Bool) (d : PageData) (s : State) : State :=
  let s1 := (s.modifyStore fun st =>
    { st with imagePage := st.imagePage + 1, imageCounter := d.counter.getD st.imageCounter }).imageWritten d
  match s1.store.work direct with
  | none => s1
  | some w =>
    match w.stage with
    | .other _ _ => s1.modifyStore (Store.setWork direct { w with stage := .own })
    | _ => s1.workDone direct w

/-- A page of an image has timed out: the next page is tried once; a second timeout discards the image (R102). A page that
timed out is abandoned and counts as holding no counter (log 22). -/
def State.imageTimedOut (direct : Bool) (s : State) : State :=
  let s1 := s.modifyStore fun st => { st with imagePage := st.imagePage + 1 }
  match s1.store.work direct with
  | none => s1
  | some w =>
    match w.stage with
    | .other d n =>
      if n = 0 then s1.modifyStore (Store.setWork direct { w with stage := .other d 1 })
      else (s1.modifyStore (Store.setWork direct { w with stage := .own })).loseImage d
    | _ =>
      if w.timeouts = 0 then s1.modifyStore (Store.setWork direct { w with timeouts := 1 })
      else s1.workFailed direct w

def ImageKind.otherKind : ImageKind → ImageKind
  | .settings => .cases
  | .cases => .settings

def Store.hasImage (k : ImageKind) (st : Store) : Bool :=
  match k with
  | .settings => st.haveSettingsImage
  | .cases => st.haveCaseImage

/-- The other settings block has been erased: it takes an image of the kind not being written, when one exists, and
then the work's own, each with the counter next at its program (R99, R100). -/
def State.settingsErased (direct : Bool) (block : Nat) (s : State) : State :=
  let s1 := s.modifyStore fun st => { st with imageBlock := block, imagePage := 0 }
  match s1.store.work direct with
  | none => s1
  | some w =>
    if s1.store.hasImage w.kind.otherKind then
      s1.modifyStore (Store.setWork direct { w with stage := .other (s1.imagePage w.kind.otherKind) 0 })
    else s1.modifyStore (Store.setWork direct { w with stage := .own })

/-- The erase of the other settings block has timed out: the image that needed it is discarded (R102). -/
def State.settingsEraseFailed (direct : Bool) (s : State) : State :=
  match s.store.work direct with
  | none => s
  | some w => s.workFailed direct w

/-- An image job begins: its image is built now (R99, R115). -/
def State.beginImage (k : ImageKind) (who : ImageWho) (s : State) : State :=
  s.modifyStore fun st => { st with job := some (.image (s.imageWork k who)) }

/-- The image of a format's start carries the new log identity and floor (R97). -/
def State.beginFormatImage (s : State) : State :=
  let newest := s.store.newestSeq
  let image := { s.settingsImage with identity := newest + 1, floor := newest }
  s.modifyStore fun st =>
    { st with job := some (.image { s.imageWork .settings .formatStart with data := .settings st.nextCounter image }) }

end Sys2Proof.Machine
end

