-- ==== Sys2Proof/Machine/Reads.lean ====
section
/-!
DEFINITION. Host reads as the store writer runs them (R118, R177, R178): what is read next, and what each page result
adds to the reply.
-/

namespace Sys2Proof.Machine

/-- What a read does after a page: it needs another page, or its reply is ready. -/
inductive ReadNext where
  | more (r : HostRead)
  | done (st : Status) (rest : List Byte)
deriving DecidableEq, Repr

/-- The blocks that hold records, in block sequence order (R177). -/
def Store.recordBlocks (st : Store) : List (Nat × BlockEntry) :=
  sortBy (fun e => optNum e.2.blockSeq) (st.blocks.filter fun e => e.2.holdsRecords)

/-- The blocks READ_RECORDS walks: from the first whose last record sequence reaches the from sequence (R177). -/
def Store.blocksFrom (seq : Nat) (st : Store) : List Nat :=
  (st.recordBlocks.dropWhile fun e => decide (optNum e.2.lastRecord < seq)).map (·.1)

/-- The block whose first and last record sequences enclose a number (R103, R178). -/
def Store.enclosing (seq : Nat) (st : Store) : Option Nat :=
  (st.recordBlocks.find? fun e =>
    decide (optNum e.2.firstRecord ≤ seq ∧ seq ≤ optNum e.2.lastRecord)).map (·.1)

/-- The reply of READ_RECORDS (section 11.4). -/
def RecordsRead.reply (atEnd : Bool) (newest : Nat) (r : RecordsRead) : ReadNext :=
  .done .ok
    (field 1 (bit atEnd 0) ++ field 1 r.itemCount ++ reserved 1
      ++ field 4 (match r.highest with | some h => h + 1 | none => r.fromSeq) ++ field 4 newest ++ r.items)

/-- Bytes of a READ_RECORDS reply before its items. -/
def recordsReplyHead : Nat := 12

/-- Unreadable-page items that stop a collection (R177). -/
def unreadableLimit : Nat := 8

/-- The records of a page at or above the from sequence are collected; the second part says that collection stops
(R177). -/
def RecordsRead.collect : List (Nat × List Byte) → RecordsRead → RecordsRead × Bool
  | [], r => (r, decide (r.limit ≤ r.taken))
  | (seq, bytes) :: rest, r =>
    if r.limit ≤ r.taken then (r, true)
    else if seq < r.fromSeq then collect rest r
    else if maxBody < recordsReplyHead + r.items.length + 1 + bytes.length then (r, true)
    else
      collect rest
        { r with
          items := r.items ++ (0x01#8 :: bytes)
          itemCount := r.itemCount + 1
          taken := r.taken + 1
          highest := some seq }

/-- The bytes of an unreadable-page item (section 11.4). -/
def unreadableItem (block page : Nat) : List Byte := 0x02#8 :: field 1 block ++ field 1 page ++ reserved 1

/-- An unreadable page is collected as an item; a page that would not fit ends the collection as a record does (log 26). -/
def RecordsRead.collectUnreadable (r : RecordsRead) : RecordsRead × Bool :=
  if maxBody < recordsReplyHead + r.items.length + 4 then (r, true)
  else
    let r' :=
      { r with
        items := r.items ++ unreadableItem r.block r.page
        itemCount := r.itemCount + 1
        unreadable := r.unreadable + 1 }
    (r', decide (unreadableLimit ≤ r'.unreadable))

/-- The first content page of the next block, or the end of the log (R177). -/
def RecordsRead.nextBlock (newest : Nat) (r : RecordsRead) : ReadNext :=
  match r.later with
  | b :: rest => .more (.records { r with block := b, page := 1, later := rest })
  | [] => r.reply true newest

def RecordsRead.nextPage (newest : Nat) (a : RecordsRead × Bool) : ReadNext :=
  let (r, stop) := a
  if stop then r.reply false newest
  else if r.page + 1 < Config.pagesPerBlock then .more (.records { r with page := r.page + 1 })
  else r.nextBlock newest

/-- READ_RECORDS takes one page result (R177, R198). -/
def RecordsRead.take (newest : Nat) (v : PageView) (r : RecordsRead) : ReadNext :=
  match v with
  | .blank => r.nextBlock newest
  | .unreadable => RecordsRead.nextPage newest r.collectUnreadable
  | .page (.records count first _ _ body) =>
    match recordsOnPage count first body with
    | some records => RecordsRead.nextPage newest (r.collect records)
    | none => RecordsRead.nextPage newest r.collectUnreadable
  | .page _ => RecordsRead.nextPage newest (r, false)

/-- The reply with an unreadable-page item in place of a page (R178, section 11.4). -/
def captureUnreadable (at_ : Nat × Nat) : ReadNext :=
  .done .ok (field 1 2 ++ reserved 2 ++ field 1 at_.1 ++ field 1 at_.2 ++ reserved 1)

/-- Step 1 ends without the record's page (R178). -/
def CaptureRead.notFound (r : CaptureRead) : ReadNext :=
  match r.firstUnreadable with
  | some u => captureUnreadable u
  | none => .done .notFound []

def CaptureRead.nextPage (r : CaptureRead) : ReadNext :=
  if r.page + 1 < Config.pagesPerBlock then .more (.capture { r with page := r.page + 1 }) else r.notFound

/-- Where a segment's page stands (R78). -/
def DisturbanceRecord.segmentAt (segment : Nat) (d : DisturbanceRecord) : Nat × Nat :=
  match d.continuation with
  | some c => if c.segment ≤ segment then (c.block, c.page + (segment - c.segment)) else (d.firstPage.1, d.firstPage.2 + segment)
  | none => (d.firstPage.1, d.firstPage.2 + segment)

/-- The record found is judged, and its segment's page is read next (R178). -/
def CaptureRead.judge (record : Option Record) (r : CaptureRead) : ReadNext :=
  match record with
  | some (.disturbance d) =>
    let t := d.segmentAt r.segment
    if r.segment < d.pageCount ∧ t.2 < Config.pagesPerBlock then .more (.capture { r with target := some t })
    else .done .notFound []
  | _ => .done .notFound []

/-- READ_CAPTURE takes one page result (R178); a RECORDS page whose walk fails is an unreadable page in every step (R198). -/
def CaptureRead.take (v : PageView) (r : CaptureRead) : ReadNext :=
  match r.target with
  | some t =>
    match v with
    | .page (.capture owner segment trigger stamp freq samples) =>
      if owner = r.seq ∧ segment = r.segment then
        .done .ok (field 1 1 ++ reserved 2 ++ capturePageBytes owner segment trigger stamp freq samples)
      else .done .notFound []
    | .unreadable => captureUnreadable t
    | .page (.records count first _ _ body) =>
      if (recordsOnPage count first body).isNone then captureUnreadable t else .done .notFound []
    | _ => .done .notFound []
  | none =>
    let unreadable : ReadNext := CaptureRead.nextPage { r with firstUnreadable := some (r.firstUnreadable.getD (r.block, r.page)) }
    match v with
    | .blank => r.notFound
    | .unreadable => unreadable
    | .page (.records count first _ _ body) =>
      match recordsOnPage count first body with
      | none => unreadable
      | some records =>
        if first ≤ r.seq ∧ r.seq < first + count then
          r.judge (((records.find? fun x => x.1 == r.seq).map (·.2)).bind recordOf)
        else r.nextPage
    | .page _ => r.nextPage

/-- The page a read needs next. -/
def HostRead.page : HostRead → Nat × Nat
  | .records r => (r.block, r.page)
  | .capture r =>
    match r.target with
    | some t => t
    | none => (r.block, r.page)

def HostRead.take (newest : Nat) (v : PageView) : HostRead → ReadNext
  | .records r => r.take newest v
  | .capture r => r.take v

/-- A host read as the writer takes it (R177, R178); the reply burst is that of the active settings now (R195). -/
def State.beginRead (q : HostRequest) (s : State) : ReadNext :=
  match q with
  | .records fromSeq maxCount =>
    let r : RecordsRead :=
      { fromSeq := fromSeq, limit := min maxCount s.settings.active.replyBurst, block := 0, page := 1, later := []
        items := [], itemCount := 0, taken := 0, unreadable := 0, highest := none }
    match s.store.blocksFrom fromSeq with
    | b :: rest => .more (.records { r with block := b, later := rest })
    | [] => r.reply true s.store.newestSeq
  | .capture seq segment =>
    match s.store.enclosing seq with
    | some b => .more (.capture { seq := seq, segment := segment, block := b, page := 1, firstUnreadable := none, target := none })
    | none => .done .notFound []

end Sys2Proof.Machine
end

