-- ==== Sys2Proof/Machine/Writer.lean ====
section
/-!
DEFINITION. The store writer (chapter 6): which job it takes, how each job goes on, the steps of a format (R97), and
the outcomes of medium operations on the log (sections 5.3 to 5.7).
-/

namespace Sys2Proof.Machine

def State.setJob (j : Option Job) (s : State) : State := s.modifyStore fun st => { st with job := j }

def State.setOp (op : MediumOp) (s : State) : State := s.modifyStore fun st => { st with op := some op }

/-- The writer discards without a sequence number what would need a new block when F is 0: in HELD_FULL (R112), and in
HOLDUP (R158). -/
def State.discardsNow (s : State) : Bool :=
  s.store.state == .heldFull || s.inHoldup

/-! ## Disturbance jobs (R53, R54, R114) -/

/-- An entry leaves the loss batch with its commit or discard (R157). -/
def Store.leaveBatch (i : Nat) (st : Store) : Store := { st with lossBatch := st.lossBatch.filter (· != i) }

/-- A disturbance record is discarded: the tracker is told, the batch shrinks, the loss is counted (R24, R117, R157). -/
def State.discardDisturbance (source : Option Nat) (s : State) : State :=
  let s1 :=
    match source with
    | some i => (s.modifyTracker (·.discard i)).modifyStore (Store.leaveBatch i)
    | none => s
  s1.raiseLoss .disturbance 1

/-- The capture slot of an entry that still holds its capture. -/
def State.fullSlot (i : Nat) (s : State) : Option (Nat × CaptureSlot) :=
  match s.tracker.entry i with
  | none => none
  | some x =>
    match x.slot with
    | none => none
    | some l =>
      match slotAt s.capture.slots l.slot with
      | some c => if c.state == .full && c.entry == i then some (l.slot, c) else none
      | none => none

def State.releaseSlot (slot : Option Nat) (s : State) : State :=
  match slot with
  | some k => s.modifyCapture (·.release k)
  | none => s

/-- Capture admission: the store is not HELD_FULL and at least 6 log blocks are ERASED or STALE (R53). -/
def State.admits (s : State) : Bool := s.store.state != .heldFull && decide (6 ≤ s.store.free)

/-- What is waiting at rank 2: a synthesised record first (R166), else the head of the commit queue. -/
inductive DisturbanceHead where
  | synthesised (r : DisturbanceRecord)
  | entry (i : Nat) (x : Entry)

def State.disturbanceHead (s : State) : Option DisturbanceHead :=
  match s.store.synthesised with
  | r :: _ => some (.synthesised r)
  | [] =>
    match s.tracker.commitQueue with
    | i :: _ => (s.tracker.entry i).map (.entry i)
    | [] => none

/-- Pages a disturbance job needs (R79). -/
def State.disturbanceNeed (h : DisturbanceHead) (s : State) : Nat :=
  match h with
  | .synthesised _ => 1
  | .entry i _ =>
    match s.fullSlot i with
    | some (_, c) => if s.admits then c.held.length + 1 else 1
    | none => 1

/-- A disturbance job begins with its record and, when admitted, its slot WRITING (R53, R80, R114). DESIGN CHOICE (log 46): the
record carries the capture trigger time stamp exactly when at least one block is held to be written. -/
def State.beginDisturbance (source : Option Nat) (r : DisturbanceRecord) (slot : Option (Nat × CaptureSlot)) (s : State) : State :=
  let job : DisturbanceJob :=
    { source := source, record := r, slot := slot.map (·.1)
      remaining := match slot with | some (_, c) => c.held | none => []
      sinceRead := 0, timeouts := 0, stopCapture := false, aside := none }
  let job' := match slot with
    | some (_, c) =>
      if c.held.isEmpty then job
      else { job with record := { r with trigger := some (c.triggerStamp.resolve s.time.base), triggerSegment := c.triggerSegment } }
    | none => job
  let s1 := match slot with
    | some (k, _) => s.modifyCapture (·.modifySlot (fun c => { c with state := .writing, written := 0 }) k)
    | none => s
  (s1.modifyStore fun st => { st with nextSeq := st.nextSeq + 1 }).setJob (some (.disturbance job'))

/-- The entry's record with the reason why no capture comes with it, when the entry had a slot. -/
def noCaptureRecord (why : NoCapture) (r : DisturbanceRecord) : DisturbanceRecord :=
  { r with flags := { r.flags with noCapture := some (r.flags.noCapture.getD why) } }

/-- The writer takes the disturbance job at rank 2 (R114), with the discards of R112, R113 and R158. -/
def State.takeDisturbance (h : DisturbanceHead) (s : State) : State :=
  let need := s.disturbanceNeed h
  match h with
  | .synthesised r =>
    let s1 := s.modifyStore fun st => { st with synthesised := st.synthesised.drop 1 }
    if s.store.state = .readOnly ∨ s.store.canBegin 1 = false then s1.discardDisturbance none
    else (s1.spaceCheck 1).beginDisturbance none { r with seq := s.store.nextSeq } none
  | .entry i x =>
    let r := x.record s.store.nextSeq s.time.base
    match s.fullSlot i with
    | none =>
      if s.store.state = .readOnly ∨ s.store.canBegin need = false then s.discardDisturbance (some i)
      else
        (s.spaceCheck need).beginDisturbance (some i) (if x.slot.isSome then noCaptureRecord .supply r else r) none
    | some (k, c) =>
      if s.store.state = .readOnly ∨ s.store.canBegin need = false then (s.releaseSlot (some k)).discardDisturbance (some i)
      else if s.admits then (s.spaceCheck need).beginDisturbance (some i) r (some (k, c))
      else ((s.releaseSlot (some k)).spaceCheck need).beginDisturbance (some i) (noCaptureRecord .store r) none

/-- The record of a job whose capture part has been stopped in HOLDUP with pages left (R55, R59). DESIGN CHOICE (log 46): with no
page written the trigger time stamp and the trigger segment go. -/
def DisturbanceJob.stopped (j : DisturbanceJob) : DisturbanceJob :=
  if j.remaining.isEmpty then j
  else if j.record.pageCount = 0 then
    { j with remaining := []
             record := noCaptureRecord .supply { j.record with trigger := none, triggerSegment := 0 } }
  else { j with remaining := [], record := { j.record with flags := { j.record.flags with captureTruncated := true } } }

/-- The location of a capture page into the record: segment 0 is the first page; a page that does not follow on from it
is where a continuation begins (R78, R87). -/
def DisturbanceRecord.placePage (block page : Nat) (r : DisturbanceRecord) : DisturbanceRecord :=
  let k := r.pageCount
  let r' := { r with pageCount := k + 1 }
  if k = 0 then { r' with firstPage := (block, page) }
  else if r.segmentAt k = (block, page) then r'
  else { r' with continuation := some ⟨k, block, page⟩ }

/-! ## Discards of a running job (R87, R108, R113) -/

/-- The records of a job of records are lost: counted by class; its SUPPLY_LOSS marker is noted discarded (R117, R160). -/
def State.discardRecords (j : RecordsJob) (s : State) : State :=
  let s1 := s.raiseLoss (match j.cls with | .interval => .interval | _ => .marker) j.records.length
  if j.ownLoss then s1.modifyStore fun st => { st with lossMarker := .discarded } else s1

/-- The job that was writing the FORMAT marker is over: the export mark becomes the marker's number, the new log
identity (R97). When the 13th BAD block ends the job, step 5 is not made (R98). -/
def State.formatMarked (s : State) : State :=
  if s.store.format.isSome ∧ s.store.badCount < Config.badLimit then
    (s.modifyStore fun st => { st with format := some .mark }).raiseMark s.store.identity
  else s

/-- A running job that writes to the log is discarded. -/
def State.discardJob (j : Job) (s : State) : State :=
  match j with
  | .disturbance d => ((s.setJob none).releaseSlot d.slot).discardDisturbance d.source
  | .records r =>
    let s1 := (s.setJob none).discardRecords r
    match r.cls with
    | .formatMarker => s1.formatMarked
    | _ => s1
  | _ => s.setJob none

/-! ## Going on with a job -/

/-- The next page of a log job, when there is an ACTIVE block; else the activation it needs; with F at 0 the job is
discarded (R86, R87, R108). -/
def State.issuePage (j : Job) (d : Nat → PageData) (s : State) : State :=
  match s.store.active with
  | some (b, p) => s.setOp (.program b p (d b) .content)
  | none =>
    match s.activate with
    | some s' => s'
    | none => s.discardJob j

/-- A read of the job is issued, unless its page is being corrected already (R90). -/
def State.issueRead (r : HostRead) (s : State) : Option State :=
  match s.store.correcting with
  | some ⟨_, _, _, .host⟩ => none
  | _ => some (s.setOp (.read r.page.1 r.page.2 .host))

/-- A disturbance job goes on: the work it is set aside for, its next capture page, or its record page (R54, R107). -/
def State.continueDisturbance (j : DisturbanceJob) (s : State) : Option State :=
  match j.aside with
  | some (.hostRead r) => s.issueRead r
  | some (.reclaim _) => none
  | none =>
    if s.store.state = .readOnly then some (s.discardJob (.disturbance j))
    else
      let j1 := if j.stopCapture then j.stopped else j
      match j1.remaining with
      | b :: _ =>
        some (s.issuePage (.disturbance j1) fun _ =>
          .capture j1.record.seq j1.record.pageCount j1.record.triggerSegment (b.stamp.resolve s.time.base) b.freq b.samples)
      | [] =>
        let s1 := (s.releaseSlot j1.slot).setJob (some (.disturbance { j1 with slot := none }))
        some (s1.issuePage (.disturbance { j1 with slot := none }) fun block =>
          s1.store.pageFor [.disturbance j1.record] block)

/-- The running job's next operation; absent while it waits for one, or for a correction. -/
def State.continueJob (j : Job) (s : State) : Option State :=
  match j with
  | .disturbance d => s.continueDisturbance d
  | .records r =>
    if s.store.state = .readOnly then some (s.discardJob j)
    else some (s.issuePage j fun block => s.store.pageFor r.records block)
  | .image w =>
    if s.store.state = .readOnly then some ((s.setJob none).raiseLoss .marker 1)
    else some (s.issueImage false w)
  | .hostRead r => s.issueRead r
  | .endingRead => none
  | .scanRead => none
  | .reclaim _ => none

/-! ## Taking a job (R106, R158) -/

/-- A log job with need of a block does not count as waiting while F is 0 in a WRITABLE store, HOLDUP apart (R106, R158). -/
def State.roomWaits (need : Nat) (s : State) : Bool :=
  s.store.canBegin need || s.store.state == .readOnly || s.discardsNow

/-- The reclaim step takes a block: it is ERASING at once, and an unexported block is counted (R110). -/
def State.takeReclaim (b : Nat) (s : State) : State :=
  let unexported := match s.store.block b with
    | some e => e.unexported.isSome
    | none => false
  let s1 := s.modifyStore fun st =>
    { st.modifyBlock (fun e => { e with state := .erasing, blockSeq := none }) b with op := some (.erase b .reclaim) }
  if unexported then s1.raiseLoss .unexportedReclaimed 1 else s1

/-- The interval job takes every record in the output queue (R115), or discards them (R112, R113, R158). -/
def State.takeIntervals (s : State) : State :=
  let records := s.agg.queue
  let s1 := { s with
    agg := { s.agg with queue := [] }, store := { s.store with holdupInterval := true } }
  if s.store.state = .readOnly ∨ s.store.state = .heldFull ∨ s.store.canBegin 1 = false then
    s1.raiseLoss .interval records.length
  else
    let s2 := s1.spaceCheck 1
    (s2.modifyStore fun st => { st with nextSeq := st.nextSeq + records.length }).setJob
      (some (.records
        { cls := .interval, records := numberIntervals s.time.base s.store.nextSeq records
          timeouts := 0, ownLoss := false, returnDue := false }))

/-- Markers at the head that may share a page, as many as fit whole into one body (R79, R115). -/
def fitMarkers (may : MarkerBody → Bool) : (room : Nat) → List (TimeStamp × MarkerBody) → List QueueItem →
    List (TimeStamp × MarkerBody)
  | _, taken, [] => taken
  | _, taken, .image _ :: _ => taken
  | room, taken, .marker t b :: rest =>
    let len := 16 + (markerBody b).length
    if may b && decide (len ≤ room) then fitMarkers may (room - len) (taken ++ [(t, b)]) rest else taken

/-- The marker is of a kind written in HELD_FULL (R112). -/
def MarkerBody.isSupply : MarkerBody → Bool
  | .supplyLoss _ | .supplyReturn _ => true
  | _ => false

def MarkerBody.isSupplyLoss : MarkerBody → Bool
  | .supplyLoss _ => true
  | _ => false

def MarkerBody.isLoss : MarkerBody → Bool
  | .loss _ _ => true
  | _ => false

/-- The items of the queue with the bodies their jobs would build now: their lengths decide what fits. -/
def State.builtQueue (s : State) : List QueueItem :=
  s.store.markerQueue.map fun i =>
    match i with
    | .marker t b => .marker t (s.markerFacts b)
    | .image k => .image k

/-- A marker job of these markers begins: they leave the queue and are numbered; a LOSS marker clears LOSS pending
(R115, R117). -/
def State.beginMarkers (cls : RecordsClass) (markers : List (TimeStamp × MarkerBody)) (s : State) : State :=
  let ownLoss := markers.any fun m => m.2.isSupplyLoss
  let s1 := s.spaceCheck 1
  (s1.modifyStore fun st =>
    { st with
      markerQueue := st.markerQueue.drop markers.length
      nextSeq := st.nextSeq + markers.length
      lossPending := st.lossPending && !(markers.any fun m => m.2.isLoss)
      lossMarker := if ownLoss && st.lossMarker == .queued then .running else st.lossMarker }).setJob
    (some (.records
      { cls := cls, records := s.numberMarkers s.store.nextSeq markers
        timeouts := 0, ownLoss := ownLoss && s.store.lossMarker == .queued, returnDue := false }))

/-- The item at the head is discarded and counted (R112, R113). -/
def State.discardHead (item : QueueItem) (s : State) : State :=
  let s1 := (s.setQueue (s.store.markerQueue.drop 1)).raiseLoss .marker 1
  match item with
  | .image k => s1.requestDiscarded k
  | .marker _ b =>
    if b.isSupplyLoss && s.store.lossMarker == .queued then
      s1.modifyStore fun st => { st with lossMarker := .discarded }
    else s1

/-- The marker job at the head of the queue (R112, R113, R115); in HOLDUP the SUPPLY_LOSS marker alone (R159). -/
def State.takeMarkers (s : State) : State :=
  match s.builtQueue with
  | [] => s
  | item :: rest =>
    if s.store.state = .readOnly then s.discardHead item
    else
      match item with
      | .image k => (s.setQueue (s.store.markerQueue.drop 1)).beginImage k .queued
      | .marker t b =>
        if s.store.state = .heldFull ∧ b.isSupply = false then s.discardHead item
        else if s.store.canBegin 1 = false then s.discardHead item
        else if s.inHoldup then s.beginMarkers .marker [(t, b)]
        else
          s.beginMarkers .marker
            (fitMarkers (fun b => s.store.state != .heldFull || b.isSupply) Config.bodyBytes [] (item :: rest))

/-- The host read waiting is taken (R118). -/
def State.answerRead (n : ReadNext) (s : State) : Option HostRead × State :=
  match n with
  | .more r => (some r, s)
  | .done st rest => (none, s.reply st rest)

/-- The host read waiting begins as a job, or is answered at once. -/
def State.takeHostRead (q : HostRequest) (s : State) : State :=
  let s1 := s.modifyStore fun st => { st with hostRequest := none }
  match s1.answerRead (s1.beginRead q) with
  | (some r, s2) => s2.setJob (some (.hostRead r))
  | (none, s2) => s2

/-- The scan read asked for is taken (R118). DESIGN CHOICE (log 52): the walk goes on by the number of the block it reads, also when that
block has lost the case's hold meanwhile and has been erased, or activated anew under another block sequence. -/
def State.takeScanRead (e : Engine) (s : State) : State :=
  (({ s with cases := { s.cases with engine := some { e with asking := false } } }).setJob (some .scanRead)).setOp
    (.read e.block e.page .caseScan)

/-- The running scan has asked for its next page (R106). -/
def State.askingEngine (s : State) : Option Engine :=
  match s.cases.engine with
  | some e => if e.asking then some e else none
  | none => none

/-- A disturbance job counts as waiting (R106). -/
def State.disturbanceWaits (s : State) : Option DisturbanceHead :=
  match s.disturbanceHead with
  | some h => if s.roomWaits (s.disturbanceNeed h) then some h else none
  | none => none

/-- A marker job counts as waiting: an image always, markers when they have room (R106). -/
def State.markersWait (s : State) : Bool :=
  match s.store.markerQueue with
  | [] => false
  | .image _ :: _ => true
  | .marker _ _ :: _ => s.roomWaits 1

def State.intervalsWait (s : State) : Bool := !s.agg.queue.isEmpty && s.roomWaits 1

/-- The SUPPLY_LOSS marker of this HOLDUP stands in the queue. -/
def State.supplyLossWaits (s : State) : Bool :=
  match s.store.markerQueue with
  | i :: _ => i.isSupplyLoss
  | [] => false

/-- The first of several choices. -/
def firstOf {α : Type} : List (Option α) → Option α
  | [] => none
  | some a :: _ => some a
  | none :: rest => firstOf rest

/-- The job taken in HOLDUP (R158): synthesised records (R167) and the loss batch, then SUPPLY_LOSS, the interval job, and
later entries and intervals. While an entry of the batch has yet to reach the commit queue, no later step's job is taken (R71,
R157). -/
def State.takeHoldup (s : State) : Option State :=
  let entries := s.disturbanceWaits.map s.takeDisturbance
  let intervals := if s.intervalsWait then some s.takeIntervals else none
  if !s.store.synthesised.isEmpty || !s.store.lossBatch.isEmpty then entries
  else
    firstOf
      [ if s.supplyLossWaits then some s.takeMarkers else none
        , if !s.store.holdupInterval then intervals else none
        , entries
        , intervals ]

/-- A reclaim step as a job (R109). -/
def State.reclaimJob (u : Urgency) (s : State) : Option State :=
  (s.reclaimWaits u).map fun b => (s.takeReclaim b).setJob (some (.reclaim b))

/-- The waiting job of highest rank (R106). -/
def State.takeRanked (s : State) : Option State :=
  firstOf
    [ s.reclaimJob .must
      , s.disturbanceWaits.map s.takeDisturbance
      , if s.markersWait then some s.takeMarkers else none
      , s.store.hostRequest.map s.takeHostRead
      , s.reclaimJob .need
      , if s.intervalsWait then some s.takeIntervals else none
      , s.askingEngine.map s.takeScanRead
      , s.reclaimJob .may ]

/-! ## A format's steps (R97) -/

/-- The next block a format erases, from a number on: the lowest that is not BAD. -/
def Store.formatTarget (from_ : Nat) (st : Store) : Option Nat :=
  (st.blocks.find? fun e => decide (from_ ≤ e.1) && e.2.state != .bad).map (·.1)

/-- One step of a format; it waits in HOLDUP (R98, log 21). -/
def State.formatStep (f : FormatStep) (s : State) : Option State :=
  if s.inHoldup then none
  else
    match f with
    | .start => some s.beginFormatImage
    | .erase b =>
      match s.store.formatTarget b with
      | some c =>
        some (s.modifyStore fun st =>
          { st.modifyBlock (BlockEntry.cleared .erasing) c with
            op := some (.erase c .format)
            format := some (.erase (c + 1))
            active := match st.active with
              | some (a, p) => if a = c then none else some (a, p)
              | none => none })
      | none => some (s.modifyStore fun st => { st with format := some .activate })
    | .activate =>
      match s.store.active with
      | some _ => some (s.modifyStore fun st => { st with format := some .marker })
      | none =>
        match s.activate with
        | some s' => some s'
        | none => some s.endFormat
    | .marker =>
      let s1 := s.queueFormat
      match s1.builtQueue with
      | .marker t b :: _ => some (s1.beginMarkers .formatMarker [(t, b)])
      | _ => some s1
    | .mark => some (s.beginImage .settings .formatEnd)

/-! ## The writer -/

/-- One decision of the writer; absent when nothing is to be begun. -/
def State.pumpOnce (s : State) : Option State :=
  match s.store.op with
  | some _ => none
  | none =>
    match s.store.direct with
    | some w => some (s.issueImage true w)
    | none =>
      match s.store.job with
      | some j => s.continueJob j
      | none =>
        if s.store.activationDue then
          if s.store.state = .readOnly then some (s.modifyStore fun st => { st with activationDue := false })
          else
            match s.activate with
            | some s' => some s'
            | none => some (s.modifyStore fun st => { st with activationDue := false })
        else
          match s.store.format with
          | some f => s.formatStep f
          | none => if s.inHoldup then s.takeHoldup else s.takeRanked

/-- The writer goes on until an operation runs or nothing waits, with the reviews of store state and LOSS pending before
each decision (R104, R111, R117). -/
def State.pumpFor : (fuel : Nat) → State → State
  | 0, s => s
  | n + 1, s =>
    let s1 := s.review.lossReview
    if !s1.coreRunning || s1.store.scan.isSome then s1
    else
      match s1.pumpOnce with
      | some s2 => State.pumpFor n s2
      | none => s1

/-- More decisions than any chain of discards and image steps takes. -/
def pumpFuel : Nat := 64

def State.pump (s : State) : State := s.pumpFor pumpFuel

/-! ## Outcomes of operations on the log -/

/-- The boundary after a capture page, or after work inside the job: a reclaim step at MUST, or a host read after 8 pages,
sets the job aside (R107). The direct image of R113, when one is to be written, comes before either. -/
def State.boundary (j : DisturbanceJob) (s : State) : State :=
  let goOn := s.setJob (some (.disturbance { j with aside := none }))
  if s.store.direct.isSome then goOn
  else
    match s.reclaimWaits .must with
    | some b => (s.takeReclaim b).setJob (some (.disturbance { j with aside := some (.reclaim b) }))
    | none =>
      match s.store.hostRequest with
      | some q =>
        if 8 ≤ j.sinceRead ∧ s.inHoldup = false then
          let s1 := s.modifyStore fun st => { st with hostRequest := none }
          match s1.answerRead (s1.beginRead q) with
          | (some r, s2) => s2.setJob (some (.disturbance { j with sinceRead := 0, aside := some (.hostRead r) }))
          | (none, s2) => s2.setJob (some (.disturbance { j with sinceRead := 0, aside := none }))
        else goOn
      | none => goOn

/-- A capture page has been programmed (R54). -/
def State.captureWritten (block page : Nat) (j : DisturbanceJob) (s : State) : State :=
  let j1 := { j with remaining := j.remaining.drop 1, sinceRead := j.sinceRead + 1
                     record := j.record.placePage block page }
  let s1 := match j.slot with
    | some k => s.modifyCapture (·.modifySlot (fun c => { c with written := c.written + 1 }) k)
    | none => s
  s1.pageUsed.review.boundary j1

/-- The record page of a disturbance job has been programmed: commit done, then delivery (R81, R114). -/
def State.disturbanceCommitted (block : Nat) (j : DisturbanceJob) (s : State) : State :=
  let s1 := match j.source with
    | some i => (s.modifyTracker (·.commitDone j.record.seq i)).modifyStore (Store.leaveBatch i)
    | none => s
  ((s1.setJob none).commit block [.disturbance j.record]).pageUsed

/-- The page of a job of records has been programmed: its records are committed; SUPPLY_LOSS is noted written, and a
SUPPLY_RETURN that waits for it is queued (R115, R159, R160). -/
def State.recordsCommitted (block : Nat) (j : RecordsJob) (s : State) : State :=
  let s1 := ((s.setJob none).commit block j.records).pageUsed
  let s2 := if j.ownLoss then s1.modifyStore fun st => { st with lossMarker := .committed } else s1
  let s3 := if j.returnDue then s2.queueMarker (.supplyReturn none) else s2
  match j.cls with
  | .formatMarker => s3.formatMarked
  | _ => s3

/-- A content page has been programmed (R79). -/
def State.contentDone (block page : Nat) (d : PageData) (s : State) : State :=
  match s.store.job with
  | some (.disturbance j) =>
    match d with
    | .capture _ _ _ _ _ _ => s.captureWritten block page j
    | _ => s.disturbanceCommitted block j
  | some (.records j) => s.recordsCommitted block j
  | _ => s

/-- A program has completed (R79, R86, R100). -/
def State.programDone (block page : Nat) (d : PageData) (why : ProgramWhy) (s : State) : State :=
  let s1 := s.modifyStore fun st => { st.program block page d .whole with op := none }
  match why with
  | .content => s1.contentDone block page d
  | .image direct => s1.imageProgrammed direct d
  | .header =>
    match d with
    | .header b _ seq _ => s1.activated b seq
    | _ => s1

/-- A job's content page has timed out on the block just retired (R87, R108). -/
def State.contentTimedOut (s : State) : State :=
  match s.store.job with
  | some (.disturbance j) =>
    if j.timeouts = 0 then
      if s.store.free = 0 then s.discardJob (.disturbance j)
      else s.setJob (some (.disturbance { j with timeouts := 1 }))
    else
      (s.discardJob (.disturbance j)).modifyStore fun st => { st with storeFault := true, activationDue := true }
  | some (.records j) =>
    if j.timeouts = 0 then
      if s.store.free = 0 then s.discardJob (.records j) else s.setJob (some (.records { j with timeouts := 1 }))
    else (s.discardJob (.records j)).modifyStore fun st => { st with storeFault := true, activationDue := true }
  | _ => s

/-- What a timed-out program leaves of its page: unknown contents (R87); an image's page is abandoned, and no start takes
an image from it (R101, R102, log 23). -/
def ProgramWhy.leaves : ProgramWhy → PageCondition
  | .image _ => .lost
  | _ => .unknown

/-- A program has timed out: in the log the block becomes BAD and is retired (R86, R87); in the settings area R102
applies. -/
def State.programTimedOut (block page : Nat) (d : PageData) (why : ProgramWhy) (s : State) : State :=
  let s1 := s.modifyStore fun st => { st.program block page d why.leaves with op := none }
  match why with
  | .image direct => s1.imageTimedOut direct
  | .header =>
    (s1.modifyStore (Store.modifyBlock (fun e => { e with state := .bad }) block)).retire block .programTimeout
  | .content =>
    ((s1.modifyStore fun st =>
      { st.modifyBlock (fun e => { e with state := .bad }) block with active := none }).retire block .programTimeout).contentTimedOut

/-- The work that an erase was for goes on: a reclaim step ends; inside a disturbance job the boundary is reviewed again
(R107, R110). -/
def State.eraseEnded (why : EraseWhy) (s : State) : State :=
  match why, s.store.job with
  | .reclaim, some (.reclaim _) => s.setJob none
  | .reclaim, some (.disturbance j) => s.review.boundary { j with aside := none }
  | _, _ => s

/-- A block erase has completed (R88). -/
def State.eraseDone (block : Nat) (why : EraseWhy) (s : State) : State :=
  let s1 := s.modifyStore fun st => { st with array := st.array.erase block, op := none }
  match why with
  | .settings direct => s1.settingsErased direct block
  | _ =>
    match s1.store.block block with
    | none => s1.eraseEnded why
    | some e =>
      if e.weak then
        ((s1.modifyStore (Store.modifyBlock (fun _ => BlockEntry.plain .bad) block)).retire block .weak).eraseEnded why
      else
        (s1.modifyStore (Store.modifyBlock (fun _ => BlockEntry.plain .erased) block)).eraseEnded why

/-- A block erase has timed out: the block becomes BAD and is retired; what it held is lost (R88, R102, R110, log 23). -/
def State.eraseTimedOut (block : Nat) (why : EraseWhy) (s : State) : State :=
  let s1 := s.modifyStore fun st => { st with array := st.array.degrade block, op := none }
  match why with
  | .settings direct => s1.settingsEraseFailed direct
  | _ =>
    ((s1.modifyStore (Store.modifyBlock (fun _ => BlockEntry.plain .bad) block)).retire block
      .eraseTimeout).eraseEnded why

/-- A host read has a page result: another page, or its reply (R177, R178). One that entry to HOLDUP has cut short is answered
BUSY_STORE, and the result is dropped (R118, log 39). -/
def State.hostResult (v : PageView) (s : State) : State :=
  match s.store.job with
  | some (.hostRead r) =>
    match s.answerRead (r.take s.store.newestSeq v) with
    | (some r', s1) => s1.setJob (some (.hostRead r'))
    | (none, s1) => s1.setJob none
  | some .endingRead => (s.setJob none).reply .busyStore []
  | some (.disturbance j) =>
    match j.aside with
    | some (.hostRead r) =>
      match s.answerRead (r.take s.store.newestSeq v) with
      | (some r', s1) => s1.setJob (some (.disturbance { j with aside := some (.hostRead r') }))
      | (none, s1) => s1.review.boundary { j with aside := none }
    | _ => s
  | _ => s

/-- The scan read's page has been corrected: its job ends and the case unit treats the result (R118, R131). -/
def State.scanReadDone (v : PageView) (s : State) : State :=
  match s.store.job with
  | some .scanRead => (s.setJob none).scanResult v
  | _ => s.scanResult v

/-! ## Reads given up (R118, R179) -/

/-- The read in progress, or its correction, has lost its requester: its result is dropped (R90). -/
def Store.orphan (who : Requester) (st : Store) : Store :=
  { st with
    op := match st.op with
      | some (.read b p w) => some (.read b p (if w = who then .gone else w))
      | o => o
    correcting := st.correcting.map fun c => if c.who = who then { c with who := .gone } else c }

/-- A host read, waiting or running, is given up; work set aside for it goes on at the boundary (R107, R118). -/
def State.dropHostRead (s : State) : State :=
  let s1 := s.modifyStore fun st => { st.orphan .host with hostRequest := none }
  match s1.store.job with
  | some (.hostRead _) | some .endingRead => s1.setJob none
  | some (.disturbance j) =>
    match j.aside with
    | some (.hostRead _) =>
      if s1.store.op.isSome then s1.setJob (some (.disturbance { j with aside := none }))
      else s1.boundary { j with aside := none }
    | _ => s1
  | _ => s1

/-- The scan read of an abandoned scan is dropped (R118, R132). -/
def State.dropScanRead (s : State) : State :=
  let s1 := s.modifyStore (Store.orphan .caseScan)
  match s1.store.job with
  | some .scanRead => s1.setJob none
  | _ => s1

end Sys2Proof.Machine
end

