-- ==== Sys2Proof/Machine/StartScan.lean ====
section
/-!
DEFINITION. The start-up scan (section 5.9): the settings area, the classification of the log blocks, the conclusion,
the read-back of a COLD start, and what it settles in the other units.
-/

namespace Sys2Proof.Machine

def Store.modifyScan (f : StartScan → StartScan) (st : Store) : Store := { st with scan := st.scan.map f }

/-- The scan's next page read. -/
def State.scanRead (stage : ScanStage) (s : State) : State :=
  let (b, p) := match stage with
    | .settingsArea b p => (b, p)
    | .header b => (b, 0)
    | .firstPage b p => (b, p)
    | .lastPage b p => (b, p)
    | .readBack b p _ => (b, p)
  s.modifyStore fun st => { st.modifyScan (fun x => { x with stage := stage }) with op := some (.read b p .startUp) }

/-! ## The settings area (R92) -/

/-- The newer of two images: that of the higher counter, and of two with one counter the one met later, which in one
block was programmed later (R101, log 32). -/
def newerImage {α : Type} (counter : Nat) (i : α) (best : Option (Nat × α)) : Option (Nat × α) :=
  match best with
  | some (c, j) => if c ≤ counter then some (counter, i) else some (c, j)
  | none => some (counter, i)

/-- The highest image counter with its block. -/
def higherCounter (counter block : Nat) (best : Option (Nat × Nat)) : Option (Nat × Nat) := newerImage counter block best

/-- One page of the settings area (R92). -/
def StartScan.seeSettings (block page : Nat) (v : PageView) (x : StartScan) : StartScan :=
  let x1 := match v with
    | .blank => x
    | _ => if block = 0 then { x with top0 := some page } else { x with top1 := some page }
  match v with
  | .page (.settings c i) =>
    { x1 with bestSettings := newerImage c i x1.bestSettings, bestCounter := higherCounter c block x1.bestCounter }
  | .page (.cases c l) =>
    { x1 with bestCases := newerImage c l x1.bestCases, bestCounter := higherCounter c block x1.bestCounter }
  | _ => x1

/-- The page above the highest page that is not BLANK. -/
def aboveTop (top : Option Nat) : Nat :=
  match top with
  | some p => p + 1
  | none => 0

/-- The settings loaded at a start reach the series that the start began (R16, R42). With another nominal frequency than the one it was
begun with, the series begins anew and, as at every start, without a notice: what it has handed over and is not yet delivered is
lost, and OPEN entries kept across the start stay OPEN. DESIGN CHOICE (log 14): the tracker then treats its marks, detectors and
OPEN RVC entries as at the entry to STARTING, and the capture unit its ring and its FILLING slots as at a series restart. -/
def State.loadSeries (set : Settings) (s : State) : State :=
  if set.freq = s.meas.freq then { s with meas := { s.meas with udecl := set.udecl, threePhases := set.threePhases } }
  else
    let s1 := s.settleRequests.restartCapture
    { s1 with
      meas := Measurement.fresh set.freq set.udecl set.threePhases
      tracker := s1.tracker.beginSeries s1.time.base s1.now }

/-- The active set loaded at a start reaches every block that keeps a copy (R92, R184, R188, R190, log 14). -/
def State.loadSettings (set : Settings) (generation : Nat) (s : State) : State :=
  let inForce : InForce := ⟨set, generation⟩
  let s1 := s.loadSeries set
  { s1 with
    settings := { active := set, generation := generation, staged := set, pending := none }
    tracker := { s1.tracker with inForce := inForce }
    capture := { s1.capture with preCycles := set.preCycles, postCycles := set.postCycles }
    agg := { s1.agg with inForce := inForce }
    link :=
      { s1.link with
        listening := true, rx := Receiver.hunting, mask := set.attentionMask, mode := set.attentionMode
        exportThreshold := set.exportThreshold, lineRate := set.linkRate } }

/-- The settings area has been read whole: settings, persistent values and the case table are taken (R92, R145). -/
def State.settingsAreaRead (s : State) : State :=
  match s.store.scan with
  | none => s
  | some x =>
    let block := match x.bestCounter with
      | some (_, b) => b
      | none => 0
    let s1 := s.modifyStore fun st =>
      { st with
        imageBlock := block
        imagePage := aboveTop (if block = 0 then x.top0 else x.top1)
        imageCounter := match x.bestCounter with | some (c, _) => c | none => 0
        haveSettingsImage := x.bestSettings.isSome
        haveCaseImage := x.bestCases.isSome }
    let s2 := match x.bestSettings with
      | some (_, i) =>
        (s1.modifyStore fun st =>
          { st with identity := i.identity, floor := i.floor, exportMark := i.exportMark, badList := i.badList }).loadSettings
          i.set i.generation
      | none => s1.loadSettings Settings.default 0
    s2.reloadCases (x.bestCases.map (·.2))

/-! ## The log blocks (R93) -/

/-- A number found is noted with its page for R82. DESIGN CHOICE (log 43): when the newest number stands on several pages, as
the owner of its capture pages and on its record page, "that number's page" is the highest of them in the block with the highest
block sequence. -/
def Store.noteNumber (number block page : Nat) (st : Store) (x : StartScan) : StartScan :=
  match x.newestNumber with
  | none => { x with newestNumber := some (number, block, page) }
  | some (n, b, p) =>
    let seqOf (k : Nat) := match st.block k with
      | some e => optNum e.blockSeq
      | none => 0
    let later := if b = block then decide (p < page) else decide (seqOf b < seqOf block)
    if n < number ∨ (n = number ∧ later = true) then { x with newestNumber := some (number, block, page) } else x

def StartScan.noteUnreadable (block page : Nat) (x : StartScan) : StartScan :=
  { x with unreadable := x.unreadable ++ [(block, page)] }

/-- A RECORDS page as its facts are needed; absent when R198 makes it unreadable. DESIGN CHOICE (log 49): a record that passes
the walk but whose contents chapter 11 does not list, such as a MARKER of another subkind, cause or reason, is left out of
`records`; the page is then a page of the records that remain. -/
def foundPage (block page : Nat) : PageData → Option FoundPage
  | .records count first earliest latest body =>
    match recordsOnPage count first body with
    | some records =>
      some { block := block, page := page, lastSeq := first + count - 1, earliest := earliest, latest := latest
             records := records.filterMap fun r => recordOf r.2 }
    | none => none
  | _ => none

/-- A page of the scan's steps 2 and 3 that is no record page: noted and passed over. -/
def State.passPage (block page : Nat) (v : PageView) (s : State) : State :=
  match v with
  | .page (.capture owner _ _ _ _ _) => s.modifyStore fun st => st.modifyScan (st.noteNumber owner block page)
  | .blank => s
  | .page _ | .unreadable => s.modifyStore fun st => st.modifyScan (StartScan.noteUnreadable block page)

/-- The conclusion's first three items come next, or the next block's header. -/
inductive ScanNext where
  | read (stage : ScanStage)
  | conclude

def afterBlock (block : Nat) : ScanNext :=
  if block + 1 < Config.blockCount then .read (.header (block + 1)) else .conclude

/-- Step 4 of R93: a block of the current identity becomes FULL, or BAD when it is on the bad list. -/
def Store.classify (block : Nat) (st : Store) : Store :=
  st.modifyBlock (fun e => { e with state := if st.badList.contains block then .bad else .full }) block

/-- A block without a usable header of the current identity: BAD when on the bad list, else STALE (R93). -/
def Store.classifyForeign (block : Nat) (st : Store) : Store :=
  st.modifyBlock (fun e => { e with state := if st.badList.contains block then .bad else .stale, blockSeq := none }) block

/-- Step 1 of R93. -/
def State.scanHeader (block : Nat) (v : PageView) (s : State) : State × ScanNext :=
  match v with
  | .page (.header _ identity seq _) =>
    if identity = s.store.identity then
      (s.modifyStore (Store.modifyBlock (fun e => { e with blockSeq := some seq }) block), .read (.firstPage block 1))
    else (s.modifyStore (Store.classifyForeign block), afterBlock block)
  | .unreadable =>
    ((s.modifyStore fun st => st.modifyScan (StartScan.noteUnreadable block 0)).modifyStore (Store.classifyForeign block),
      afterBlock block)
  | _ => (s.modifyStore (Store.classifyForeign block), afterBlock block)

/-- Step 2 of R93: upward to the first RECORDS page. -/
def State.scanFirst (block page : Nat) (v : PageView) (s : State) : State × ScanNext :=
  let none_ := (s.modifyStore (Store.classify block), afterBlock block)
  match v with
  | .blank => none_
  | _ =>
    let found := match v with
      | .page d => foundPage block page d
      | _ => none
    match found, v with
    | some f, .page (.records _ first _ _ _) =>
      (s.modifyStore fun st =>
        (st.modifyBlock (fun e => { e with firstRecord := some first }) block).modifyScan fun x =>
          { x with firstFound := some f },
        .read (.lastPage block (Config.pagesPerBlock - 1)))
    | _, _ =>
      let s1 := s.passPage block page v
      if page + 1 < Config.pagesPerBlock then (s1, .read (.firstPage block (page + 1)))
      else (s1.modifyStore (Store.classify block), afterBlock block)

/-- The block's last record page is found: last record sequence, span, newest number and newest page (R93, R94). -/
def State.lastFound (block : Nat) (f : FoundPage) (s : State) : State × ScanNext :=
  let s1 := s.modifyStore fun st =>
    (st.modifyBlock
      (fun e => { e with lastRecord := some f.lastSeq, earliest := some f.earliest, latest := some f.latest }) block).classify
      block
  (s1.modifyStore fun st => st.modifyScan fun x =>
    st.noteNumber f.lastSeq block f.page
      { x with
        lastPages := x.lastPages ++ [(block, f.page)]
        newestPage := match x.newestPage with
          | some g => if g.lastSeq < f.lastSeq then some f else some g
          | none => some f },
    afterBlock block)

/-- Step 3 of R93: downward to the last RECORDS page; should none be read any longer, step 2's page stands (log 23). DESIGN
CHOICE (log 44): a BLANK page below the block's first programmed page, of which R93 says nothing, is passed as those above are. -/
def State.scanLast (block page : Nat) (v : PageView) (s : State) : State × ScanNext :=
  let found := match v with
    | .page d => foundPage block page d
    | _ => none
  match found with
  | some f => s.lastFound block f
  | none =>
    let s1 := s.passPage block page v
    if 1 < page then (s1, .read (.lastPage block (page - 1)))
    else
      match s1.store.scan.bind (·.firstFound) with
      | some f => s1.lastFound block f
      | none => (s1.modifyStore (Store.classify block), afterBlock block)

/-! ## The conclusion (R82, R94) -/

/-- An unreadable page that may hold numbers above the newest found: above its page, or in a later block (R82). DESIGN CHOICE
(log 47): when no number was found at all there is no such page, whatever was unreadable. -/
def Store.hiddenNumbers (st : Store) (x : StartScan) : Bool :=
  match x.newestNumber with
  | none => false
  | some (_, b, p) =>
    let seqOf (k : Nat) := (st.block k).bind (·.blockSeq)
    x.unreadable.any fun u =>
      (u.1 == b && decide (p < u.2)) ||
        match seqOf u.1, seqOf b with
        | some q, some r => decide (r < q)
        | _, _ => false

/-- The next sequence number at the end of the scan (R82). -/
def Store.firstNumber (st : Store) (x : StartScan) : Nat :=
  let found := match x.newestNumber with
    | some (n, _, _) => n
    | none => 0
  max found (max st.floor st.exportMark) + 1 + (if st.hiddenNumbers x then 32 else 0)

/-- A COMMIT_WAIT entry and a reported record are of the same disturbance (R44). -/
def Entry.matches (base : Option Nat) (r : DisturbanceRecord) (x : Entry) : Bool :=
  x.state == .commitWait && x.kind == r.kind && x.start.resolve base == r.start && x.phases == r.phases

def matchEntries (r : DisturbanceRecord) : List (Nat × Entry) → State → State
  | [], s => s
  | (i, x) :: rest, s =>
    matchEntries r rest
      (if x.matches s.time.base r then
        (s.modifyTracker (·.commitDone r.seq i)).modifyStore (Store.leaveBatch i)
      else s)

/-- The DISTURBANCE records of the newest record page are reported to the tracker (R44, R94). -/
def State.matchRecords : List Record → State → State
  | [], s => s
  | .disturbance d :: rest, s => State.matchRecords rest (matchEntries d (filled s.tracker.entries) s)
  | _ :: rest, s => State.matchRecords rest s

/-- The epoch of a stored record's header time stamp. -/
def Record.epoch (r : Record) : Nat :=
  let t := match r with
    | .disturbance d => d.start
    | .interval i => i.stamp
    | .marker m => m.stamp
  match t.epoch with
  | .settled n => n
  | .unsettled _ => 0

/-- Items 1 to 3 of R94: numbering, the tracker's match, the epoch. DESIGN CHOICE (log 49): the epoch reported is that of the last
record of the newest page whose contents chapter 11 lists; when none is left on that page, the report is "no record" (R154). -/
def State.concludeFirst (x : StartScan) (s : State) : State :=
  let s1 := s.modifyStore fun st => { st with nextSeq := st.firstNumber x }
  let records := match x.newestPage with
    | some f => f.records
    | none => []
  let s2 := s1.matchRecords records
  { s2 with time := s2.time.settle ((lastOf records).map Record.epoch) }

/-- The unexported bounds at the end of the scan (R85). -/
def Store.boundUnexported (st : Store) : Store :=
  { st with
    index := st.index.map fun e =>
      match e.lastRecord with
      | some n => if st.exportMark < n then { e with unexported := some n } else e
      | none => e }

/-- Items 5 and 6 of R94: bounds, cases, and the writer begins with an activation due; STARTING is left (R167). -/
def State.concludeLast (s : State) : State :=
  let highest := optNum (maxOf (s.store.index.filterMap (·.lastRecord)))
  let s1 := (s.modifyStore Store.boundUnexported).concludeCases highest
  let s2 := s1.modifyStore fun st => { st with scan := none, activationDue := true }
  let power := match s2.supply.power with
    | .starting => .run
    | p => p
  State.runScans { s2 with supply := { s2.supply with power := power } }

/-! ## The read-back of a COLD start (R95, R166) -/

/-- A record synthesised for an item of a SUPPLY_LOSS marker (R166); its number is given when its job starts. -/
def synthesise (generation : Nat) (i : LossItem) : DisturbanceRecord where
  seq := 0
  kind := i.kind
  phases := i.phases
  start := i.start
  finish := none
  halfCycles := 0
  duration := none
  extreme := none
  extremePhase := none
  perPhase := Tri.all none
  steady := none
  enclosing := none
  generation := generation
  nested := []
  flags := { endUnknown := true, acrossSupplyLoss := true, noCapture := some .supply }
  pageCount := 0
  triggerSegment := 0
  firstPage := (0, 0)
  trigger := none
  continuation := none

/-- The newest marker of a page: the last of its MARKER records. -/
def newestMarker : List Record → Option MarkerRecord
  | [] => none
  | .marker m :: rest => some ((newestMarker rest).getD m)
  | _ :: rest => newestMarker rest

/-- The newest marker has been found: a SUPPLY_LOSS marker's items that no passed record answers are synthesised (R166). -/
def State.takeMarker (m : MarkerRecord) (passed : List (Kind × TimeStamp)) (s : State) : State :=
  match m.body with
  | .supplyLoss items =>
    s.modifyStore fun st =>
      { st with
        synthesised := (items.filter fun i => !passed.contains (i.kind, i.start)).map (synthesise s.settings.generation) }
  | _ => s

/-- Blocks read back after the newest, as (block, last record page) in descending block sequence (R95). -/
def Store.backOrder (st : Store) (x : StartScan) (newest : Nat) : List (Nat × Nat) :=
  let seqOf (k : Nat) := match st.block k with
    | some e => optNum e.blockSeq
    | none => 0
  (sortBy (fun l => seqOf l.1) (x.lastPages.filter fun l => decide (l.1 ≠ newest ∧ seqOf l.1 < seqOf newest))).reverse

/-- The page below, or the next block's last record page (R95). -/
def readBackNext (block page : Nat) (later : List (Nat × Nat)) : ScanNext :=
  if 1 < page then .read (.readBack block (page - 1) later)
  else
    match later with
    | (b, p) :: rest => .read (.readBack b p rest)
    | [] => .conclude

def disturbancesOf (records : List Record) : List (Kind × TimeStamp) :=
  records.filterMap fun r => match r with
    | .disturbance d => some (d.kind, d.start)
    | _ => none

/-- One page of the read-back (R95, R165). DESIGN CHOICE (log 49): a page all of whose MARKER records have contents chapter 11 does
not list does not end the read-back; it is passed over as a page that holds no MARKER record. -/
def State.scanBack (block page : Nat) (later : List (Nat × Nat)) (v : PageView) (s : State) : State × ScanNext :=
  let records := match v with
    | .page d => match foundPage block page d with
      | some f => f.records
      | none => []
    | _ => []
  match newestMarker records with
  | some m =>
    let passed := match s.store.scan with
      | some x => x.passed
      | none => []
    (s.takeMarker m passed, .conclude)
  | none =>
    (s.modifyStore fun st => st.modifyScan fun x => { x with passed := x.passed ++ disturbancesOf records },
      readBackNext block page later)

/-! ## The scan as a whole -/

/-- Every log block has been classified: items 1 to 3, then the read-back at a COLD start, then the rest (R94). -/
def State.classified (s : State) : State :=
  match s.store.scan with
  | none => s
  | some x =>
    let s1 := s.concludeFirst x
    match s1.supply.startCause, x.newestPage with
    | .cold, some f => s1.scanRead (.readBack f.block f.page (s1.store.backOrder x f.block))
    | _, _ => s1.concludeLast

/-- The scan treats one page result (R92 to R95). -/
def State.startResult (v : PageView) (s : State) : State :=
  match s.store.scan with
  | none => s
  | some x =>
    let follow (a : State × ScanNext) : State :=
      match a.2 with
      | .read stage => a.1.scanRead stage
      | .conclude => a.1.classified
    match x.stage with
    | .settingsArea b p =>
      let s1 := s.modifyStore fun st => st.modifyScan (StartScan.seeSettings b p v)
      if p + 1 < Config.pagesPerBlock then s1.scanRead (.settingsArea b (p + 1))
      else if b = 0 then s1.scanRead (.settingsArea 1 0)
      else s1.settingsAreaRead.scanRead (.header Config.firstLogBlock)
    | .header b => follow (s.scanHeader b v)
    | .firstPage b p => follow (s.scanFirst b p v)
    | .lastPage b p => follow (s.scanLast b p v)
    | .readBack b p later =>
      let (s1, next) := s.scanBack b p later v
      match next with
      | .read stage => s1.scanRead stage
      | .conclude => s1.concludeLast

/-- The settings in force until the settings area has been read: those of the newest SETTINGS image among the settled
pages of the array, or the defaults (log 14). -/
def Memory.provisional (m : Memory) : InForce :=
  let best := m.foldl
    (fun best c =>
      match c.2 with
      | ⟨.settings counter i, .whole⟩ => newerImage counter i best
      | _ => best) none
  match best with
  | some (_, i) => ⟨i.set, i.generation⟩
  | none => ⟨Settings.default, 0⟩

/-! ## The correction unit (R90, R91) -/

/-- What a page reads as. A page programmed whole is never BLANK and a blank page never anything else; a page whose
program was cut short reads as UNCORRECTABLE or as programmed, its RECORDS body possibly another; a page of unknown
contents reads as any, and a page whose contents are lost as BLANK or UNCORRECTABLE (R87, R91, R101, R110, R198, log 23). -/
def viewOf (result : ReadResult) (body : Option (List Byte)) (found : Option Page) : PageView :=
  match found with
  | none => .blank
  | some ⟨d, condition⟩ =>
    let altered := match d, body with
      | .records n f e l _, some b => PageData.records n f e l b
      | d, _ => d
    match result, condition with
    | .uncorrectable, _ => .unreadable
    | .blank, .unknown | .blank, .lost => .blank
    | _, .lost => .unreadable
    | .blank, .torn => .unreadable
    | _, .whole => .page d
    | _, _ => .page altered

/-- Heavy correction marks the block WEAK, whoever asked (R91). -/
def weakens (r : ReadResult) (found : Option Page) : Bool :=
  match r with
  | .corrected n => decide (3 ≤ n) && found.isSome
  | _ => false

/-- PAGE_READ_DONE: the page has been transferred; a second page waits for the unit (R90, log 25). -/
def State.readDone (s : State) : State :=
  match s.store.op, s.store.correcting with
  | some (.read b p who), none =>
    let s1 := s.modifyStore fun st => { st with op := none, correcting := some ⟨b, p, st.page b p, who⟩ }
    match who, s1.store.job with
    | .gone, some (.disturbance j) => s1.boundary { j with aside := none }
    | _, _ => s1
  | _, _ => s

/-- CORRECTION_DONE: the unit is EMPTY, WEAK is set on heavy correction, and the requester takes the result (R90, R91). -/
def State.correctionEnded (result : ReadResult) (body : Option (List Byte)) (s : State) : State :=
  match s.store.correcting with
  | none => s
  | some c =>
    let s1 := s.modifyStore fun st =>
      let st1 := { st with correcting := none }
      if weakens result c.found then st1.modifyBlock (fun e => { e with weak := true }) c.block else st1
    let v := viewOf result body c.found
    match c.who with
    | .host => s1.hostResult v
    | .caseScan => s1.scanReadDone v
    | .startUp => s1.startResult v
    | .gone => s1

end Sys2Proof.Machine
end

