-- ==== Sys2Proof/Machine/Medium.lean ====
section
/-!
DEFINITION. The commands of the array: outcomes of the medium operation in progress and of the correction unit
(sections 5.3 to 5.7). An outcome of an operation that is not in progress changes nothing (log 10).
-/

namespace Sys2Proof.Machine

/-- PAGE_PROGRAM_DONE: the program in progress completes (R79, R86, R100). -/
def execPageProgramDone (s : State) : Result :=
  .next <|
    match s.coreRunning, s.store.op with
    | true, some (.program b p d why) => (s.programDone b p d why).pump
    | _, _ => s

/-- PAGE_PROGRAM_TIMEOUT: the program in progress passes 2 ms (R86, R87; in the settings area R102). -/
def execPageProgramTimeout (s : State) : Result :=
  .next <|
    match s.coreRunning, s.store.op with
    | true, some (.program b p d why) => (s.programTimedOut b p d why).pump
    | _, _ => s

/-- SETTINGS_AREA_TIMEOUT: the program or erase in progress in the settings area times out (R102). -/
def execSettingsAreaTimeout (s : State) : Result :=
  .next <|
    match s.coreRunning, s.store.op with
    | true, some (.program b p d (.image direct)) => (s.programTimedOut b p d (.image direct)).pump
    | true, some (.erase b (.settings direct)) => (s.eraseTimedOut b (.settings direct)).pump
    | _, _ => s

/-- BLOCK_ERASE_DONE: the erase in progress completes (R88, R100). -/
def execBlockEraseDone (s : State) : Result :=
  .next <|
    match s.coreRunning, s.store.op with
    | true, some (.erase b why) => (s.eraseDone b why).pump
    | _, _ => s

/-- BLOCK_ERASE_TIMEOUT: the erase in progress passes 40 ms (R88; in the settings area R102). -/
def execBlockEraseTimeout (s : State) : Result :=
  .next <|
    match s.coreRunning, s.store.op with
    | true, some (.erase b why) => (s.eraseTimedOut b why).pump
    | _, _ => s

/-- PAGE_READ_DONE: the page read in progress is transferred into the correction unit (R90). -/
def execPageReadDone (s : State) : Result := .next (if s.coreRunning then s.readDone.pump else s)

/-- CORRECTION_DONE: the correction in progress ends with a result (R91). -/
def execCorrectionDone (result : ReadResult) (body : Option (List Byte)) (s : State) : Result :=
  .next (if s.coreRunning then (s.correctionEnded result body).pump else s)

end Sys2Proof.Machine
end

