-- ==== Sys2Proof/Machine/Deliver.lean ====
section
/-!
DEFINITION. The commands by which outputs and reports of one block reach another (chapters 1 to 4, 7 and 10). Each acts
while the core runs and its report is in flight, and changes nothing otherwise (log 9, log 10).
-/

namespace Sys2Proof.Machine

def State.setReports (r : Reports) (s : State) : State := { s with reports := r }

/-- HALF_CYCLE_VALUE_SET: the tracker takes the oldest one handed over through its seven stages (R20), its own requests
settled before (log 9). -/
def execHalfCycleValueSet (s : State) : Result :=
  .next <|
    match s.coreRunning, dueHalfCycle s.meas.outbox with
    | true, some (v, rest) => ((s.setOutbox rest).settleRequests.track v).pump
    | _, _ => s

/-- WINDOW_VALUE_SET: the oldest one handed over reaches the aggregator (R62, R63) and the link unit (R186). -/
def execWindowValueSet (s : State) : Result :=
  .next <|
    match s.coreRunning, dueWindow s.meas.outbox with
    | true, some (w, rest) =>
      let s1 := (s.setOutbox rest).takeWindow w
      State.pump { s1 with link := s1.link.joinFifo s1.time.base w }
    | _, _ => s

/-- FREQUENCY_VALUE: the oldest one handed over reaches the aggregator (R64). -/
def execFrequencyValue (s : State) : Result :=
  .next <|
    match s.coreRunning, dueFrequency s.meas.outbox with
    | true, some (f, rest) => (s.setOutbox rest).takeFrequency f
    | _, _ => s

/-- A series restart notice acts on its receiver (R39, R56); the aggregator goes on with the open interval (R70). -/
def State.seriesRestart (dest : RestartReceiver) (s : State) : State :=
  match dest with
  | .tracker => s.restartTracker
  | .capture => s.settleRequests.restartCapture
  | .aggregator => s

/-- SERIES_RESTART (R15). -/
def execSeriesRestart (dest : RestartReceiver) (s : State) : Result :=
  .next <|
    match s.coreRunning, dueRestart dest s.meas.outbox with
    | true, some rest => ((s.setOutbox rest).seriesRestart dest).pump
    | _, _ => s

/-! ## Apply notifications (R194, R195) -/

/-- The oldest notice in flight to a receiver, with the reports left. -/
def Reports.takeNotice (dest : ApplyReceiver) (r : Reports) : Option (Notice × Reports) :=
  match dest with
  | .measurement =>
    match r.applyMeasurement with
    | n :: rest => some (n, { r with applyMeasurement := rest })
    | [] => Option.none
  | .tracker =>
    match r.applyTracker with
    | n :: rest => some (n, { r with applyTracker := rest })
    | [] => Option.none
  | .capture =>
    match r.applyCapture with
    | n :: rest => some (n, { r with applyCapture := rest })
    | [] => Option.none
  | .aggregator =>
    match r.applyAggregator with
    | n :: rest => some (n, { r with applyAggregator := rest })
    | [] => Option.none
  | .link =>
    match r.applyLink with
    | n :: rest => some (n, { r with applyLink := rest })
    | [] => Option.none

/-- Mask and mode are replaced; a change of mode ends a pulse in progress (R184, R185). -/
def Link.setAttention (mask : CauseSet) (mode : AttnMode) (l : Link) : Link :=
  { l with mask := mask, mode := mode, pulse := l.pulse && mode == l.mode }

/-- The link unit takes an apply notification (R183, R184, R195). -/
def State.applyLink (n : Notice) (s : State) : State :=
  let l := s.link
  let l1 :=
    if n.changed.contains .attentionMask || n.changed.contains .attentionMode then
      l.setAttention n.inForce.set.attentionMask n.inForce.set.attentionMode
    else l
  State.judgeExport { s with link := { l1 with exportThreshold := n.inForce.set.exportThreshold } }

/-- A notice acts on its receiver (R195). -/
def State.applyNotice (dest : ApplyReceiver) (n : Notice) (s : State) : State :=
  match dest with
  | .measurement => { s with meas := s.meas.apply n.inForce.set }
  | .tracker => s.applyTracker n
  | .capture =>
    { s with capture := { s.capture with
        preCycles := n.inForce.set.preCycles, postCycles := n.inForce.set.postCycles } }
  | .aggregator => { s with agg := { s.agg with inForce := n.inForce } }
  | .link => s.applyLink n

/-- APPLY_NOTIFICATION (R194, R195). -/
def execApplyNotification (dest : ApplyReceiver) (s : State) : Result :=
  .next <|
    match s.coreRunning, s.reports.takeNotice dest with
    | true, some (n, rest) => ((s.setReports rest).applyNotice dest n).pump
    | _, _ => s

/-! ## Reports about slots, commits and losses -/

/-- SLOT_FULL: the oldest report reaches the tracker (R25). -/
def execSlotFull (s : State) : Result :=
  .next <|
    match s.coreRunning, s.reports.full with
    | true, (entry, slot) :: rest =>
      ((s.setReports { s.reports with full := rest }).modifyTracker (·.slotFull entry slot)).pump
    | _, _ => s

/-- SLOT_DROPPED: the oldest report reaches the tracker (R25). -/
def execSlotDropped (s : State) : Result :=
  .next <|
    match s.coreRunning, s.reports.dropped with
    | true, (entry, slot) :: rest =>
      ((s.setReports { s.reports with dropped := rest }).modifyTracker (·.slotDropped entry slot)).pump
    | _, _ => s

/-- COMMIT_DELIVERY: the oldest committed record not yet delivered reaches the case unit (R124, R136, R144). -/
def execCommitDelivery (s : State) : Result :=
  .next <|
    match s.coreRunning, s.reports.deliveries with
    | true, r :: rest => ((s.setReports { s.reports with deliveries := rest }).deliver r).pump
    | _, _ => s

/-- LOSS_COUNTER_REPORT: the oldest report reaches the case unit (R143). -/
def execLossCounterReport (s : State) : Result :=
  .next <|
    match s.coreRunning, s.reports.losses with
    | true, _ :: rest => (s.setReports { s.reports with losses := rest }).gapReport.pump
    | _, _ => s

/-- MISSED_COUNTER_REPORT: the oldest report reaches the aggregator (R65) or the case unit (R143). -/
def execMissedCounterReport (dest : MissReceiver) (s : State) : Result :=
  .next <|
    match s.coreRunning, dest with
    | true, .aggregator =>
      match s.reports.missedToAggregator with
      | k :: rest => (s.setReports { s.reports with missedToAggregator := rest }).takeMiss k
      | [] => s
    | true, .caseUnit =>
      match s.reports.missedToCases with
      | _ :: rest => (s.setReports { s.reports with missedToCases := rest }).gapReport.pump
      | [] => s
    | false, _ => s

/-! ## Steps and arrivals (R152, R153) -/

/-- TIME_STEP_REPORT: the oldest step report to one of the three blocks (R40, R68, R140). -/
def execTimeStepReport (dest : StepReceiver) (s : State) : Result :=
  .next <|
    match s.coreRunning, dest with
    | true, .tracker =>
      match s.reports.stepToTracker with
      | e :: rest => (s.setReports { s.reports with stepToTracker := rest }).modifyTracker (·.step s.time.base e)
      | [] => s
    | true, .aggregator =>
      match s.reports.stepToAggregator with
      | n + 1 => ((s.setReports { s.reports with stepToAggregator := n }).cutInterval { timeStep := true }).pump
      | 0 => s
    | true, .caseUnit =>
      match s.reports.timeToCases with
      | .step :: rest => (s.setReports { s.reports with timeToCases := rest }).stepCases.pump
      | _ => s
    | false, _ => s

/-- CLOCK_ARRIVAL: the oldest arrival reaches the case unit, behind the step report delivered with it (R138, R139, R152). -/
def execClockArrival (s : State) : Result :=
  .next <|
    match s.coreRunning, s.reports.timeToCases with
    | true, .arrival no k :: rest => ((s.setReports { s.reports with timeToCases := rest }).takeArrival no k).pump
    | _, _ => s

/-! ## The boundary (R194) -/

/-- The pending set becomes active: generation, image request, marker and notifications, in that order (R194). -/
def State.activateSettings (p : Settings) (s : State) : State :=
  let ids := changedIds s.settings.active p
  let g := count32 s.settings.generation
  let s1 := { s with settings := { s.settings with active := p, generation := g, pending := none } }
  let s2 := (s1.queueImage .settings).queueMarker (.settingsApplied g ids)
  let n : Notice := ⟨⟨p, g⟩, ids⟩
  let r := s2.reports
  s2.setReports
    { r with
      applyMeasurement := r.applyMeasurement ++ [n]
      applyTracker := r.applyTracker ++ [n]
      applyCapture := r.applyCapture ++ [n]
      applyAggregator := r.applyAggregator ++ [n]
      applyLink := r.applyLink ++ [n] }

/-- INTERVAL_BOUNDARY: the oldest boundary report reaches the settings section (R194). -/
def execIntervalBoundary (s : State) : Result :=
  .next <|
    match s.coreRunning, s.reports.boundaries with
    | true, _ :: rest =>
      let s1 := s.setReports { s.reports with boundaries := rest }
      match s1.settings.pending with
      | some p => (s1.activateSettings p).pump
      | none => s1
    | _, _ => s

/-! ## Hold requests (R127, log 13) -/

/-- HOLD_PLACE: a place request for an occupied slot (R127). -/
def execHoldPlace (slot : Fin 8) (s : State) : Result :=
  .next (if s.coreRunning then (s.placeHolds slot.val).pump else s)

/-- HOLD_JUDGE_BLOCK: one block is judged for an occupied slot (R127). -/
def execHoldJudgeBlock (slot : Fin 8) (block : Nat) (s : State) : Result :=
  .next (if s.coreRunning then (s.judgeBlock slot.val block).pump else s)

/-- HOLD_REMOVE: the slot leaves every block's hold set (R127). -/
def execHoldRemove (slot : Fin 8) (s : State) : Result :=
  .next (if s.coreRunning then (s.removeHolds slot.val).pump else s)

end Sys2Proof.Machine
end

