-- ==== Sys2Proof/Machine/Replies.lean ====
section
/-!
DEFINITION. The requests that only report: IDENTIFY, GET_STATUS, GET_TIME, GET_LIVE, GET_STORE, GET_SETTINGS, LIST_CASES,
CASE_SUMMARY and CASE_RECORDS, as their reply bodies (section 11.4).
-/

namespace Sys2Proof.Machine

/-! ## Codes (section 11.4) -/

/-- 0 STARTING, 1 RUN, 2 HOLDUP; no request is served in the other states. -/
def Power.code : Power → Nat
  | .run => 1
  | .holdup => 2
  | .starting | .retain | .wait => 0

def StoreState.code : StoreState → Nat
  | .writable => 0
  | .heldFull => 1
  | .readOnly => 2
  | .formatting => 3

def Urgency.code : Urgency → Nat
  | .none => 0
  | .may => 1
  | .need => 2
  | .must => 3

def AttnMode.code : AttnMode → Nat
  | .level => 0
  | .pulse => 1

def InvalidReason.code : InvalidReason → Nat
  | .noReference => 1
  | .shortSpan => 2
  | .outOfRange => 3

/-- 1 PENDING, 2 WAITING, 3 RUNNING, 4 LIVE, 5 ENDED. -/
def CaseState.code : CaseState → Nat
  | .pending => 1
  | .waiting => 2
  | .running => 3
  | .live => 4
  | .ended => 5

/-- Clock quality, with bit 7 for a LOW cell. -/
def State.qualityByte (s : State) : Nat := bit s.time.qualitySet 0 + bit s.supply.cellLow 7

/-! ## IDENTIFY and GET_STATUS (R181) -/

/-- The body of IDENTIFY's reply after its status. -/
def State.identity (s : State) : List Byte :=
  field 1 s.supply.power.code ++ field 1 s.supply.startCause.code ++ [Config.siliconRevision]
    ++ field 2 Config.vendorCode ++ field 2 Config.partCode ++ field 8 Config.serialNumber.toNat
    ++ field 4 s.settings.generation

/-- The four link counters. -/
def LinkCounters.bytes (c : LinkCounters) : List Byte :=
  field 4 c.timeout ++ field 4 c.checkFail ++ field 4 c.overrun ++ field 4 c.watchDrop

/-- The store items of R121 at bytes 9 to 12: absent until the start-up scan has concluded. -/
def Store.statusItems (st : Store) : List Byte :=
  if st.scan.isSome then reserved 4
  else field 1 st.state.code ++ field 1 st.urgency.code ++ field 1 st.free ++ field 1 st.badCount

/-- The loss counters as reported: 0 until the start-up scan has concluded (R121). -/
def Store.statusLosses (st : Store) : LossCounters := if st.scan.isSome then ⟨0, 0, 0, 0⟩ else st.lost

/-- The body of GET_STATUS's reply after its status (R121, R181). -/
def State.status (s : State) : List Byte :=
  field 1 s.supply.power.code ++ field 1 s.qualityByte ++ [s.link.causes, s.link.mask]
    ++ field 1 s.link.mode.code ++ field 1 (optNum s.link.watch) ++ field 1 (bit s.store.scan.isNone 0)
    ++ field 1 (bits [s.store.storeFault, s.store.proposed.isSome, s.store.saturated])
    ++ s.store.statusItems ++ reserved 3 ++ s.link.counters.bytes ++ perKindBytes s.tracker.missed
    ++ lossCountersBytes s.store.statusLosses
    ++ (if s.store.scan.isSome then reserved 4 else field 4 s.store.newestSeq)
    ++ field 4 s.store.exportMark ++ field 4 (optNum s.store.proposed)
    ++ field 2 s.store.unexportedList.length ++ reserved 2

def State.serveIdentify (s : State) : State := s.reply .ok s.identity

def State.serveGetStatus (s : State) : State := s.reply .ok s.status

/-! ## GET_TIME (R150) -/

def State.serveGetTime (s : State) : State := s.reply .ok (field 1 s.qualityByte ++ reserved 2 ++ stampBytes s.now)

/-! ## GET_LIVE (R14, R45) -/

/-- A frequency block of 20 bytes; what a value does not hold is 0. -/
def frequencyBlock (base : Option Nat) (f : FrequencyValue) : List Byte :=
  let reason := match f.reason with
    | some r => 16 * r.code
    | none => 0
  field 4 f.period ++ stampBytes (f.stamp.resolve base) ++ field 4 (optNum f.frequency)
    ++ field 1 (bit f.frequency.isSome 0 + reason) ++ field 1 (phaseCode f.reference) ++ field 2 (optNum f.crossings)

/-- An OPEN entry of 20 bytes. -/
def liveEntry (base : Option Nat) (e : Nat × Entry) : List Byte :=
  let volts := match e.2.extreme with
    | some x => roundRest x.num x.den
    | none => 0
  field 1 e.1 ++ field 1 e.2.kind.code ++ field 1 (phaseSetBits e.2.phases) ++ field 1 (phaseCode e.2.extremePhase)
    ++ field 2 (flagsWord e.2.flags) ++ field 2 volts ++ stampBytes (e.2.start.resolve base) ++ field 4 e.2.halfCycles

def State.serveGetLive (s : State) : State :=
  let base := s.time.base
  let entries := s.tracker.opened
  s.reply .ok
    (field 1 (bits [s.meas.latestWindow.isSome, s.meas.latestFrequency.isSome]) ++ field 1 entries.length ++ reserved 1
      ++ optBytes (windowBlock base) s.meas.latestWindow ++ optBytes (frequencyBlock base) s.meas.latestFrequency
      ++ entries.flatMap (liveEntry base))

/-! ## GET_STORE (R103) -/

/-- The ACTIVE block with its block sequence. -/
def Store.activeBlock (st : Store) : Option (Nat × Nat) :=
  (st.blocks.find? fun e => e.2.state == .active).map fun e => (e.1, optNum e.2.blockSeq)

def State.serveGetStore (s : State) : State :=
  let st := s.store
  let count (b : BlockState) := field 1 (st.countState b)
  let times := match st.oldestTime, st.newestTime with
    | some a, some b => field 4 a ++ field 4 b
    | _, _ => reserved 8
  let active := match st.activeBlock with
    | some (b, q) => field 1 b ++ reserved 3 ++ field 4 q
    | none => reserved 8
  s.reply .ok
    (field 1 (bits [st.oldestTime.isSome && st.newestTime.isSome, st.activeBlock.isSome])
      ++ field 1 (bit st.storeFault 0) ++ reserved 1
      ++ count .erased ++ count .stale ++ count .active ++ count .full ++ count .erasing ++ count .bad
      ++ field 1 (st.index.filter (·.weak)).length ++ field 1 (st.index.filter fun e => e.unexported.isSome).length
      ++ times ++ active)

/-! ## GET_SETTINGS (R192) -/

/-- GET_SETTINGS: 0 names the staged set, 1 the active one. -/
def State.serveGetSettings (body : List Byte) (s : State) : State :=
  let g := s.settings
  let send (set : Settings) :=
    s.reply .ok (field 1 (bit g.pending.isSome 0) ++ reserved 2 ++ field 4 g.generation ++ settingsPairs set)
  match fieldAt body 0 1 with
  | 0 => send g.staged
  | 1 => send g.active
  | _ => s.reply .badArgument []

/-! ## The cases (R146 to R148) -/

/-- HEAD_LOST, EVIDENCE_LOST, GAP, TIME_STEPPED, UNREADABLE. -/
def CaseSlot.flagBits (c : CaseSlot) : List Bool :=
  [c.headLost, c.evidenceLost, c.gap, c.timeStepped, decide (0 < c.unreadable)]

def optWTime : Option WTime → List Byte
  | some t => wtimeBytes t
  | none => reserved 6

/-- A slot item of 40 bytes. -/
def State.caseItem (s : State) (i : Nat) : List Byte :=
  match s.case i with
  | none => reserved 40
  | some c =>
    let cursor := match s.cases.engine with
      | some e => if e.slot = i then e.blockSeq else 0
      | none => 0
    field 1 c.state.code ++ field 1 (bits c.flagBits)
      ++ field 1 (bits [c.finish.isSome, c.openingMarker.isSome, c.horizon.isSome]) ++ field 1 (phaseSetBits c.phases)
      ++ field 2 c.caseNo ++ wtimeBytes c.start ++ optWTime c.finish ++ reserved 2
      ++ stampBytes (c.opened.resolve s.time.base) ++ field 4 (optNum c.openingMarker) ++ field 4 (optNum c.horizon)
      ++ field 4 cursor

def State.serveListCases (s : State) : State :=
  s.reply .ok (reserved 3 ++ (List.range Config.caseCount).flatMap s.caseItem)

/-- The table is whole: PENDING, LIVE or ENDED (R147). -/
def CaseSlot.complete (c : CaseSlot) : Bool := c.state == .pending || c.state == .live || c.state == .ended

/-- The twelve bytes of one phase; all 0 outside the phases of interest. -/
def CaseSlot.phaseBytes (c : CaseSlot) (p : Phase) : List Byte :=
  let t := c.table.phases.get p
  if c.phases.has p then
    field 4 t.withMean ++ field 4 t.outside ++ field 2 (optNum t.lowest) ++ field 2 (optNum t.highest)
  else reserved 12

def CaseSlot.summary (c : CaseSlot) : List Byte :=
  let t := c.table
  let seen (p : Phase) := c.phases.has p && (t.phases.get p).lowest.isSome
  field 1 c.state.code ++ field 1 (bits (c.flagBits ++ [c.listFull, c.complete, c.finish.isSome]))
    ++ field 1 (phaseSetBits c.phases) ++ field 2 c.caseNo ++ wtimeBytes c.start ++ optWTime c.finish
    ++ field 2 c.list.length ++ field 4 c.unreadable ++ t.dipBins.flatMap (field 4) ++ t.swellBins.flatMap (field 4)
    ++ field 4 t.dipOther ++ field 4 t.interruptionOther ++ field 4 t.swellOther ++ field 4 t.rvc ++ field 4 t.supplyLoss
    ++ field 4 t.endUnknown ++ field 4 t.intervals ++ field 4 t.flaggedIntervals
    ++ c.phaseBytes .l1 ++ c.phaseBytes .l2 ++ c.phaseBytes .l3
    ++ field 1 (bits [seen .l1, seen .l2, seen .l3]) ++ reserved 3

def State.serveCaseSummary (body : List Byte) (s : State) : State :=
  match s.findCase (fieldAt body 0 2) with
  | none => s.reply .notFound []
  | some (_, c) => s.reply .ok c.summary

/-- Sequence numbers one reply of CASE_RECORDS carries (R148). -/
def caseRecordsLimit : Nat := 64

def State.serveCaseRecords (body : List Byte) (s : State) : State :=
  let position := fieldAt body 2 2
  match s.findCase (fieldAt body 0 2) with
  | none => s.reply .notFound []
  | some (_, c) =>
    if c.list.length < position then s.reply .badArgument []
    else
      let numbers := (c.list.drop position).take caseRecordsLimit
      s.reply .ok
        (field 1 (bits [c.listFull, c.complete]) ++ field 1 numbers.length ++ reserved 1 ++ field 2 c.list.length
          ++ reserved 2 ++ numbers.flatMap (field 4))

end Sys2Proof.Machine
end

