-- ==== Sys2Proof/Machine/Supply.lean ====
section
/-!
DEFINITION. The supply supervisor (sections 8.3 to 8.6): entry to HOLDUP and the return, the stop of the core, starts,
and the backup domain.
-/

namespace Sys2Proof.Machine

/-! ## HOLDUP (R157, R160) -/

/-- The entries that are TAIL or COMMIT_WAIT: the loss batch (R157). -/
def Tracker.batch (t : Tracker) : List Nat :=
  (filled t.entries).filterMap fun e => if e.2.state == .opened then none else some e.1

/-- A host read is waiting, or runs while a disturbance job is set aside. -/
def Store.endsAtOnce (st : Store) : Bool :=
  st.hostRequest.isSome ||
    match st.job with
    | some (.disturbance j) =>
      match j.aside with
      | some (.hostRead _) => true
      | _ => false
    | _ => false

/-- A host read that waits, or for which a disturbance job is set aside, is answered BUSY_STORE at once and given up (R107,
R118). -/
def State.busyRead (s : State) : State :=
  if s.store.endsAtOnce then (s.reply .busyStore []).dropHostRead else s

/-- The running job at entry to HOLDUP: a capture part stops; a host read ends after its read in progress; a SUPPLY_LOSS marker
of an earlier HOLDUP is no longer the current one (R55, R118, R157, R159). -/
def Job.enterHoldup : Job → Job
  | .disturbance j => .disturbance { j with stopCapture := true }
  | .records j => .records { j with ownLoss := false }
  | .hostRead _ => .endingRead
  | j => j

/-- Entry to HOLDUP is reported to the capture unit, the aggregator and the store controller (R157). -/
def State.enterHoldup (s : State) : State :=
  let s1 := { s with supply := { s.supply with power := .holdup } }
  let s2 := (s1.dropSlots.cutInterval { holdup := true }).busyRead
  let s3 := s2.modifyStore fun st =>
    { st with
      lossBatch := s2.tracker.batch
      job := st.job.map Job.enterHoldup
      holdupInterval := s2.agg.queue.isEmpty
      lossMarker := .queued }
  s3.queueSupplyLoss

/-- The running job at the return: SUPPLY_RETURN follows the commit of its SUPPLY_LOSS marker (R160). -/
def Job.awaitReturn : Job → Job
  | .records j => .records { j with returnDue := j.returnDue || j.ownLoss }
  | j => j

/-- The return from HOLDUP without a start (R160). -/
def State.leaveHoldup (s : State) : State :=
  let s1 := { s with supply := { s.supply with power := if s.store.scan.isSome then .starting else .run } }
  let s2 := s1.modifyStore fun st => { st with lossBatch := [] }
  match s.store.lossMarker with
  | .committed => (s2.modifyStore fun st => { st with lossMarker := .absent }).queueMarker (.supplyReturn none)
  | .running => s2.modifyStore fun st => { st with job := st.job.map Job.awaitReturn }
  | .queued =>
    s2.modifyStore fun st =>
      { st with lossMarker := .absent, markerQueue := st.markerQueue.filter fun i => !i.isSupplyLoss }
  | .absent | .discarded => s2.modifyStore fun st => { st with lossMarker := .absent }

/-! ## The stop of the core (R156, R161) -/

/-- The array when the core stops: a page whose program was cut short, a block whose erase was (R91, log 23). -/
def Store.cutShort (st : Store) : Memory :=
  match st.op with
  | some (.program b p d _) => (st.program b p d .torn).array
  | some (.erase b _) => st.array.degrade b
  | _ => st.array

/-- The core stops: every block of the core domain loses its state; the array and the backup domain keep theirs (R161).
Requests of the tracker in flight are served before (log 9). -/
def State.stopCore (power : Power) (s : State) : State :=
  let s1 := s.settleRequests
  { s1 with
    supply := { s1.supply with power := power }
    time := { s1.time with arrivals := [] }
    meas := Measurement.fresh s1.meas.freq s1.meas.udecl s1.meas.threePhases
    capture := Capture.fresh s1.capture.preCycles s1.capture.postCycles
    agg := Aggregator.fresh s1.agg.inForce
    store := { Store.fresh s1.store.cutShort with op := none, scan := none }
    cases := CaseUnit.fresh
    link := Link.fresh
    reports := Reports.none }

/-! ## Starts (R162 to R165) -/

/-- The start cause (R162). -/
def Supply.cause (u : Supply) : StartCause :=
  if u.markAbsent then .cold
  else if u.powerLost then .resume
  else if u.resetSeen then .resetLine
  else .restartRequest

/-- The flag of an entry that is OPEN across a start (R42). -/
def Entry.across (resume : Bool) (x : Entry) : Entry :=
  if resume then { x with flags := { x.flags with acrossSupplyLoss := true } }
  else { x with flags := { x.flags with measurementGap := true } }

/-- An entry loses its slot link (R42). -/
def Entry.loseSlot (resume : Bool) (x : Entry) : Entry :=
  match x.slot with
  | some _ => { (x.refuse (if resume then .supply else .slot)) with slot := none }
  | none => x

def Tracker.enqueueAll : List Nat → Tracker → Tracker
  | [], t => t
  | i :: rest, t => enqueueAll rest (t.enqueue i)

def Tracker.isTail (t : Tracker) (i : Nat) : Bool :=
  match t.entry i with
  | some x => x.state == .tail
  | none => false

/-- The tracker's changes at a start that kept the backup domain (R42). -/
def Tracker.restart (base : Option Nat) (resume : Bool) (stamp : TimeStamp) (inForce : InForce) (t : Tracker) : Tracker :=
  let t1 : Tracker := { t with
    entries := t.entries.map (Option.map fun x =>
      let y := x.loseSlot resume
      if y.state == .opened then y.across resume else y) }
  { (t1.enqueueAll (t1.tailOrder.filter t1.isTail)).beginSeries base stamp with inForce := inForce }

/-- The dark duration of a RESUME start (R164). -/
def darkDuration (stamp : TimeStamp) (off : WTime) : Nat := min (stamp.toMs - off.toMs) 4294967295

/-- A start: the cause is decided, the part enters STARTING, and every block of the core domain begins (R162, R163). -/
def State.start (cellLow : Bool) (s : State) : State :=
  let cause := s.supply.cause
  let stamp := s.now
  let inForce := s.store.array.provisional
  let set := inForce.set
  let resume := cause == .resume
  let restartMark := QueueItem.marker stamp (.restart cause stamp)
  let markers := match resume, s.time.coreOff with
    | true, some off => [restartMark, .marker stamp (.supplyReturn (some (darkDuration stamp off)))]
    | _, _ => [restartMark]
  let s1 : State :=
    { s with
      supply :=
        { s.supply with
          power := .starting, timerRunning := false, powerLost := false, resetSeen := false, markAbsent := false
          startCause := cause, startStamp := stamp, cellLow := cellLow }
      time := { s.time with arrivals := [], coreOff := if resume then none else s.time.coreOff }
      meas := Measurement.fresh set.freq set.udecl set.threePhases
      tracker :=
        if cause == .cold then Tracker.cold inForce else s.tracker.restart s.time.base resume stamp inForce
      capture := Capture.fresh set.preCycles set.postCycles
      agg := Aggregator.fresh inForce
      store := { Store.fresh s.store.array with markerQueue := markers }
      settings := { active := set, generation := inForce.generation, staged := set, pending := none }
      cases := CaseUnit.fresh
      link := Link.fresh
      reports := Reports.none }
  (s1.latch .restarted).reportClock

/-! ## The backup domain (R149, R155) -/

/-- The timebase when the backup domain is made valid (R149). -/
def Timebase.cold : Timebase where
  sec := 0
  ms := 0
  epoch := .unsettled 0
  base := none
  qualitySet := false
  coreOff := none
  arrivals := []

/-- The contents of the backup domain are lost, and the validity mark with them (R155). -/
def State.loseBackup (s : State) : State :=
  { s with
    supply := { s.supply with valid := false }
    time := Timebase.cold
    tracker := Tracker.cold s.tracker.inForce }

/-- At power-up an absent validity mark is found: the domain is made valid with its COLD starting values, and the cell
counts as GOOD (R155). -/
def State.powerUp (s : State) : State :=
  if s.supply.valid then s
  else
    { s with
      supply := { s.supply with valid := true, markAbsent := true, cellLow := false }
      time := Timebase.cold
      tracker := Tracker.cold s.tracker.inForce }

/-! ## The commands -/

/-- SUPPLY_FAIL_WARNING: the stability timer returns to 0; RUN and STARTING go to HOLDUP (R156, R157, R167). -/
def execSupplyFailWarning (s : State) : Result :=
  let s1 := { s with supply := { s.supply with supplyGood := false, timerRunning := false } }
  .next <|
    match s.supply.power with
    | .run | .starting => s1.enterHoldup.pump
    | _ => s1

/-- SUPPLY_GOOD: the stability timer starts from 0 with RESETN high; in RETAIN the core is powered up (R155, R156). -/
def execSupplyGood (s : State) : Result :=
  .next <|
    if s.supply.supplyGood then s
    else
      let s1 := { s with supply := { s.supply with supplyGood := true, timerRunning := s.supply.resetnHigh } }
      match s.supply.power with
      | .retain => s1.powerUp
      | _ => s1

/-- STABILITY_TIMER_EXPIRY: from HOLDUP the part returns, else a start begins (R156, R160, R162). DESIGN CHOICE (log 41): the
return to STARTING (R160) is no entry to STARTING in the sense of R155, so the cell is not judged there, no CLOCK report is made,
and the judgement that the command carries is not used. -/
def execStabilityTimerExpiry (cellLow : Bool) (s : State) : Result :=
  .next <|
    if s.supply.timerRunning && s.supply.supplyGood && s.supply.resetnHigh then
      let s1 := { s with supply := { s.supply with timerRunning := false } }
      match s.supply.power with
      | .holdup => s1.leaveHoldup.pump
      | .retain | .wait => s1.start cellLow
      | _ => s1
    else s

/-- CORE_POWER_LOST: from HOLDUP or a stability wait to RETAIN, with the core-off time mark set (R161). -/
def execCorePowerLost (s : State) : Result :=
  let lost (s : State) : State :=
    { s with
      supply := { s.supply with power := .retain, supplyGood := false, timerRunning := false, powerLost := true }
      time := { s.time with coreOff := some ⟨s.time.sec, s.time.ms⟩ } }
  .next <|
    match s.supply.power with
    | .holdup => lost (s.stopCore .retain)
    | .wait => lost s
    | _ => s

/-- RESETN_LOW: the running core stops at once for a stability wait; the timer returns to 0 (R156). DESIGN CHOICE (log 51): in RETAIN,
where R156 says that RESETN has no effect and also that the timer returns to 0, the timer stops and the start waits for RESETN
high; no reset is noted for the start cause. -/
def execResetnLow (s : State) : Result :=
  let s1 := { s with supply := { s.supply with resetnHigh := false, timerRunning := false } }
  let seen (s : State) : State := { s with supply := { s.supply with resetSeen := true } }
  .next <|
    if !s.supply.resetnHigh then s
    else
      match s.supply.power with
      | .starting | .run | .holdup => seen (s1.stopCore .wait)
      | .wait => seen s1
      | .retain => s1

/-- RESETN_HIGH: the stability timer starts from 0 when the supply is good (R156). -/
def execResetnHigh (s : State) : Result :=
  .next <|
    if s.supply.resetnHigh then s
    else { s with supply := { s.supply with resetnHigh := true, timerRunning := s.supply.supplyGood } }

/-- BACKUP_DOMAIN_LOSS: core supply and cell are both absent, so the backup domain's contents are lost (R155). -/
def execBackupDomainLoss (s : State) : Result :=
  .next <|
    match s.supply.power with
    | .retain => if s.supply.supplyGood then s else s.loseBackup
    | _ => s

/-- BACKUP_CELL_JUDGEMENT: while the core runs, the cell is judged and the CLOCK condition reported (R155). -/
def execBackupCellJudgement (low : Bool) (s : State) : Result :=
  .next (if s.coreRunning then State.reportClock { s with supply := { s.supply with cellLow := low } } else s)

/-- CLOCK_TICK: one millisecond while the backup domain is fed; times it reaches are delivered (R149, R153). -/
def execClockTick (s : State) : Result :=
  .next (if s.supply.valid then State.deliverReached { s with time := s.time.tick } else s)

end Sys2Proof.Machine
end

