-- ==== Sys2Proof/Machine/Requests.lean ====
section
/-!
DEFINITION. The requests that change state, and the dispatch of a request that enters the slot (R174, R199).
-/

namespace Sys2Proof.Machine

/-! ## Attention and watch (R182, R184, R186) -/

/-- The condition causes whose conditions hold (R182). -/
def Link.conditions (l : Link) : CauseSet :=
  (if l.exportCondition then Cause.exportReady.bit else 0) ||| (if l.clockCondition then Cause.clock.bit else 0)

/-- ACK_CAUSES: the named causes clear, but for latched conditions that hold (R182). -/
def Link.acknowledge (named : CauseSet) (l : Link) : Link :=
  { l with causes := l.causes &&& (~~~named ||| l.conditions) }

/-- The cause set or other byte at an offset of a body. -/
def byteAt (body : List Byte) (offset : Nat) : Byte := byte (fieldAt body offset 1)

def State.serveAckCauses (body : List Byte) (s : State) : State :=
  let s1 := { s with link := s.link.acknowledge (byteAt body 0) }
  s1.reply .ok [s1.link.causes]

def attnModeOf : Nat → Option AttnMode
  | 0 => some .level
  | 1 => some .pulse
  | _ => none

def State.serveSetAttention (body : List Byte) (s : State) : State :=
  match attnModeOf (fieldAt body 1 1) with
  | some mode => State.reply .ok [] { s with link := s.link.setAttention (byteAt body 0) mode }
  | none => s.reply .badArgument []

/-- Watch goes on with a threshold (R186). -/
def Link.startWatch (threshold : Nat) (l : Link) : Link :=
  match l.watch with
  | some _ => { l with watch := some threshold }
  | none => { l with watch := some threshold, fifo := [], dropCount := 0, frameCounter := 0 }

/-- Watch goes off (R179, R186). -/
def Link.stopWatch (l : Link) : Link := { l with watch := none, fifo := [], dropCount := 0 }

def State.serveWatchStart (body : List Byte) (s : State) : State :=
  let n := fieldAt body 0 1
  if 1 ≤ n ∧ n ≤ watchBatch then State.reply .ok [] { s with link := s.link.startWatch n }
  else s.reply .badArgument []

def State.serveWatchStop (s : State) : State := State.reply .ok [] { s with link := s.link.stopWatch }

/-! ## ABORT and RESTART (R179, R180) -/

/-- ABORT, from an EMPTY or a HELD slot (R179). -/
def State.serveAbort (tag : Byte) (s : State) : State :=
  let s1 := s.dropHostRead
  State.reply .ok []
    { s1 with link := { s1.link.stopWatch with rx := Receiver.hunting, slot := some ⟨0x7E, tag, none⟩ } }

def State.serveRestart (s : State) : State :=
  if s.inHoldup then s.reply .refusedState []
  else State.reply .ok [] { s with link := { s.link with restarting := true } }

/-! ## Settings (R191 to R193) -/

/-- A settings pair is bad: its identifier is unknown, or its value out of range (R191). -/
def badPair (p : Nat × Nat) : Bool :=
  match SettingId.ofCode p.1 with
  | none => true
  | some i => !i.inRange p.2

def Settings.putPair (set : Settings) (p : Nat × Nat) : Settings :=
  match SettingId.ofCode p.1 with
  | none => set
  | some i => set.put i p.2

def State.setStaged (set : Settings) (s : State) : State := { s with settings := { s.settings with staged := set } }

def State.serveSetSettings (body : List Byte) (s : State) : State :=
  let pairs := pairsOf body.length body
  match pairs.find? badPair with
  | some p => s.reply .badArgument (field 1 p.1)
  | none => (s.setStaged (pairs.foldl Settings.putPair s.settings.staged)).reply .ok []

/-- The identifier of the first binding condition that fails (R189, R193). -/
def Settings.failed (set : Settings) : Option SettingId :=
  if 32 < set.preCycles + set.postCycles then some .capturePostCycles
  else if set.dip ≤ set.interruption + set.hysteresis then some .dipThreshold
  else none

def State.serveApplySettings (s : State) : State :=
  match s.settings.staged.failed with
  | some i => s.reply .badArgument (field 1 i.code)
  | none => State.reply .ok [] { s with settings := { s.settings with pending := some s.settings.staged } }

def State.serveDiscardStaged (s : State) : State :=
  State.reply .ok (field 1 (bit s.settings.pending.isSome 0))
    { s with settings := { s.settings with staged := s.settings.active, pending := none } }

/-! ## SET_TIME (R151) -/

def State.serveSetTime (body : List Byte) (s : State) : State :=
  let t := wtimeAt body 0
  if 999 < t.ms then s.reply .badArgument [] else (s.setClock t).reply .ok []

/-! ## Reads (R177, R178) -/

/-- Host reads are answered BUSY_STORE in HOLDUP and FORMATTING (R177). -/
def State.readsBusy (s : State) : Bool := s.inHoldup || s.store.state == .formatting

def State.handOver (q : HostRequest) (s : State) : State := s.modifyStore fun st => { st with hostRequest := some q }

def State.serveReadRecords (body : List Byte) (s : State) : State :=
  let fromSeq := fieldAt body 0 4
  let maxCount := fieldAt body 4 1
  if maxCount = 0 then s.reply .badArgument []
  else if s.readsBusy then s.reply .busyStore []
  else if s.store.recordBlocks.any fun e => decide (fromSeq ≤ optNum e.2.lastRecord) then
    s.handOver (.records fromSeq maxCount)
  else s.reply .notFound []

def State.serveReadCapture (body : List Byte) (s : State) : State :=
  let seq := fieldAt body 0 4
  let segment := fieldAt body 4 1
  if 63 < segment then s.reply .badArgument []
  else if s.readsBusy then s.reply .busyStore []
  else if (s.store.enclosing seq).isSome then s.handOver (.capture seq segment)
  else s.reply .notFound []

/-! ## EXPORT_MARK and FORMAT_STORE (R119, R97) -/

def State.serveExportMark (body : List Byte) (s : State) : State :=
  let seq := fieldAt body 0 4
  if s.readsBusy then s.reply .busyStore []
  else if s.store.state = .readOnly then s.reply .readOnly []
  else if s.store.proposed.isSome then s.reply .busyStore []
  else if seq < s.store.exportMark ∨ s.store.newestSeq < seq then s.reply .badArgument []
  else if seq = s.store.exportMark then s.reply .ok []
  else (s.modifyStore fun st => { st with proposed := some seq }).queueImage .settings

def State.serveFormatStore (s : State) : State :=
  if s.cases.slots.any Option.isSome then s.reply .refusedState []
  else if s.readsBusy then s.reply .busyStore []
  else if s.store.state = .readOnly then s.reply .readOnly []
  else (s.modifyStore fun st => { st with format := some .start, state := .formatting }).reply .accepted []

/-! ## OPEN_CASE (R125, R126) -/

/-- A case as OPEN_CASE asks for it. -/
structure CaseAsk where
  caseNo : Nat
  start : WTime
  finish : Option WTime
  phases : PhaseSet

/-- The body of OPEN_CASE: presence in byte 14, phases in byte 15, a reserved byte 16 (section 11.4). -/
def caseAskOf (body : List Byte) : CaseAsk where
  caseNo := fieldAt body 0 2
  start := wtimeAt body 2
  finish := if (fieldAt body 14 1).testBit 0 then some (wtimeAt body 8) else none
  phases := phaseSetOf (fieldAt body 15 1)

/-- A bit is set that is not assigned (R199); the reserved byte has none assigned (log 24). -/
def caseAskStray (body : List Byte) : Bool :=
  decide (1 < fieldAt body 14 1) || decide (7 < fieldAt body 15 1) || fieldAt body 16 1 != 0

/-- The arguments are out of range or inconsistent (R125). -/
def CaseAsk.bad (now : Nat) (a : CaseAsk) : Bool :=
  a.caseNo == 0 || decide (999 < a.start.ms) || a.phases.isEmpty ||
    match a.finish with
    | some t =>
      decide (999 < t.ms) || decide (t.toMs < a.start.toMs)
        || decide (a.start.toMs + Config.monthSeconds * 1000 < t.toMs)
    | none => decide (a.start.toMs + Config.monthSeconds * 1000 < now)

/-- Step 3 of R126: the window lies wholly ahead of the clock and of every record. -/
def State.ahead (start : Nat) (s : State) : Bool :=
  decide (s.nowMs < start) &&
    match s.store.newestTime with
    | some n => decide (n * 1000 < start)
    | none => true

/-- HEAD_LOST of a case that becomes SCANNING (R126). -/
def State.headLost (start : Nat) (s : State) : Bool :=
  match s.store.oldestTime with
  | some n => decide (start < n * 1000)
  | none => true

/-- The case that an accepted OPEN_CASE makes; its flags are settled by the placing of its holds (R126). -/
def State.newCase (a : CaseAsk) (s : State) : CaseSlot :=
  let ahead := s.ahead a.start.toMs
  { caseNo := a.caseNo, start := a.start, finish := a.finish, phases := a.phases
    state := if ahead then .pending else .waiting
    opened := s.now, openingMarker := none, horizon := if ahead then s.cases.highWater else none
    headLost := !ahead && s.headLost a.start.toMs, evidenceLost := false, gap := false, timeStepped := false
    unreadable := 0, table := Settlement.zero, list := [], listFull := false }

/-- The steps of an accepted OPEN_CASE on a FREE slot; its image request follows its marker (R126, R137, log 13). -/
def State.openCase (i : Nat) (a : CaseAsk) (s : State) : State :=
  let c0 := s.newCase a
  let c := { c0 with evidenceLost := s.store.index.any (BlockEntry.missed s.nowMs c0) }
  let s1 : State :=
    { s with
      cases := { s.cases with slots := putSlot (some c) i s.cases.slots }
      store := s.store.place s.nowMs i c0 }
  let s2 := (s1.queueMarker (.caseOpened i a.caseNo a.start a.finish a.phases)).queueImage .cases
  let st : Status := match c.state with
    | .pending => .ok
    | _ => .accepted
  ((s2.registerCase c).reply st (field 1 i)).runScans

def State.serveOpenCase (body : List Byte) (s : State) : State :=
  let a := caseAskOf body
  if s.store.state = .formatting then s.reply .refusedState []
  else if caseAskStray body || a.bad s.nowMs then s.reply .badArgument []
  else if (s.findCase a.caseNo).isSome then s.reply .duplicate []
  else
    match freeSlot s.cases.slots with
    | none => s.reply .tableFull []
    | some i => s.openCase i a

/-! ## CLOSE_CASE and RELEASE_CASE (R141, R142) -/

/-- A case that CLOSE_CASE may close: LIVE, or SCANNING with its end not reached (R141). -/
def CaseSlot.closable (now : Nat) (c : CaseSlot) : Bool :=
  c.state == .live ||
    (c.scanning && match c.finish with
      | some t => decide (now < t.toMs)
      | none => true)

def State.serveCloseCase (body : List Byte) (s : State) : State :=
  match s.findCase (fieldAt body 0 2) with
  | none => s.reply .notFound []
  | some (i, c) =>
    if c.closable s.nowMs then (s.setEnd i c ⟨s.time.sec, s.time.ms⟩).reply .ok []
    else s.reply .refusedState []

/-- A running scan is abandoned (R132). -/
def State.abandonScan (slot : Nat) (s : State) : State :=
  match s.cases.engine with
  | some e =>
    if e.slot = slot then State.dropScanRead { s with cases := { s.cases with engine := none } } else s
  | none => s

/-- The steps of R142. The slot's fields are forgotten before the engine takes the next case. -/
def State.releaseCase (i : Nat) (c : CaseSlot) (s : State) : State :=
  let s1 := s.abandonScan i
  let s2 := { s1 with cases := { s1.cases with slots := putSlot none i s1.cases.slots } }
  let s3 := (s2.withdraw c.caseNo fun _ => true).runScans.removeHolds i
  (s3.queueMarker (.caseReleased i c.caseNo)).queueImage .cases

def State.serveReleaseCase (body : List Byte) (s : State) : State :=
  match s.findCase (fieldAt body 0 2) with
  | none => s.reply .notFound []
  | some (i, c) => (s.releaseCase i c).reply .ok []

/-! ## Dispatch (R174) -/

/-- The body length a kind asks for (section 11.4, R199); SET_SETTINGS takes whole pairs. -/
def lengthSuits (kind length : Nat) : Bool :=
  match kind with
  | 0x03 | 0x10 | 0x40 => length == 1
  | 0x04 | 0x31 | 0x32 | 0x34 => length == 2
  | 0x11 => length % 5 == 0
  | 0x18 => length == 6
  | 0x28 | 0x29 => length == 5
  | 0x2A | 0x35 => length == 4
  | 0x30 => length == 17
  | _ => length == 0

/-- The kinds served while the start-up scan runs: IDENTIFY, GET_STATUS, ACK_CAUSES, GET_TIME, SET_TIME (R174). -/
def servedInScan (kind : Nat) : Bool := [0x01, 0x02, 0x03, 0x18, 0x19].contains kind

/-- The block that serves a kind gives the reply by its own rule (R174, step 4). -/
def State.serve (kind : Nat) (tag : Byte) (body : List Byte) (s : State) : State :=
  match kind with
  | 0x01 => s.serveIdentify
  | 0x02 => s.serveGetStatus
  | 0x03 => s.serveAckCauses body
  | 0x04 => s.serveSetAttention body
  | 0x10 => s.serveGetSettings body
  | 0x11 => s.serveSetSettings body
  | 0x12 => s.serveApplySettings
  | 0x13 => s.serveDiscardStaged
  | 0x18 => s.serveSetTime body
  | 0x19 => s.serveGetTime
  | 0x20 => s.serveGetLive
  | 0x28 => s.serveReadRecords body
  | 0x29 => s.serveReadCapture body
  | 0x2A => s.serveExportMark body
  | 0x2B => s.serveGetStore
  | 0x2C => s.serveFormatStore
  | 0x30 => s.serveOpenCase body
  | 0x31 => s.serveCloseCase body
  | 0x32 => s.serveReleaseCase body
  | 0x33 => s.serveListCases
  | 0x34 => s.serveCaseSummary body
  | 0x35 => s.serveCaseRecords body
  | 0x40 => s.serveWatchStart body
  | 0x41 => s.serveWatchStop
  | 0x71 => s.serveRestart
  | 0x7E => s.serveAbort tag
  | _ => s

/-- A request that has entered the slot is dispatched (R174). -/
def State.dispatch (kind tag : Byte) (body : List Byte) (s : State) : State :=
  if !assignedKinds.contains kind.toNat then s.reply .unknownKind [kind]
  else if s.store.scan.isSome && !servedInScan kind.toNat then s.reply .starting []
  else if !lengthSuits kind.toNat body.length then s.reply .badLength []
  else s.serve kind.toNat tag body

/-- A frame enters the request slot (R173, R175). -/
def State.holdRequest (kind tag : Byte) (s : State) : State := { s with link := { s.link with slot := some ⟨kind, tag, none⟩ } }

/-- A complete frame is discarded as an overrun (R173). -/
def State.countOverrun (s : State) : State :=
  State.latch .link
    { s with link := { s.link with counters := { s.link.counters with overrun := countSat s.link.counters.overrun } } }

/-- While the start-up scan runs an ABORT that finds the slot HELD is answered STARTING and has no other effect: its reply
follows the one that waits in the slot (R179, log 42). -/
def State.abortInScan (tag : Byte) (s : State) : State :=
  { s with link := { s.link with startingAborts := s.link.startingAborts ++ [tag] }.choose s.time.base }

/-- A complete frame with a good check (R173). -/
def State.completeFrame (kind tag : Byte) (body : List Byte) (s : State) : State :=
  if s.link.restarting then s
  else
    match s.link.slot with
    | none => (s.holdRequest kind tag).dispatch kind tag body
    | some _ =>
      if kind == 0x7E && body.isEmpty then (if s.store.scan.isSome then s.abortInScan tag else s.serveAbort tag)
      else s.countOverrun

/-! ## The receiver (R171, R172) -/

/-- What a character ends. -/
inductive RxEvent where
  | nothing
  | failure
  | frame (kind tag : Byte) (body : List Byte)

/-- The receiver takes in a data byte (R171). -/
def Receiver.take (b : Byte) (r : Receiver) : Receiver × RxEvent :=
  let c := crcByte r.crc b
  match r.state with
  | .hunt => (if b = 0xA5#8 then ⟨.length none, 0xFFFF#16⟩ else r, .nothing)
  | .length none => (⟨.length (some b), c⟩, .nothing)
  | .length (some lo) =>
    let len := lo.toNat + 256 * b.toNat
    if maxBody < len then (Receiver.hunting, .failure) else (⟨.header len none, c⟩, .nothing)
  | .header len none => (⟨.header len (some b), c⟩, .nothing)
  | .header len (some kind) =>
    (⟨if len = 0 then .check kind b [] none else .body len kind b [], c⟩, .nothing)
  | .body len kind tag taken =>
    let all := taken ++ [b]
    (⟨if all.length = len then .check kind tag all none else .body len kind tag all, c⟩, .nothing)
  | .check kind tag body none => (⟨.check kind tag body (some b), r.crc⟩, .nothing)
  | .check kind tag body (some lo) =>
    (Receiver.hunting, if lo = crcLow r.crc ∧ b = crcHigh r.crc then .frame kind tag body else .failure)

/-- A framing error: no effect in HUNT, a check failure elsewhere (R169). -/
def Receiver.breakFrame (r : Receiver) : Receiver × RxEvent :=
  match r.state with
  | .hunt => (r, .nothing)
  | _ => (Receiver.hunting, .failure)

def Receiver.step (c : RxChar) (r : Receiver) : Receiver × RxEvent :=
  match c with
  | .data b => r.take b
  | .framingError => r.breakFrame

/-- The receiver listens: after the settings area is read (R188), and until a RESTART reply is produced (R180). -/
def State.listens (s : State) : Bool := s.coreRunning && s.link.listening && !s.link.restarting

/-- A check failure is counted and LINK latched (R172). -/
def State.countCheckFail (s : State) : State :=
  State.latch .link
    { s with link := { s.link with counters := { s.link.counters with checkFail := countSat s.link.counters.checkFail } } }

/-- One character on RXD (R171 to R173). -/
def State.receive (c : RxChar) (s : State) : State :=
  if !s.listens then s
  else
    let (r, e) := s.link.rx.step c
    let s1 := { s with link := { s.link with rx := r } }
    match e with
    | .nothing => s1
    | .failure => s1.countCheckFail
    | .frame kind tag body => s1.completeFrame kind tag body

def State.receiveAll : List RxChar → State → State
  | [], s => s
  | c :: rest, s => State.receiveAll rest (s.receive c)

/-- A gap of more than 20 ms inside a frame: a timeout (R172). -/
def State.rxGap (s : State) : State :=
  if !s.listens then s
  else
    match s.link.rx.state with
    | .hunt => s
    | _ =>
      State.latch .link
        { s with
          link :=
            { s.link with
              rx := Receiver.hunting
              counters := { s.link.counters with timeout := countSat s.link.counters.timeout } } }

/-- A whole frame arrives. From HUNT it is complete when its body fits a frame; else its characters enter the frame in
progress (R170, R171). -/
def State.arrive (kind tag : Byte) (body : List Byte) (s : State) : State :=
  if !s.listens then s
  else if s.link.rx = Receiver.hunting ∧ body.length ≤ maxBody then s.completeFrame kind tag body
  else s.receiveAll ((frameBytes kind tag body).map .data)

/-- A frame arrives, and the store writer goes on with what it has caused. -/
def State.request (kind tag : Byte) (body : List Byte) (s : State) : State := (s.arrive kind tag body).pump

end Sys2Proof.Machine
end

