-- ==== Sys2Proof/Machine/Line.lean ====
section
/-!
DEFINITION. The commands of the serial line and of ATTN: what the receiver and the transmitter meet, and the 26 requests,
each as the arrival of its complete frame (chapter 9).
-/

namespace Sys2Proof.Machine

/-- RX_TIMEOUT: the characters arrive, and the gap timer then passes 20 ms (R172). -/
def execRxTimeout (chars : List RxChar) (s : State) : Result := .next (s.receiveAll chars).rxGap.pump

/-- CHECK_FAILURE: the characters arrive; the frame they end fails its check, its length or its stop bit (R169, R172). -/
def execCheckFailure (chars : List RxChar) (s : State) : Result := .next (s.receiveAll chars).pump

/-- OVERRUN: a complete frame arrives; the slot being HELD, it is discarded and counted (R173). -/
def execOverrun (kind tag : Byte) (body : List Byte) (s : State) : Result := .next (s.request kind tag body)

/-- UNKNOWN_KIND: a complete frame of a kind assigned to no request arrives (R174). -/
def execUnknownKind (kind tag : Byte) (body : List Byte) (s : State) : Result := .next (s.request kind tag body)

/-- The core stops after a RESTART reply; the stability timer runs when supply and RESETN are good (R156, log 20). -/
def State.restartStop (s : State) : State :=
  let s1 := s.stopCore .wait
  { s1 with supply := { s1.supply with timerRunning := s1.supply.supplyGood && s1.supply.resetnHigh } }

/-- The transmitter has sent its frame: it chooses the next, or the core stops after a RESTART reply (R176, R180). -/
def execFrameSent (s : State) : Result :=
  .next <|
    match s.coreRunning, s.link.tx with
    | true, some f =>
      if f.restarts then s.restartStop
      else { s with link := { s.link with tx := none }.choose s.time.base }
    | _, _ => s

/-- ATTN_PULSE_END: ATTN is released (R185). -/
def execAttnPulseEnd (s : State) : Result :=
  .next (if s.coreRunning then { s with link := { s.link with pulse := false } } else s)

/-- IDENTIFY, kind 0x01 (R181). -/
def execIdentify (tag : Byte) (body : List Byte) (s : State) : Result := .next (s.request 0x01 tag body)

/-- GET_STATUS, kind 0x02 (R121, R181). -/
def execGetStatus (tag : Byte) (body : List Byte) (s : State) : Result := .next (s.request 0x02 tag body)

/-- ACK_CAUSES, kind 0x03 (R182). -/
def execAckCauses (tag : Byte) (body : List Byte) (s : State) : Result := .next (s.request 0x03 tag body)

/-- SET_ATTENTION, kind 0x04 (R184). -/
def execSetAttention (tag : Byte) (body : List Byte) (s : State) : Result := .next (s.request 0x04 tag body)

/-- GET_SETTINGS, kind 0x10 (R192). -/
def execGetSettings (tag : Byte) (body : List Byte) (s : State) : Result := .next (s.request 0x10 tag body)

/-- SET_SETTINGS, kind 0x11 (R191). -/
def execSetSettings (tag : Byte) (body : List Byte) (s : State) : Result := .next (s.request 0x11 tag body)

/-- APPLY_SETTINGS, kind 0x12 (R193). -/
def execApplySettings (tag : Byte) (body : List Byte) (s : State) : Result := .next (s.request 0x12 tag body)

/-- DISCARD_STAGED, kind 0x13 (R192). -/
def execDiscardStaged (tag : Byte) (body : List Byte) (s : State) : Result := .next (s.request 0x13 tag body)

/-- SET_TIME, kind 0x18 (R151). -/
def execSetTime (tag : Byte) (body : List Byte) (s : State) : Result := .next (s.request 0x18 tag body)

/-- GET_TIME, kind 0x19 (R150). -/
def execGetTime (tag : Byte) (body : List Byte) (s : State) : Result := .next (s.request 0x19 tag body)

/-- GET_LIVE, kind 0x20 (R14, R45). -/
def execGetLive (tag : Byte) (body : List Byte) (s : State) : Result := .next (s.request 0x20 tag body)

/-- READ_RECORDS, kind 0x28 (R177). -/
def execReadRecords (tag : Byte) (body : List Byte) (s : State) : Result := .next (s.request 0x28 tag body)

/-- READ_CAPTURE, kind 0x29 (R178). -/
def execReadCapture (tag : Byte) (body : List Byte) (s : State) : Result := .next (s.request 0x29 tag body)

/-- EXPORT_MARK, kind 0x2A (R119). -/
def execExportMark (tag : Byte) (body : List Byte) (s : State) : Result := .next (s.request 0x2A tag body)

/-- GET_STORE, kind 0x2B (R103). -/
def execGetStore (tag : Byte) (body : List Byte) (s : State) : Result := .next (s.request 0x2B tag body)

/-- FORMAT_STORE, kind 0x2C (R97). -/
def execFormatStore (tag : Byte) (body : List Byte) (s : State) : Result := .next (s.request 0x2C tag body)

/-- OPEN_CASE, kind 0x30 (R125, R126). -/
def execOpenCase (tag : Byte) (body : List Byte) (s : State) : Result := .next (s.request 0x30 tag body)

/-- CLOSE_CASE, kind 0x31 (R141). -/
def execCloseCase (tag : Byte) (body : List Byte) (s : State) : Result := .next (s.request 0x31 tag body)

/-- RELEASE_CASE, kind 0x32 (R142). -/
def execReleaseCase (tag : Byte) (body : List Byte) (s : State) : Result := .next (s.request 0x32 tag body)

/-- LIST_CASES, kind 0x33 (R146). -/
def execListCases (tag : Byte) (body : List Byte) (s : State) : Result := .next (s.request 0x33 tag body)

/-- CASE_SUMMARY, kind 0x34 (R147). -/
def execCaseSummary (tag : Byte) (body : List Byte) (s : State) : Result := .next (s.request 0x34 tag body)

/-- CASE_RECORDS, kind 0x35 (R148). -/
def execCaseRecords (tag : Byte) (body : List Byte) (s : State) : Result := .next (s.request 0x35 tag body)

/-- WATCH_START, kind 0x40 (R186). -/
def execWatchStart (tag : Byte) (body : List Byte) (s : State) : Result := .next (s.request 0x40 tag body)

/-- WATCH_STOP, kind 0x41 (R186). -/
def execWatchStop (tag : Byte) (body : List Byte) (s : State) : Result := .next (s.request 0x41 tag body)

/-- ABORT, kind 0x7E (R179). -/
def execAbort (tag : Byte) (body : List Byte) (s : State) : Result := .next (s.request 0x7E tag body)

/-- RESTART, kind 0x71 (R180). -/
def execRestart (tag : Byte) (body : List Byte) (s : State) : Result := .next (s.request 0x71 tag body)

end Sys2Proof.Machine
end

