-- ==== Sys2Proof/Machine/Dispatch.lean ====
section
/-!
DEFINITION. One arm for each command: a direct call of its meaning.
-/

namespace Sys2Proof.Machine

def exec (i : Instr) (s : State) : Host.Outcome State Fault Refusal :=
  match i with
  | .sampleSet l1 l2 l3 ne => Sys2Proof.Machine.execSampleSet l1 l2 l3 ne s
  | .sampleBlock => Sys2Proof.Machine.execSampleBlock s
  | .halfCycleValueSet => Sys2Proof.Machine.execHalfCycleValueSet s
  | .windowValueSet => Sys2Proof.Machine.execWindowValueSet s
  | .frequencyValue => Sys2Proof.Machine.execFrequencyValue s
  | .seriesRestart dest => Sys2Proof.Machine.execSeriesRestart dest s
  | .applyNotification dest => Sys2Proof.Machine.execApplyNotification dest s
  | .slotClaim => Sys2Proof.Machine.execSlotClaim s
  | .relink => Sys2Proof.Machine.execRelink s
  | .handBack => Sys2Proof.Machine.execHandBack s
  | .slotFull => Sys2Proof.Machine.execSlotFull s
  | .slotDropped => Sys2Proof.Machine.execSlotDropped s
  | .pageProgramDone => Sys2Proof.Machine.execPageProgramDone s
  | .commitDelivery => Sys2Proof.Machine.execCommitDelivery s
  | .pageProgramTimeout => Sys2Proof.Machine.execPageProgramTimeout s
  | .settingsAreaTimeout => Sys2Proof.Machine.execSettingsAreaTimeout s
  | .blockEraseDone => Sys2Proof.Machine.execBlockEraseDone s
  | .blockEraseTimeout => Sys2Proof.Machine.execBlockEraseTimeout s
  | .pageReadDone => Sys2Proof.Machine.execPageReadDone s
  | .correctionDone result body => Sys2Proof.Machine.execCorrectionDone result body s
  | .holdPlace slot => Sys2Proof.Machine.execHoldPlace slot s
  | .holdJudgeBlock slot block => Sys2Proof.Machine.execHoldJudgeBlock slot block s
  | .holdRemove slot => Sys2Proof.Machine.execHoldRemove slot s
  | .lossCounterReport => Sys2Proof.Machine.execLossCounterReport s
  | .missedCounterReport dest => Sys2Proof.Machine.execMissedCounterReport dest s
  | .timeStepReport dest => Sys2Proof.Machine.execTimeStepReport dest s
  | .intervalBoundary => Sys2Proof.Machine.execIntervalBoundary s
  | .clockTick => Sys2Proof.Machine.execClockTick s
  | .clockArrival => Sys2Proof.Machine.execClockArrival s
  | .supplyFailWarning => Sys2Proof.Machine.execSupplyFailWarning s
  | .supplyGood => Sys2Proof.Machine.execSupplyGood s
  | .stabilityTimerExpiry cellLow => Sys2Proof.Machine.execStabilityTimerExpiry cellLow s
  | .corePowerLost => Sys2Proof.Machine.execCorePowerLost s
  | .resetnLow => Sys2Proof.Machine.execResetnLow s
  | .resetnHigh => Sys2Proof.Machine.execResetnHigh s
  | .backupDomainLoss => Sys2Proof.Machine.execBackupDomainLoss s
  | .backupCellJudgement low => Sys2Proof.Machine.execBackupCellJudgement low s
  | .rxTimeout chars => Sys2Proof.Machine.execRxTimeout chars s
  | .checkFailure chars => Sys2Proof.Machine.execCheckFailure chars s
  | .overrun kind tag body => Sys2Proof.Machine.execOverrun kind tag body s
  | .unknownKind kind tag body => Sys2Proof.Machine.execUnknownKind kind tag body s
  | .frameSent => Sys2Proof.Machine.execFrameSent s
  | .attnPulseEnd => Sys2Proof.Machine.execAttnPulseEnd s
  | .identify tag body => Sys2Proof.Machine.execIdentify tag body s
  | .getStatus tag body => Sys2Proof.Machine.execGetStatus tag body s
  | .ackCauses tag body => Sys2Proof.Machine.execAckCauses tag body s
  | .setAttention tag body => Sys2Proof.Machine.execSetAttention tag body s
  | .getSettings tag body => Sys2Proof.Machine.execGetSettings tag body s
  | .setSettings tag body => Sys2Proof.Machine.execSetSettings tag body s
  | .applySettings tag body => Sys2Proof.Machine.execApplySettings tag body s
  | .discardStaged tag body => Sys2Proof.Machine.execDiscardStaged tag body s
  | .setTime tag body => Sys2Proof.Machine.execSetTime tag body s
  | .getTime tag body => Sys2Proof.Machine.execGetTime tag body s
  | .getLive tag body => Sys2Proof.Machine.execGetLive tag body s
  | .readRecords tag body => Sys2Proof.Machine.execReadRecords tag body s
  | .readCapture tag body => Sys2Proof.Machine.execReadCapture tag body s
  | .exportMark tag body => Sys2Proof.Machine.execExportMark tag body s
  | .getStore tag body => Sys2Proof.Machine.execGetStore tag body s
  | .formatStore tag body => Sys2Proof.Machine.execFormatStore tag body s
  | .openCase tag body => Sys2Proof.Machine.execOpenCase tag body s
  | .closeCase tag body => Sys2Proof.Machine.execCloseCase tag body s
  | .releaseCase tag body => Sys2Proof.Machine.execReleaseCase tag body s
  | .listCases tag body => Sys2Proof.Machine.execListCases tag body s
  | .caseSummary tag body => Sys2Proof.Machine.execCaseSummary tag body s
  | .caseRecords tag body => Sys2Proof.Machine.execCaseRecords tag body s
  | .watchStart tag body => Sys2Proof.Machine.execWatchStart tag body s
  | .watchStop tag body => Sys2Proof.Machine.execWatchStop tag body s
  | .abort tag body => Sys2Proof.Machine.execAbort tag body s
  | .restart tag body => Sys2Proof.Machine.execRestart tag body s

end Sys2Proof.Machine
end

