-- ==== Sys2Proof/Safety.lean ====
section
/-!
DEFINITION. What stays true of the part, whatever commands it takes: the invariants that the statements of
Certificates/ speak of, each a decidable property of one state; and the two frames, relations between the states before and
after an operation that many commands share.
-/

namespace Sys2Proof.Machine

/-- The clock's milliseconds lie in 0 to 999 (R149). -/
def State.clockOk (s : State) : Prop := s.time.ms ≤ 999

/-- The array is in its canonical form (section 5.1, log 27). -/
def State.arrayOk (s : State) : Prop := s.store.array.wf = true

/-- The queues keep their bounds: 8 items wait in the marker queue (R116), 4 records in the output queue (R67), 32 sets in
the watch FIFO (R186), and the history ring holds 16 blocks (R46). -/
def State.queuesOk (s : State) : Prop :=
  s.store.markerQueue.length ≤ 8 ∧ s.agg.queue.length ≤ 4 ∧ s.link.fifo.length ≤ 32 ∧ s.capture.ring.length ≤ 16

/-- The tracker table has 12 entries (R18) and the capture unit 4 slots (R47). -/
def State.tablesOk (s : State) : Prop := s.tracker.entries.length = 12 ∧ s.capture.slots.length = 4

/-- All of them together. -/
def State.ok (s : State) : Prop := s.clockOk ∧ s.arrayOk ∧ s.queuesOk ∧ s.tablesOk

/-! ## Frames: what the operations shared by many commands leave alone -/

/-- What no operation of the store writer changes, and the bounds of the queues it feeds and drains. -/
structure WriterFrame (s t : State) : Prop where
  pending : t.pending = s.pending
  supply : t.supply = s.supply
  time : t.time = s.time
  meas : t.meas = s.meas
  settings : t.settings = s.settings
  ring : t.capture.ring = s.capture.ring
  lengths : (t.capture.preCycles, t.capture.postCycles) = (s.capture.preCycles, s.capture.postCycles)
  slotCount : t.capture.slots.length = s.capture.slots.length
  accumulator : t.agg.acc = s.agg.acc
  aggInForce : t.agg.inForce = s.agg.inForce
  intervals : t.agg.queue.length ≤ s.agg.queue.length
  detectors : t.tracker.detectors = s.tracker.detectors
  marks : t.tracker.marks = s.tracker.marks
  missed : t.tracker.missed = s.tracker.missed
  windowFlag : t.tracker.windowFlag = s.tracker.windowFlag
  lastStamp : t.tracker.lastStamp = s.tracker.lastStamp
  trackerInForce : t.tracker.inForce = s.tracker.inForce
  entryCount : t.tracker.entries.length = s.tracker.entries.length
  cases : t.cases.slots = s.cases.slots
  highWater : t.cases.highWater = s.cases.highWater
  array : t.store.array = s.store.array
  queue : t.store.markerQueue.length ≤ max s.store.markerQueue.length queueDepth
  scan : t.store.scan = s.store.scan
  correcting : t.store.correcting = s.store.correcting
  listening : t.link.listening = s.link.listening
  rx : t.link.rx = s.link.rx
  restarting : t.link.restarting = s.link.restarting
  attention : (t.link.mask, t.link.mode) = (s.link.mask, s.link.mode)
  watch : t.link.watch = s.link.watch
  counters : t.link.counters = s.link.counters
  clock : t.link.clockCondition = s.link.clockCondition
  threshold : (t.link.exportThreshold, t.link.lineRate) = (s.link.exportThreshold, s.link.lineRate)
  fifo : t.link.fifo.length ≤ s.link.fifo.length
  sending : ∀ f, s.link.tx = some f → t.link.tx = some f
  causes : t.link.causes &&& s.link.causes = s.link.causes
  reports : ∃ losses, t.reports = { s.reports with losses := losses }

/-- The tracker changes its own table, latches causes, and puts requests and reports in flight. -/
structure TrackFrame (s t : State) : Prop where
  pending : t.pending = s.pending
  supply : t.supply = s.supply
  time : t.time = s.time
  meas : t.meas = s.meas
  agg : t.agg = s.agg
  store : t.store = s.store
  settings : t.settings = s.settings
  cases : t.cases = s.cases
  ring : t.capture.ring = s.capture.ring
  lengths : (t.capture.preCycles, t.capture.postCycles) = (s.capture.preCycles, s.capture.postCycles)
  slotCount : t.capture.slots.length = s.capture.slots.length
  entryCount : t.tracker.entries.length = s.tracker.entries.length
  inForce : t.tracker.inForce = s.tracker.inForce
  link : ∃ causes pulse, t.link = { s.link with causes := causes, pulse := pulse }
  deliveries : t.reports.deliveries = s.reports.deliveries
  full : t.reports.full = s.reports.full

end Sys2Proof.Machine
end

