-- ==== Sys2Proof/Certificates/Slice0/Obligations.lean ====
section
/-!
DEFINITION. The statements for the provers, in the order of OBLIGATIONS.json: the machine as a whole, then chapter by chapter.
A statement about a command says that `exec` answers a next state and which one: `Completes c s u` when the store writer goes on
behind the command's own effect `u`, an equation where it does not.
-/

namespace Sys2Proof.Machine

/-- `c` runs in `s`, its own effect gives `u`, and the store writer goes on from there (R104). -/
def Completes (c : Instr) (s u : State) : Prop := ∃ t, exec c s = .next t ∧ t = u.pump ∧ WriterFrame u t

/-- The link unit takes a whole frame and answers it at once: it listens in HUNT, its slot is EMPTY and its transmitter IDLE. -/
structure State.ready (s : State) : Prop where
  listens : s.listens = true
  rx : s.link.rx = Receiver.hunting
  slot : s.link.slot = none
  tx : s.link.tx = none

/-- Ready, with the start-up scan concluded: every request is served (R174). -/
structure State.serving (s : State) : Prop where
  ready : s.ready
  scan : s.store.scan = none

/-- The transmitter sends the reply to a request (R176). -/
def State.sending (kind tag : Byte) (body : List Byte) (s : State) : State :=
  { s with link := { s.link with tx := some ⟨kind, tag, body, false⟩ } }

/-- The request slot is HELD by a request whose reply is not yet produced (R175). -/
def State.holding (kind tag : Byte) (s : State) : State := { s with link := { s.link with slot := some ⟨kind, tag, none⟩ } }

/-- A case changes no more than one slot of the case table. -/
def onlyCase (i : Nat) (s t : State) : Prop := ∀ j, j ≠ i → t.case j = s.case j

/-- What a report or request between blocks leaves alone: everything outside the tracker, the capture unit, the reports in
flight and the latched causes. -/
structure SameElsewhere (s t : State) : Prop where
  pending : t.pending = s.pending
  supply : t.supply = s.supply
  time : t.time = s.time
  meas : t.meas = s.meas
  agg : t.agg = s.agg
  store : t.store = s.store
  settings : t.settings = s.settings
  cases : t.cases = s.cases
  link : t.link = s.link

/-- The distance of two numbers. -/
def apart (a b : Nat) : Nat := ((a : Int) - (b : Int)).natAbs

/-- The frequency value that a period's last window and its crossing tallies give (R11, R12): the reference phase is the lowest-numbered
fitted phase with at least half of Udecl in that window; the value is the count less one over the span from first to last instant, a span
of `num / den` sample intervals, to the nearest millihertz, an exact half either way; the first failing condition is the reason. -/
def FrequencyByRule (udecl rate : Nat) (w : WindowSet) (tallies : Tri Tally) (f : FrequencyValue) : Prop :=
  let fit (p : Phase) : Prop := w.fitted.has p = true ∧ udecl ≤ 2 * w.values.phase p
  let invalid (r : InvalidReason) : Prop := f.frequency = none ∧ f.reason = some r
  ((∀ p, ¬ fit p) → invalid .noReference ∧ f.reference = none ∧ f.crossings = none)
  ∧ ∀ p, fit p → (∀ q : Phase, q.code < p.code → ¬ fit q) →
    let t := tallies.get p
    f.reference = some p ∧ f.crossings = some t.count
    ∧ (t.count < 2 → invalid .shortSpan)
    ∧ ∀ first last, 2 ≤ t.count → t.first = some first → t.last = some last →
      let num := last.num * first.den - first.num * last.den
      let den := last.den * first.den
      let exact := (t.count - 1) * 1000 * rate * den
      (num < 5 * rate * den → invalid .shortSpan)
      ∧ (5 * rate * den ≤ num → 0 < num → ∃ mhz, 2 * (mhz * num) ≤ 2 * exact + num ∧ 2 * exact ≤ 2 * (mhz * num) + num
          ∧ (40000 ≤ mhz ∧ mhz ≤ 70000 → f.frequency = some mhz ∧ f.reason = none)
          ∧ (mhz < 40000 ∨ 70000 < mhz → invalid .outOfRange))

/-- A mean as a record carries it: the sum over the count to the nearest unit, a half upward; absent for a count of 0 (R66). -/
def IsMean (sum count : Nat) (m : Option Nat) : Prop :=
  (count = 0 → m = none)
  ∧ (0 < count → ∃ n, m = some n ∧ 2 * n * count ≤ 2 * sum + count ∧ 2 * sum + count < 2 * (n + 1) * count)

/-- A fitted phase of a value set crosses a kind's threshold of the active settings (R26). -/
def crossed (v : HalfCycleSet) (s : State) (k : Kind) (p : Phase) : Prop :=
  v.fitted.has p = true ∧ crosses s.tracker.inForce.set.genValues k (v.values.phase p) = true

/-- Entry `i` as the value set that opens it leaves it: OPEN from the set's stamp, for exactly the phases of a condition, by the active
settings, with the opening set taken in and its claim in flight (R21, R22). -/
structure OpenedBy (v : HalfCycleSet) (inForce : InForce) (k : Kind) (phase : Phase → Prop) (i : Nat) (x : Entry) (t : State) : Prop where
  stands : t.tracker.entry i = some x
  kind : x.kind = k
  state : x.state = .opened
  start : x.start = v.stamp
  halfCycles : x.halfCycles = 1
  phases : ∀ p, x.phases.has p = true ↔ phase p
  generation : x.generation = inForce.generation ∧ x.values = inForce.set.genValues
  claims : ⟨i, v.number, v.stamp⟩ ∈ t.reports.claims

/-- The STEADY detector of a fitted phase departs: its value differs by more than the step limit of the active settings from the mean of
its buffer (R32). -/
def Tracker.departsAt (v : HalfCycleSet) (t : Tracker) (p : Phase) : Prop :=
  let buffer := (t.detectors.get p).buffer
  v.fitted.has p = true ∧ (t.detectors.get p).state = .steady
  ∧ t.inForce.set.rvc * t.inForce.set.udecl * buffer.length
      < apart (buffer.length * v.values.phase p) (sumOf (buffer.map (·.value))) * 10000

/-- What stage 6 does for a phase that departs, `t` behind `s` (R32, R36).
The detector goes to EXCURSION with its buffer's mean as pre-event mean. In POLYPHASE mode the phase joins the OPEN RVC entry, where there
is one. Else, in either mode: under an RVC mark, of this phase in PER_PHASE mode, it falls under the mark; with no mark the lowest FREE entry
opens for this phase, claims when RVC_CAPTURE is on, and DISTURBANCE is latched; with none FREE the mark is set, the missed counter rises,
is reported to the aggregator and the case unit, and LOSS is latched. -/
structure PhaseDeparts (v : HalfCycleSet) (p : Phase) (s t : State) : Prop where
  detector : t.tracker.detectors.get p
      = ⟨.excursion, [⟨v.values.phase p, v.stamp⟩], sumOf ((s.tracker.detectors.get p).buffer.map (·.value)), (s.tracker.detectors.get p).buffer.length⟩
    ∧ ∀ q, q ≠ p → t.tracker.detectors.get q = s.tracker.detectors.get q
  joins : ∀ i x, s.tracker.inForce.set.mode = .polyphase → s.tracker.entry i = some x → x.state = .opened → x.kind = .rvc →
    (∀ j y, s.tracker.entry j = some y → y.state = .opened → y.kind = .rvc → j = i) →
    (∃ q, t.tracker.entry i = some { x with phases := q } ∧ ∀ r, q.has r = true ↔ x.phases.has r = true ∨ r = p)
    ∧ (∀ j, j ≠ i → t.tracker.entry j = s.tracker.entry j)
    ∧ (t.tracker.marks, t.tracker.missed, t.reports, t.link) = (s.tracker.marks, s.tracker.missed, s.reports, s.link)
  alone : s.tracker.inForce.set.mode = .perPhase ∨ (∀ i x, s.tracker.entry i = some x → x.state = .opened → x.kind ≠ .rvc) →
    let mark : Option Phase := if s.tracker.inForce.set.mode = .perPhase then some p else none
    let marked : Prop := ∃ m ∈ s.tracker.marks, m.kind = .rvc ∧ m.phase = mark
    (marked → (∀ i, t.tracker.entry i = s.tracker.entry i)
      ∧ (t.tracker.missed, t.reports, t.link) = (s.tracker.missed, s.reports, s.link)
      ∧ t.tracker.marks = s.tracker.marks.map fun m =>
          if m.kind = .rvc ∧ m.phase = mark then { m with covers := m.covers.union (PhaseSet.single p) } else m)
    ∧ (¬ marked → ∀ i, freeSlot s.tracker.entries = some i →
      (∃ x, t.tracker.entry i = some x ∧ (x.kind, x.state, x.start, x.halfCycles) = (.rvc, .opened, v.stamp, 0)
        ∧ (x.generation, x.values) = (s.tracker.inForce.generation, s.tracker.inForce.set.genValues)
        ∧ ∀ q, x.phases.has q = true ↔ q = p)
      ∧ (∀ j, j ≠ i → t.tracker.entry j = s.tracker.entry j)
      ∧ (t.tracker.marks, t.tracker.missed) = (s.tracker.marks, s.tracker.missed)
      ∧ t.reports = (if s.tracker.inForce.set.rvcCapture = true then { s.reports with claims := s.reports.claims ++ [⟨i, v.number, v.stamp⟩] }
          else s.reports)
      ∧ t.link.causes = s.link.causes ||| Cause.disturbance.bit)
    ∧ (¬ marked → freeSlot s.tracker.entries = none →
      (∀ i, t.tracker.entry i = s.tracker.entry i)
      ∧ (∃ m, t.tracker.marks = s.tracker.marks ++ [m] ∧ (m.kind, m.phase) = (.rvc, mark) ∧ ∀ q, m.covers.has q = true ↔ q = p)
      ∧ t.tracker.missed = { s.tracker.missed with rvc := count32 s.tracker.missed.rvc }
      ∧ t.reports = { s.reports with
          missedToAggregator := s.reports.missedToAggregator ++ [.rvc], missedToCases := s.reports.missedToCases ++ [.rvc] }
      ∧ t.link.causes = s.link.causes ||| Cause.loss.bit)

/-- What a value set opens where no entry is OPEN, by the active settings and mode. POLYPHASE, an empty table: a SWELL for the phases above
its threshold (R27); a DIP and, when every fitted phase is below the interruption threshold, an INTERRUPTION for all of them that names it
as enclosing, or names none while a missed DIP mark is in force, which then opens no DIP and counts no miss (R28, R36). PER_PHASE: one
entry for each kind and phase that crosses, and no other but RVC entries; an INTERRUPTION names the DIP of its phase (R30); where none
crosses, one RVC entry for each phase that departs and no other, claiming when RVC_CAPTURE is on (R32). No entry FREE: what would open sets
a missed mark instead, of the kind and covering its phases in POLYPHASE mode, of kind and phase in PER_PHASE mode, raises its kind's missed
counter for each mark, is reported to the aggregator and the case unit and latches LOSS; what would not open has no mark and keeps the
counter; the table stays (R36, R37). -/
structure OpeningsByMode (v : HalfCycleSet) (s : State) : Prop where
  swell : s.tracker.inForce.set.mode = .polyphase → s.tracker.entries = List.replicate 12 none → s.tracker.marks = [] →
    (∃ p, crossed v s .swell p) → (∀ p, ¬ crossed v s .dip p) → (∃ p, v.fitted.has p = true ∧ ¬ crossed v s .interruption p) →
    (∃ x, OpenedBy v s.tracker.inForce .swell (crossed v s .swell) 0 x (s.track v))
    ∧ (s.track v).link.causes &&& Cause.disturbance.bit = Cause.disturbance.bit
  interruption : s.tracker.inForce.set.mode = .polyphase → s.tracker.entries = List.replicate 12 none → s.tracker.marks = [] →
    (∃ p, v.fitted.has p = true) → (∀ p, v.fitted.has p = true → crossed v s .interruption p ∧ crossed v s .dip p) → (∀ p, ¬ crossed v s .swell p) →
    (∃ d, OpenedBy v s.tracker.inForce .dip (crossed v s .dip) 0 d (s.track v))
    ∧ ∃ x, OpenedBy v s.tracker.inForce .interruption (fun p => v.fitted.has p = true) 1 x (s.track v)
      ∧ x.enclosing = some (0, v.stamp)
  underMark : ∀ c, s.tracker.inForce.set.mode = .polyphase → s.tracker.entries = List.replicate 12 none →
    s.tracker.marks = [⟨.dip, none, c⟩] →
    (∃ p, v.fitted.has p = true) → (∀ p, v.fitted.has p = true → crossed v s .interruption p ∧ crossed v s .dip p) → (∀ p, ¬ crossed v s .swell p) →
    (∃ x, OpenedBy v s.tracker.inForce .interruption (fun p => v.fitted.has p = true) 0 x (s.track v) ∧ x.enclosing = none)
    ∧ (s.track v).tracker.missed.dip = s.tracker.missed.dip
    ∧ (∀ i x, (s.track v).tracker.entry i = some x → x.kind ≠ .dip)
  perPhase : s.tracker.inForce.set.mode = .perPhase → s.tracker.entries = List.replicate 12 none → s.tracker.marks = [] →
    (∀ k p, k ≠ .rvc → crossed v s k p →
      ∃ i x, OpenedBy v s.tracker.inForce k (· = p) i x (s.track v)
        ∧ (k = .interruption → crossed v s .dip p → ∃ j d, (s.track v).tracker.entry j = some d ∧ d.kind = .dip
          ∧ d.phases.has p = true ∧ x.enclosing = some (j, v.stamp)))
    ∧ ∀ i x, (s.track v).tracker.entry i = some x → x.kind ≠ .rvc →
      ∃ p, crossed v s x.kind p ∧ ∀ q, x.phases.has q = true ↔ q = p
  missed : s.tracker.inForce.set.mode = .polyphase → s.tracker.marks = [] → s.tracker.entries.length = 12 →
    (∀ i, i < 12 → ∃ x, s.tracker.entry i = some x ∧ x.state ≠ .opened) →
    (∀ i, (s.track v).tracker.entry i = s.tracker.entry i)
    ∧ ∀ k, k ≠ .rvc →
      let due : Prop := if k = .interruption then ∀ p, v.fitted.has p = true → crossed v s k p else ∃ p, crossed v s k p
      (due → (∃ m ∈ (s.track v).tracker.marks, m.kind = k ∧ m.phase = none ∧ ∀ p, m.covers.has p = true ↔ crossed v s k p)
        ∧ (s.track v).tracker.missed.get k = count32 (s.tracker.missed.get k)
        ∧ k ∈ (s.track v).reports.missedToAggregator ∧ k ∈ (s.track v).reports.missedToCases
        ∧ (s.track v).link.causes &&& Cause.loss.bit = Cause.loss.bit)
      ∧ (¬ due → (∀ m ∈ (s.track v).tracker.marks, m.kind ≠ k) ∧ (s.track v).tracker.missed.get k = s.tracker.missed.get k)
  rvcPerPhase : s.tracker.inForce.set.mode = .perPhase → s.tracker.entries = List.replicate 12 none → s.tracker.marks = [] →
    (∀ k p, k ≠ .rvc → ¬ crossed v s k p) →
    (∀ p, s.tracker.departsAt v p → ∃ i x, (s.track v).tracker.entry i = some x
      ∧ (x.kind, x.state, x.start, x.halfCycles) = (.rvc, .opened, v.stamp, 1)
      ∧ (x.generation, x.values) = (s.tracker.inForce.generation, s.tracker.inForce.set.genValues)
      ∧ (∀ q, x.phases.has q = true ↔ q = p)
      ∧ (s.tracker.inForce.set.rvcCapture = true → ⟨i, v.number, v.stamp⟩ ∈ (s.track v).reports.claims)
      ∧ (s.track v).link.causes &&& Cause.disturbance.bit = Cause.disturbance.bit)
    ∧ (∀ i x, (s.track v).tracker.entry i = some x → ∃ p, s.tracker.departsAt v p ∧ x.phases.has p = true)
    ∧ (s.tracker.inForce.set.rvcCapture = false → (s.track v).reports.claims = s.reports.claims)
  missedPerPhase : s.tracker.inForce.set.mode = .perPhase → s.tracker.marks = [] → s.tracker.entries.length = 12 →
    (∀ i, i < 12 → ∃ x, s.tracker.entry i = some x ∧ x.state ≠ .opened) →
    (∀ i, (s.track v).tracker.entry i = s.tracker.entry i)
    ∧ ∀ k, k ≠ .rvc →
      let due (p : Phase) : Bool := v.fitted.has p && crosses s.tracker.inForce.set.genValues k (v.values.phase p)
      (∀ p, due p = true → (∃ m ∈ (s.track v).tracker.marks, m.kind = k ∧ m.phase = some p ∧ ∀ q, m.covers.has q = true ↔ q = p)
        ∧ k ∈ (s.track v).reports.missedToAggregator ∧ k ∈ (s.track v).reports.missedToCases
        ∧ (s.track v).link.causes &&& Cause.loss.bit = Cause.loss.bit)
      ∧ (∀ m ∈ (s.track v).tracker.marks, m.kind = k → ∃ p, due p = true ∧ m.phase = some p)
      ∧ (s.track v).tracker.missed.get k = count32By ([Phase.l1, .l2, .l3].filter due).length (s.tracker.missed.get k)

/-- Where an entry that leaves OPEN goes (R23): to TAIL while its slot is FILLING, else to COMMIT_WAIT. -/
def Entry.leavesTo (x : Entry) : EntryState := if x.slot.map (·.full) = some false then .tail else .commitWait

/-- A value passes an extreme of a DIP, SWELL or INTERRUPTION: higher for a SWELL, lower for the others (R22). -/
def Kind.passes (k : Kind) (n m : Nat) : Prop := if k = .swell then m < n else n < m

/-- An OPEN DIP, SWELL or INTERRUPTION entry `x`, `y` behind it, has taken in a value set (R22, R40): one half-cycle more; each of its
phases' value into that phase's extreme, a joined phase's as a new one; the most extreme of the set's values into the entry's extreme, with
its phase; an equal value displaces nothing; CLIPPED when the value of a phase of its set is marked; TIME_STEPPED when the set's epoch is
not that of its start; all else as it stood. -/
structure Entry.TookIn (base : Option Nat) (v : HalfCycleSet) (x y : Entry) : Prop where
  count : y.halfCycles = count32 x.halfCycles
  item : ∀ p, x.phases.has p = true →
    ((∀ e, x.perPhase.get p = some e → x.kind.passes (v.values.phase p) e.num) → y.perPhase.get p = some ⟨v.values.phase p, 1, false⟩)
    ∧ ∀ e, x.perPhase.get p = some e → ¬ x.kind.passes (v.values.phase p) e.num → y.perPhase.get p = some e
  others : ∀ p, x.phases.has p = false → y.perPhase.get p = x.perPhase.get p
  extreme : (∃ p, x.phases.has p = true) → ∃ p, x.phases.has p = true
    ∧ (∀ q, x.phases.has q = true → ¬ x.kind.passes (v.values.phase q) (v.values.phase p))
    ∧ ((∀ e, x.extreme = some e → x.kind.passes (v.values.phase p) e.num) →
        (y.extreme, y.extremePhase) = (some ⟨v.values.phase p, 1, false⟩, some p))
    ∧ ∀ e, x.extreme = some e → ¬ x.kind.passes (v.values.phase p) e.num → (y.extreme, y.extremePhase) = (x.extreme, x.extremePhase)
  clipped : y.flags.clipped = true ↔ x.flags.clipped = true ∨ ∃ p, x.phases.has p = true ∧ v.clipped.phase p = true
  stepped : y.flags.timeStepped = true ↔
    x.flags.timeStepped = true ∨ resolveEpoch base v.stamp.epoch ≠ resolveEpoch base x.start.epoch
  kept : y = { x with halfCycles := y.halfCycles, perPhase := y.perPhase, extreme := y.extreme, extremePhase := y.extremePhase
                      flags := { x.flags with clipped := y.flags.clipped, timeStepped := y.flags.timeStepped } }

/-- The duration of an entry with an end (R23): its count times the half-cycle of its generation's nominal frequency, 10 ms or 25/3 ms, to
the nearest millisecond; flagged ACROSS_SUPPLY_LOSS or MEASUREMENT_GAP, end less start on time alone, unless that is smaller. -/
structure DurationByRule (finish : TimeStamp) (x : Entry) (counted : Nat) : Prop where
  hz50 : x.values.freq = .hz50 → counted = 10 * x.halfCycles
  hz60 : x.values.freq = .hz60 → 3 * counted ≤ 25 * x.halfCycles + 1 ∧ 25 * x.halfCycles ≤ 3 * counted + 1
  byCount : x.flags.acrossSupplyLoss = false → x.flags.measurementGap = false → x.durationTo finish = counted
  byClock : x.flags.acrossSupplyLoss = true ∨ x.flags.measurementGap = true →
    (finish.toMs < x.start.toMs + counted → x.durationTo finish = counted)
    ∧ (x.start.toMs + counted ≤ finish.toMs → x.start.toMs + x.durationTo finish = finish.toMs)

/-- An OPEN DIP, SWELL or INTERRUPTION entry meets its end condition, by the thresholds and the mode of its own generation (R27, R28,
R30). -/
def Entry.endsAt (v : HalfCycleSet) (x : Entry) : Prop :=
  let back (p : Phase) : Prop := recovers x.values x.kind (v.values.phase p) = true
  let fitted (p : Phase) : Prop := (fittedSet x.values.threePhases).has p = true
  (x.values.mode = .perPhase ∧ ∀ p, x.phases.has p = true → back p)
  ∨ (x.values.mode = .polyphase ∧ x.kind = .interruption ∧ ∃ p, fitted p ∧ back p)
  ∨ (x.values.mode = .polyphase ∧ x.kind ≠ .interruption ∧ ∀ p, fitted p → back p)

/-- The phases that a value set brings to the dip or swell threshold: fitted ones that cross by the active settings, or join an OPEN DIP
or SWELL entry of a POLYPHASE generation by the entry's own thresholds and phases fitted (R27, R34, logs 17 and 18). -/
def Tracker.brings (v : HalfCycleSet) (t : Tracker) (p : Phase) : Prop :=
  v.fitted.has p = true
  ∧ (crosses t.inForce.set.genValues .dip (v.values.phase p) = true ∨ crosses t.inForce.set.genValues .swell (v.values.phase p) = true
    ∨ ∃ i x, t.entry i = some x ∧ x.state = .opened ∧ (x.kind = .dip ∨ x.kind = .swell) ∧ x.values.mode = .polyphase
      ∧ x.phases.has p = false ∧ (fittedSet x.values.threePhases).has p = true ∧ crosses x.values x.kind (v.values.phase p) = true)

/-- A span of times, in milliseconds, overlaps a case's window, which runs to the present while it is open-ended (R133). -/
def CaseSlot.overlapped (now lo hi : Nat) (c : CaseSlot) : Prop :=
  (∀ t, c.finish = some t → lo ≤ t.toMs) ∧ (c.finish = none → lo ≤ now) ∧ c.start.toMs ≤ hi

/-- What a start that keeps the backup domain does to the tracker's table, orders, marks and detectors (R42); `now` is the start time
stamp. An entry that stands in TAIL stands in the TAIL order. -/
structure KeptAcrossStart (resume : Bool) (now : TimeStamp) (t u : Tracker) : Prop where
  missed : u.missed = t.missed
  cleared : u.marks = [] ∧ u.windowFlag = none
  free : ∀ i, t.entry i = none → u.entry i = none
  slots : ∀ i x, t.entry i = some x → ∃ y, u.entry i = some y ∧ y.slot = none
    ∧ (y.kind, y.phases, y.start, y.halfCycles, y.generation) = (x.kind, x.phases, x.start, x.halfCycles, x.generation)
    ∧ (x.slot = none → y.flags.noCapture = x.flags.noCapture)
    ∧ (x.slot ≠ none → y.flags.noCapture = some (x.flags.noCapture.getD (if resume then .supply else .slot)))
  queued : ∀ i x, t.entry i = some x → x.state = .commitWait → ∃ y, u.entry i = some y ∧ y.state = .commitWait
  tail : ∀ i x, t.entry i = some x → x.state = .tail → i ∈ t.tailOrder → ∃ y, u.entry i = some y ∧ y.state = .commitWait
  opened : ∀ i x, t.entry i = some x → x.state = .opened → ∃ y, u.entry i = some y
    ∧ (resume = true → y.flags.acrossSupplyLoss = true) ∧ (resume = false → y.flags.measurementGap = true)
    ∧ (x.kind ≠ .rvc → y.state = .opened ∧ y.finish = x.finish)
    ∧ (x.kind = .rvc → y.state = .commitWait ∧ y.finish = some now ∧ y.steady = none
      ∧ y.duration = some (max (now.toMs - x.start.toMs) (countDuration x.values.freq x.halfCycles)))
  queue : u.commitQueue = t.commitQueue
    ++ t.tailOrder.filter (fun i => (t.entry i).map (·.state) = some .tail)
    ++ ((filled t.entries).filter fun e => e.2.state == .opened && e.2.kind == .rvc).map (·.1)
  detectors : ∀ p, (u.detectors.get p).buffer = []
    ∧ ((∃ i x, t.entry i = some x ∧ x.state = .opened ∧ (x.kind = .dip ∨ x.kind = .swell) ∧ x.phases.has p = true) →
        (u.detectors.get p).state = .suppressed)
    ∧ ((∀ i x, t.entry i = some x → x.state = .opened → x.kind = .dip ∨ x.kind = .swell → x.phases.has p = false) →
        (u.detectors.get p).state = .warmup)

/-! ### The log and its writer -/

/-- A job of `n` pages finds room: they fit into the ACTIVE block, or a block is ERASED or STALE (R79, R106). -/
def Store.hasRoom (n : Nat) (st : Store) : Prop := n ≤ st.blankPages ∨ 0 < st.free

/-- A block's record numbers and span behind the records of one page (R84): the first number is set when absent, the last is that of the
last record; earliest and latest, in seconds, take in the extent of every record and are the old ones or a record's own. -/
structure BlockEntry.Took (records : List Record) (e e' : BlockEntry) : Prop where
  first : ∀ r rest, records = r :: rest → e'.firstRecord = some (e.firstRecord.getD r.seq)
  last : ∀ r, lastOf records = some r → e'.lastRecord = some r.seq
  span : records ≠ [] → ∃ lo hi, e'.earliest = some lo ∧ e'.latest = some hi
    ∧ (∀ r ∈ records, lo * 1000 ≤ r.extent.1 ∧ r.extent.2 ≤ hi * 1000)
    ∧ (∀ n, e.earliest = some n → lo ≤ n) ∧ (∀ n, e.latest = some n → n ≤ hi)
    ∧ (e.earliest = some lo ∨ ∃ r ∈ records, lo = r.extent.1 / 1000)
    ∧ (e.latest = some hi ∨ ∃ r ∈ records, hi = (r.extent.2 + 999) / 1000)
  kept : (e'.blockSeq, e'.weak) = (e.blockSeq, e.weak)

/-- A loss counter has risen by `n` records: LOSS pending is set, LOSS is latched and the case unit is told (R117). -/
structure LossRaised (kind : LossKind) (n : Nat) (s t : State) : Prop where
  counters : t.store.lost =
    { disturbance := if kind = .disturbance then count32By n s.store.lost.disturbance else s.store.lost.disturbance
      interval := if kind = .interval then count32By n s.store.lost.interval else s.store.lost.interval
      marker := if kind = .marker then count32By n s.store.lost.marker else s.store.lost.marker
      unexportedReclaimed :=
        if kind = .unexportedReclaimed then count32By n s.store.lost.unexportedReclaimed else s.store.lost.unexportedReclaimed }
  pending : t.store.lossPending = true
  latched : t.link.causes &&& Cause.loss.bit = Cause.loss.bit
  reported : t.reports.losses = s.reports.losses ++ [kind]

/-- What the running disturbance job of a WRITABLE or HELD_FULL store issues next in the ACTIVE block `a` at page `q`: its next capture
page, and behind the last the release of its slot and its record page, whose header gives the block's span widened by the record (R54,
R84). -/
structure DisturbanceGoesOn (j : DisturbanceJob) (a q : Nat) (s : State) : Prop where
  capture : ∀ b rest, j.remaining = b :: rest → j.stopCapture = false → s.continueJob (.disturbance j) = some
    { s with store := { s.store with op := some (.program a q
      (.capture j.record.seq j.record.pageCount j.record.triggerSegment (b.stamp.resolve s.time.base) b.freq b.samples) .content) } }
  record : j.remaining = [] → ∃ t lo hi body, s.continueJob (.disturbance j) = some t
    ∧ t.store.op = some (.program a q (.records 1 j.record.seq lo hi body) .content)
    ∧ t.store.job = some (.disturbance { j with slot := none })
    ∧ (∀ k, j.slot = some k → slotAt t.capture.slots k = none)
    ∧ (∀ i, j.slot ≠ some i → slotAt t.capture.slots i = slotAt s.capture.slots i)
    ∧ ∀ e, s.store.block a = some e → ∃ e', e.Took [.disturbance j.record] e' ∧ e'.earliest = some lo ∧ e'.latest = some hi

/-- The page boundary of a disturbance job (R107): while the direct image of R113 is to be written the job goes on; else a reclaim step
waiting at MUST sets it aside; with none, a waiting host read does when 8 capture pages have gone out since the last one, not in HOLDUP, and
that count starts anew; else the job goes on. A host read that needs no page is answered there. -/
structure PageBoundary (j : DisturbanceJob) (s : State) : Prop where
  direct : s.store.direct ≠ none → s.boundary j = s.setJob (some (.disturbance { j with aside := none }))
  must : ∀ b, s.store.direct = none → s.reclaimWaits .must = some b →
    s.boundary j = (s.takeReclaim b).setJob (some (.disturbance { j with aside := some (.reclaim b) }))
  read : ∀ q, s.store.direct = none → s.reclaimWaits .must = none → s.store.hostRequest = some q → 8 ≤ j.sinceRead → s.inHoldup = false →
    let taken : State := { s with store := { s.store with hostRequest := none } }
    (∀ r, s.beginRead q = .more r → s.boundary j = taken.setJob (some (.disturbance { j with sinceRead := 0, aside := some (.hostRead r) })))
    ∧ ∀ st body, s.beginRead q = .done st body →
        s.boundary j = (taken.reply st body).setJob (some (.disturbance { j with sinceRead := 0, aside := none }))
  goesOn : s.store.direct = none → s.reclaimWaits .must = none → s.store.hostRequest = none ∨ j.sinceRead < 8 ∨ s.inHoldup = true →
    s.boundary j = s.setJob (some (.disturbance { j with aside := none }))

/-- The disturbance job begins for entry `i`: its record takes the next number and the entry's facts (R24, R80, R114). -/
structure DisturbanceJob.begunFor (i : Nat) (x : Entry) (s u : State) (j : DisturbanceJob) : Prop where
  source : j.source = some i
  seq : j.record.seq = s.store.nextSeq ∧ u.store.nextSeq = s.store.nextSeq + 1
  facts : (j.record.kind, j.record.phases, j.record.halfCycles, j.record.duration, j.record.nested, j.record.generation)
    = (x.kind, x.phases, x.halfCycles, x.duration, x.nested, x.generation)
  times : j.record.start = x.start.resolve s.time.base ∧ j.record.finish = x.finish.map (TimeStamp.resolve s.time.base)
  fresh : (j.record.pageCount, j.sinceRead, j.timeouts, j.stopCapture, j.aside) = (0, 0, 0, false, none)
  kept : u.tracker = s.tracker ∧ u.store.lost = s.store.lost

/-- What the disturbance job of entry `i` does as the writer takes it (R53, R80, R112 to R114), in state `u` from state `s`. It is
discarded in READ_ONLY, or with no blank page and F at 0, without a number; else it begins. A FULL slot is admitted unless the store is
HELD_FULL or fewer than 6 blocks are ERASED or STALE; one not admitted or discarded is released, and NO_CAPTURE gives the reason STORE
where none stands. -/
structure EntryTaken (i : Nat) (x : Entry) (s u : State) : Prop where
  bare : x.slot = none →
    (s.store.state = .readOnly ∨ ¬ s.store.hasRoom 1 → LossRaised .disturbance 1 s u ∧ u.tracker.entry i = none
      ∧ (u.store.nextSeq, u.store.job) = (s.store.nextSeq, s.store.job))
    ∧ (s.store.state ≠ .readOnly → s.store.hasRoom 1 →
      ∃ j, u.store.job = some (.disturbance j) ∧ j.begunFor i x s u ∧ j.slot = none ∧ j.remaining = [] ∧ j.record.flags = x.flags)
  slotted : ∀ k full c, x.slot = some ⟨k, full⟩ → slotAt s.capture.slots k = some c → c.state = .full → c.entry = i →
    let admitted : Prop := s.store.state ≠ .heldFull ∧ 6 ≤ s.store.free
    (s.store.state = .readOnly ∨ (¬ admitted ∧ ¬ s.store.hasRoom 1) → LossRaised .disturbance 1 s u ∧ u.tracker.entry i = none
      ∧ slotAt u.capture.slots k = none ∧ (u.store.nextSeq, u.store.job) = (s.store.nextSeq, s.store.job))
    ∧ (s.store.state ≠ .readOnly → admitted →
      ∃ j, u.store.job = some (.disturbance j) ∧ j.begunFor i x s u ∧ j.slot = some k ∧ j.remaining = c.held
        ∧ j.record.flags = x.flags ∧ slotAt u.capture.slots k = some { c with state := .writing, written := 0 }
        ∧ (c.held ≠ [] → j.record.trigger = some (c.triggerStamp.resolve s.time.base))
        ∧ (s.store.blankPages < c.held.length + 1 → u.store.active = none))
    ∧ (s.store.state ≠ .readOnly → ¬ admitted → s.store.hasRoom 1 →
      ∃ j, u.store.job = some (.disturbance j) ∧ j.begunFor i x s u ∧ j.slot = none ∧ j.remaining = []
        ∧ j.record.flags = { x.flags with noCapture := some (x.flags.noCapture.getD .store) } ∧ slotAt u.capture.slots k = none)

/-- The commit of entry `i` under number `seq`, the table before and behind it (R29, R30): the other entries stay, but for the dip that a
committed INTERRUPTION names as enclosing while it is OPEN or TAIL. -/
structure Tracker.Nests (seq i : Nat) (x : Entry) (t u : Tracker) : Prop where
  dip : ∀ k d, k ≠ i → t.entry k = some d →
    let named : Prop := x.kind = .interruption ∧ x.enclosing = some (k, d.start) ∧ d.kind = .dip ∧ (d.state = .opened ∨ d.state = .tail)
      ∧ d.values.mode = .polyphase
    (named → d.nested.length < 4 → u.entry k = some { d with nested := d.nested ++ [seq] })
    ∧ (named → 4 ≤ d.nested.length → u.entry k = some { d with flags := { d.flags with nestedOverflow := true } })
    ∧ (¬ named → u.entry k = some d)
  free : ∀ k, t.entry k = none → u.entry k = none

/-- What the interval job does as the writer takes it (R112, R113, R115): it empties the output queue, and discards its records or numbers
them in order. -/
structure IntervalsTaken (s u : State) : Prop where
  emptied : u.agg.queue = []
  discarded : s.store.state = .readOnly ∨ s.store.state = .heldFull ∨ ¬ s.store.hasRoom 1 →
    LossRaised .interval s.agg.queue.length s u ∧ (u.store.nextSeq, u.store.job) = (s.store.nextSeq, s.store.job)
  begun : s.store.state ≠ .readOnly → s.store.state ≠ .heldFull → s.store.hasRoom 1 →
    u.store.nextSeq = s.store.nextSeq + s.agg.queue.length
    ∧ ∃ j, u.store.job = some (.records j) ∧ j.cls = .interval ∧ j.records.length = s.agg.queue.length
      ∧ ∀ (n : Nat) (r : IntervalRecord), s.agg.queue[n]? = some r → j.records[n]? = some (Record.interval
          { r with seq := s.store.nextSeq + n, stamp := r.stamp.resolve s.time.base, start := r.start.resolve s.time.base })

/-- What the job at the head of the marker queue does as the writer takes it (R112, R113, R115): in READ_ONLY it is discarded, in HELD_FULL
a marker that is neither SUPPLY_LOSS nor SUPPLY_RETURN, and without room any marker; an image job builds its image now; a marker job takes
`n` markers from the head, at least one that fits a page body, and numbers them in order: in HOLDUP one, else as many as fit whole into
the 512 bytes of a page body, up to the first image request, in HELD_FULL SUPPLY_LOSS and SUPPLY_RETURN alone (R79, R112, R115). -/
structure HeadTaken (item : QueueItem) (rest : List QueueItem) (s u : State) : Prop where
  image : ∀ k, item = .image k → s.store.state ≠ .readOnly →
    u.store.markerQueue = rest ∧ u.store.nextSeq = s.store.nextSeq
    ∧ ∃ w, u.store.job = some (.image w) ∧ (w.kind, w.data, w.stage, w.timeouts) = (k, s.imagePage k, .own, 0)
  discarded : s.store.state = .readOnly
      ∨ (∃ t b, item = .marker t b ∧ ((s.store.state = .heldFull ∧ (∀ l, b ≠ .supplyLoss l) ∧ ∀ l, b ≠ .supplyReturn l)
        ∨ ¬ s.store.hasRoom 1)) →
    LossRaised .marker 1 s u ∧ u.store.markerQueue = rest ∧ (u.store.nextSeq, u.store.job) = (s.store.nextSeq, s.store.job)
  begun : ∀ t b, item = .marker t b → s.store.state ≠ .readOnly → s.store.hasRoom 1 →
    (s.store.state = .heldFull → (∃ l, b = .supplyLoss l) ∨ ∃ l, b = .supplyReturn l) →
    let length (m : TimeStamp × MarkerBody) : Nat := 16 + (markerBody (s.markerFacts m.2)).length
    let allowed (m : TimeStamp × MarkerBody) : Prop := s.store.state = .heldFull → (∃ l, m.2 = .supplyLoss l) ∨ ∃ l, m.2 = .supplyReturn l
    ∃ j n, (16 + (markerBody (s.markerFacts b)).length ≤ 512 → 0 < n)
      ∧ (s.inHoldup = false → ∃ ms : List (TimeStamp × MarkerBody), s.store.markerQueue.take n = ms.map (fun m => .marker m.1 m.2)
          ∧ sumOf (ms.map length) ≤ 512 ∧ (∀ m ∈ ms, allowed m)
          ∧ ∀ m, s.store.markerQueue[n]? = some (.marker m.1 m.2) → allowed m → 512 < sumOf (ms.map length) + length m)
      ∧ u.store.job = some (.records j) ∧ j.cls = .marker ∧ j.records.length = n
      ∧ u.store.markerQueue = s.store.markerQueue.drop n ∧ u.store.nextSeq = s.store.nextSeq + n ∧ (s.inHoldup = true → n = 1)
      ∧ ∀ k, k < n → ∃ t b m, s.store.markerQueue[k]? = some (.marker t b) ∧ j.records[k]? = some (.marker m)
          ∧ m.seq = s.store.nextSeq + k ∧ m.stamp = t.resolve s.time.base

/-- The review before each decision of the writer, `r` behind `s`: the urgency by F, MUST lasting until F reaches 10 (R105); and the store
state by BAD count, format, F and hold sets when one of these has changed since the last review, in HELD_FULL also when a FULL block is
unheld, but not while the direct image of R113 is to be written (R111, R113, log 38). -/
structure Reviewed (s r : State) : Prop where
  frame : WriterFrame s r ∧ r.store.index = s.store.index ∧ (r.store.job, r.store.op) = (s.store.job, s.store.op)
  must : r.store.urgency = .must ↔ s.store.free ≤ 5 ∨ (s.store.urgency = .must ∧ s.store.free < 10)
  need : r.store.urgency = .need ↔ 6 ≤ s.store.free ∧ s.store.free ≤ 15 ∧ r.store.urgency ≠ .must
  may : r.store.urgency = .may ↔ 16 ≤ s.store.free ∧ s.store.free ≤ 23
  entersMust : r.store.urgency = .must → s.store.urgency ≠ .must → r.link.causes &&& Cause.store.bit = Cause.store.bit
  kept : s.store.direct ≠ none ∨ ((∃ k, s.store.reviewed = some k ∧ k.free = s.store.free ∧ k.bad = s.store.badCount
      ∧ k.holds = s.store.index.map (·.holds) ∧ k.formatting = s.store.format.isSome)
      ∧ ¬ (s.store.state = .heldFull ∧ ∃ e ∈ s.store.index, e.state = .full ∧ e.holds = 0)) →
    (r.store.state, r.store.format) = (s.store.state, s.store.format)
  judged : s.store.direct = none → s.store.reviewed = none ∨ (∃ k, s.store.reviewed = some k ∧ (k.free ≠ s.store.free
      ∨ k.bad ≠ s.store.badCount ∨ k.holds ≠ s.store.index.map (·.holds) ∨ k.formatting ≠ s.store.format.isSome))
      ∨ (s.store.state = .heldFull ∧ ∃ e ∈ s.store.index, e.state = .full ∧ e.holds = 0) →
    let held : Prop := s.store.free ≤ 4 ∧ ∀ e ∈ s.store.index, e.state = .full → e.holds ≠ 0
    (13 ≤ s.store.badCount → r.store.state = .readOnly)
    ∧ (s.store.badCount < 13 → s.store.format ≠ none → r.store.state = .formatting)
    ∧ (s.store.badCount < 13 → s.store.format = none → held → r.store.state = .heldFull)
    ∧ (s.store.badCount < 13 → s.store.format = none → ¬ held → r.store.state = .writable)
  enters : r.store.state ≠ s.store.state → r.store.state = .heldFull ∨ r.store.state = .readOnly →
    r.link.causes &&& Cause.store.bit = Cause.store.bit
    ∧ (r.store.state = .readOnly → r.store.format = none ∧ r.store.proposed = none)

/-- A reclaim step at a level (R106, R109): it waits only at its urgency, not in HOLDUP and not in READ_ONLY, when a block is eligible,
which is FULL, unheld and, at MAY, not unexported; and it takes one with the lowest block sequence. -/
structure ReclaimChoice (u : Urgency) (s : State) : Prop where
  waits : s.reclaimWaits u ≠ none ↔ s.store.urgency = u ∧ s.inHoldup = false ∧ s.store.state ≠ .readOnly
    ∧ ∃ b e, (b, e) ∈ s.store.blocks ∧ e.state = .full ∧ e.holds = 0 ∧ (u = .may → e.unexported = none)
  oldest : ∀ b, s.reclaimWaits u = some b → ∃ e, (b, e) ∈ s.store.blocks ∧ e.state = .full ∧ e.holds = 0
    ∧ (u = .may → e.unexported = none)
    ∧ ∀ b' e', (b', e') ∈ s.store.blocks → e'.state = .full → e'.holds = 0 → (u = .may → e'.unexported = none) →
        optNum e.blockSeq ≤ optNum e'.blockSeq

/-- The reclaim step of block `b` as it is taken: ERASING at once, its erase issued, an unexported block counted (R110). -/
structure ReclaimTaken (b : Nat) (e : BlockEntry) (s t : State) : Prop where
  block : t.store.block b = some { e with state := .erasing, blockSeq := none }
  others : ∀ a, a ≠ b → t.store.block a = s.store.block a
  op : t.store.op = some (.erase b .reclaim)
  counted : e.unexported ≠ none → LossRaised .unexportedReclaimed 1 s t
  free : e.unexported = none → (t.store.lost, t.store.lossPending) = (s.store.lost, s.store.lossPending)

/-- A job with need of `n` pages counts as waiting, where others of its rank would: not without room while the store is WRITABLE and the
part not in HOLDUP (R106, R112, R113, R158). -/
def State.countsWaiting (n : Nat) (s : State) : Prop :=
  s.store.hasRoom n ∨ s.store.state = .readOnly ∨ s.store.state = .heldFull ∨ s.inHoldup = true

/-- Which jobs wait (R106). -/
structure WaitingJobs (s : State) : Prop where
  synthesised : ∀ r rest, s.store.synthesised = r :: rest → s.disturbanceHead = some (.synthesised r)
  queued : ∀ i rest x, s.store.synthesised = [] → s.tracker.commitQueue = i :: rest → s.tracker.entry i = some x →
    s.disturbanceHead = some (.entry i x)
  none : s.store.synthesised = [] → s.tracker.commitQueue = [] → s.disturbanceHead = none
  disturbance : ∀ h, s.disturbanceWaits = some h ↔ s.disturbanceHead = some h ∧ s.countsWaiting (s.disturbanceNeed h)
  markers : s.markersWait = true ↔ ∃ i rest, s.store.markerQueue = i :: rest ∧ ((∃ k, i = .image k) ∨ s.countsWaiting 1)
  intervals : s.intervalsWait = true ↔ s.agg.queue ≠ [] ∧ s.countsWaiting 1
  scan : ∀ e, s.askingEngine = some e ↔ s.cases.engine = some e ∧ e.asking = true

/-- The writer is free to take a job: no operation, no job, no activation, no direct image and no format is in hand. -/
structure State.writerFree (s : State) : Prop where
  runs : s.coreRunning = true ∧ s.store.scan = none
  idle : s.store.op = none ∧ s.store.job = none ∧ s.store.direct = none ∧ s.store.activationDue = false ∧ s.store.format = none

/-- The job a free writer takes, highest rank first, `r` being the state as reviewed; in HOLDUP no rank below applies (R106). -/
structure RankOrder (s r : State) : Prop where
  must : ∀ b, r.reclaimWaits .must = some b → s.pump = ((r.takeReclaim b).setJob (some (.reclaim b))).pumpFor 63
  disturbance : ∀ h, r.reclaimWaits .must = none → r.disturbanceWaits = some h → s.pump = (r.takeDisturbance h).pumpFor 63
  marker : r.reclaimWaits .must = none → r.disturbanceWaits = none → r.markersWait = true → s.pump = r.takeMarkers.pumpFor 63
  rest : r.reclaimWaits .must = none → r.disturbanceWaits = none → r.markersWait = false →
    (∀ q, r.store.hostRequest = some q → s.pump = (r.takeHostRead q).pumpFor 63)
    ∧ (r.store.hostRequest = none →
      (∀ b, r.reclaimWaits .need = some b → s.pump = ((r.takeReclaim b).setJob (some (.reclaim b))).pumpFor 63)
      ∧ (r.reclaimWaits .need = none →
        (r.intervalsWait = true → s.pump = r.takeIntervals.pumpFor 63)
        ∧ (r.intervalsWait = false →
          (∀ e, r.askingEngine = some e → s.pump = (r.takeScanRead e).pumpFor 63)
          ∧ (r.askingEngine = none →
            (∀ b, r.reclaimWaits .may = some b → s.pump = ((r.takeReclaim b).setJob (some (.reclaim b))).pumpFor 63)
            ∧ (r.reclaimWaits .may = none → s.pump = r)))))

/-- The job a free writer takes in HOLDUP (R158): disturbance jobs while synthesised records or the loss batch are not done, then the
SUPPLY_LOSS marker, the interval job, and later disturbance and interval jobs; no other job is taken. -/
structure HoldupOrder (s r : State) : Prop where
  batch : r.store.synthesised ≠ [] ∨ r.store.lossBatch ≠ [] →
    (∀ h, r.disturbanceWaits = some h → s.pump = (r.takeDisturbance h).pumpFor 63) ∧ (r.disturbanceWaits = none → s.pump = r)
  supplyLoss : r.store.synthesised = [] → r.store.lossBatch = [] →
    ((∃ t l rest, r.store.markerQueue = .marker t (.supplyLoss l) :: rest) → s.pump = r.takeMarkers.pumpFor 63)
    ∧ ((∀ t l rest, r.store.markerQueue ≠ .marker t (.supplyLoss l) :: rest) →
      (r.intervalsWait = true → r.store.holdupInterval = false → s.pump = r.takeIntervals.pumpFor 63)
      ∧ (r.intervalsWait = false ∨ r.store.holdupInterval = true →
        (∀ h, r.disturbanceWaits = some h → s.pump = (r.takeDisturbance h).pumpFor 63)
        ∧ (r.disturbanceWaits = none →
          (r.intervalsWait = true → s.pump = r.takeIntervals.pumpFor 63) ∧ (r.intervalsWait = false → s.pump = r))))

/-! ### What a page read is for -/

/-- What a page reads as (R91): a blank page BLANK; a page programmed whole as programmed, or unreadable; a page whose program was cut short
unreadable or as programmed, its RECORDS body perhaps another; one of unknown contents so too, or BLANK; one whose contents are lost BLANK
or unreadable (log 23, the model's choice). -/
structure ReadsAs (result : ReadResult) (body : Option (List Byte)) : Prop where
  blank : viewOf result body none = .blank
  lost : ∀ d c, result = .uncorrectable → viewOf result body (some ⟨d, c⟩) = .unreadable
  whole : ∀ d, result ≠ .uncorrectable → viewOf result body (some ⟨d, .whole⟩) = .page d
  cutShort : ∀ d c, c = .torn ∨ c = .unknown → result = .clean ∨ (∃ n, result = .corrected n) →
    (body = none ∨ (∀ n f lo hi b, d ≠ .records n f lo hi b) → viewOf result body (some ⟨d, c⟩) = .page d)
    ∧ ∀ n f lo hi b b', d = .records n f lo hi b → body = some b' →
        viewOf result body (some ⟨d, c⟩) = .page (.records n f lo hi b')
  blankRead : ∀ d, result = .blank → viewOf result body (some ⟨d, .torn⟩) = .unreadable
    ∧ viewOf result body (some ⟨d, .unknown⟩) = .blank
  lostPage : ∀ d, viewOf result body (some ⟨d, .lost⟩) = if result = .blank then .blank else .unreadable

/-- A page result that is a RECORDS page whose walk holds: its header's facts and its records as numbers with bytes (R198). -/
def PageView.isRecords (v : PageView) (count first lo hi : Nat) (records : List (Nat × List Byte)) : Prop :=
  ∃ body, v = .page (.records count first lo hi body) ∧ recordsOnPage count first body = some records

/-- A page result that its reader takes as unreadable: UNCORRECTABLE, or a RECORDS page whose walk fails (R91, R198). -/
def PageView.isUnreadable (v : PageView) : Prop :=
  v = .unreadable ∨ ∃ count first lo hi body, v = .page (.records count first lo hi body) ∧ recordsOnPage count first body = none

/-- A page result that holds no records: a CAPTURE page, or one that does not belong where it stands. -/
def PageView.isOther (v : PageView) : Prop := ∃ d, v = .page d ∧ ∀ count first lo hi body, d ≠ .records count first lo hi body

/-- The case scan (R129, R130, R131). An idle engine takes the lowest WAITING case: RUNNING, with its horizon, its tallies at zero. The walk
goes to the due block of lowest block sequence above the last, or the case is finished: LIVE or ENDED, CASE latched. A page result counts an
unreadable page, tallies the records up to the horizon, or ends the block: a BLANK page, a first number above the horizon, page 127. -/
structure ScanWalks (s : State) : Prop where
  takes : ∀ i c, s.cases.engine = none → s.store.scan = none → s.case i = some c → c.state = .waiting →
    (∀ j, j < i → ∀ d, s.case j = some d → d.state ≠ .waiting) →
    s.runScans = ((s.modifyCase (fun _ =>
      { c with state := .running, horizon := some (s.cases.highWater.getD 0), table := Settlement.zero, list := []
               listFull := false, unreadable := 0 }) i).walkFrom i 0).serveQueue 8
  rests : s.cases.engine ≠ none ∨ s.store.scan ≠ none ∨ (∀ i c, s.case i = some c → c.state ≠ .waiting) → s.runScans = s
  walks : ∀ i above c, s.case i = some c →
    let due (q b : Nat) : Prop := ∃ e f, (b, e) ∈ s.store.blocks ∧ e.holds &&& slotBit i ≠ 0 ∧ e.blockSeq = some q ∧ above < q
      ∧ e.firstRecord = some f ∧ f ≤ c.horizon.getD 0
    (∀ q b, due q b → (∀ q' b', due q' b' → q < q' ∨ (q', b') = (q, b)) →
      s.walkFrom i above = { s with cases := { s.cases with engine := some ⟨i, q, b, 1, true⟩ } })
    ∧ ((∀ q b, ¬ due q b) →
      let u := s.walkFrom i above
      u.cases.engine = none ∧ onlyCase i s u ∧ u.link.causes &&& Cause.caseCause.bit = Cause.caseCause.bit
      ∧ u.case i = some { c with state := if ∃ t, c.finish = some t ∧ t.toMs ≤ s.nowMs then .ended else .live })
  page : ∀ v e c, s.cases.engine = some e → s.case e.slot = some c →
    let horizon := c.horizon.getD 0
    let next (t : State) : State := if e.page < 127 then { t with cases := { t.cases with engine := some { e with page := e.page + 1, asking := true } } }
      else t.walkFrom e.slot e.blockSeq
    (v = .blank → s.scanResult v = (s.walkFrom e.slot e.blockSeq).runScans)
    ∧ (v.isUnreadable →
      s.scanResult v = (next (s.modifyCase (fun _ => { c with unreadable := count32 c.unreadable }) e.slot)).runScans)
    ∧ (v.isOther → s.scanResult v = (next s).runScans)
    ∧ ∀ count first lo hi records, v.isRecords count first lo hi records →
      (horizon < first → s.scanResult v = (s.walkFrom e.slot e.blockSeq).runScans)
      ∧ (first ≤ horizon → s.scanResult v = (next (s.modifyCase (fun _ =>
          ((records.filter fun x => x.1 ≤ horizon).filterMap fun x => recordOf x.2).foldl (fun c r => c.tally s.nowMs r) c)
          e.slot)).runScans)

/-- The READ_RECORDS reply (section 11.4): the end mark, the count of items, the continue-from sequence, one above the highest record
collected or else the from sequence, and the newest number, then the items. -/
def RecordsRead.replied (atEnd newest : Nat) (r : RecordsRead) : ReadNext :=
  .done .ok (field 1 atEnd ++ field 1 r.itemCount ++ reserved 1 ++ field 4 ((r.highest.map (· + 1)).getD r.fromSeq) ++ field 4 newest
    ++ r.items)

/-- The next block that holds records, from page 1; where none remains the reply with the end mark (R177). -/
def RecordsRead.afterBlock (newest : Nat) (r : RecordsRead) : ReadNext :=
  match r.later with
  | b :: rest => .more (.records { r with block := b, page := 1, later := rest })
  | [] => r.replied 1 newest

/-- The next page of the block; behind page 127 the next block (R177). -/
def RecordsRead.afterPage (newest : Nat) (r : RecordsRead) : ReadNext :=
  if r.page < 127 then .more (.records { r with page := r.page + 1 }) else r.afterBlock newest

/-- The block ends without the record's page: NOT_FOUND, or the first unreadable page met on the way (R178). -/
def CaptureRead.missing (r : CaptureRead) : ReadNext :=
  match r.firstUnreadable with
  | some t => .done .ok (field 1 2 ++ reserved 2 ++ field 1 t.1 ++ field 1 t.2 ++ reserved 1)
  | none => .done .notFound []

/-- The next page of the block; behind page 127 the block ends (R178). -/
def CaptureRead.onward (r : CaptureRead) : ReadNext :=
  if r.page < 127 then .more (.capture { r with page := r.page + 1 }) else r.missing

/-- READ_RECORDS behind one page result (R177): what is collected, and whether the next page, the next block or the reply follows. A record
counts when its number reaches the from sequence; collection stops with the limit, with a record that would take the body beyond 1024 bytes,
with 8 unreadable pages, and where no block remains. An unreadable page that would not fit stops it too (log 26, the model's choice). -/
structure RecordsCollected (r : RecordsRead) (newest : Nat) (v : PageView) : Prop where
  blank : v = .blank → r.take newest v = r.afterBlock newest
  other : v.isOther → r.take newest v = r.afterPage newest
  unreadable : v.isUnreadable →
    let r' := { r with items := r.items ++ (0x02#8 :: field 1 r.block ++ field 1 r.page ++ reserved 1), itemCount := r.itemCount + 1
                       unreadable := r.unreadable + 1 }
    (1024 < 12 + r.items.length + 4 → r.take newest v = r.replied 0 newest)
    ∧ (12 + r.items.length + 4 ≤ 1024 → (8 ≤ r'.unreadable → r.take newest v = r'.replied 0 newest)
      ∧ (r'.unreadable < 8 → r.take newest v = r'.afterPage newest))
  records : ∀ count first lo hi (records : List (Nat × List Byte)), v.isRecords count first lo hi records → ∃ k,
    let wanted : List (Nat × List Byte) := records.filter fun x => r.fromSeq ≤ x.1
    let got := wanted.take k
    let r' := { r with items := r.items ++ got.flatMap (fun x : Nat × List Byte => 0x01#8 :: x.2), itemCount := r.itemCount + k, taken := r.taken + k
                       highest := match lastOf got with | some x => some x.1 | none => r.highest }
    let stops : Prop := r.limit ≤ r'.taken ∨ ∃ x : Nat × List Byte, wanted[k]? = some x ∧ 1024 < 12 + r'.items.length + 1 + x.2.length
    k ≤ wanted.length ∧ (k < wanted.length → stops) ∧ (0 < k → r'.taken ≤ r.limit ∧ 12 + r'.items.length ≤ 1024)
    ∧ (stops → r.take newest v = r'.replied 0 newest) ∧ (¬ stops → r.take newest v = r'.afterPage newest)

/-- READ_CAPTURE behind one page result (R178): the page that holds the record is looked for upward, then judged, then its segment's page is
read at the place R78 gives: that page as it stands, an unreadable-page item, or NOT_FOUND for any other page, a BLANK one among them. -/
structure CaptureFound (r : CaptureRead) (v : PageView) : Prop where
  blank : r.target = none → v = .blank → r.take v = r.missing
  unreadable : r.target = none → v.isUnreadable → r.take v =
    { r with firstUnreadable := some (r.firstUnreadable.getD (r.block, r.page)) }.onward
  other : r.target = none → v.isOther → r.take v = r.onward
  records : ∀ count first lo hi records, r.target = none → v.isRecords count first lo hi records →
    (¬ (first ≤ r.seq ∧ r.seq < first + count) → r.take v = r.onward)
    ∧ (first ≤ r.seq → r.seq < first + count →
      let found := (records.find? fun x => x.1 == r.seq).bind fun x => recordOf x.2
      (∀ d, found = some (.disturbance d) → r.segment < d.pageCount → (d.segmentAt r.segment).2 < 128 →
        r.take v = .more (.capture { r with target := some (d.segmentAt r.segment) }))
      ∧ ((∀ d, found = some (.disturbance d) → d.pageCount ≤ r.segment ∨ 128 ≤ (d.segmentAt r.segment).2) →
        r.take v = .done .notFound []))
  segment : ∀ t, r.target = some t →
    (∀ trigger stamp freq samples, v = .page (.capture r.seq r.segment trigger stamp freq samples) →
      r.take v = .done .ok (field 1 1 ++ reserved 2 ++ capturePageBytes r.seq r.segment trigger stamp freq samples))
    ∧ (v.isUnreadable → r.take v = .done .ok (field 1 2 ++ reserved 2 ++ field 1 t.1 ++ field 1 t.2 ++ reserved 1))
    ∧ (¬ v.isUnreadable → (∀ trigger stamp freq samples, v ≠ .page (.capture r.seq r.segment trigger stamp freq samples)) →
      r.take v = .done .notFound [])

/-- Where host reads begin (R177, R178): READ_RECORDS with the block of lowest block sequence whose last number reaches the from sequence,
the blocks of higher block sequence behind it, up to the smaller of max count and reply burst; READ_CAPTURE with the block that encloses
the number. Block sequences are distinct. -/
structure ReadsBegin (s : State) : Prop where
  records : ∀ (fromSeq maxCount b : Nat) (e : BlockEntry), (b, e) ∈ s.store.blocks → e.holdsRecords = true →
    fromSeq ≤ optNum e.lastRecord → (∀ a f, (a, f) ∈ s.store.blocks → f.holdsRecords = true → a ≠ b →
      optNum f.blockSeq ≠ optNum e.blockSeq ∧ (fromSeq ≤ optNum f.lastRecord → optNum e.blockSeq < optNum f.blockSeq)) →
    ∃ later, s.beginRead (.records fromSeq maxCount) = .more (.records
        { fromSeq := fromSeq, limit := min maxCount s.settings.active.replyBurst, block := b, page := 1, later := later, items := []
          itemCount := 0, taken := 0, unreadable := 0, highest := none })
      ∧ ∀ a, a ∈ later ↔ ∃ f, (a, f) ∈ s.store.blocks ∧ f.holdsRecords = true ∧ optNum e.blockSeq < optNum f.blockSeq
  noRecords : ∀ (fromSeq maxCount : Nat), (∀ a f, (a, f) ∈ s.store.blocks → f.holdsRecords = true → optNum f.lastRecord < fromSeq) →
    ∃ body, s.beginRead (.records fromSeq maxCount) = .done .ok body
  capture : ∀ (seq segment b : Nat) (e : BlockEntry), (b, e) ∈ s.store.blocks → e.holdsRecords = true →
    optNum e.firstRecord ≤ seq → seq ≤ optNum e.lastRecord → (∀ a f, (a, f) ∈ s.store.blocks → f.holdsRecords = true →
      optNum f.firstRecord ≤ seq → seq ≤ optNum f.lastRecord → a = b) →
    s.beginRead (.capture seq segment) = .more (.capture
      { seq := seq, segment := segment, block := b, page := 1, firstUnreadable := none, target := none })
  noCapture : ∀ (seq segment : Nat), (∀ a f, (a, f) ∈ s.store.blocks → f.holdsRecords = true →
      seq < optNum f.firstRecord ∨ optNum f.lastRecord < seq) →
    s.beginRead (.capture seq segment) = .done .notFound []

/-! ### The start-up scan -/

/-- The scan's next read is issued (R90). -/
def State.reading (stage : ScanStage) (b p : Nat) (x : StartScan) (s : State) : State :=
  { s with store := { s.store with scan := some { x with stage := stage }, op := some (.read b p .startUp) } }

/-- The scan's state and one log block's entry changed. -/
def State.scanned (b : Nat) (e : BlockEntry) (x : StartScan) (s : State) : State :=
  { s with store := { s.store.modifyBlock (fun _ => e) b with scan := some x } }

/-- Block `b` is classified: the next block's header is read, and behind block 255 the scan concludes (R93, R94). -/
def State.blockEnds (b : Nat) (t u : State) : Prop :=
  (b < 255 → u = t.scanRead (.header (b + 1))) ∧ (255 ≤ b → u = t.classified)

/-- A number met on a page enters the newest number found, with its page (R82); which page stands for a number met twice is log 43, the
model's choice. -/
structure NumberNoted (n b p : Nat) (x y : StartScan) : Prop where
  only : y = { x with newestNumber := y.newestNumber }
  first : x.newestNumber = none → y.newestNumber = some (n, b, p)
  higher : ∀ m c q, x.newestNumber = some (m, c, q) →
    (m < n → y.newestNumber = some (n, b, p)) ∧ (n < m → y.newestNumber = some (m, c, q))
    ∧ (n = m → y.newestNumber = some (n, b, p) ∨ y.newestNumber = some (m, c, q))

/-- A page passed over on a log block: the owner of a CAPTURE page is a number, a BLANK page is nothing, any other is unreadable (R82,
R93). -/
structure PagePassed (b p : Nat) (v : PageView) (x y : StartScan) : Prop where
  capture : ∀ owner seg trigger stamp freq samples, v = .page (.capture owner seg trigger stamp freq samples) → NumberNoted owner b p x y
  blank : v = .blank → y = x
  unreadable : v ≠ .blank → (∀ owner seg trigger stamp freq samples, v ≠ .page (.capture owner seg trigger stamp freq samples)) →
    y = { x with unreadable := x.unreadable ++ [(b, p)] }

/-- The state of a log block of the current identity (R93, step 4), and of any other block (step 1). -/
def Store.ownState (b : Nat) (st : Store) : BlockState := if b ∈ st.badList then .bad else .full
def Store.foreignState (b : Nat) (st : Store) : BlockState := if b ∈ st.badList then .bad else .stale

/-- What a page of the settings area adds to what the scan has seen there (R92): of two images with one counter the one met later counts
(log 32, the model's choice). -/
structure ImagesSeen (b p : Nat) (v : PageView) (x y : StartScan) : Prop where
  settings : ∀ n i, v = .page (.settings n i) → y.bestCases = x.bestCases
    ∧ ((∀ m j, x.bestSettings = some (m, j) → m ≤ n) → y.bestSettings = some (n, i))
    ∧ (∀ m j, x.bestSettings = some (m, j) → n < m → y.bestSettings = some (m, j))
  cases : ∀ n l, v = .page (.cases n l) → y.bestSettings = x.bestSettings
    ∧ ((∀ m j, x.bestCases = some (m, j) → m ≤ n) → y.bestCases = some (n, l))
    ∧ (∀ m j, x.bestCases = some (m, j) → n < m → y.bestCases = some (m, j))
  counter : ∀ n, (∃ i, v = .page (.settings n i)) ∨ (∃ l, v = .page (.cases n l)) →
    ((∀ m c, x.bestCounter = some (m, c) → m ≤ n) → y.bestCounter = some (n, b))
    ∧ (∀ m c, x.bestCounter = some (m, c) → n < m → y.bestCounter = some (m, c))
  none : (∀ n i, v ≠ .page (.settings n i)) → (∀ n l, v ≠ .page (.cases n l)) →
    (y.bestSettings, y.bestCases, y.bestCounter) = (x.bestSettings, x.bestCases, x.bestCounter)
  tops : (v = .blank → (y.top0, y.top1) = (x.top0, x.top1))
    ∧ (v ≠ .blank → b = 0 → (y.top0, y.top1) = (some p, x.top1)) ∧ (v ≠ .blank → b ≠ 0 → (y.top0, y.top1) = (x.top0, some p))
  kept : y = { x with bestSettings := y.bestSettings, bestCases := y.bestCases, bestCounter := y.bestCounter, top0 := y.top0, top1 := y.top1 }

/-- One page of the settings area (R92): the image of the highest counter of each kind, the block of the highest counter of either, and each
block's highest page that is not BLANK; behind the last page settings, persistent values, the images' place and the case table are taken,
defaults and FREE slots where there is no image, and block 2 is read. With no image at all the place for images is block 0 above its
highest page that is not BLANK (log 32, the model's choice). With the nominal frequency that the start's series has, the series goes on with
the settings taken; with another it begins anew without a notice (R16), and every entry stays as it stands but an OPEN RVC entry (R42; that
a series has begun before the area is read is log 14, the model's choice). -/
structure SettingsAreaRead (b p : Nat) (v : PageView) (x : StartScan) (s u : State) : Prop where
  series : 127 ≤ p → b ≠ 0 →
    let set := u.settings.active
    u.tracker.inForce = ⟨set, u.settings.generation⟩
    ∧ (set.freq = s.meas.freq → u.meas = { s.meas with udecl := set.udecl, threePhases := set.threePhases }
      ∧ ∀ i, u.tracker.entry i = s.tracker.entry i)
    ∧ (set.freq ≠ s.meas.freq → u.meas = Measurement.fresh set.freq set.udecl set.threePhases ∧ u.capture.ring = []
      ∧ ∀ i y, s.settleRequests.tracker.entry i = some y → y.state ≠ .opened ∨ y.kind ≠ .rvc → u.tracker.entry i = some y)
  goesOn : p < 127 → ∃ y, u = s.reading (.settingsArea b (p + 1)) b (p + 1) y ∧ ImagesSeen b p v x y
  secondBlock : 127 ≤ p → b = 0 → ∃ y, u = s.reading (.settingsArea 1 0) 1 0 y ∧ ImagesSeen b p v x y
  taken : 127 ≤ p → b ≠ 0 → ∃ y, ImagesSeen b p v x y ∧ u.store.scan = some { y with stage := .header 2 }
    ∧ u.store.op = some (.read 2 0 .startUp) ∧ u.settings.pending = none
    ∧ (∀ n i, y.bestSettings = some (n, i) → (u.settings.active, u.settings.generation) = (i.set, i.generation)
      ∧ (u.store.identity, u.store.floor, u.store.exportMark, u.store.badList) = (i.identity, i.floor, i.exportMark, i.badList))
    ∧ (y.bestSettings = none → (u.settings.active, u.settings.generation) = (Settings.default, 0)
      ∧ (u.store.identity, u.store.floor, u.store.exportMark, u.store.badList)
          = (s.store.identity, s.store.floor, s.store.exportMark, s.store.badList))
    ∧ (y.bestCases = none → ∀ k, u.case k = none)
    ∧ (∀ n l k c, y.bestCases = some (n, l) → slotAt l k = some c → ∃ c', u.case k = some c'
      ∧ (c'.caseNo, c'.start, c'.finish, c'.phases) = (c.caseNo, c.start, c.finish, c.phases))
    ∧ (∀ n c, y.bestCounter = some (n, c) → (u.store.imageCounter, u.store.imageBlock) = (n, c)
      ∧ u.store.imagePage = ((if c = 0 then y.top0 else y.top1).map (· + 1)).getD 0)
    ∧ (y.bestCounter = none → (u.store.imageCounter, u.store.imageBlock) = (0, 0) ∧ u.store.imagePage = (y.top0.map (· + 1)).getD 0)

/-- One log block of the scan (R93): its header, its first RECORDS page upward and its last downward. -/
structure LogBlockRead (v : PageView) (x : StartScan) (e : BlockEntry) (s u : State) : Prop where
  header : ∀ b, x.stage = .header b → s.store.block b = some e →
    (∀ k seq stamp, v = .page (.header k s.store.identity seq stamp) →
      u = (s.scanned b { e with blockSeq := some seq } x).scanRead (.firstPage b 1))
    ∧ ((∀ k seq stamp, v ≠ .page (.header k s.store.identity seq stamp)) →
      State.blockEnds b (s.scanned b { e with state := s.store.foreignState b, blockSeq := none }
        (if v = .unreadable then { x with unreadable := x.unreadable ++ [(b, 0)] } else x)) u)
  first : ∀ b p, x.stage = .firstPage b p → s.store.block b = some e →
    (∀ count first lo hi records, v.isRecords count first lo hi records →
      let f : FoundPage := ⟨b, p, first + count - 1, lo, hi, records.filterMap fun r => recordOf r.2⟩
      u = (s.scanned b { e with firstRecord := some first } { x with firstFound := some f }).scanRead (.lastPage b 127))
    ∧ (v = .blank → State.blockEnds b (s.scanned b { e with state := s.store.ownState b } x) u)
    ∧ (v ≠ .blank → (∀ count first lo hi records, ¬ v.isRecords count first lo hi records) → ∃ y, PagePassed b p v x y
      ∧ (p < 127 → u = (s.scanned b e y).scanRead (.firstPage b (p + 1)))
      ∧ (127 ≤ p → State.blockEnds b (s.scanned b { e with state := s.store.ownState b } y) u))
  last : ∀ b p, x.stage = .lastPage b p → s.store.block b = some e →
    let found (f : FoundPage) (x : StartScan) : Prop :=
      ∃ y, NumberNoted f.lastSeq b f.page
          { x with lastPages := x.lastPages ++ [(b, f.page)]
                   newestPage := if ∀ g, x.newestPage = some g → g.lastSeq < f.lastSeq then some f else x.newestPage } y
        ∧ State.blockEnds b (s.scanned b { e with lastRecord := some f.lastSeq, earliest := some f.earliest, latest := some f.latest
                                                  state := s.store.ownState b } y) u
    (∀ count first lo hi records, v.isRecords count first lo hi records →
      found ⟨b, p, first + count - 1, lo, hi, records.filterMap fun r => recordOf r.2⟩ x)
    ∧ ((∀ count first lo hi records, ¬ v.isRecords count first lo hi records) → ∃ y, PagePassed b p v x y
      ∧ (1 < p → u = (s.scanned b e y).scanRead (.lastPage b (p - 1)))
      ∧ (p ≤ 1 → (∀ f, y.firstFound = some f → found f y)
        ∧ (y.firstFound = none → State.blockEnds b (s.scanned b { e with state := s.store.ownState b } y) u)))

/-- Some page may hide numbers above the newest found: an unreadable one above its page, or in a block of higher block sequence (R82).
With no number found there is none (log 47, the model's choice). -/
def State.hidesNumbers (x : StartScan) (s : State) : Prop :=
  ∃ n b p, x.newestNumber = some (n, b, p) ∧ ∃ l ∈ x.unreadable, (l.1 = b ∧ p < l.2)
    ∨ ∃ e f q r, s.store.block l.1 = some e ∧ s.store.block b = some f ∧ e.blockSeq = some q ∧ f.blockSeq = some r ∧ r < q

/-- The block sequence of a log block, 0 where it has none. -/
def State.seqOf (b : Nat) (s : State) : Nat := ((s.store.block b).bind (·.blockSeq)).getD 0

/-- All blocks are classified (R94, items 1 to 4): the next number by R82; the COMMIT_WAIT entries that the newest record page holds are
committed (R44); a COLD start's epoch is settled by the newest record; at a COLD start with a record the read-back begins on its page,
other blocks in descending block sequence behind it (R95), at another start the scan concludes. -/
structure ScanConcludes (x : StartScan) (s : State) : Prop where
  ends : ∃ t : State,
    let records := match x.newestPage with | some f => f.records | none => []
    let found := match x.newestNumber with | some n => n.1 | none => 0
    let committed (y : Entry) : Prop := y.state = .commitWait ∧ ∃ d, .disturbance d ∈ records
      ∧ (d.kind, d.start, d.phases) = (y.kind, y.start.resolve s.time.base, y.phases)
    (s.hidesNumbers x → t.store.nextSeq = max found (max s.store.floor s.store.exportMark) + 33)
    ∧ (¬ s.hidesNumbers x → t.store.nextSeq = max found (max s.store.floor s.store.exportMark) + 1)
    ∧ t.time = s.time.settle ((lastOf records).map Record.epoch)
    ∧ (∀ i y, s.tracker.entry i = some y → (committed y → t.tracker.entry i = none)
      ∧ (¬ committed y → ∃ z, t.tracker.entry i = some z ∧ (z.kind, z.phases, z.start, z.state) = (y.kind, y.phases, y.start, y.state)))
    ∧ t.store.index = s.store.index
    ∧ (s.supply.startCause ≠ .cold ∨ x.newestPage = none → s.classified = t.concludeLast)
    ∧ ∀ f, s.supply.startCause = .cold → x.newestPage = some f → ∃ later, s.classified = t.scanRead (.readBack f.block f.page later)
        ∧ (∀ l, l ∈ later ↔ l ∈ x.lastPages ∧ l.1 ≠ f.block ∧ s.seqOf l.1 < s.seqOf f.block)
        ∧ later.Pairwise fun k l => s.seqOf l.1 ≤ s.seqOf k.1

/-- The scan's end (R94, items 5 and 6): bounds by R85, the case unit's high-water mark, an activation due, and STARTING left. -/
structure ScanEnds (s : State) : Prop where
  finished : s.concludeLast.store.scan = none ∧ s.concludeLast.store.activationDue = true
  power : s.concludeLast.supply = { s.supply with power := if s.supply.power = .starting then .run else s.supply.power }
  bounds : ∀ b e, s.store.block b = some e → ∃ e', s.concludeLast.store.block b = some e'
    ∧ (∀ n, e.lastRecord = some n → s.store.exportMark < n → e'.unexported = some n)
    ∧ ((∀ n, e.lastRecord = some n → n ≤ s.store.exportMark) → e'.unexported = e.unexported)
  highWater : ∃ h, s.concludeLast.cases.highWater = some h ∧ (∀ e ∈ s.store.index, ∀ n, e.lastRecord = some n → n ≤ h)
    ∧ (h = 0 ∨ ∃ e ∈ s.store.index, e.lastRecord = some h)

/-- One page of the read-back (R95): the last marker on it ends the scan, and a SUPPLY_LOSS marker's items that no passed record answers, by
kind and start, are synthesised as END_UNKNOWN records in list order (R166); without a marker its disturbances are noted and the page
below, or the next block, is read, and behind the last the scan ends with no marker. -/
structure ReadBack (b p : Nat) (later : List (Nat × Nat)) (v : PageView) (x : StartScan) (s u : State) : Prop where
  marker : ∀ count first lo hi records before m after, v.isRecords count first lo hi records →
    (records.filterMap fun r => recordOf r.2) = before ++ .marker m :: after → (∀ m', .marker m' ∉ after) →
    ((∀ items, m.body ≠ .supplyLoss items) → u = s.concludeLast)
    ∧ ∀ items, m.body = .supplyLoss items → ∃ l : List DisturbanceRecord,
        u = State.concludeLast { s with store := { s.store with synthesised := l } }
        ∧ l.map (fun r => (r.kind, r.phases, r.start))
            = (items.filter fun i => (i.kind, i.start) ∉ x.passed).map (fun i => (i.kind, i.phases, i.start))
        ∧ ∀ r ∈ l, (r.finish, r.duration, r.halfCycles, r.pageCount, r.generation) = (none, none, 0, 0, s.settings.generation)
            ∧ r.flags = { endUnknown := true, acrossSupplyLoss := true, noCapture := some .supply }
  passed : (∀ count first lo hi records, v.isRecords count first lo hi records → ∀ r ∈ records, ∀ m, recordOf r.2 ≠ some (.marker m)) →
    ∃ y, y = { x with passed := y.passed }
      ∧ (∀ k t, (k, t) ∈ y.passed ↔ (k, t) ∈ x.passed ∨ ∃ count first lo hi records, v.isRecords count first lo hi records
          ∧ ∃ r ∈ records, ∃ d, recordOf r.2 = some (.disturbance d) ∧ (d.kind, d.start) = (k, t))
      ∧ (1 < p → u = ({ s with store := { s.store with scan := some y } } : State).scanRead (.readBack b (p - 1) later))
      ∧ (p ≤ 1 → ∀ c q rest, later = (c, q) :: rest →
          u = ({ s with store := { s.store with scan := some y } } : State).scanRead (.readBack c q rest))
      ∧ (p ≤ 1 → later = [] → u = ({ s with store := { s.store with scan := some y } } : State).concludeLast)

/-- What the start-up scan does with a page result (R92 to R95), where it stands. -/
structure StartScanReads (v : PageView) (s : State) : Prop where
  idle : s.store.scan = none → s.startResult v = s
  settings : ∀ b p x, s.store.scan = some x → x.stage = .settingsArea b p → SettingsAreaRead b p v x s (s.startResult v)
  blocks : ∀ x e, s.store.scan = some x → LogBlockRead v x e s (s.startResult v)
  back : ∀ b p later x, s.store.scan = some x → x.stage = .readBack b p later → ReadBack b p later v x s (s.startResult v)
  concludes : ∀ x, s.store.scan = some x → ScanConcludes x s
  ends : ScanEnds s
  reads : ∀ x b p later, s.store.scan = some x →
    s.scanRead (.header b) = s.reading (.header b) b 0 x ∧ s.scanRead (.firstPage b p) = s.reading (.firstPage b p) b p x
    ∧ s.scanRead (.lastPage b p) = s.reading (.lastPage b p) b p x
    ∧ s.scanRead (.readBack b p later) = s.reading (.readBack b p later) b p x

end Sys2Proof.Machine

open Sys2Proof Sys2Proof.Machine

/-! ## The machine as a whole -/

/-- A step takes the command at the front of the queue and runs it on the state with the queue's rest; with none waiting the part idles
(log 11, the model's choice). -/
def Obligations.StepRunsFrontCommand : Prop :=
  (∀ (c : Instr) (rest : List Instr) (s : State), s.pending = c :: rest → step s = exec c { s with pending := rest })
  ∧ ∀ s : State, s.pending = [] → step s = .next s

/-- The state after reset: a part entering STARTING by a COLD start (log 1). Clock quality UNSET and epoch unsettled (R149),
no entry, mark or missed count (R43), ring empty and slots FREE (R46, R57), the interval empty with the cause START (R72),
RESTARTED and CLOCK latched, link counters 0, watch off, receiver in HUNT, slot EMPTY, transmitter IDLE (R188), and the
RESTART marker queued (R163). It meets every invariant below. -/
def Obligations.ResetIsFirstColdStart : Prop :=
  State.reset.pending = []
  ∧ State.reset.supply.power = .starting ∧ State.reset.supply.startCause = .cold
  ∧ State.reset.time.qualitySet = false ∧ State.reset.time.epoch = .unsettled 0 ∧ State.reset.time.coreOff = none
  ∧ State.reset.time.arrivals = []
  ∧ (∀ i, State.reset.tracker.entry i = none) ∧ State.reset.tracker.marks = [] ∧ State.reset.tracker.missed = ⟨0, 0, 0, 0⟩
  ∧ State.reset.capture.ring = [] ∧ (∀ i, slotAt State.reset.capture.slots i = none)
  ∧ State.reset.agg.acc = Accumulator.empty { start := true } ∧ State.reset.agg.queue = []
  ∧ State.reset.store.array = []
  ∧ State.reset.store.markerQueue = [.marker State.reset.supply.startStamp (.restart .cold State.reset.supply.startStamp)]
  ∧ State.reset.settings.active = Settings.default ∧ State.reset.settings.pending = none
  ∧ State.reset.cases.engine = none ∧ (∀ i, State.reset.case i = none)
  ∧ State.reset.link.causes = Cause.restarted.bit ||| Cause.clock.bit
  ∧ State.reset.link.counters = ⟨0, 0, 0, 0⟩ ∧ State.reset.link.watch = none ∧ State.reset.link.fifo = []
  ∧ State.reset.link.rx = Receiver.hunting ∧ State.reset.link.slot = none ∧ State.reset.link.tx = none
  ∧ State.reset.attnLow = false
  ∧ State.reset.ok

/-- Every step keeps the clock's milliseconds in 0 to 999 (R149). -/
def Obligations.StepKeepsMilliseconds : Prop := ∀ s t : State, s.clockOk → step s = .next t → t.clockOk

/-- Every step keeps the array canonical: addresses strictly rising, so that equal arrays are equal data. -/
def Obligations.StepKeepsArrayCanonical : Prop := ∀ s t : State, s.arrayOk → step s = .next t → t.arrayOk

/-- Every step keeps the bounds of the marker queue (8), the output queue (4), the watch FIFO (32) and the ring (16), and the sizes of
the tracker table (12) and of the capture unit (4). -/
def Obligations.StepKeepsBoundsAndSizes : Prop :=
  ∀ s t : State, s.queuesOk → s.tablesOk → step s = .next t → t.queuesOk ∧ t.tablesOk

/-- The characters of a frame of at most 1024 body bytes, taken one by one from HUNT, have the effect of the complete frame with
its kind, tag and body: the receiver's states and its running check undo the frame's layout. -/
def Obligations.CharactersMakeTheFrame : Prop :=
  ∀ (kind tag : Byte) (body : List Byte) (s : State),
    s.listens = true → s.link.rx = Receiver.hunting → body.length ≤ 1024 →
    s.receiveAll ((frameBytes kind tag body).map .data) = s.completeFrame kind tag body

/-! ## Measured quantities (chapter 1) -/

/-- SAMPLE_SET while the core runs: one sample set more in the series (a 32-bit count, log 4); outputs go behind those not yet taken, and
nothing outside the measurement unit changes. On each phase (R10) a crossing is a sample above zero behind one at or below zero with the
arming mark set: it clears the mark and enters the tally with its instant on the straight line between the two, in sample intervals from
the period's first sample. Else the mark is set by a sample at or below minus 10 % of Udecl's peak, and kept. Tallies are shown where the
sample does not end a period. While the core does not run nothing changes (log 10, the model's choice). -/
def Obligations.SampleSetEntersSeries : Prop :=
  ∀ (l1 l2 l3 ne : SampleCode) (s : State),
    let x : SampleSet := ⟨l1, l2, l3, ne⟩
    (s.coreRunning = true →
      ∃ m, exec (.sampleSet l1 l2 l3 ne) s = .next { s with meas := m }
        ∧ m.samples = count32 s.meas.samples ∧ m.lastSample = some x
        ∧ (m.freq, m.udecl, m.threePhases) = (s.meas.freq, s.meas.udecl, s.meas.threePhases)
        ∧ (∃ new, m.outbox = s.meas.outbox ++ new)
        ∧ ∀ p : Phase,
          let now := (x.phase p).toInt
          let arming : Prop := now < 0
            ∧ 2 * (s.meas.udecl * s.meas.udecl) * (32767 * 32767) ≤ now.natAbs * now.natAbs * (600000 * 600000)
          let crossed (e : SampleSet) : Prop := s.meas.lastSample = some e ∧ s.meas.armed.get p = true
            ∧ (e.phase p).toInt ≤ 0 ∧ 0 < now
          let within : Prop := s.meas.windowSamples + 1 < s.meas.freq.samplesPerWindow ∨ s.meas.periodWindows + 1 < 50
          let position := s.meas.periodWindows * s.meas.freq.samplesPerWindow + s.meas.windowSamples
          (∀ e, crossed e → m.armed.get p = false
            ∧ (within → ∃ i : Instant,
                m.tallies.get p = ⟨(s.meas.tallies.get p).count + 1, some ((s.meas.tallies.get p).first.getD i), some i⟩
                ∧ (i.den : Int) = now - (e.phase p).toInt
                ∧ (i.num : Int) = position * (now - (e.phase p).toInt) - (e.phase p).toInt))
          ∧ ((∀ e, ¬ crossed e) → (m.armed.get p = true ↔ s.meas.armed.get p = true ∨ arming)
            ∧ (within → m.tallies.get p = s.meas.tallies.get p)))
    ∧ (s.coreRunning = false → exec (.sampleSet l1 l2 l3 ne) s = .next s)

/-- With the 64th sample set since the last block the 64 sets go out as a block, with the stamp of the last. The first block of a series
goes alone, with number 1: no half-cycle value set goes out and none is counted; behind every later one goes the half-cycle value set of
both blocks' 128 sets, numbered one below its block, in the window and at the position in it that its last sample has (R2, R3, R4, R8, R13).
The numbers are 32-bit counts (log 4). -/
def Obligations.SixtyFourthSampleHandsOver : Prop :=
  ∀ (l1 l2 l3 ne : SampleCode) (s : State), s.coreRunning = true → s.meas.current.length = 63 →
    let block := s.meas.current ++ [⟨l1, l2, l3, ne⟩]
    ∃ m b rest, exec (.sampleSet l1 l2 l3 ne) s = .next { s with meas := m }
      ∧ m.outbox = s.meas.outbox ++ .block b :: rest
      ∧ b.stamp = s.now ∧ b.freq = s.meas.freq ∧ b.samples = block
      ∧ m.current = [] ∧ m.previous = some block
      ∧ (s.meas.previous = none → b.number = 1 ∧ m.halfCycles = s.meas.halfCycles ∧ ∀ v, .halfCycle v ∉ rest)
      ∧ ∀ before, s.meas.previous = some before →
          let all := before ++ block
          b.number = count32 s.meas.halfCycles + 1 ∧ m.halfCycles = count32 s.meas.halfCycles
          ∧ ∃ v more, rest = .halfCycle v :: more ∧ v.number = count32 s.meas.halfCycles ∧ v.window = count32 s.meas.windows
            ∧ v.position = s.meas.windowHalfCycles + 1
            ∧ v.stamp = s.now ∧ v.fitted = fittedSet s.meas.threePhases ∧ v.freq = s.meas.freq
            ∧ v.values = perChannel (fun ch => rmsOf (squares ch all) 128)
            ∧ v.clipped = perChannel fun ch => all.any fun x => isClipped (ch x)

/-- At the last sample set of a window, 1280 or 1536 sets, the window value set goes out last and is held as the latest: RMS over the window
and CLIPPED for all four channels, and the count of half-cycle value sets whose last sample lies in it, one formed at this very sample
among them. The next window's sums start at 0 (R6, R8, R13, R14). With the 50th window of a period the frequency value goes out just before
it, by the tallies that this sample too has entered; it is held as the latest, and the next period's tallies start empty while the arming
marks carry over (R11, R12). Window and period numbers are 32-bit counts (log 4). -/
def Obligations.WindowEndHandsOver : Prop :=
  ∀ (l1 l2 l3 ne : SampleCode) (s : State), s.coreRunning = true → s.meas.windowSamples + 1 = s.meas.freq.samplesPerWindow →
    let x : SampleSet := ⟨l1, l2, l3, ne⟩
    let crossed := s.meas.detect s.meas.periodSample x
    ∃ m w, exec (.sampleSet l1 l2 l3 ne) s = .next { s with meas := m }
      ∧ lastOf m.outbox = some (.window w) ∧ m.latestWindow = some w ∧ w.stamp = s.now
      ∧ w.window = count32 s.meas.windows ∧ m.windows = count32 s.meas.windows
      ∧ w.fitted = fittedSet s.meas.threePhases
      ∧ w.halfCycles = s.meas.windowHalfCycles + (if 63 ≤ s.meas.current.length ∧ s.meas.previous.isSome = true then 1 else 0)
      ∧ w.values = Quad.zip (fun q c => rmsOf (q + squareOf c) s.meas.freq.samplesPerWindow) s.meas.windowSquares x
      ∧ w.clipped = Quad.zip (fun mark c => mark || isClipped c) s.meas.windowClipped x
      ∧ m.windowSamples = 0 ∧ m.windowSquares = Quad.all 0 ∧ m.windowClipped = Quad.all false ∧ m.windowHalfCycles = 0
      ∧ m.armed = crossed.armed
      ∧ (s.meas.periodWindows + 1 < 50 → m.latestFrequency = s.meas.latestFrequency ∧ m.tallies = crossed.tallies
          ∧ m.periods = s.meas.periods ∧ m.periodWindows = s.meas.periodWindows + 1)
      ∧ (49 ≤ s.meas.periodWindows → ∃ f before, m.outbox = before ++ [.frequency f, .window w] ∧ m.latestFrequency = some f
          ∧ f.period = count32 s.meas.periods ∧ m.periods = count32 s.meas.periods ∧ f.stamp = s.now
          ∧ m.periodWindows = 0 ∧ m.tallies = Tri.all Tally.empty
          ∧ FrequencyByRule s.meas.udecl s.meas.freq.sampleRate w crossed.tallies f)

/-- RMS is rounded to the nearest 0.01 V: with code 32767 at 600 V, twice the result less one does not exceed twice the exact
root, and twice the result plus one exceeds it (R3). -/
def Obligations.RmsIsNearest : Prop :=
  ∀ q n : Nat, 0 < n → q ≤ n * (32768 * 32768) →
    (2 * rmsOf q n - 1) * (2 * rmsOf q n - 1) * (n * (32767 * 32767)) ≤ 4 * (q * (60000 * 60000))
    ∧ 4 * (q * (60000 * 60000)) < (2 * rmsOf q n + 1) * (2 * rmsOf q n + 1) * (n * (32767 * 32767))

/-! ## Disturbance tracking (chapter 2) -/

/-- The threshold comparisons are exact in integers, and no value both crosses and has recovered (R26). So are those of a detector: a
STEADY one departs on a value more than the step limit from its buffer's mean, keeps that mean as sum and count, and holds the value alone,
else its buffer slides; in WARMUP and EXCURSION the buffer slides over one second of values, and a full one whose values all lie within
the steady limit, half the step limit, of its mean makes it STEADY, ending an excursion at its first value with the run's mean less the
pre-event mean as steady deviation; a SUPPRESSED one does not step (R31, R32, R33). -/
def Obligations.ThresholdsCompareExactly : Prop :=
  (∀ (g : GenValues) (v : Nat),
    (crosses g .dip v = true ↔ v * 10000 < g.dip * g.udecl)
    ∧ (crosses g .swell v = true ↔ g.swell * g.udecl < v * 10000)
    ∧ (crosses g .interruption v = true ↔ v * 10000 < g.interruption * g.udecl)
    ∧ (recovers g .dip v = true ↔ (g.dip + g.hysteresis) * g.udecl ≤ v * 10000)
    ∧ (recovers g .swell v = true ↔ v * 10000 ≤ (g.swell - g.hysteresis) * g.udecl)
    ∧ (recovers g .interruption v = true ↔ (g.interruption + g.hysteresis) * g.udecl ≤ v * 10000)
    ∧ ∀ k, ¬(crosses g k v = true ∧ recovers g k v = true))
  ∧ ∀ (g : GenValues) (f : Freq) (x : Sampled) (d : Detector),
    let size := f.halfCyclesPerSecond
    let slid := (d.buffer ++ [x]).drop (d.buffer.length + 1 - size)
    let sum (b : List Sampled) := sumOf (b.map (·.value))
    let steady : Prop := slid.length = size ∧ ∀ y ∈ slid, apart (size * y.value) (sum slid) * 20000 ≤ g.rvc * g.udecl * size
    let departs : Prop := g.rvc * g.udecl * d.buffer.length < apart (d.buffer.length * x.value) (sum d.buffer) * 10000
    (d.state = .suppressed → d.step g f x = (d, .nothing))
    ∧ (d.state = .warmup →
      (steady → d.step g f x = ({ d with state := .steady, buffer := slid }, .nothing))
      ∧ (¬ steady → d.step g f x = ({ d with buffer := slid }, .nothing)))
    ∧ (d.state = .steady →
      (departs → d.step g f x = (⟨.excursion, [x], sum d.buffer, d.buffer.length⟩, .departs))
      ∧ (¬ departs → d.step g f x = ({ d with buffer := slid }, .nothing)))
    ∧ (d.state = .excursion →
      (steady → ∃ first e, slid.head? = some first
        ∧ d.step g f x = ({ d with state := .steady, buffer := slid }, .ends first.stamp e)
        ∧ e.num = apart (sum slid * d.preCount) (d.preSum * size) ∧ e.den = size * d.preCount
        ∧ (d.preSum * size < sum slid * d.preCount → e.up = true) ∧ (sum slid * d.preCount < d.preSum * size → e.up = false))
      ∧ (¬ steady → d.step g f x = ({ d with buffer := slid }, .nothing)))

/-- HALF_CYCLE_VALUE_SET: claims, relinks and hand-backs in flight are settled first (log 9, the model's choice), which may change capture
slots; then the value set due goes through the tracker's stages, `State.track`, of which other statements speak, and the store writer goes
on. The tracker keeps the set's stamp and holds the window flag mark for its window: set when it was held for that window and set already,
or when a DIP, SWELL or INTERRUPTION is OPEN or a missed mark of such a kind is in force then (R20, R35). Beside table, slots, requests in
flight and latched causes nothing changes. -/
def Obligations.HalfCycleReachesTracker : Prop :=
  ∀ (v : HalfCycleSet) (rest : List Output) (s : State), s.coreRunning = true → dueHalfCycle s.meas.outbox = some (v, rest) →
    let s' : State := { s with meas := { s.meas with outbox := rest } }
    let settled := s'.settleRequests
    let u := settled.track v
    Completes .halfCycleValueSet s u ∧ TrackFrame s' u
      ∧ (settled.reports.claims, settled.reports.relinks, settled.reports.handBacks) = ([], [], [])
      ∧ settled.tracker.detectors = s.tracker.detectors ∧ settled.tracker.marks = s.tracker.marks
      ∧ (∀ i, (settled.tracker.entry i).isSome = (s.tracker.entry i).isSome)
      ∧ u.tracker.lastStamp = some v.stamp
      ∧ ∃ set, u.tracker.windowFlag = some ⟨v.window, set⟩
        ∧ (set = true ↔ s.tracker.windowFlag = some ⟨v.window, true⟩
          ∨ (∃ i x, u.tracker.entry i = some x ∧ x.state = .opened ∧ x.kind ≠ .rvc) ∨ ∃ m ∈ u.tracker.marks, m.kind ≠ .rvc)

/-- Openings in POLYPHASE mode with an empty table and no missed mark, when no fitted phase is above the swell threshold. Fitted phases
below the dip threshold, one of the fitted not below the interruption threshold, open a DIP entry in entry 0 for exactly these phases, from
the set's stamp, with the set taken in, and claim a slot (R21, R26, R27). With no fitted phase below either, the fitted phases whose STEADY
detector departs open an RVC entry there, which claims when RVC_CAPTURE is on, holds each phase's deviation, and whose detectors go to
EXCURSION with the buffer's mean as pre-event mean (R32). Both latch DISTURBANCE. Stage 2 (R34): an OPEN RVC entry one of whose phases in
EXCURSION comes to the dip or swell threshold is discarded, and its other phases in EXCURSION go to WARMUP; every phase that comes there
goes SUPPRESSED, where a phase joining an entry comes there by the entry's own threshold, beside R20's active ones (logs 17 and 18, the
model's choice); all else of the table and the detectors stays. A DIP or SWELL that then opens for such a phase takes the discarded
entry's slot by a relink and claims none, and carries PRECEDED_BY_RVC. Openings of SWELL and INTERRUPTION entries, with the enclosing dip, and of
every kind in PER_PHASE mode, and what sets a missed mark in either mode: `OpeningsByMode` (R27, R28, R30, R32, R36, R37), L1 being always
fitted. What stage 6 does for a departing phase with any table, missed RVC marks among it, in either mode: `PhaseDeparts` (R32, R36). -/
def Obligations.DipOpensOnCrossing : Prop :=
  (∀ (v : HalfCycleSet) (s : State),
    let set := s.tracker.inForce.set
    s.tracker.entries = List.replicate 12 none → s.tracker.marks = [] → set.mode = .polyphase →
    (∃ p, v.fitted.has p = true ∧ v.values.phase p * 10000 < set.dip * set.udecl) →
    (∀ p, v.fitted.has p = true → ¬ set.swell * set.udecl < v.values.phase p * 10000) →
    (∃ p, v.fitted.has p = true ∧ ¬ v.values.phase p * 10000 < set.interruption * set.udecl) →
    ∃ x, (s.track v).tracker.entry 0 = some x ∧ x.kind = .dip ∧ x.state = .opened ∧ x.start = v.stamp ∧ x.halfCycles = 1
      ∧ (∀ p, x.phases.has p = true ↔ v.fitted.has p = true ∧ v.values.phase p * 10000 < set.dip * set.udecl)
      ∧ x.generation = s.tracker.inForce.generation
      ∧ ⟨0, v.number, v.stamp⟩ ∈ (s.track v).reports.claims
      ∧ (s.track v).link.causes &&& Cause.disturbance.bit = Cause.disturbance.bit)
  ∧ (∀ (v : HalfCycleSet) (s : State),
    let set := s.tracker.inForce.set
    s.tracker.entries = List.replicate 12 none → s.tracker.marks = [] → set.mode = .polyphase →
    (∀ p, v.fitted.has p = true → ¬ v.values.phase p * 10000 < set.dip * set.udecl
      ∧ ¬ set.swell * set.udecl < v.values.phase p * 10000 ∧ ¬ v.values.phase p * 10000 < set.interruption * set.udecl) →
    let count (p : Phase) := (s.tracker.detectors.get p).buffer.length
    let sum (p : Phase) := sumOf ((s.tracker.detectors.get p).buffer.map (·.value))
    let far (p : Phase) := apart (count p * v.values.phase p) (sum p)
    let departs (p : Phase) : Prop := v.fitted.has p = true ∧ (s.tracker.detectors.get p).state = .steady
      ∧ set.rvc * set.udecl * count p < far p * 10000
    (∃ p, departs p) →
    ∃ x, (s.track v).tracker.entry 0 = some x ∧ x.kind = .rvc ∧ x.state = .opened ∧ x.start = v.stamp ∧ x.halfCycles = 1
      ∧ (∀ p, x.phases.has p = true ↔ departs p) ∧ x.generation = s.tracker.inForce.generation
      ∧ (∀ p, departs p →
          (s.track v).tracker.detectors.get p = ⟨.excursion, [⟨v.values.phase p, v.stamp⟩], sum p, count p⟩
          ∧ ∃ e, x.perPhase.get p = some e ∧ e.num = far p ∧ e.den = count p)
      ∧ (set.rvcCapture = true → ⟨0, v.number, v.stamp⟩ ∈ (s.track v).reports.claims)
      ∧ (set.rvcCapture = false → (s.track v).reports.claims = s.reports.claims)
      ∧ (s.track v).link.causes &&& Cause.disturbance.bit = Cause.disturbance.bit)
  ∧ (∀ (v : HalfCycleSet) (t : Tracker),
    let out (p : Phase) : Prop := (t.detectors.get p).state = .excursion
    let gone (x : Entry) : Prop := x.state = .opened ∧ x.kind = .rvc ∧ ∃ p, t.brings v p ∧ out p ∧ x.phases.has p = true
    let u := (t.stage2 v).1
    let left := (t.stage2 v).2
    let emptied (state : DetectorState) (p : Phase) : Detector := { t.detectors.get p with state := state, buffer := [] }
    (∀ i x, t.entry i = some x → (gone x → u.entry i = none) ∧ (¬ gone x → u.entry i = some x))
    ∧ (∀ p, (t.brings v p → u.detectors.get p = emptied .suppressed p)
      ∧ (¬ t.brings v p → out p → (∃ i x, t.entry i = some x ∧ gone x ∧ x.phases.has p = true) →
          u.detectors.get p = emptied .warmup p)
      ∧ (¬ t.brings v p → (¬ out p ∨ ∀ i x, t.entry i = some x → gone x → x.phases.has p = false) →
          u.detectors.get p = t.detectors.get p))
    ∧ (∀ p, left.phases.has p = true ↔ t.brings v p ∧ out p)
    ∧ ∀ i x l, t.entry i = some x → gone x → x.slot = some l →
        ∃ q : PhaseSet, (q, l.slot) ∈ left.slots ∧ ∀ p, q.has p = true ↔ t.brings v p ∧ out p ∧ x.phases.has p = true)
  ∧ (∀ (v : HalfCycleSet) (k : Kind) (mark : Option Phase) (phases : PhaseSet) (s : State) (left : Superseded) (i : Nat),
    s.tracker.marked k mark = false → freeSlot s.tracker.entries = some i →
    let r := State.openDisturbance v k mark phases (s, left)
    (∃ x, r.1.tracker.entry i = some x ∧ (x.kind, x.phases, x.start, x.state) = (k, phases, v.stamp, .opened)
      ∧ x.flags.precededByRvc = phases.meets left.phases)
    ∧ (∀ before q slot after, left.slots = before ++ (q, slot) :: after → (∀ e ∈ before, e.1.meets phases = false) →
        q.meets phases = true →
        r.1.reports = { s.reports with relinks := s.reports.relinks ++ [(slot, i)] } ∧ r.2.slots = before ++ after)
    ∧ ((∀ e ∈ left.slots, e.1.meets phases = false) →
        r.1.reports = { s.reports with claims := s.reports.claims ++ [⟨i, v.number, v.stamp⟩] } ∧ r.2.slots = left.slots))
  ∧ (∀ (v : HalfCycleSet) (s : State), v.fitted.has .l1 = true → OpeningsByMode v s)
  ∧ ∀ (v : HalfCycleSet) (p : Phase) (ended : List (Phase × TimeStamp)) (s : State), s.tracker.departsAt v p →
    (State.stepDetector v p (s, ended)).2 = ended ∧ PhaseDeparts v p s (State.stepDetector v p (s, ended)).1

/-- An entry that ends has its end stamp and duration, and goes to TAIL while its slot is FILLING, else to COMMIT_WAIT at the back of the
commit queue; the other entries stay (R23, R24). Through a whole value set an OPEN DIP, SWELL or INTERRUPTION entry that meets its end
condition ends at the set's stamp, its count and phases as they stood, TIME_STEPPED when the set's epoch is not that of its start (R40); one
that does not stays OPEN, is joined by the phases, fitted in the set and in its own generation (log 17, the model's reading of R42), that
cross the threshold of that generation, which only a DIP or SWELL in POLYPHASE mode is (R27, R28, R30), and takes the set in: count,
per-phase extremes, extreme with its phase, CLIPPED, TIME_STEPPED (R22, R40). The duration is by count, or by clock across a supply loss or
measurement gap (R23). Stage 1 clears exactly the missed marks whose condition holds (R36). An OPEN RVC entry one of whose excursions ends,
none of its phases being in EXCURSION then, ends at the first value of the run: its count excludes the run, its steady deviation is its
extreme phase's; else it stays (R33): that an RVC entry none of whose phases is in EXCURSION stays OPEN while no excursion of its phases
ends is log 17, the model's reading. -/
def Obligations.EndedEntryWaits : Prop :=
  (∀ (base : Option Nat) (finish : TimeStamp) (i : Nat) (x : Entry) (t : Tracker), t.entry i = some x →
    (∀ j, j ≠ i → (t.endEntry base finish i).entry j = t.entry j)
    ∧ ∃ y, (t.endEntry base finish i).entry i = some y ∧ y.finish = some finish ∧ y.duration = some (x.durationTo finish)
      ∧ (x.slot.map (·.full) = some false →
          y.state = .tail ∧ (t.endEntry base finish i).tailOrder = t.tailOrder ++ [i]
          ∧ (t.endEntry base finish i).commitQueue = t.commitQueue)
      ∧ (x.slot.map (·.full) ≠ some false →
          y.state = .commitWait ∧ (t.endEntry base finish i).commitQueue = t.commitQueue ++ [i]))
  ∧ (∀ (v : HalfCycleSet) (i : Nat) (x : Entry) (s : State), s.tracker.entry i = some x → x.state = .opened → x.kind ≠ .rvc →
    ∃ y, (s.track v).tracker.entry i = some y ∧ (y.kind, y.start, y.slot) = (x.kind, x.start, x.slot)
      ∧ (x.endsAt v → y.state = x.leavesTo ∧ y.finish = some v.stamp ∧ y.duration = some (x.durationTo v.stamp)
          ∧ y.halfCycles = x.halfCycles ∧ y.phases = x.phases
          ∧ (y.flags.timeStepped = true ↔
            x.flags.timeStepped = true ∨ resolveEpoch s.time.base v.stamp.epoch ≠ resolveEpoch s.time.base x.start.epoch))
      ∧ (¬ x.endsAt v → (∃ z, Entry.TookIn s.time.base v z y
          ∧ z = { x with phases := z.phases, flags := { x.flags with precededByRvc := z.flags.precededByRvc } })
        ∧ y.state = .opened ∧ y.finish = x.finish ∧ y.halfCycles = count32 x.halfCycles
          ∧ ∀ p, y.phases.has p = true ↔ x.phases.has p = true
            ∨ (x.kind ≠ .interruption ∧ x.values.mode = .polyphase ∧ v.fitted.has p = true
              ∧ (fittedSet x.values.threePhases).has p = true ∧ crosses x.values x.kind (v.values.phase p) = true)))
  ∧ (∀ (finish : TimeStamp) (x : Entry), ∃ counted, DurationByRule finish x counted)
  ∧ (∀ (base : Option Nat) (v : HalfCycleSet) (m : MissedMark) (t : Tracker),
    let back (p : Phase) : Prop := recovers t.inForce.set.genValues m.kind (v.values.phase p) = true
    let clears : Prop :=
      (m.kind = .rvc ∧ ∀ p, m.covers.has p = true → (t.detectors.get p).state ≠ .excursion)
      ∨ (m.kind ≠ .rvc ∧ ∃ p, m.phase = some p ∧ back p)
      ∨ (m.kind = .interruption ∧ m.phase = none ∧ ∃ p, v.fitted.has p = true ∧ back p)
      ∨ ((m.kind = .dip ∨ m.kind = .swell) ∧ m.phase = none ∧ ∀ p, v.fitted.has p = true → back p)
    m ∈ (t.stage1 base v).marks ↔ m ∈ t.marks ∧ ¬ clears)
  ∧ ∀ (base : Option Nat) (f : Freq) (ended : List (Phase × TimeStamp)) (first : TimeStamp) (i : Nat) (x : Entry) (t : Tracker),
    t.entry i = some x → x.state = .opened → x.kind = .rvc →
    let u := t.endRvc base f ended (t.openedOf .rvc)
    let count := x.halfCycles - f.halfCyclesPerSecond
    let out (p : Phase) : Prop := (t.detectors.get p).state = .excursion
    ((∃ e ∈ ended, x.phases.has e.1 = true) → (∀ e ∈ ended, x.phases.has e.1 = true → e.2 = first) →
      (∀ p, x.phases.has p = true → ¬ out p) →
      ∃ y, u.entry i = some y ∧ y.state = x.leavesTo ∧ y.finish = some first ∧ y.halfCycles = count
        ∧ y.duration = some ({ x with halfCycles := count }.durationTo first)
        ∧ y.steady = x.extremePhase.bind fun p => x.steadyOf.get p)
    ∧ ((∀ e ∈ ended, x.phases.has e.1 = false) ∨ (∃ p, x.phases.has p = true ∧ out p) → u.entry i = some x)

/-- SLOT_FULL and SLOT_DROPPED reach the tracker: applied when the entry at the index is linked to the slot, disregarded otherwise.
FULL sets the condition; dropped takes the link away and sets NO_CAPTURE reason SUPPLY, unless a reason stands (R55). Either sends
a TAIL entry to COMMIT_WAIT at the back of the commit queue and leaves an OPEN or COMMIT_WAIT entry in its state (R25). -/
def Obligations.SlotReportsReachEntry : Prop :=
  ∀ (i k : Nat) (rest : List (Nat × Nat)) (x : Entry) (s : State), s.coreRunning = true → s.tracker.entry i = some x →
    let state := if x.state = .tail then EntryState.commitWait else x.state
    let queue := if x.state = .tail then s.tracker.commitQueue ++ [i] else s.tracker.commitQueue
    (s.reports.full = (i, k) :: rest →
      (x.slot.map (·.slot) = some k →
        ∃ u, Completes .slotFull s u ∧ SameElsewhere s u ∧ u.reports = { s.reports with full := rest } ∧ u.capture = s.capture
          ∧ u.tracker.entry i = some { x with slot := some ⟨k, true⟩, state := state } ∧ u.tracker.commitQueue = queue
          ∧ ∀ j, j ≠ i → u.tracker.entry j = s.tracker.entry j)
      ∧ (x.slot.map (·.slot) ≠ some k → Completes .slotFull s { s with reports := { s.reports with full := rest } }))
    ∧ (s.reports.dropped = (i, k) :: rest →
      (x.slot.map (·.slot) = some k →
        ∃ u, Completes .slotDropped s u ∧ SameElsewhere s u ∧ u.reports = { s.reports with dropped := rest } ∧ u.capture = s.capture
          ∧ u.tracker.entry i = some
              { x with
                slot := none, state := state
                flags := { x.flags with noCapture := some (x.flags.noCapture.getD .supply) } }
          ∧ u.tracker.commitQueue = queue
          ∧ ∀ j, j ≠ i → u.tracker.entry j = s.tracker.entry j)
      ∧ (x.slot.map (·.slot) ≠ some k → Completes .slotDropped s { s with reports := { s.reports with dropped := rest } }))

/-! ## Waveform capture (chapter 3) -/

/-- SAMPLE_BLOCK: the block due joins the ring, which keeps the newest 16; every FILLING slot whose capture includes it appends it
and becomes FULL with the last of its capture, which is reported for its entry (R46, R50). Claims due before it are served first
(log 9). -/
def Obligations.SampleBlockEntersRing : Prop :=
  ∀ (b : SampleBlock) (rest : List Output) (s : State), s.coreRunning = true → dueBlock s.meas.outbox = some (b, rest) →
    ∃ t, exec .sampleBlock s = .next t
      ∧ t.capture.ring = (s.capture.ring ++ [b]).drop (s.capture.ring.length + 1 - 16)
      ∧ t.meas = { s.meas with outbox := rest }
      ∧ SameElsewhere { s with meas := { s.meas with outbox := rest } } t
      ∧ ∀ i c, slotAt s.capture.slots i = some c →
          (c.state = .filling → c.includes b.number = true →
            slotAt t.capture.slots i = some
              { c with held := c.held ++ [b], state := if b.number = c.triggerBlock + 2 * c.postCycles then .full else .filling }
            ∧ (b.number = c.triggerBlock + 2 * c.postCycles → (c.entry, i) ∈ t.reports.full))
          ∧ (c.state ≠ .filling ∨ c.includes b.number = false → slotAt t.capture.slots i = some c)

/-- SLOT_CLAIM for an entry that stands as it claimed: in HOLDUP it is refused with SUPPLY; otherwise the lowest-numbered FREE slot
becomes FILLING for it, with the lengths in force, the trigger block one above the value set's number and the blocks of its capture
that the ring holds, and the entry is linked; with no FREE slot it is refused with SLOT (R48, R49). -/
def Obligations.ClaimTakesLowestFreeSlot : Prop :=
  ∀ (c : Claim) (rest : List Claim) (x : Entry) (s : State), s.coreRunning = true → s.reports.claims = c :: rest →
    s.tracker.entry c.entry = some x → x.state = .opened → x.start = c.stamp → x.slot = none → x.flags.noCapture = none →
    ∃ t, exec .slotClaim s = .next t ∧ SameElsewhere s t ∧ t.reports = { s.reports with claims := rest }
      ∧ t.capture.ring = s.capture.ring ∧ (∀ j, j ≠ c.entry → t.tracker.entry j = s.tracker.entry j)
      ∧ (s.inHoldup = true → t.capture = s.capture
          ∧ t.tracker.entry c.entry = some { x with flags := { x.flags with noCapture := some .supply } })
      ∧ (s.inHoldup = false → freeSlot s.capture.slots = none → t.capture = s.capture
          ∧ t.tracker.entry c.entry = some { x with flags := { x.flags with noCapture := some .slot } })
      ∧ ∀ i, s.inHoldup = false → freeSlot s.capture.slots = some i →
          t.tracker.entry c.entry = some { x with slot := some ⟨i, false⟩ }
          ∧ (∀ j, j ≠ i → slotAt t.capture.slots j = slotAt s.capture.slots j)
          ∧ ∃ g, slotAt t.capture.slots i = some g ∧ g.state = .filling ∧ g.entry = c.entry
              ∧ g.preCycles = s.capture.preCycles ∧ g.postCycles = s.capture.postCycles ∧ g.triggerBlock = c.halfCycle + 1
              ∧ g.triggerStamp = c.stamp ∧ ∀ b, b ∈ g.held ↔ b ∈ s.capture.ring
                  ∧ c.halfCycle + 2 ≤ b.number + 2 * s.capture.preCycles
                  ∧ b.number ≤ c.halfCycle + 1 + 2 * s.capture.postCycles

/-- RELINK and HAND_BACK of a slot whose own entry has given it up: it is discarded, or linked elsewhere (log 19). A relink changes the
slot's linked entry and nothing else of the slot, and the entry takes the slot with its condition (R51). A hand-back frees a FILLING or
FULL slot at once and sends no report (R52). -/
def Obligations.RelinkAndHandBack : Prop :=
  (∀ (k e : Nat) (rest : List (Nat × Nat)) (c : CaptureSlot) (x : Entry) (s : State), s.coreRunning = true →
    s.reports.relinks = (k, e) :: rest → slotAt s.capture.slots k = some c →
    (∀ y, s.tracker.entry c.entry = some y → y.slot.map (·.slot) ≠ some k) →
    s.tracker.entry e = some x →
    ∃ t, exec .relink s = .next t ∧ SameElsewhere s t ∧ t.reports = { s.reports with relinks := rest }
      ∧ t.capture.ring = s.capture.ring
      ∧ slotAt t.capture.slots k = some { c with entry := e }
      ∧ (∀ j, j ≠ k → slotAt t.capture.slots j = slotAt s.capture.slots j)
      ∧ t.tracker.entry e = some { x with slot := some ⟨k, c.state != .filling⟩ }
      ∧ ∀ j, j ≠ e → t.tracker.entry j = s.tracker.entry j)
  ∧ ∀ (k : Nat) (rest : List Nat) (c : CaptureSlot) (s : State), s.coreRunning = true → s.reports.handBacks = k :: rest →
    slotAt s.capture.slots k = some c → c.state ≠ .writing →
    (∀ y, s.tracker.entry c.entry = some y → y.slot.map (·.slot) ≠ some k) →
    ∃ t, exec .handBack s = .next t ∧ SameElsewhere s t ∧ t.reports = { s.reports with handBacks := rest }
      ∧ t.tracker = s.tracker ∧ t.capture.ring = s.capture.ring ∧ slotAt t.capture.slots k = none
      ∧ ∀ j, j ≠ k → slotAt t.capture.slots j = slotAt s.capture.slots j

/-- SERIES_RESTART completes at each of its receivers. At the tracker and the capture unit the requests in flight are settled first (log 9,
the model's choice). The tracker ends every OPEN entry with CLOSED_BY_SETTINGS at the last value set taken in, into TAIL or, in index order,
COMMIT_WAIT, keeps the others, and clears its missed marks, its detectors and the window flag mark (R39). The capture unit empties the
ring; every slot that was FILLING becomes FULL with the blocks it holds and is reported to the tracker, in slot order, and FULL, WRITING
and FREE slots stay (R56). The aggregator goes on as it stands (R70). -/
def Obligations.SeriesRestartClosesAndEmpties : Prop :=
  ∀ (rest : List Output) (s : State), s.coreRunning = true →
    let s' : State := { s with meas := { s.meas with outbox := rest } }
    let settled := s'.settleRequests
    (dueRestart .tracker s.meas.outbox = some rest →
      ∃ u, Completes (.seriesRestart .tracker) s u ∧ TrackFrame s' u ∧ u.tracker.opened = [] ∧ u.tracker.marks = []
        ∧ u.tracker.detectors = Tri.all Detector.warm ∧ u.tracker.windowFlag = none ∧ u.tracker.missed = s.tracker.missed
        ∧ (∀ i, settled.tracker.entry i = none → u.tracker.entry i = none)
        ∧ (∀ i x, settled.tracker.entry i = some x →
            (x.state ≠ .opened → u.tracker.entry i = some x)
            ∧ (x.state = .opened →
                let finish := s.tracker.lastStamp.getD x.start
                ∃ y, u.tracker.entry i = some y ∧ y.flags.closedBySettings = true ∧ y.state = x.leavesTo
                  ∧ y.finish = some finish ∧ y.duration = some (x.durationTo finish)
                  ∧ (y.kind, y.phases, y.start, y.halfCycles, y.slot) = (x.kind, x.phases, x.start, x.halfCycles, x.slot)))
        ∧ u.tracker.commitQueue = s.tracker.commitQueue
            ++ ((filled settled.tracker.entries).filter fun e => e.2.state == .opened && e.2.leavesTo == .commitWait).map (·.1))
    ∧ (dueRestart .capture s.meas.outbox = some rest →
      ∃ u, Completes (.seriesRestart .capture) s u ∧ u.capture.ring = []
        ∧ (∀ i, slotAt settled.capture.slots i = none → slotAt u.capture.slots i = none)
        ∧ (∀ i c, slotAt settled.capture.slots i = some c →
            slotAt u.capture.slots i = some { c with state := if c.state = .filling then .full else c.state })
        ∧ u.reports =
            { s.reports with
              claims := [], relinks := [], handBacks := []
              full := s.reports.full
                ++ ((filled settled.capture.slots).filter fun e => e.2.state == .filling).map fun e => (e.2.entry, e.1) }
        ∧ u.tracker = settled.tracker
        ∧ (u.time, u.supply, u.meas, u.agg, u.store, u.settings, u.cases, u.link)
            = (s.time, s.supply, s'.meas, s.agg, s.store, s.settings, s.cases, s.link))
    ∧ (dueRestart .aggregator s.meas.outbox = some rest → Completes (.seriesRestart .aggregator) s s')

/-! ## Interval statistics (chapter 4) -/

/-- WINDOW_VALUE_SET that does not reach the interval's boundary: the window is counted, flagged or not as the tracker answers, and
tallied for the interval's fitted phases and NE; the answer is CLEAR exactly when the window flag mark is held for this window and clear
(R35); a flagged window enters no sum, count or outside count (R62). An empty interval
first fixes its settings, with the smallest multiple of its length at or after the window as its boundary, and gets the cause
LENGTH_CHANGE when that length differs from the previous one, which it then replaces; an absent previous length causes nothing (R61). No
record is formed and no boundary is reported. -/
def Obligations.WindowJoinsInterval : Prop :=
  ∀ (w : WindowSet) (rest : List Output) (s : State), s.coreRunning = true → dueWindow s.meas.outbox = some (w, rest) →
    0 < s.agg.inForce.set.intervalLength →
    let set := s.agg.inForce.set
    let f := s.agg.acc.fixed.getD
      { first := w.stamp, last := w.stamp, boundary := boundaryAfter set.intervalLength w.stamp
        generation := s.agg.inForce.generation, fitted := fittedSet set.threePhases, length := set.intervalLength
        tolerance := set.tolerance, udecl := set.udecl }
    let flagged := s.tracker.flagged w.window
    w.stamp.toMs < f.boundary * 1000 →
    (flagged = false ↔ s.tracker.windowFlag = some ⟨w.window, false⟩)
    ∧ (s.agg.acc.fixed = none →
      set.intervalLength ∣ f.boundary ∧ f.boundary * 1000 < w.stamp.toMs + set.intervalLength * 1000)
    ∧ ∃ u, Completes .windowValueSet s u ∧ u.meas = { s.meas with outbox := rest }
      ∧ (u.time, u.supply, u.settings, u.store, u.cases, u.tracker, u.capture, u.reports)
          = (s.time, s.supply, s.settings, s.store, s.cases, s.tracker, s.capture, s.reports)
      ∧ u.agg.queue = s.agg.queue
      ∧ u.agg.acc.fixed = some { f with last := w.stamp }
      ∧ u.agg.acc.counted = s.agg.acc.counted + 1
      ∧ u.agg.acc.flagged = s.agg.acc.flagged + (if flagged then 1 else 0)
      ∧ (∀ p, f.fitted.has p = false → u.agg.acc.phases.get p = s.agg.acc.phases.get p)
      ∧ (∀ p, f.fitted.has p = true →
          let a := s.agg.acc.phases.get p
          let v := w.values.phase p
          u.agg.acc.phases.get p =
            { sum := a.sum + (if flagged then 0 else v), count := a.count + (if flagged then 0 else 1)
              lowest := minOpt a.lowest v, highest := maxOpt a.highest v
              outside := a.outside + (if !flagged && outsideBand f.udecl f.tolerance v then 1 else 0)
              clipped := a.clipped || w.clipped.phase p })
      ∧ u.agg.acc.ne =
          { sum := s.agg.acc.ne.sum + (if flagged then 0 else w.values.ne)
            count := s.agg.acc.ne.count + (if flagged then 0 else 1)
            highest := maxOpt s.agg.acc.ne.highest w.values.ne, clipped := s.agg.acc.ne.clipped || w.clipped.ne }
      ∧ u.agg.acc.frequency = s.agg.acc.frequency ∧ u.agg.acc.missed = s.agg.acc.missed
      ∧ (s.agg.acc.fixed = none → u.agg.previousLength = some set.intervalLength)
      ∧ (s.agg.acc.fixed ≠ none → u.agg.previousLength = s.agg.previousLength)
      ∧ (∀ l, s.agg.acc.fixed = none → s.agg.previousLength = some l → l ≠ set.intervalLength →
          u.agg.acc.causes = { s.agg.acc.causes with lengthChange := true })
      ∧ (s.agg.acc.fixed ≠ none ∨ s.agg.previousLength = none ∨ s.agg.previousLength = some set.intervalLength →
          u.agg.acc.causes = s.agg.acc.causes)

/-- WINDOW_VALUE_SET at or after the boundary: the window is taken, the record of the interval joins the output queue, or is discarded and
counted when 4 wait, an empty interval without causes opens, and the boundary is reported with the window's stamp (R63, R66, R67). The
record counts this window with the others: for each fitted phase and NE the mean of the unflagged windows, absent without one, to the
nearest unit, a half upward, lowest and highest of all, the unflagged ones outside the band, CLIPPED; and the mean, lowest and highest of
the valid frequency values with both counts. An empty interval whose first window lies exactly on a boundary closes with that one window,
its settings fixed by it and its cause LENGTH_CHANGE judged (R61). -/
def Obligations.WindowAtBoundaryClosesInterval : Prop :=
  ∀ (w : WindowSet) (rest : List Output) (s : State), s.coreRunning = true →
    dueWindow s.meas.outbox = some (w, rest) →
    let set := s.agg.inForce.set
    let f := s.agg.acc.fixed.getD
      { first := w.stamp, last := w.stamp, boundary := boundaryAfter set.intervalLength w.stamp
        generation := s.agg.inForce.generation, fitted := fittedSet set.threePhases, length := set.intervalLength
        tolerance := set.tolerance, udecl := set.udecl }
    let flagged := s.tracker.flagged w.window
    let once := if flagged then 0 else 1
    f.boundary * 1000 ≤ w.stamp.toMs →
    ∃ u r, Completes .windowValueSet s u ∧ u.agg.acc = Accumulator.empty {} ∧ u.agg.inForce = s.agg.inForce
      ∧ u.reports.boundaries = s.reports.boundaries ++ [w.stamp]
      ∧ r.stamp = w.stamp ∧ r.start = windowStart f.first ∧ r.boundary = some f.boundary ∧ r.generation = f.generation
      ∧ (r.length, r.tolerance, r.udecl, r.fitted) = (f.length, f.tolerance, f.udecl, f.fitted)
      ∧ r.counted = s.agg.acc.counted + 1 ∧ r.missed = s.agg.acc.missed
      ∧ r.flagged = s.agg.acc.flagged + (1 - once)
      ∧ (∀ p, f.fitted.has p = true →
          let a := s.agg.acc.phases.get p
          let v := w.values.phase p
          let out := !flagged && decide (v * 10000 < (10000 - f.tolerance) * f.udecl ∨ (10000 + f.tolerance) * f.udecl < v * 10000)
          IsMean (a.sum + once * v) (a.count + once) (r.phases.get p).mean
          ∧ (r.phases.get p).lowest = min (a.lowest.getD v) v ∧ (r.phases.get p).highest = max (a.highest.getD v) v
          ∧ (r.phases.get p).outside = a.outside + (if out then 1 else 0)
          ∧ r.clipped.phase p = (a.clipped || w.clipped.phase p))
      ∧ IsMean (s.agg.acc.ne.sum + once * w.values.ne) (s.agg.acc.ne.count + once) r.neMean
      ∧ r.neHighest = max (s.agg.acc.ne.highest.getD w.values.ne) w.values.ne
      ∧ r.clipped.ne = (s.agg.acc.ne.clipped || w.clipped.ne)
      ∧ (r.validCount, r.invalidCount) = (s.agg.acc.frequency.valid, s.agg.acc.frequency.invalid)
      ∧ IsMean s.agg.acc.frequency.sum s.agg.acc.frequency.valid (r.frequency.map (·.1))
      ∧ (∀ m, r.frequency = some m →
          m.2 = (s.agg.acc.frequency.lowest.getD 0, s.agg.acc.frequency.highest.getD 0))
      ∧ (∀ l, s.agg.acc.fixed = none → s.agg.previousLength = some l → l ≠ set.intervalLength →
          r.causes = { s.agg.acc.causes with lengthChange := true })
      ∧ (s.agg.acc.fixed ≠ none ∨ s.agg.previousLength = none ∨ s.agg.previousLength = some set.intervalLength →
          r.causes = s.agg.acc.causes)
      ∧ (s.agg.acc.fixed = none → u.agg.previousLength = some set.intervalLength)
      ∧ (s.agg.queue.length < 4 → u.agg.queue = s.agg.queue ++ [r] ∧ u.store = s.store)
      ∧ (4 ≤ s.agg.queue.length → u.agg.queue = s.agg.queue
          ∧ u.store = { s.store with
              lost := { s.store.lost with interval := count32 s.store.lost.interval }, lossPending := true }
          ∧ u.link.causes &&& Cause.loss.bit = Cause.loss.bit)
      ∧ (u.time, u.supply, u.settings, u.cases, u.tracker, u.capture) = (s.time, s.supply, s.settings, s.cases, s.tracker, s.capture)

/-- FREQUENCY_VALUE: a valid value raises the valid count and enters sum, lowest and highest; an invalid one raises the invalid count.
Nothing else changes, whether the interval is empty or not (R64). -/
def Obligations.FrequencyIsTallied : Prop :=
  ∀ (f : FrequencyValue) (rest : List Output) (s : State), s.coreRunning = true → dueFrequency s.meas.outbox = some (f, rest) →
    let a := s.agg.acc.frequency
    let tally : FrequencyTally := match f.frequency with
      | some v => ⟨a.valid + 1, a.sum + v, minOpt a.lowest v, maxOpt a.highest v, a.invalid⟩
      | none => ⟨a.valid, a.sum, a.lowest, a.highest, a.invalid + 1⟩
    exec .frequencyValue s = .next
      { s with meas := { s.meas with outbox := rest }, agg := { s.agg with acc := { s.agg.acc with frequency := tally } } }

/-- A missed report to the aggregator (R65). Every increase of a missed counter puts a report with its kind in flight; the report
raises the open interval's count of that kind by one, empty or not, and changes nothing else. Taken before a window that closes the
interval it is in that interval's record; taken after, it is in the next interval. -/
def Obligations.MissIsCountedIntoOpenInterval : Prop :=
  (∀ (k : Kind) (p : Option Phase) (q : PhaseSet) (s : State),
    (s.miss k p q).reports.missedToAggregator = s.reports.missedToAggregator ++ [k]
    ∧ (s.miss k p q).tracker.missed = s.tracker.missed.add k)
  ∧ (∀ (k : Kind) (rest : List Kind) (s : State), s.coreRunning = true → s.reports.missedToAggregator = k :: rest →
    exec (.missedCounterReport .aggregator) s = .next
      { s with
        reports := { s.reports with missedToAggregator := rest }
        agg := { s.agg with acc := { s.agg.acc with missed := s.agg.acc.missed.add k } } })
  ∧ ∀ (k : Kind) (w : WindowSet) (f : IntervalFixed) (s : State), s.agg.acc.fixed = some f → f.boundary * 1000 ≤ w.stamp.toMs →
    s.agg.queue.length < 4 →
    (∃ r, ((s.takeMiss k).takeWindow w).agg.queue = s.agg.queue ++ [r] ∧ r.missed = s.agg.acc.missed.add k
      ∧ ((s.takeMiss k).takeWindow w).agg.acc.missed = PerKind.zero)
    ∧ ∃ r, ((s.takeWindow w).takeMiss k).agg.queue = s.agg.queue ++ [r] ∧ r.missed = s.agg.acc.missed
      ∧ ((s.takeWindow w).takeMiss k).agg.acc.missed = PerKind.zero.add k

/-! ## The evidence log (chapters 5 and 6) -/

/-- PAGE_PROGRAM_DONE: the page in progress stands in the array as programmed and no other page changes. A header's block becomes ACTIVE
with its block sequence, page 1 next (R86). The RECORDS page of a job of records ends the job, and its records go to the case unit in
order (R79, R81); behind a RECORDS page the block's entry takes in its records, a DISTURBANCE above the export mark as unexported bound
(R84, R85), and the next page follows, page 127 making the block FULL and an activation due (R79). A CAPTURE page is one more page written,
of the record and of its slot, found where R78 looks for its segment, and its job comes to the page boundary, where a reclaim step at
MUST or, behind 8 capture pages, a host read goes first (R107); the job goes on with the blocks behind it: the next capture page, and
behind the last the release of the slot and the record page (R54). An image's page is the next of the settings area and carries
the highest counter; an image of the kind not being written gives way to the job's own, which ends the work; the next page of an image
takes one above the highest counter, and with no blank page left the other block is erased (R99, R100). A SETTINGS image with the
proposed mark raises the mark, cuts bounds and list, and the deferred reply is OK (R119, R120). -/
def Obligations.ProgramDoneSettlesPage : Prop :=
  (∀ (b p : Nat) (d : PageData) (why : ProgramWhy) (s : State), s.coreRunning = true → s.store.op = some (.program b p d why) →
    let u := s.programDone b p d why
    Completes .pageProgramDone s u
    ∧ (s.arrayOk → ∀ a, u.store.array.read a = if a = pageAddress b p then some ⟨d, .whole⟩ else s.store.array.read a)
    ∧ (u.time, u.supply, u.meas, u.settings) = (s.time, s.supply, s.meas, s.settings)
    ∧ (∀ id seq stamp e, why = .header → d = .header b id seq stamp → s.store.block b = some e →
        u.store.block b = some { e with state := .active, blockSeq := some seq } ∧ u.store.active = some (b, 1)
        ∧ u.store.activationDue = false)
    ∧ (∀ j, why = .content → s.store.job = some (.records j) →
        u.store.job = none ∧ u.reports.deliveries = s.reports.deliveries ++ j.records
        ∧ ∀ e, s.store.block b = some e → ∃ e', u.store.block b = some e' ∧ e.Took j.records e')
    ∧ (∀ j n first lo hi body, why = .content → s.store.job = some (.disturbance j) → d = .records n first lo hi body →
        ∀ e, s.store.block b = some e → ∃ e', u.store.block b = some e' ∧ e.Took [.disturbance j.record] e'
          ∧ e'.unexported = if s.store.exportMark < j.record.seq then some j.record.seq else e.unexported)
    ∧ (∀ n first lo hi body, why = .content → d = .records n first lo hi body → s.store.active = some (b, p) →
        (∃ j, s.store.job = some (.records j)) ∨ (∃ j, s.store.job = some (.disturbance j)) →
        (p < 127 → u.store.active = some (b, p + 1))
        ∧ (127 ≤ p → u.store.active = none ∧ u.store.activationDue = true
          ∧ ∀ e, u.store.block b = some e → e.state = .full))
    ∧ (∀ j owner seg trigger stamp freq samples, why = .content → s.store.job = some (.disturbance j) →
        d = .capture owner seg trigger stamp freq samples →
        (∃ j', u.store.job = some (.disturbance j') ∧ (j'.source, j'.slot, j'.timeouts) = (j.source, j.slot, j.timeouts)
          ∧ j'.remaining = j.remaining.drop 1 ∧ j'.record.seq = j.record.seq ∧ j'.record.pageCount = j.record.pageCount + 1
          ∧ (j.record.pageCount = 0 → j'.record.firstPage = (b, p))
          ∧ (0 < j.record.pageCount → j'.record.firstPage = j.record.firstPage ∧ j'.record.segmentAt j.record.pageCount = (b, p)))
        ∧ (∀ k c, j.slot = some k → slotAt s.capture.slots k = some c →
            slotAt u.capture.slots k = some { c with written := c.written + 1 })
        ∧ (∀ k, j.slot ≠ some k → slotAt u.capture.slots k = slotAt s.capture.slots k)
        ∧ ∃ t : State, u = t.review.boundary { j with remaining := j.remaining.drop 1, sinceRead := j.sinceRead + 1, record := j.record.placePage b p }
          ∧ (t.store.hostRequest, t.store.direct, t.link) = (s.store.hostRequest, s.store.direct, s.link))
    ∧ ∀ direct w n, why = .image direct → s.store.work direct = some w → d.counter = some n →
        (u.store.imagePage, u.store.imageCounter) = (s.store.imagePage + 1, n)
        ∧ ((∃ i, d = .settings n i) → u.store.haveSettingsImage = true) ∧ ((∃ l, d = .cases n l) → u.store.haveCaseImage = true)
        ∧ ((∃ d' m, w.stage = .other d' m) → u.store.work direct = some { w with stage := .own })
        ∧ ((∀ d' m, w.stage ≠ .other d' m) → u.store.work direct = none)
        ∧ ∀ i m, d = .settings n i → s.store.proposed = some m → i.exportMark = m →
            (u.store.exportMark, u.store.proposed) = (m, none)
            ∧ u.store.unexportedList = s.store.unexportedList.filter (fun q => decide (m < q))
            ∧ (∀ a e q, s.store.block a = some e → e.unexported = some q → ∃ e', u.store.block a = some e'
                ∧ e'.unexported = if q ≤ m then none else some q)
            ∧ ∀ tag, s.link.slot = some ⟨0x2A, tag, none⟩ → s.link.tx = none → u.link.tx = some ⟨0xAA, tag, [0], false⟩)
  ∧ (∀ (j : DisturbanceJob) (a q : Nat) (s : State), j.aside = none → s.store.state ≠ .readOnly → s.store.active = some (a, q) →
    DisturbanceGoesOn j a q s)
  ∧ (∀ (j : DisturbanceJob) (s : State), PageBoundary j s)
  ∧ ∀ (direct : Bool) (w : ImageWork) (s : State), w.stage = .own →
    (s.store.imagePage < 128 → (s.issueImage direct w).store.op = some
      (.program s.store.imageBlock s.store.imagePage (w.data.recount (count32 s.store.imageCounter)) (.image direct)))
    ∧ (128 ≤ s.store.imagePage → (s.issueImage direct w).store.op = some (.erase (1 - s.store.imageBlock) (.settings direct))
      ∧ (s.issueImage direct w).store.work direct = some { w with stage := .erasing })

/-- PAGE_PROGRAM_DONE of a disturbance job's record page: the record goes to the case unit and the tracker's entry is freed; a record above
the export mark joins the unexported list while it has room (R24, R81, R114, R120); the number of an INTERRUPTION joins the nested list of
the dip it names while that dip is OPEN or TAIL, or sets NESTED_OVERFLOW behind 4 numbers (R29; not in PER_PHASE mode, R30). Before it, what
the jobs of records do as the writer takes them, with their discards in READ_ONLY, in HELD_FULL and with no room: the disturbance job with
capture admission (R53, R80, R112 to R114), the interval job and the job at the head of the marker queue (R112, R113, R115), the discards
raising the loss counter of their class (R117). That a record carries its capture trigger time stamp only with a block to write is log 46,
the model's choice. -/
def Obligations.DisturbanceCommitFreesEntry : Prop :=
  (∀ (b p n first lo hi i : Nat) (body : List Byte) (j : DisturbanceJob) (s : State), s.coreRunning = true →
    s.store.op = some (.program b p (.records n first lo hi body) .content) →
    s.store.job = some (.disturbance j) → j.source = some i →
    ∃ u, Completes .pageProgramDone s u ∧ u.reports.deliveries = s.reports.deliveries ++ [.disturbance j.record]
      ∧ u.tracker.entry i = none ∧ ((s.tracker.entry i).isSome = true → i ∉ u.tracker.commitQueue) ∧ u.store.job = none
      ∧ (∀ x, s.tracker.entry i = some x → Tracker.Nests j.record.seq i x s.tracker u.tracker)
      ∧ (s.store.exportMark < j.record.seq → s.store.unexportedList.length < 256 →
          u.store.unexportedList = s.store.unexportedList ++ [j.record.seq]))
  ∧ (∀ (i : Nat) (x : Entry) (s : State), s.tracker.entry i = some x → EntryTaken i x s (s.takeDisturbance (.entry i x)))
  ∧ (∀ s : State, s.agg.queue ≠ [] → IntervalsTaken s s.takeIntervals)
  ∧ ∀ (item : QueueItem) (rest : List QueueItem) (s : State), s.store.markerQueue = item :: rest → HeadTaken item rest s s.takeMarkers

/-- PAGE_PROGRAM_TIMEOUT: the page's contents are unknown, an image's page holds no image any longer (R101, R102; log 23, the model's
reading), and no other page changes; in the log the block becomes BAD, joins the bad list and STORE is latched (R87, R89); only in a format
may its unexported bound go with it, when the mark rises (R97). On an image's page PAGE_PROGRAM_TIMEOUT acts as SETTINGS_AREA_TIMEOUT does
(log 10, the model's choice). SETTINGS_AREA_TIMEOUT acts on an operation in the settings area, for the job's image and for the direct one of
R113: the first timeout of an image's page lets the next page be tried; the second, or that of the erase it needs, discards the image:
STORE_FAULT is set, STORE and LOSS are latched and the loss is counted as a marker (R102); that the image of the other kind, so discarded,
gives way to the work's own is log 22, the model's choice. On a content page, with room in the marker queue for the marker and the image of
the retirement, a job's first timeout lets it go on with the pages it has left, and with F at 0 discards it without STORE_FAULT (R87, R108).
The second discards it, sets STORE_FAULT and makes an activation due. A discarded job raises its class's loss counter by its records; a
disturbance job's slot and entry are freed (R87, R117). -/
def Obligations.ProgramTimeoutRetires : Prop :=
  (∀ (b p : Nat) (d : PageData) (why : ProgramWhy) (s : State), s.coreRunning = true → s.store.op = some (.program b p d why) →
    let u := s.programTimedOut b p d why
    Completes .pageProgramTimeout s u
    ∧ (∀ c, (c = .lost ∧ ∃ direct, why = .image direct) ∨ (c = .unknown ∧ ∀ direct, why ≠ .image direct) →
        s.arrayOk → ∀ a, u.store.array.read a = if a = pageAddress b p then some ⟨d, c⟩ else s.store.array.read a)
    ∧ (u.time, u.supply, u.meas, u.settings) = (s.time, s.supply, s.meas, s.settings)
    ∧ ∀ e, why = .header ∨ why = .content → s.store.block b = some e →
        (∃ m, u.store.block b = some { e with state := .bad, unexported := m }
          ∧ (why = .header ∨ s.store.format = none → m = e.unexported))
        ∧ b ∈ u.store.badList
        ∧ u.link.causes &&& Cause.store.bit = Cause.store.bit)
  ∧ (∀ (b p : Nat) (d : PageData) (direct : Bool) (w : ImageWork) (s : State), s.coreRunning = true → s.store.work direct = some w →
    let failed (u : State) : Prop := u.store.storeFault = true ∧ LossRaised .marker 1 s u
      ∧ u.link.causes &&& Cause.store.bit = Cause.store.bit
    (s.store.op = some (.program b p d (.image direct)) →
      let u := s.programTimedOut b p d (.image direct)
      let kept : Prop := (u.store.storeFault, u.store.lost) = (s.store.storeFault, s.store.lost)
      Completes .settingsAreaTimeout s u ∧ u.store.imagePage = s.store.imagePage + 1
      ∧ ((∀ d' n, w.stage ≠ .other d' n) → (w.timeouts = 0 → u.store.work direct = some { w with timeouts := 1 } ∧ kept)
        ∧ (w.timeouts ≠ 0 → u.store.work direct = none ∧ failed u))
      ∧ ∀ d' n, w.stage = .other d' n → (n = 0 → u.store.work direct = some { w with stage := .other d' 1 } ∧ kept)
        ∧ (n ≠ 0 → u.store.work direct = some { w with stage := .own } ∧ failed u))
    ∧ (s.store.op = some (.erase b (.settings direct)) →
      let u := s.eraseTimedOut b (.settings direct)
      Completes .settingsAreaTimeout s u ∧ u.store.work direct = none ∧ failed u))
  ∧ ∀ (b p : Nat) (d : PageData) (s : State), s.store.markerQueue.length < 7 →
    let u := s.programTimedOut b p d .content
    let fault : Prop := (u.store.storeFault, u.store.activationDue) = (true, true)
    let noFault : Prop := (u.store.storeFault, u.store.activationDue) = (s.store.storeFault, s.store.activationDue)
    (∀ j, s.store.job = some (.disturbance j) →
      (j.timeouts = 0 → 0 < u.store.free →
        u.store.job = some (.disturbance { j with timeouts := 1 }) ∧ u.store.lost = s.store.lost ∧ noFault
        ∧ (u.tracker, u.capture) = (s.tracker, s.capture))
      ∧ (j.timeouts ≠ 0 ∨ u.store.free = 0 → u.store.job = none ∧ LossRaised .disturbance 1 s u
        ∧ (∀ k, j.slot = some k → slotAt u.capture.slots k = none) ∧ (∀ i, j.source = some i → u.tracker.entry i = none)
        ∧ (j.timeouts = 0 → noFault) ∧ (j.timeouts ≠ 0 → fault)))
    ∧ ∀ j, s.store.job = some (.records j) → j.records ≠ [] →
      (j.timeouts = 0 → 0 < u.store.free →
        u.store.job = some (.records { j with timeouts := 1 }) ∧ u.store.lost = s.store.lost ∧ noFault)
      ∧ (j.timeouts ≠ 0 ∨ u.store.free = 0 → u.store.job = none
        ∧ LossRaised (if j.cls = .interval then .interval else .marker) j.records.length s u
        ∧ (j.timeouts = 0 → noFault) ∧ (j.timeouts ≠ 0 → fault))

/-- BLOCK_ERASE_DONE and BLOCK_ERASE_TIMEOUT for a log block. Done: every page of the block is blank, and a block that is not WEAK is
ERASED, a WEAK one BAD and retired. Timed out: the block is BAD and retired. Its block sequence, record sequences, span and unexported bound
are absent and its hold set is empty in every case; no other page changes (R88). A block retired here has WEAK clear (log 33, the model's
reading). What a timed-out erase leaves of the content pages is lost, so that their records and captures stay gone (R110), and of the header
page unknown (log 23, the model's choice). A settings block erased is the current one from the end of the erase (log 22, the model's
reading; R100 has it current once both images stand), and an image of the kind not being written, built now, goes there first when one
exists (R100). A block that a reclaim step takes loses its block sequence at once and its numbers and span at the erase's end (log 30, the
model's reading). The writer's arbitration: the review of urgency and store state before each decision (R105, R111, R113; a FULL block that
comes to be unheld is judged by log 38, the model's reading), which block a reclaim step takes and what that does (R109, R110), which jobs
count as waiting (R106), and the job a free writer takes: by rank (R106), in HOLDUP in the order of R158. -/
def Obligations.EraseOutcomes : Prop :=
  (∀ (b : Nat) (why : EraseWhy) (e : BlockEntry) (s : State), s.coreRunning = true → s.store.op = some (.erase b why) →
    (∀ direct, why ≠ .settings direct) → s.store.block b = some e →
    let d := s.eraseDone b why
    let o := s.eraseTimedOut b why
    (Completes .blockEraseDone s d
      ∧ (∀ a, d.store.array.read a = if a / 128 = b then none else s.store.array.read a)
      ∧ (d.time, d.supply, d.meas, d.settings) = (s.time, s.supply, s.meas, s.settings)
      ∧ (e.weak = false → d.store.block b = some (BlockEntry.plain .erased))
      ∧ (e.weak = true → d.store.block b = some (BlockEntry.plain .bad) ∧ b ∈ d.store.badList
          ∧ d.link.causes &&& Cause.store.bit = Cause.store.bit))
    ∧ Completes .blockEraseTimeout s o
      ∧ (∀ a, o.store.array.read a =
          if a / 128 = b then (s.store.array.read a).map (fun x =>
            { x with condition := if x.condition = .lost ∨ a % 128 ≠ 0 then .lost else .unknown }) else s.store.array.read a)
      ∧ (o.time, o.supply, o.meas, o.settings) = (s.time, s.supply, s.meas, s.settings)
      ∧ o.store.block b = some (BlockEntry.plain .bad) ∧ b ∈ o.store.badList ∧ o.link.causes &&& Cause.store.bit = Cause.store.bit)
  ∧ (∀ (b : Nat) (direct : Bool) (w : ImageWork) (s : State), s.coreRunning = true →
    s.store.op = some (.erase b (.settings direct)) → s.store.work direct = some w →
    let d := s.eraseDone b (.settings direct)
    let other : ImageKind := if w.kind = .settings then .cases else .settings
    Completes .blockEraseDone s d ∧ (d.store.imageBlock, d.store.imagePage) = (b, 0)
    ∧ (s.store.hasImage other = true → d.store.work direct = some { w with stage := .other (s.imagePage other) 0 })
    ∧ (s.store.hasImage other = false → d.store.work direct = some { w with stage := .own }))
  ∧ (∀ s : State, s.store.scan = none → Reviewed s s.review)
  ∧ (∀ (u : Urgency) (s : State), ReclaimChoice u s)
  ∧ (∀ (b : Nat) (e : BlockEntry) (s : State), s.store.block b = some e → ReclaimTaken b e s (s.takeReclaim b))
  ∧ (∀ s : State, WaitingJobs s)
  ∧ ∀ s : State, let r := s.review.lossReview
    r.writerFree → (s.inHoldup = false → RankOrder s r) ∧ (s.inHoldup = true → HoldupOrder s r)

/-- PAGE_READ_DONE: the page goes into an EMPTY correction unit; while it is CORRECTING the read waits (R90, log 25).
CORRECTION_DONE: the unit is EMPTY, a page found with 3 bits or more corrected makes its block WEAK, and the array is unchanged (R91); the
result goes to whoever asked for the page. A host read goes on with the page its collection needs next, or is answered: READ_RECORDS by
R177, READ_CAPTURE by R178, from where R177 and R178 begin; one that HOLDUP cut short is answered BUSY_STORE (log 39, the model's choice);
inside a disturbance job its end leads back to the page boundary (R107). The case scan walks by R129 to R131. The start-up scan reads the
settings area, classifies the blocks, and concludes (R82, R92 to R95, R44, R85, R166). The model's choices there: log 14 (the
series before the settings area is read), log 32 (the place of
images where no image is valid, and which of two images with one counter counts), logs 43, 44 and 47, and log 49 for records whose
contents chapter 11 does not list; log 23 for what a page reads as, log 26 for an unreadable page that would not fit into a reply. -/
def Obligations.ReadsPassTheCorrectionUnit : Prop :=
  (∀ (b p : Nat) (who : Requester) (s : State), s.coreRunning = true → s.store.op = some (.read b p who) →
    (s.store.correcting = none → who ≠ .gone →
      Completes .pageReadDone s
        { s with store := { s.store with op := none, correcting := some ⟨b, p, s.store.page b p, who⟩ } })
    ∧ (s.store.correcting ≠ none → Completes .pageReadDone s s))
  ∧ (∀ (c : Correcting) (result : ReadResult) (body : Option (List Byte)) (s : State), s.coreRunning = true →
    s.store.correcting = some c →
    ∃ u, Completes (.correctionDone result body) s u ∧ u.store.correcting = none ∧ u.store.array = s.store.array
      ∧ (∀ n, result = .corrected n → 3 ≤ n → c.found.isSome = true → (s.store.block c.block).isSome = true →
          ∃ e, u.store.block c.block = some e ∧ e.weak = true)
      ∧ (c.who = .gone → (∀ n, result ≠ .corrected n) →
          u = { s with store := { s.store with correcting := none } })
      ∧ let emptied : Store := { s.store with correcting := none }
        let v := viewOf result body c.found
        let handed (st : Store) : State :=
          let s' : State := { s with store := st }
          match c.who with
          | .host => s'.hostResult v
          | .caseScan => if s.store.job = some .scanRead then (s'.setJob none).scanResult v else s'.scanResult v
          | .startUp => s'.startResult v
          | .gone => s'
        (∀ n, result = .corrected n → 3 ≤ n → c.found ≠ none →
          u = handed (emptied.modifyBlock (fun e => { e with weak := true }) c.block))
        ∧ ((∀ n, result = .corrected n → n < 3 ∨ c.found = none) → u = handed emptied))
  ∧ (∀ (result : ReadResult) (body : Option (List Byte)), ReadsAs result body)
  ∧ (∀ (v : PageView) (s : State),
    (∀ r, s.store.job = some (.hostRead r) →
      (∀ r', r.take (s.store.nextSeq - 1) v = .more r' → s.hostResult v = s.setJob (some (.hostRead r')))
      ∧ ∀ status bytes, r.take (s.store.nextSeq - 1) v = .done status bytes → s.hostResult v = (s.reply status bytes).setJob none)
    ∧ (s.store.job = some .endingRead → s.hostResult v = (s.setJob none).reply .busyStore [])
    ∧ ∀ j r, s.store.job = some (.disturbance j) → j.aside = some (.hostRead r) →
      (∀ r', r.take (s.store.nextSeq - 1) v = .more r' →
        s.hostResult v = s.setJob (some (.disturbance { j with aside := some (.hostRead r') })))
      ∧ ∀ status bytes, r.take (s.store.nextSeq - 1) v = .done status bytes →
        s.hostResult v = (s.reply status bytes).review.boundary { j with aside := none })
  ∧ (∀ (r : RecordsRead) (newest : Nat) (v : PageView), HostRead.take newest v (.records r) = r.take newest v
    ∧ RecordsCollected r newest v)
  ∧ (∀ (r : CaptureRead) (newest : Nat) (v : PageView), HostRead.take newest v (.capture r) = r.take v ∧ CaptureFound r v)
  ∧ (∀ s : State, ReadsBegin s)
  ∧ (∀ s : State, ScanWalks s)
  ∧ ∀ (v : PageView) (s : State), StartScanReads v s

/-! ## Complaint cases (chapter 7) -/

/-- COMMIT_DELIVERY. The record's number becomes the high-water mark, and a case whose horizon lies below it tallies it when it covers it:
when the span between the record's two times, whichever comes first, overlaps the window, up to the present while open-ended, and, for a
DISTURBANCE, they have a phase in common; every other case stays (R124, R133, R136). A DISTURBANCE enters the table and, while it holds
fewer than 512 numbers, the list. END_UNKNOWN and RVC have counts of their own; a DIP or INTERRUPTION with residual below 9000 and 10 ms or
more takes one of 25 bins, a SWELL from 11000 on and 10 ms one of 10, by row and duration column; else the other count of its kind rises
(R134). An INTERVAL raises the intervals, those with flagged windows, and, for each phase of interest in its fitted set whose mean it
holds, the phase's figures (R135). A SUPPLY_LOSS marker with its time in the window raises the supply-loss count (R133). -/
def Obligations.DeliveryTalliesCoveringCases : Prop :=
  (∀ (d : DisturbanceRecord) (rest : List Record) (s : State), s.coreRunning = true →
    s.reports.deliveries = .disturbance d :: rest →
    let last := d.finish.getD d.start
    let covered (c : CaseSlot) : Prop := (∃ p, d.phases.has p = true ∧ c.phases.has p = true)
      ∧ c.overlapped s.nowMs (min d.start.toMs last.toMs) (max d.start.toMs last.toMs)
    ∃ u, Completes .commitDelivery s u ∧ u.reports = { s.reports with deliveries := rest }
      ∧ u.cases.highWater = some d.seq
      ∧ (u.time, u.supply, u.meas, u.tracker, u.capture, u.agg, u.store, u.settings, u.link)
          = (s.time, s.supply, s.meas, s.tracker, s.capture, s.agg, s.store, s.settings, s.link)
      ∧ ∀ i c, s.case i = some c →
          (∀ h, c.horizon = some h → h < d.seq → covered c →
            ∃ c', u.case i = some c' ∧ c'.table = c.table.disturbance d
              ∧ (c.list.length < 512 → (∀ n, n ∈ c'.list ↔ n = d.seq ∨ n ∈ c.list) ∧ c'.listFull = c.listFull)
              ∧ (512 ≤ c.list.length → c'.list = c.list ∧ c'.listFull = true)
              ∧ (c'.caseNo, c'.start, c'.finish, c'.phases, c'.state) = (c.caseNo, c.start, c.finish, c.phases, c.state))
          ∧ (c.horizon = none ∨ (∃ h, c.horizon = some h ∧ d.seq ≤ h) ∨ ¬ covered c → u.case i = some c))
  ∧ (∀ (d : DisturbanceRecord) (t : Settlement),
    let t' := t.disturbance d
    (d.flags.endUnknown = true → t' = { t with endUnknown := count32 t.endUnknown })
    ∧ (d.flags.endUnknown = false → d.kind = .rvc → t' = { t with rvc := count32 t.rvc })
    ∧ ∀ m ms, d.flags.endUnknown = false → d.extreme = some m → d.duration = some ms →
      let column := ([200, 1000, 10000, 60000].filter (· ≤ ms)).length
      let row := ([8000, 6000, 3000, 500].filter (m.percent < ·)).length
      let swellRow := if m.percent < 12000 then 0 else 1
      (d.kind = .dip ∨ d.kind = .interruption → m.percent < 9000 → 10 ≤ ms →
        t' = { t with dipBins := modifyAt count32 (5 * row + column) t.dipBins })
      ∧ (d.kind = .dip → 9000 ≤ m.percent ∨ ms < 10 → t' = { t with dipOther := count32 t.dipOther })
      ∧ (d.kind = .interruption → 9000 ≤ m.percent ∨ ms < 10 → t' = { t with interruptionOther := count32 t.interruptionOther })
      ∧ (d.kind = .swell → 11000 ≤ m.percent → 10 ≤ ms →
        t' = { t with swellBins := modifyAt count32 (5 * swellRow + column) t.swellBins })
      ∧ (d.kind = .swell → m.percent < 11000 ∨ ms < 10 → t' = { t with swellOther := count32 t.swellOther }))
  ∧ (∀ (r : IntervalRecord) (rest : List Record) (s : State), s.coreRunning = true → s.reports.deliveries = .interval r :: rest →
    let covered (c : CaseSlot) : Prop :=
      c.overlapped s.nowMs (min r.start.toMs r.stamp.toMs) (max r.start.toMs r.stamp.toMs)
    ∃ u, Completes .commitDelivery s u ∧ u.cases.highWater = some r.seq
      ∧ ∀ i c, s.case i = some c →
          (∀ h, c.horizon = some h → h < r.seq → covered c → ∃ phases,
            u.case i = some { c with table := { c.table with
              intervals := count32 c.table.intervals
              flaggedIntervals := if 0 < r.flagged then count32 c.table.flaggedIntervals else c.table.flaggedIntervals
              phases := phases } }
            ∧ ∀ p, let old := c.table.phases.get p
              (∀ mean, (r.phases.get p).mean = some mean → c.phases.has p = true → r.fitted.has p = true →
                let outside : Prop := mean * 10000 < (10000 - r.tolerance) * r.udecl ∨ (10000 + r.tolerance) * r.udecl < mean * 10000
                (outside → (phases.get p).outside = count32 old.outside)
                ∧ (¬ outside → (phases.get p).outside = old.outside)
                ∧ (phases.get p).withMean = count32 old.withMean
                ∧ (phases.get p).lowest = some (min (old.lowest.getD mean) mean)
                ∧ (phases.get p).highest = some (max (old.highest.getD mean) mean))
              ∧ ((r.phases.get p).mean = none ∨ c.phases.has p = false ∨ r.fitted.has p = false → phases.get p = old))
          ∧ (c.horizon = none ∨ (∃ h, c.horizon = some h ∧ r.seq ≤ h) ∨ ¬ covered c → u.case i = some c))
  ∧ ∀ (m : MarkerRecord) (items : List LossItem) (rest : List Record) (s : State), s.coreRunning = true →
    s.reports.deliveries = .marker m :: rest → m.body = .supplyLoss items →
    let covered (c : CaseSlot) : Prop := c.overlapped s.nowMs m.stamp.toMs m.stamp.toMs
    ∃ u, Completes .commitDelivery s u ∧ u.cases.highWater = some m.seq
      ∧ ∀ i c, s.case i = some c →
          (∀ h, c.horizon = some h → h < m.seq → covered c →
            u.case i = some { c with table := { c.table with supplyLoss := count32 c.table.supplyLoss } })
          ∧ (c.horizon = none ∨ (∃ h, c.horizon = some h ∧ m.seq ≤ h) ∨ ¬ covered c → u.case i = some c)

/-- HOLD_PLACE, HOLD_JUDGE_BLOCK and HOLD_REMOVE. Placed for a case, the slot enters the hold set of every block that overlaps the case's
window and is not ERASING, leaves that of every block that does not overlap, and an ERASING block that overlaps keeps its hold set;
judged, one block alone; removed, it leaves every hold set. A block overlaps when it has a record, its earliest time is at or before
the window end (the present when open) and its latest at or after the window start (R127). An ERASING block that overlaps sets
EVIDENCE_LOST (R126, R128). -/
def Obligations.HoldsFollowOverlap : Prop :=
  (∀ (k : Fin 8) (s : State), s.coreRunning = true →
    ∃ u, Completes (.holdRemove k) s u
      ∧ u = { s with store := { s.store with
          index := s.store.index.map fun e => { e with holds := e.holds &&& ~~~ slotBit k.val } } })
  ∧ ∀ (k : Fin 8) (c : CaseSlot) (s : State), s.coreRunning = true → s.case k.val = some c →
    let end_ := match c.finish with | some t => t.toMs | none => s.nowMs
    let overlaps (e : BlockEntry) : Prop := ∃ lo hi, e.firstRecord.isSome = true ∧ e.earliest = some lo ∧ e.latest = some hi
      ∧ lo * 1000 ≤ end_ ∧ c.start.toMs ≤ hi * 1000
    let judged (e e' : BlockEntry) : Prop :=
      (overlaps e → e.state ≠ .erasing → e' = { e with holds := e.holds ||| slotBit k.val })
      ∧ (overlaps e → e.state = .erasing → e' = e)
      ∧ (¬ overlaps e → e' = { e with holds := e.holds &&& ~~~ slotBit k.val })
    (∃ u, Completes (.holdPlace k) s u
      ∧ (∀ b e, s.store.block b = some e → ∃ e', u.store.block b = some e' ∧ judged e e')
      ∧ ((∃ e ∈ s.store.index, overlaps e ∧ e.state = .erasing) → ∃ c', u.case k.val = some c' ∧ c'.evidenceLost = true))
    ∧ ∀ b e, s.store.block b = some e →
      ∃ u, Completes (.holdJudgeBlock k b) s u
        ∧ (∃ e', u.store.block b = some e' ∧ judged e e')
        ∧ (∀ a, a ≠ b → u.store.block a = s.store.block a)
        ∧ (overlaps e → e.state = .erasing → ∃ c', u.case k.val = some c' ∧ c'.evidenceLost = true)

/-- LOSS_COUNTER_REPORT and MISSED_COUNTER_REPORT to the case unit: GAP on every case that is LIVE, or SCANNING with a window that
includes the present; no other case changes. Before the table is reloaded the pending gap mark is set instead (R143). -/
def Obligations.ReportsSetGap : Prop :=
  ∀ (s r : State) (cmd : Instr), s.coreRunning = true →
    ((cmd = .lossCounterReport ∧ ∃ k rest, s.reports.losses = k :: rest
        ∧ r = { s with reports := { s.reports with losses := rest } })
      ∨ cmd = .missedCounterReport .caseUnit ∧ ∃ k rest, s.reports.missedToCases = k :: rest
        ∧ r = { s with reports := { s.reports with missedToCases := rest } }) →
    (s.cases.loaded = false → Completes cmd s { r with cases := { s.cases with pendingGap := true } })
    ∧ (s.cases.loaded = true →
      ∃ u, Completes cmd s u ∧ (u.time, u.meas, u.tracker, u.capture, u.agg, u.settings)
            = (s.time, s.meas, s.tracker, s.capture, s.agg, s.settings)
        ∧ ∀ i c, s.case i = some c →
          let present := c.start.toMs ≤ s.nowMs ∧ ∀ t, c.finish = some t → s.nowMs ≤ t.toMs
          (c.state = .live ∨ ((c.state = .waiting ∨ c.state = .running) ∧ present) →
            u.case i = some { c with gap := true })
          ∧ (¬(c.state = .live ∨ ((c.state = .waiting ∨ c.state = .running) ∧ present)) → u.case i = some c))

/-- CLOCK_ARRIVAL for a case that stands: at its start a PENDING case becomes LIVE; at its end a LIVE case becomes ENDED and CASE is
latched; at the 31-day limit an open-ended case takes its limit as its end, and ends when LIVE. An arrival that finds the case in
another state changes no case (R138, R139). -/
def Obligations.ArrivalsMoveCases : Prop :=
  ∀ (no i : Nat) (kind : ArrivalKind) (rest : List CaseTime) (c : CaseSlot) (s : State), s.coreRunning = true →
    s.reports.timeToCases = .arrival no kind :: rest → s.findCase no = some (i, c) → s.case i = some c →
    ∃ u, Completes .clockArrival s u
      ∧ (u.supply, u.meas, u.tracker, u.capture, u.agg, u.settings)
          = (s.supply, s.meas, s.tracker, s.capture, s.agg, s.settings)
      ∧ onlyCase i s u
      ∧ (kind = .start → c.state = .pending → u.case i = some { c with state := .live })
      ∧ (kind = .finish → c.state = .live →
          u.case i = some { c with state := .ended } ∧ u.link.causes &&& Cause.caseCause.bit = Cause.caseCause.bit)
      ∧ (kind = .limit → c.finish = none →
          ∃ c', u.case i = some c' ∧ c'.finish = some ⟨c.start.sec + 2678400, c.start.ms⟩
            ∧ c'.state = (if c.state = .live then .ended else c.state))
      ∧ ((kind = .start ∧ c.state ≠ .pending) ∨ (kind = .finish ∧ c.state ≠ .live) ∨ (kind = .limit ∧ c.finish ≠ none) →
          u.case i = some c)

/-! ## Time, supply loss and restart (chapter 8) -/

/-- CLOCK_TICK while the backup domain is valid: the clock advances by one millisecond, 999 carrying into the seconds, and the
registered times it has reached leave the list for the case unit, in list order; nothing else changes. While the domain is not
valid nothing changes (R149, R153). The seconds' own limit is apart (log 4). -/
def Obligations.ClockTickAdvances : Prop :=
  ∀ s : State,
    (s.supply.valid = false → exec .clockTick s = .next s)
    ∧ (s.supply.valid = true → s.clockOk → s.time.sec + 1 < 2 ^ 32 →
      ∃ t, exec .clockTick s = .next t ∧ t.clockOk ∧ t.time.sec * 1000 + t.time.ms = s.time.sec * 1000 + s.time.ms + 1
        ∧ (t.time.epoch, t.time.base, t.time.qualitySet, t.time.coreOff)
            = (s.time.epoch, s.time.base, s.time.qualitySet, s.time.coreOff)
        ∧ (∀ a, a ∈ t.time.arrivals ↔ a ∈ s.time.arrivals ∧ s.nowMs + 1 < a.at_ms)
        ∧ t.reports.timeToCases = s.reports.timeToCases
            ++ (s.time.arrivals.filter fun a => decide (a.at_ms ≤ s.nowMs + 1)).map (fun a => .arrival a.caseNo a.kind)
        ∧ SameElsewhere { s with time := t.time } t ∧ t.tracker = s.tracker ∧ t.capture = s.capture)

/-- TIME_STEP_REPORT. The tracker sets TIME_STEPPED on every OPEN entry that does not start in the new epoch and changes nothing else (R40);
epochs are compared by what they stand for, an unsettled one by base and step count (R154), which is log 31, the model's reading. The
aggregator closes an interval that is not empty with the cause TIME_STEP, without a boundary, into the output queue or, with 4 waiting, into
the loss count (R67), and the interval then open carries the cause (R68). The case unit sets TIME_STEPPED on every LIVE or SCANNING case
(R140). -/
def Obligations.StepReachesThreeBlocks : Prop :=
  (∀ (e : Epoch) (rest : List Epoch) (s : State), s.coreRunning = true → s.reports.stepToTracker = e :: rest →
    ∃ t, exec (.timeStepReport .tracker) s = .next t ∧ SameElsewhere s t ∧ t.capture = s.capture
      ∧ t.reports = { s.reports with stepToTracker := rest }
      ∧ t.tracker = { s.tracker with entries := t.tracker.entries }
      ∧ ∀ i x, s.tracker.entry i = some x →
          (x.state = .opened → resolveEpoch s.time.base e ≠ resolveEpoch s.time.base x.start.epoch →
            t.tracker.entry i = some { x with flags := { x.flags with timeStepped := true } })
          ∧ (x.state ≠ .opened ∨ resolveEpoch s.time.base e = resolveEpoch s.time.base x.start.epoch →
            t.tracker.entry i = some x))
  ∧ (∀ (n : Nat) (s : State), s.coreRunning = true → s.reports.stepToAggregator = n + 1 →
    ∃ u, Completes (.timeStepReport .aggregator) s u ∧ u.reports.stepToAggregator = n
      ∧ u.reports.boundaries = s.reports.boundaries
      ∧ (u.time, u.meas, u.tracker, u.capture, u.settings, u.cases)
          = (s.time, s.meas, s.tracker, s.capture, s.settings, s.cases)
      ∧ (s.agg.acc.fixed = none →
          u.agg = { s.agg with acc := { s.agg.acc with causes := { s.agg.acc.causes with timeStep := true } } })
      ∧ ∀ f, s.agg.acc.fixed = some f →
          u.agg.acc = Accumulator.empty { timeStep := true }
          ∧ (s.agg.queue.length < 4 →
            ∃ r, u.agg.queue = s.agg.queue ++ [r] ∧ r.boundary = none ∧ r.stamp = f.last ∧ r.counted = s.agg.acc.counted
              ∧ r.causes = { s.agg.acc.causes with timeStep := true })
          ∧ (4 ≤ s.agg.queue.length → u.agg.queue = s.agg.queue
            ∧ u.store = { s.store with
                lost := { s.store.lost with interval := count32 s.store.lost.interval }, lossPending := true }
            ∧ u.link.causes &&& Cause.loss.bit = Cause.loss.bit))
  ∧ ∀ (rest : List CaseTime) (s : State), s.coreRunning = true → s.reports.timeToCases = .step :: rest →
    ∃ u, Completes (.timeStepReport .caseUnit) s u ∧ u.reports.timeToCases = rest
      ∧ (u.time, u.meas, u.tracker, u.capture, u.agg, u.settings)
          = (s.time, s.meas, s.tracker, s.capture, s.agg, s.settings)
      ∧ ∀ i c, s.case i = some c →
        (c.state = .live ∨ c.state = .waiting ∨ c.state = .running → u.case i = some { c with timeStepped := true })
        ∧ (c.state = .pending ∨ c.state = .ended → u.case i = some c)

/-- SUPPLY_FAIL_WARNING: the stability timer returns to 0. In RUN and STARTING the part enters HOLDUP: every FILLING or FULL slot becomes
FREE, the open interval gets the cause HOLDUP, the entries in TAIL or COMMIT_WAIT are the loss batch, and a SUPPLY_LOSS marker is
queued. In the other states nothing else changes (R55, R71, R156, R157, R159). -/
def Obligations.SupplyFailEntersHoldup : Prop :=
  ∀ s : State,
    (s.supply.power = .run ∨ s.supply.power = .starting →
      ∃ u, Completes .supplyFailWarning s u
        ∧ u.supply = { s.supply with power := .holdup, supplyGood := false, timerRunning := false }
        ∧ (u.time, u.meas, u.settings, u.cases.slots) = (s.time, s.meas, s.settings, s.cases.slots)
        ∧ (∀ i c, slotAt u.capture.slots i = some c → c.state = .writing ∧ slotAt s.capture.slots i = some c)
        ∧ u.agg.acc.causes.holdup = true
        ∧ u.store.lossMarker = .queued ∧ (∃ i ∈ u.store.markerQueue, i.isSupplyLoss = true)
        ∧ (∀ i, i ∈ u.store.lossBatch ↔ ∃ x, s.tracker.entry i = some x ∧ x.state ≠ .opened))
    ∧ (s.supply.power = .holdup ∨ s.supply.power = .retain ∨ s.supply.power = .wait →
      exec .supplyFailWarning s = .next { s with supply := { s.supply with supplyGood := false, timerRunning := false } })

/-- SUPPLY_GOOD and RESETN_HIGH start the stability timer when the other line is high or good (R156); that RESETN_HIGH does so is log 20,
the model's reading. SUPPLY_GOOD in RETAIN powers the core up: an absent validity mark is found, and the backup domain takes its COLD
starting values (R155); that this command is the core's power-up is log 10, the model's choice. -/
def Obligations.TimerStartsWithSupplyAndReset : Prop :=
  ∀ s : State,
    (s.supply.supplyGood = false →
      (s.supply.power ≠ .retain ∨ s.supply.valid = true →
        exec .supplyGood s = .next { s with supply := { s.supply with supplyGood := true, timerRunning := s.supply.resetnHigh } })
      ∧ (s.supply.power = .retain → s.supply.valid = false →
        exec .supplyGood s = .next
          { s with
            supply :=
              { s.supply with
                supplyGood := true, timerRunning := s.supply.resetnHigh, valid := true, markAbsent := true, cellLow := false }
            time := Timebase.cold, tracker := Tracker.cold s.tracker.inForce }))
    ∧ (s.supply.resetnHigh = false →
      exec .resetnHigh s = .next { s with supply := { s.supply with resetnHigh := true, timerRunning := s.supply.supplyGood } })

/-- STABILITY_TIMER_EXPIRY completes, with supply and RESETN good, in every power state it acts in. From RETAIN or the stability wait a
start begins: the part is STARTING with the cause of R162, RESTARTED is latched, the RESTART marker is queued, and CLOCK is latched while
the quality is UNSET or the cell LOW; the core domain begins afresh (R57, R72, R162, R163, R188). The clock runs on. A start that is not
COLD keeps the tracker's table as R42 states: slot links are cleared, with NO_CAPTURE where none was set; COMMIT_WAIT entries keep their
places, TAIL entries and then OPEN RVC entries, ended at the start, join behind them; the other OPEN entries stay OPEN with
ACROSS_SUPPLY_LOSS or MEASUREMENT_GAP; marks clear, detectors are emptied, missed counters are kept. A COLD start begins with an empty
tracker (R43). From HOLDUP the part returns to RUN, or to STARTING while the start-up scan goes on, without a start (R160); that the
judgement of the cell is not used then is log 41, the model's choice. -/
def Obligations.TimerExpiryStartsOrReturns : Prop :=
  ∀ (low : Bool) (s : State), s.supply.timerRunning = true → s.supply.supplyGood = true → s.supply.resetnHigh = true →
    (s.supply.power = .retain ∨ s.supply.power = .wait →
      ∃ t, exec (.stabilityTimerExpiry low) s = .next t ∧ t.pending = s.pending
        ∧ t.supply.power = .starting ∧ t.supply.startStamp = s.now ∧ t.supply.cellLow = low ∧ t.supply.timerRunning = false
        ∧ t.supply.startCause =
            (if s.supply.markAbsent then .cold else if s.supply.powerLost then .resume
              else if s.supply.resetSeen then .resetLine else .restartRequest)
        ∧ (t.time.sec, t.time.ms, t.time.epoch, t.time.qualitySet) = (s.time.sec, s.time.ms, s.time.epoch, s.time.qualitySet)
        ∧ t.time.arrivals = []
        ∧ t.capture.ring = [] ∧ (∀ i, slotAt t.capture.slots i = none)
        ∧ t.agg.acc = Accumulator.empty { start := true } ∧ t.agg.queue = []
        ∧ t.tracker.marks = [] ∧ t.tracker.windowFlag = none
        ∧ (t.supply.startCause = .cold → (∀ i, t.tracker.entry i = none) ∧ t.tracker.commitQueue = [] ∧ t.tracker.missed = ⟨0, 0, 0, 0⟩
            ∧ t.tracker.detectors = Tri.all Detector.warm)
        ∧ (t.supply.startCause ≠ .cold →
            KeptAcrossStart (t.supply.startCause == .resume) s.now s.tracker t.tracker)
        ∧ t.store.array = s.store.array ∧ t.store.scan = some StartScan.fresh
        ∧ t.store.markerQueue.head? = some (.marker s.now (.restart t.supply.startCause s.now))
        ∧ t.link.causes &&& Cause.restarted.bit = Cause.restarted.bit
        ∧ (low = true ∨ s.time.qualitySet = false ↔ t.link.causes &&& Cause.clock.bit = Cause.clock.bit)
        ∧ t.link.counters = ⟨0, 0, 0, 0⟩ ∧ t.link.watch = none ∧ t.link.slot = none ∧ t.link.tx = none)
    ∧ (s.supply.power = .holdup →
      ∃ u, Completes (.stabilityTimerExpiry low) s u
        ∧ u.supply = { s.supply with
            timerRunning := false, power := if s.store.scan.isSome then .starting else .run }
        ∧ (u.time, u.meas, u.settings, u.tracker, u.capture, u.agg, u.cases)
            = (s.time, s.meas, s.settings, s.tracker, s.capture, s.agg, s.cases)
        ∧ u.store.lossBatch = []
        ∧ (s.store.lossMarker = .committed → s.store.markerQueue.length < 8 →
            u.store.markerQueue = s.store.markerQueue ++ [.marker s.now (.supplyReturn none)]))

/-- CORE_POWER_LOST and RESETN_LOW stop the core: ring, slots, open interval, output queue, marker queue, case table, request slot, reply
and causes are lost, ATTN is released, and the clock runs on. Reports in flight between the blocks are lost with it (log 9, the model's
choice). CORE_POWER_LOST goes to RETAIN and sets the core-off time mark to the clock's reading, in the stability wait, where the core had
stopped, as from HOLDUP; RESETN_LOW goes to the stability wait and is remembered as the start's cause (R156, R161, R162, R188). Of the array
only what the operation in progress was acting on is left unsettled: a page cut short by its program (R91); of a log block cut short in
its erase the content pages are lost (R110), its header page is unknown, as a settings block's pages are (log 23, the model's choice). -/
def Obligations.CoreStopsLosingItsState : Prop :=
  (∀ s : State, s.supply.power = .wait →
    exec .corePowerLost s = .next
      { s with
        supply := { s.supply with power := .retain, supplyGood := false, timerRunning := false, powerLost := true }
        time := { s.time with coreOff := some ⟨s.time.sec, s.time.ms⟩ } })
  ∧ ∀ (cmd : Instr) (s : State),
    (cmd = .corePowerLost ∧ s.supply.power = .holdup)
      ∨ (cmd = .resetnLow ∧ s.supply.resetnHigh = true ∧ s.coreRunning = true) →
    ∃ t, exec cmd s = .next t ∧ t.pending = s.pending ∧ t.attnLow = false ∧ t.coreRunning = false
      ∧ t.supply.timerRunning = false
      ∧ (t.time.sec, t.time.ms, t.time.epoch, t.time.qualitySet) = (s.time.sec, s.time.ms, s.time.epoch, s.time.qualitySet)
      ∧ t.time.arrivals = [] ∧ t.meas.samples = 0 ∧ t.meas.outbox = [] ∧ t.capture.ring = []
      ∧ (∀ i, slotAt t.capture.slots i = none) ∧ t.agg.queue = [] ∧ t.agg.acc.fixed = none ∧ t.store.markerQueue = []
      ∧ (∀ i, t.case i = none) ∧ t.link.slot = none ∧ t.link.tx = none ∧ t.link.causes = 0 ∧ t.link.fifo = []
      ∧ t.reports = Reports.none ∧ t.tracker.missed = s.tracker.missed
      ∧ (∀ b p d why, s.store.op = some (.program b p d why) → s.arrayOk →
          ∀ a, t.store.array.read a = if a = pageAddress b p then some ⟨d, .torn⟩ else s.store.array.read a)
      ∧ (∀ b why, s.store.op = some (.erase b why) → ∀ a, t.store.array.read a =
          if a / 128 = b then (s.store.array.read a).map (fun x =>
            { x with condition := if x.condition = .lost ∨ (2 ≤ b ∧ a % 128 ≠ 0) then .lost else .unknown }) else s.store.array.read a)
      ∧ ((∀ b p d why, s.store.op ≠ some (.program b p d why)) → (∀ b why, s.store.op ≠ some (.erase b why)) →
          t.store.array = s.store.array)
      ∧ (cmd = .corePowerLost →
          t.supply.power = .retain ∧ t.supply.powerLost = true ∧ t.supply.supplyGood = false
          ∧ t.time.coreOff = some ⟨s.time.sec, s.time.ms⟩)
      ∧ (cmd = .resetnLow →
          t.supply.power = .wait ∧ t.supply.resetSeen = true ∧ t.supply.resetnHigh = false ∧ t.time.coreOff = s.time.coreOff)

/-- BACKUP_DOMAIN_LOSS in RETAIN without supply: the validity mark and with it the clock and the tracker's table are lost; nothing else
changes. BACKUP_CELL_JUDGEMENT while the core runs: the judgement is kept, and CLOCK is latched when its condition begins (R155). -/
def Obligations.BackupDomainAndCell : Prop :=
  (∀ s : State, s.supply.power = .retain → s.supply.supplyGood = false →
    ∃ t, exec .backupDomainLoss s = .next t ∧ t = { s with supply := t.supply, time := t.time, tracker := t.tracker }
      ∧ t.supply = { s.supply with valid := false } ∧ t.time.epoch = .unsettled 0 ∧ t.time.qualitySet = false
      ∧ t.time.coreOff = none ∧ (∀ i, t.tracker.entry i = none) ∧ t.tracker.missed = ⟨0, 0, 0, 0⟩)
  ∧ ∀ (low : Bool) (s : State), s.coreRunning = true →
    ∃ t, exec (.backupCellJudgement low) s = .next t ∧ t = { s with supply := t.supply, link := t.link }
      ∧ t.supply = { s.supply with cellLow := low }
      ∧ t.link.clockCondition = (low || !s.time.qualitySet)
      ∧ ((low || !s.time.qualitySet) = true → s.link.clockCondition = false →
          t.link.causes = s.link.causes ||| Cause.clock.bit)
      ∧ ((low || !s.time.qualitySet) = false ∨ s.link.clockCondition = true → t.link.causes = s.link.causes)

/-! ## Settings (chapter 10) -/

/-- APPLY_NOTIFICATION. Each receiver takes the oldest notice in flight to it: the measurement unit Udecl and phases fitted, with a
new series when the nominal frequency differs (R15); the tracker the active set; at a structural change every OPEN entry ends with
CLOSED_BY_SETTINGS at the last value set taken in, into TAIL or, in index order, COMMIT_WAIT (R39), at any other all entries stay (R38), the
requests in flight being settled first (log 9, the model's choice);
the capture unit the lengths (R48); the aggregator the set (R61); the link unit its threshold, and mask and mode when either changed,
and its line rate stays (R169, R183, R184). -/
def Obligations.NoticesReachFiveBlocks : Prop :=
  ∀ (n : Notice) (rest : List Notice) (s : State), s.coreRunning = true →
    let set := n.inForce.set
    (s.reports.applyMeasurement = n :: rest →
      ∃ m, Completes (.applyNotification .measurement) s
          { s with reports := { s.reports with applyMeasurement := rest }, meas := m }
        ∧ (set.freq = s.meas.freq → m = { s.meas with udecl := set.udecl, threePhases := set.threePhases })
        ∧ (set.freq ≠ s.meas.freq → m = { Measurement.fresh set.freq set.udecl set.threePhases with
            outbox := s.meas.outbox ++ [.restart .tracker, .restart .capture, .restart .aggregator] }))
    ∧ (s.reports.applyTracker = n :: rest →
      ∃ u, Completes (.applyNotification .tracker) s u ∧ u.tracker.inForce = n.inForce
        ∧ (u.time, u.supply, u.meas, u.agg, u.store, u.settings, u.cases)
            = (s.time, s.supply, s.meas, s.agg, s.store, s.settings, s.cases)
        ∧ (let settled := { s with reports := { s.reports with applyTracker := rest } }.settleRequests
          (structural n.changed = true → u.tracker.opened = [] ∧ u.tracker.marks = []
            ∧ u.tracker.detectors = Tri.all Detector.warm ∧ u.tracker.windowFlag = s.tracker.windowFlag
            ∧ (∀ i, settled.tracker.entry i = none → u.tracker.entry i = none)
            ∧ (∀ i x, settled.tracker.entry i = some x →
              (x.state ≠ .opened → u.tracker.entry i = some x)
              ∧ (x.state = .opened →
                let finish := s.tracker.lastStamp.getD x.start
                ∃ y, u.tracker.entry i = some y ∧ y.flags.closedBySettings = true ∧ y.state = x.leavesTo
                  ∧ y.finish = some finish ∧ y.duration = some (x.durationTo finish)
                  ∧ (y.kind, y.phases, y.start, y.halfCycles, y.steady, y.slot) = (x.kind, x.phases, x.start, x.halfCycles, x.steady, x.slot)))
            ∧ u.tracker.commitQueue = s.tracker.commitQueue
              ++ ((filled settled.tracker.entries).filter fun e => e.2.state == .opened && e.2.leavesTo == .commitWait).map (·.1))
          ∧ (structural n.changed = false → u.tracker.marks = s.tracker.marks ∧ u.tracker.detectors = s.tracker.detectors
            ∧ u.tracker.windowFlag = s.tracker.windowFlag ∧ u.tracker.commitQueue = s.tracker.commitQueue
            ∧ ∀ i, u.tracker.entry i = settled.tracker.entry i)))
    ∧ (s.reports.applyCapture = n :: rest →
      Completes (.applyNotification .capture) s
        { s with
          reports := { s.reports with applyCapture := rest }
          capture := { s.capture with preCycles := set.preCycles, postCycles := set.postCycles } })
    ∧ (s.reports.applyAggregator = n :: rest →
      Completes (.applyNotification .aggregator) s
        { s with reports := { s.reports with applyAggregator := rest }, agg := { s.agg with inForce := n.inForce } })
    ∧ (s.reports.applyLink = n :: rest →
      ∃ u, Completes (.applyNotification .link) s u
        ∧ u = { s with reports := { s.reports with applyLink := rest }, link := u.link }
        ∧ u.link.exportThreshold = set.exportThreshold ∧ u.link.lineRate = s.link.lineRate
        ∧ (SettingId.attentionMask ∈ n.changed ∨ SettingId.attentionMode ∈ n.changed →
            u.link.mask = set.attentionMask ∧ u.link.mode = set.attentionMode)
        ∧ (SettingId.attentionMask ∉ n.changed → SettingId.attentionMode ∉ n.changed →
            u.link.mask = s.link.mask ∧ u.link.mode = s.link.mode))

/-- INTERVAL_BOUNDARY. With a pending set, in this order: it becomes the active set, the generation rises, nothing is pending, the staged
set stays, a SETTINGS image request and behind it the SETTINGS_APPLIED marker are queued, and each of the five blocks is notified.
Without one the report changes nothing (R194). Shown with room for both items in the marker queue. -/
def Obligations.BoundaryAppliesPendingSet : Prop :=
  ∀ (t : TimeStamp) (rest : List TimeStamp) (s : State), s.coreRunning = true → s.reports.boundaries = t :: rest →
    (s.settings.pending = none →
      exec .intervalBoundary s = .next { s with reports := { s.reports with boundaries := rest } })
    ∧ ∀ p, s.settings.pending = some p → s.settings.generation + 1 < 2 ^ 32 → s.store.markerQueue.length < 7 →
      .image .settings ∉ s.store.markerQueue →
      let g := s.settings.generation + 1
      let ids := SettingId.all.filter fun i => s.settings.active.get i != p.get i
      let n : Notice := ⟨⟨p, g⟩, ids⟩
      Completes .intervalBoundary s
        { s with
          settings := { active := p, generation := g, staged := s.settings.staged, pending := none }
          store := { s.store with
            markerQueue := s.store.markerQueue ++ [.image .settings, .marker s.now (.settingsApplied g ids)] }
          reports :=
            { s.reports with
              boundaries := rest
              applyMeasurement := s.reports.applyMeasurement ++ [n], applyTracker := s.reports.applyTracker ++ [n]
              applyCapture := s.reports.applyCapture ++ [n], applyAggregator := s.reports.applyAggregator ++ [n]
              applyLink := s.reports.applyLink ++ [n] } }

/-- SET_SETTINGS (R191). The pairs are judged in list order: a pair is bad when its identifier is none of R189 or its value is outside the
identifier's range. With a bad pair the reply is BAD_ARGUMENT with the identifier of the first, and the staged set stays. Otherwise
each value replaces the staged value of its identifier in list order, and the reply is OK; nothing else changes. -/
def Obligations.SetSettingsJudgesPairs : Prop :=
  (∀ v, SettingId.intervalLength.inRange v = true ↔ 60 ≤ v ∧ v ≤ 3600 ∧ v ∣ 3600)
  ∧ ∀ (tag : Byte) (body : List Byte) (s : State), s.serving → body.length ≤ 1024 →
    let pairs := pairsOf body.length body
    let bad (p : Nat × Nat) : Prop := ∀ i : SettingId, SettingId.ofCode p.1 = some i → i.inRange p.2 = false
    (body.length % 5 ≠ 0 → Completes (.setSettings tag body) s (s.sending 0x91 tag [0x06]))
    ∧ (body.length % 5 = 0 → ∀ before p after, pairs = before ++ p :: after → (∀ q ∈ before, ¬ bad q) → bad p →
      Completes (.setSettings tag body) s (s.sending 0x91 tag (0x05 :: field 1 p.1)))
    ∧ (body.length % 5 = 0 → (∀ q ∈ pairs, ¬ bad q) →
      Completes (.setSettings tag body) s
        (State.sending 0x91 tag [0x00]
          { s with settings := { s.settings with
              staged := pairs.foldl
                (fun set p => match SettingId.ofCode p.1 with
                  | some i => set.put i p.2
                  | none => set) s.settings.staged } }))

/-- The pairs of GET_SETTINGS sent back with SET_SETTINGS give the same set, whatever was staged: every identifier's code, width and range
is the same in both directions. -/
def Obligations.SettingsPairsRoundTrip : Prop :=
  ∀ set staged : Settings, (∀ i : SettingId, i.inRange (set.get i) = true) →
    (settingsPairs set).length = 95
    ∧ (∀ p ∈ pairsOf 95 (settingsPairs set), badPair p = false)
    ∧ (pairsOf 95 (settingsPairs set)).foldl Settings.putPair staged = set

/-- APPLY_SETTINGS (R193): the two binding conditions are judged on the staged set in order; when both hold, the pending set is a copy of
the staged set in place of any earlier one. DISCARD_STAGED (R192): the staged set is a copy of the active set and nothing is pending.
-/
def Obligations.ApplyAndDiscard : Prop :=
  ∀ (tag : Byte) (s : State), s.serving →
    let set := s.settings.staged
    (32 < set.preCycles + set.postCycles → Completes (.applySettings tag []) s (s.sending 0x92 tag [0x05, 0x0C]))
    ∧ (set.preCycles + set.postCycles ≤ 32 → set.dip ≤ set.interruption + set.hysteresis →
      Completes (.applySettings tag []) s (s.sending 0x92 tag [0x05, 0x05]))
    ∧ (set.preCycles + set.postCycles ≤ 32 → set.interruption + set.hysteresis < set.dip →
      Completes (.applySettings tag []) s
        (State.sending 0x92 tag [0x00] { s with settings := { s.settings with pending := some set } }))
    ∧ Completes (.discardStaged tag []) s
        (State.sending 0x93 tag [0x00, if s.settings.pending.isSome then 1 else 0]
          { s with settings := { s.settings with staged := s.settings.active, pending := none } })

/-! ## Link (chapter 9) -/

/-- The dispatch of a request that enters the slot (R174): a kind assigned to no request is answered UNKNOWN_KIND with reply kind 0xFF and
the received kind; while the start-up scan has not concluded, every kind but IDENTIFY, GET_STATUS, ACK_CAUSES, GET_TIME and SET_TIME is
answered STARTING; a body length that does not suit the kind is answered BAD_LENGTH, where the lengths are fixed but for SET_SETTINGS,
which takes whole pairs; and these three have no effect but the reply. Otherwise the block that serves the kind gives the reply. Every
reply that leaves the slot has the request's kind plus 0x80, in the first case 0xFF, and the request's tag. -/
def Obligations.DispatchJudgesInOrder : Prop :=
  (∀ (kind tag : Byte) (body : List Byte) (s : State), s.ready →
    let assigned := kind.toNat ∈ assignedKinds
    let starting := s.store.scan.isSome = true ∧ kind.toNat ∉ [0x01, 0x02, 0x03, 0x18, 0x19]
    (¬ assigned → s.completeFrame kind tag body = s.sending 0xFF tag [0x07, kind])
    ∧ (assigned → starting → s.completeFrame kind tag body = s.sending (kind + 0x80) tag [0x02])
    ∧ (assigned → ¬ starting → lengthSuits kind.toNat body.length = false →
        s.completeFrame kind tag body = s.sending (kind + 0x80) tag [0x06])
    ∧ (assigned → ¬ starting → lengthSuits kind.toNat body.length = true →
        s.completeFrame kind tag body = (s.holding kind tag).serve kind.toNat tag body))
  ∧ (∀ n, lengthSuits 0x11 n = true ↔ 5 ∣ n)
  ∧ (∀ p ∈ [(0x01, 0), (0x02, 0), (0x03, 1), (0x04, 2), (0x10, 1), (0x12, 0), (0x13, 0), (0x18, 6), (0x19, 0), (0x20, 0), (0x28, 5),
        (0x29, 5), (0x2A, 4), (0x2B, 0), (0x2C, 0), (0x30, 17), (0x31, 2), (0x32, 2), (0x33, 0), (0x34, 2), (0x35, 4), (0x40, 1),
        (0x41, 0), (0x71, 0), (0x7E, 0)], ∀ n, lengthSuits p.1 n = true ↔ n = p.2)
  ∧ ∀ (base : Option Nat) (kind tag : Byte) (body : List Byte) (l : Link), l.tx = none → l.slot = some ⟨kind, tag, some body⟩ →
    ∃ f, (l.choose base).tx = some f ∧ f.tag = tag ∧ f.body = body ∧ (l.choose base).slot = none
      ∧ f.kind = (if kind.toNat ∈ assignedKinds then kind + 0x80 else 0xFF)

/-- UNKNOWN_KIND: a complete frame of an unassigned kind is answered UNKNOWN_KIND, and nothing else changes (R174). OVERRUN: a complete frame
that finds the slot HELD, other than an ABORT without body, is discarded: the overrun count rises, LINK is latched, and the request
held stays as it is; once a RESTART reply has been produced, a frame changes nothing at all (R173). -/
def Obligations.UnknownKindAndOverrun : Prop :=
  ∀ (kind tag : Byte) (body : List Byte) (s : State), body.length ≤ 1024 →
    (s.ready → kind.toNat ∉ assignedKinds → Completes (.unknownKind kind tag body) s (s.sending 0xFF tag [0x07, kind]))
    ∧ (∀ h, s.listens = true → s.link.rx = Receiver.hunting → s.link.slot = some h → ¬(kind = 0x7E ∧ body = []) →
      s.link.counters.overrun < 4294967295 →
      ∃ u, Completes (.overrun kind tag body) s u ∧ u = { s with link := u.link } ∧ u.link.slot = some h
        ∧ u.link.counters = { s.link.counters with overrun := s.link.counters.overrun + 1 }
        ∧ u.link.causes = s.link.causes ||| Cause.link.bit
        ∧ (u.link.tx, u.link.fifo, u.link.rx) = (s.link.tx, s.link.fifo, s.link.rx))
    ∧ (s.link.restarting = true → s.completeFrame kind tag body = s)

/-- RX_TIMEOUT: when the characters leave the receiver inside a frame, the frame is discarded, the timeout count rises, LINK is latched and
the receiver is in HUNT; in HUNT the gap changes nothing (R172). -/
def Obligations.GapInsideFrameTimesOut : Prop :=
  ∀ (chars : List RxChar) (s : State),
    let r := s.receiveAll chars
    (r.link.rx.state = .hunt → Completes (.rxTimeout chars) s r)
    ∧ (r.listens = true → r.link.rx.state ≠ .hunt → r.link.counters.timeout < 4294967295 →
      ∃ u, Completes (.rxTimeout chars) s u ∧ u = { r with link := u.link } ∧ u.link.rx = Receiver.hunting
        ∧ u.link.counters = { r.link.counters with timeout := r.link.counters.timeout + 1 }
        ∧ u.link.causes = r.link.causes ||| Cause.link.bit ∧ (u.link.slot, u.link.tx) = (r.link.slot, r.link.tx))

/-- CHECK_FAILURE. The characters have their effect on the receiver. A frame whose last check byte is another one, a length above 1024, or
a framing error inside a frame ends as a check failure: the check-fail count rises, LINK is latched, the receiver is in HUNT, and no
request enters the slot. A framing error in HUNT changes nothing (R169, R172). -/
def Obligations.CheckFailureDiscardsFrame : Prop :=
  (∀ (chars : List RxChar) (s : State), Completes (.checkFailure chars) s (s.receiveAll chars))
  ∧ ∀ s : State, s.listens = true → s.link.counters.checkFail < 4294967295 →
    let failed (t : State) : Prop := t = { s with link := t.link } ∧ t.link.rx = Receiver.hunting
      ∧ t.link.counters = { s.link.counters with checkFail := s.link.counters.checkFail + 1 }
      ∧ t.link.causes = s.link.causes ||| Cause.link.bit ∧ (t.link.slot, t.link.tx) = (s.link.slot, s.link.tx)
    (∀ kind tag body most last other, s.link.rx = Receiver.hunting → body.length ≤ 1024 →
      frameBytes kind tag body = most ++ [last] → other ≠ last → failed (s.receiveAll ((most ++ [other]).map .data)))
    ∧ (∀ lo hi : Byte, s.link.rx = Receiver.hunting → 1024 < lo.toNat + 256 * hi.toNat →
      failed (s.receiveAll [.data 0xA5, .data lo, .data hi]))
    ∧ (s.link.rx.state ≠ .hunt → failed (s.receive .framingError))
    ∧ (s.link.rx.state = .hunt → s.receive .framingError = s)

/-- FRAME_SENT: the transmitter chooses again. A ready reply goes first and empties the slot; else, with watch on and at least the
threshold's number of sets waiting, a WATCH frame takes up to 16 of the oldest, with the drop count, which returns to 0, and the frame
counter as its tag, which rises by one; else the transmitter is IDLE (R176, R187). The STARTING reply of an ABORT that found the slot HELD
during the start-up scan goes behind a ready reply and ahead of a WATCH frame (log 42, the model's choice). When the frame was a RESTART
reply the core stops for the stability wait (R156, R180). -/
def Obligations.TransmitterChoosesNextFrame : Prop :=
  ∀ (f : TxFrame) (s : State), s.coreRunning = true → s.link.tx = some f →
    (f.restarts = true →
      ∃ t, exec .frameSent s = .next t ∧ t.supply.power = .wait ∧ t.attnLow = false ∧ t.link.tx = none ∧ t.link.slot = none
        ∧ t.link.causes = 0 ∧ (t.time.sec, t.time.ms, t.time.epoch) = (s.time.sec, s.time.ms, s.time.epoch))
    ∧ (f.restarts = false →
      ∃ l, exec .frameSent s = .next { s with link := l }
        ∧ (∀ kind tag body, s.link.slot = some ⟨kind, tag, some body⟩ →
            l = { s.link with slot := none, tx := some ⟨replyKind kind, tag, body, s.link.restarting && kind == 0x71⟩ })
        ∧ (∀ tag later, (∀ kind tag body, s.link.slot ≠ some ⟨kind, tag, some body⟩) → s.link.startingAborts = tag :: later →
            s.link.restarting = false →
            l = { s.link with startingAborts := later, tx := some ⟨0xFE, tag, [0x02], false⟩ })
        ∧ ((∀ kind tag body, s.link.slot ≠ some ⟨kind, tag, some body⟩) → s.link.startingAborts = [] →
          (∀ n, s.link.watch = some n → n ≤ s.link.fifo.length → s.link.restarting = false →
            ∃ body, l.tx = some ⟨0xF0, s.link.frameCounter, body, false⟩
              ∧ body = field 4 s.link.dropCount ++ field 1 (min 16 s.link.fifo.length) ++ reserved 3
                  ++ (s.link.fifo.take 16).flatMap (windowBlock s.time.base)
              ∧ l.fifo = s.link.fifo.drop 16 ∧ l.dropCount = 0 ∧ l.frameCounter = s.link.frameCounter + 1
              ∧ (l.slot, l.causes, l.watch, l.counters) = (s.link.slot, s.link.causes, s.link.watch, s.link.counters))
          ∧ (s.link.watch = none ∨ s.link.restarting = true ∨ (∃ n, s.link.watch = some n ∧ s.link.fifo.length < n) →
            l = { s.link with tx := none })))

/-- ATTN. In LEVEL mode it is low exactly when a latched cause is in the mask, in PULSE mode while a pulse runs; it is released while the core
does not run or the settings area has not been read. Latching a cause keeps every other, and begins a pulse exactly when the cause is in
the mask and was clear; ATTN_PULSE_END ends the pulse (R182, R185, R188). -/
def Obligations.AttentionFollowsCauses : Prop :=
  (∀ s : State, s.coreRunning = true → s.link.listening = true →
    (s.link.mode = .level → (s.attnLow = true ↔ s.link.causes &&& s.link.mask ≠ 0))
    ∧ (s.link.mode = .pulse → (s.attnLow = true ↔ s.link.pulse = true)))
  ∧ (∀ s : State, s.coreRunning = false ∨ s.link.listening = false → s.attnLow = false)
  ∧ (∀ (c : Cause) (l : Link), (l.latch c).causes = l.causes ||| c.bit
    ∧ (l.listening = true → l.mode = .pulse → l.pulse = false →
        ((l.latch c).pulse = true ↔ l.causes &&& c.bit = 0 ∧ l.mask &&& c.bit ≠ 0)))
  ∧ ∀ s : State, s.coreRunning = true →
    exec .attnPulseEnd s = .next { s with link := { s.link with pulse := false } }

/-- ACK_CAUSES clears the named causes that are latched, but a condition cause whose condition holds is latched again; naming a clear cause
has no effect. The reply is OK with the latched set as it then stands (R182). It is served while the start-up scan runs too (R174). The
EXPORT_READY condition holds while the unexported count is at or above the export threshold or SATURATED is set; it is judged at each
commit, each rise of the export mark and each apply notification, and latches EXPORT_READY when it begins (R183). -/
def Obligations.AcknowledgeClearsNamedCauses : Prop :=
  (∀ (r : Record) (mark : Nat) (n : Notice) (s : State),
    (∀ u, u = s.judgeExport ∨ u = s.reportCommit r ∨ u = s.raiseMark mark ∨ u = s.applyLink n →
      (u.link.exportCondition = true ↔ u.link.exportThreshold ≤ u.store.unexportedList.length ∨ u.store.saturated = true))
    ∧ (s.judgeExport.link.exportCondition = true → s.link.exportCondition = false →
        s.judgeExport.link.causes = s.link.causes ||| Cause.exportReady.bit)
    ∧ (s.judgeExport.link.exportCondition = false ∨ s.link.exportCondition = true → s.judgeExport.link.causes = s.link.causes))
  ∧ ∀ (tag named : Byte) (s : State), s.ready →
    ∃ causes, Completes (.ackCauses tag [named]) s
        (State.sending 0x83 tag [0x00, causes] { s with link := { s.link with causes := causes } })
      ∧ ∀ c : Cause, causes &&& c.bit = c.bit ↔ s.link.causes &&& c.bit = c.bit
          ∧ (named &&& c.bit = 0 ∨ (c = .exportReady ∧ s.link.exportCondition = true)
            ∨ (c = .clock ∧ s.link.clockCondition = true))

/-- Attention mask and mode (R184). At a start they are those of the settings loaded. SET_ATTENTION replaces both with the reply OK; a mode
that is neither LEVEL nor PULSE is answered BAD_ARGUMENT and changes nothing. An apply notification whose changed identifiers include
the mask or the mode replaces both with the new set's; any other leaves them. SET_ATTENTION does not change the settings. -/
def Obligations.AttentionMaskAndMode : Prop :=
  (∀ (set : Settings) (g : Nat) (s : State),
    (s.loadSettings set g).link.mask = set.attentionMask ∧ (s.loadSettings set g).link.mode = set.attentionMode)
  ∧ (∀ (tag mask code : Byte) (s : State), s.serving →
    (∀ mode, (code = 0 ∧ mode = AttnMode.level) ∨ (code = 1 ∧ mode = AttnMode.pulse) →
      Completes (.setAttention tag [mask, code]) s
        (State.sending 0x84 tag [0x00]
          { s with link := { s.link with mask := mask, mode := mode, pulse := s.link.pulse && mode == s.link.mode } }))
    ∧ (code ≠ 0 → code ≠ 1 → Completes (.setAttention tag [mask, code]) s (s.sending 0x84 tag [0x05])))
  ∧ ∀ (n : Notice) (s : State),
    let t := s.applyLink n
    (SettingId.attentionMask ∈ n.changed ∨ SettingId.attentionMode ∈ n.changed →
      t.link.mask = n.inForce.set.attentionMask ∧ t.link.mode = n.inForce.set.attentionMode)
    ∧ (SettingId.attentionMask ∉ n.changed → SettingId.attentionMode ∉ n.changed →
      t.link.mask = s.link.mask ∧ t.link.mode = s.link.mode)
    ∧ t.settings = s.settings

/-- The requests that only report change nothing but the transmitter, which sends their reply. IDENTIFY, GET_STATUS and GET_TIME are served
while the start-up scan runs too. IDENTIFY carries power state, start cause, revision, vendor code 0x0D4B, part code 416, serial number and
generation (R181); GET_TIME the quality and the time stamp (R150); GET_SETTINGS, for STAGED and ACTIVE, the pending mark, the generation
and every value of the set, and for any other name BAD_ARGUMENT (R192). -/
def Obligations.ReportsChangeNothing : Prop :=
  (∀ (tag : Byte) (s : State), s.ready →
    Completes (.identify tag []) s (s.sending 0x81 tag
      (0x00 :: (field 1 s.supply.power.code ++ field 1 s.supply.startCause.code ++ [Config.siliconRevision] ++ [0x4B, 0x0D, 0xA0, 0x01]
        ++ field 8 Config.serialNumber.toNat ++ field 4 s.settings.generation)))
    ∧ Completes (.getStatus tag []) s (s.sending 0x82 tag (0x00 :: s.status))
    ∧ Completes (.getTime tag []) s (s.sending 0x99 tag
      (0x00 :: (field 1 ((if s.time.qualitySet then 1 else 0) + (if s.supply.cellLow then 128 else 0)) ++ [0x00, 0x00]
        ++ stampBytes s.now))))
  ∧ ∀ (tag : Byte) (s : State), s.serving →
    (∃ rest, Completes (.getLive tag []) s (s.sending 0xA0 tag (0x00 :: rest))
      ∧ rest.head? = some (byte (bits [s.meas.latestWindow.isSome, s.meas.latestFrequency.isSome])))
    ∧ (∃ rest, Completes (.getStore tag []) s (s.sending 0xAB tag (0x00 :: rest)))
    ∧ (∃ rest, Completes (.listCases tag []) s (s.sending 0xB3 tag (0x00 :: rest)))
    ∧ (∀ name : Byte, ∀ set, (name = 0 ∧ set = s.settings.staged) ∨ (name = 1 ∧ set = s.settings.active) →
      Completes (.getSettings tag [name]) s (s.sending 0x90 tag
        (0x00 :: (field 1 (if s.settings.pending.isSome then 1 else 0) ++ [0x00, 0x00] ++ field 4 s.settings.generation
          ++ SettingId.all.flatMap fun i => field 1 i.code ++ field 4 (set.get i)))))
    ∧ (∀ name : Byte, name ≠ 0 → name ≠ 1 → Completes (.getSettings tag [name]) s (s.sending 0x90 tag [0x05]))
    ∧ (∀ body : List Byte, body.length = 2 → s.findCase (fieldAt body 0 2) = none →
      Completes (.caseSummary tag body) s (s.sending 0xB4 tag [0x08]))
    ∧ (∀ (body : List Byte) (i : Nat) (c : CaseSlot), body.length = 2 → s.findCase (fieldAt body 0 2) = some (i, c) →
      Completes (.caseSummary tag body) s (s.sending 0xB4 tag (0x00 :: c.summary)))
    ∧ ∀ (body : List Byte) (i : Nat) (c : CaseSlot), body.length = 4 → s.findCase (fieldAt body 0 2) = some (i, c) →
      (c.list.length < fieldAt body 2 2 → Completes (.caseRecords tag body) s (s.sending 0xB5 tag [0x05]))
      ∧ (fieldAt body 2 2 ≤ c.list.length →
        ∃ head, Completes (.caseRecords tag body) s (s.sending 0xB5 tag
          (0x00 :: (head ++ ((c.list.drop (fieldAt body 2 2)).take 64).flatMap (field 4)))) ∧ head.length = 7)

/-- SET_TIME (R151, R152). A millisecond field above 999 is BAD_ARGUMENT. With quality SET and a new time within one second of the clock it is
a correction: the clock takes the time, and epoch, quality and step reports stay. Otherwise it is a step: the epoch, or the unsettled
step count, rises by one, 65535 wrapping to 0, the quality is SET, a TIME_SET marker with both times is queued, and the three step reports
go out. It is served while the start-up scan runs too (R174). -/
def Obligations.SetTimeCorrectsOrSteps : Prop :=
  ∀ (tag : Byte) (body : List Byte) (s : State), s.ready → body.length = 6 →
    let new : WTime := ⟨fieldAt body 0 4, fieldAt body 4 2⟩
    let near := s.time.qualitySet = true ∧ new.toMs ≤ s.nowMs + 1000 ∧ s.nowMs ≤ new.toMs + 1000
    (999 < new.ms → Completes (.setTime tag body) s (s.sending 0x98 tag [0x05]))
    ∧ (new.ms ≤ 999 →
      ∃ u, Completes (.setTime tag body) s u ∧ u.link.tx = some ⟨0x98, tag, [0x00], false⟩
        ∧ u.time.sec = new.sec ∧ u.time.ms = new.ms ∧ u.time.qualitySet = true
        ∧ (∀ a, a ∈ u.time.arrivals ↔ a ∈ s.time.arrivals ∧ new.toMs < a.at_ms)
        ∧ (u.supply, u.meas, u.tracker, u.capture, u.agg, u.settings, u.cases)
            = (s.supply, s.meas, s.tracker, s.capture, s.agg, s.settings, s.cases)
        ∧ (near → u.time.epoch = s.time.epoch ∧ u.store = s.store ∧ u.reports.stepToTracker = s.reports.stepToTracker
            ∧ u.reports.stepToAggregator = s.reports.stepToAggregator)
        ∧ (¬ near →
            (∀ n, s.time.epoch = .settled n → u.time.epoch = .settled ((n + 1) % 65536))
            ∧ (∀ k, s.time.epoch = .unsettled k → u.time.epoch = .unsettled (k + 1))
            ∧ u.reports.stepToTracker = s.reports.stepToTracker ++ [u.time.epoch]
            ∧ u.reports.stepToAggregator = s.reports.stepToAggregator + 1 ∧ .step ∈ u.reports.timeToCases
            ∧ (s.store.markerQueue.length < 8 →
              u.store.markerQueue = s.store.markerQueue
                ++ [.marker ⟨new.sec, new.ms, u.time.epoch⟩ (.timeSet s.now ⟨new.sec, new.ms, u.time.epoch⟩)])))

/-- READ_RECORDS and READ_CAPTURE at their arrival (R177, R178): a max count of 0 or a segment above 63 is BAD_ARGUMENT; in HOLDUP and
FORMATTING the reply is BUSY_STORE; with no block that could hold the record it is NOT_FOUND; otherwise the request is handed to the
store writer and its slot stays HELD. -/
def Obligations.HostReadsAreHandedOver : Prop :=
  ∀ (tag : Byte) (body : List Byte) (s : State), s.serving → body.length = 5 →
    let seq := fieldAt body 0 4
    let n := fieldAt body 4 1
    let busy := s.supply.power = .holdup ∨ s.store.state = .formatting
    let hand (kind : Byte) (q : HostRequest) : State :=
      { s.holding kind tag with store := { s.store with hostRequest := some q } }
    (n = 0 → Completes (.readRecords tag body) s (s.sending 0xA8 tag [0x05]))
    ∧ (n ≠ 0 → busy → Completes (.readRecords tag body) s (s.sending 0xA8 tag [0x03]))
    ∧ (n ≠ 0 → ¬ busy → (∀ e ∈ s.store.recordBlocks, optNum e.2.lastRecord < seq) →
        Completes (.readRecords tag body) s (s.sending 0xA8 tag [0x08]))
    ∧ (n ≠ 0 → ¬ busy → (∃ e ∈ s.store.recordBlocks, seq ≤ optNum e.2.lastRecord) →
        Completes (.readRecords tag body) s (hand 0x28 (.records seq n)))
    ∧ (63 < n → Completes (.readCapture tag body) s (s.sending 0xA9 tag [0x05]))
    ∧ (n ≤ 63 → busy → Completes (.readCapture tag body) s (s.sending 0xA9 tag [0x03]))
    ∧ (n ≤ 63 → ¬ busy → s.store.enclosing seq = none → Completes (.readCapture tag body) s (s.sending 0xA9 tag [0x08]))
    ∧ (n ≤ 63 → ¬ busy → (s.store.enclosing seq).isSome = true →
        Completes (.readCapture tag body) s (hand 0x29 (.capture seq n)))

/-- The next operation of an activation (R86): of the lowest ERASED or STALE block, the header page of an ERASED one, with the log identity
and a block sequence one above the highest held, 1 when none is; the erase of a STALE one, which is ERASING at once; none with F at 0. -/
structure Activates (s : State) : Prop where
  erased : ∀ b e, (b, e) ∈ s.store.blocks → e.state = .erased →
    (∀ a f, (a, f) ∈ s.store.blocks → a < b → f.state ≠ .erased ∧ f.state ≠ .stale) →
    ∃ seq, s.activate = some { s with store := { s.store with
        op := some (.program b 0 (.header b s.store.identity seq (s.now.resolve s.time.base)) .header) } }
      ∧ (∀ a f q, (a, f) ∈ s.store.blocks → f.blockSeq = some q → q < seq)
      ∧ (seq = 1 ∨ ∃ f ∈ s.store.index, f.blockSeq = some (seq - 1))
  stale : ∀ b e, (b, e) ∈ s.store.blocks → e.state = .stale →
    (∀ a f, (a, f) ∈ s.store.blocks → a < b → f.state ≠ .erased ∧ f.state ≠ .stale) →
    ∃ t, s.activate = some t ∧ t.store.op = some (.erase b .activation)
      ∧ t.store.block b = some { e with state := .erasing, blockSeq := none } ∧ ∀ a, a ≠ b → t.store.block a = s.store.block a
  noRoom : (∀ b e, (b, e) ∈ s.store.blocks → e.state ≠ .erased ∧ e.state ≠ .stale) → s.activate = none

/-- The steps of a running format as the writer takes them (R97), none in HOLDUP (R98): the image of the new identity and floor; the erase
of the lowest block from `b` on that is not BAD, which loses its sequences, span and bound at once, and ends as ACTIVE; the first block; the
FORMAT marker, ahead of every queued one; the image with the export mark. With no block left to activate the format ends. -/
structure FormatSteps (s : State) : Prop where
  waits : s.inHoldup = true → ∀ f, s.formatStep f = none
  identity : s.inHoldup = false → ∃ (w : ImageWork) (n : Nat), s.formatStep .start = some (s.setJob (some (.image w)))
    ∧ (w.kind, w.who, w.stage, w.timeouts) = (.settings, .formatStart, .own, 0)
    ∧ w.data = .settings n { s.settingsImage with identity := s.store.newestSeq + 1, floor := s.store.newestSeq }
  erases : ∀ b c e, s.inHoldup = false → (c, e) ∈ s.store.blocks → b ≤ c → e.state ≠ .bad →
    (∀ a f, (a, f) ∈ s.store.blocks → b ≤ a → a < c → f.state = .bad) →
    ∃ t, s.formatStep (.erase b) = some t ∧ (t.store.op, t.store.format) = (some (.erase c .format), some (.erase (c + 1)))
      ∧ t.store.block c = some { e with state := .erasing, blockSeq := none, firstRecord := none, lastRecord := none,
                                         earliest := none, latest := none, unexported := none }
      ∧ (∀ a, a ≠ c → t.store.block a = s.store.block a) ∧ ∀ p, s.store.active = some (c, p) → t.store.active = none
  allErased : ∀ b, s.inHoldup = false → (∀ a f, (a, f) ∈ s.store.blocks → b ≤ a → f.state = .bad) →
    s.formatStep (.erase b) = some { s with store := { s.store with format := some .activate } }
  firstBlock : s.inHoldup = false →
    (s.store.active ≠ none → s.formatStep .activate = some { s with store := { s.store with format := some .marker } })
    ∧ (s.store.active = none → ∀ t, s.activate = some t → s.formatStep .activate = some t)
    ∧ (s.store.active = none → s.activate = none → ∃ t, s.formatStep .activate = some t ∧ t.store.format = none
        ∧ t.link.causes = s.link.causes ||| Cause.store.bit)
  marker : s.inHoldup = false → s.store.markerQueue.length < 8 → ∃ t j, s.formatStep .marker = some t
    ∧ t.store.job = some (.records j) ∧ (j.cls, j.timeouts) = (.formatMarker, 0)
    ∧ j.records = [.marker ⟨s.store.nextSeq, s.now.resolve s.time.base, .format s.store.identity s.store.floor⟩]
    ∧ t.store.nextSeq = s.store.nextSeq + 1 ∧ t.store.markerQueue = s.store.markerQueue
  mark : s.inHoldup = false → ∃ w : ImageWork, s.formatStep .mark = some (s.setJob (some (.image w)))
    ∧ (w.kind, w.who, w.stage, w.timeouts, w.data) = (.settings, .formatEnd, .own, 0, s.imagePage .settings)

/-- What the ends of a running format's own jobs do (R97, R98): its first image puts identity and floor in force, every BAD block loses its
block sequence, numbers and span, and erasing begins at block 2; its FORMAT marker, committed or discarded (log 35, the model's choice),
raises the export mark to the identity, but not once 13 blocks are BAD; its last image, and either image discarded, ends the format with
STORE latched, the log of before standing where the first is discarded; a log without an ACTIVE block is then due to activate one (R86). -/
structure FormatEnds (s : State) : Prop where
  begun : ∀ (w : ImageWork) (n : Nat) (image : SettingsImage), s.store.format ≠ none → w.who = .formatStart → w.data = .settings n image →
    let u := s.workDone false w
    (u.store.job, u.store.format, u.store.activationDue) = (none, some (.erase 2), false)
    ∧ (u.store.identity, u.store.floor) = (image.identity, image.floor)
    ∧ ∀ b e, s.store.block b = some e → u.store.block b = some (if e.state = .bad then
        { e with blockSeq := none, firstRecord := none, lastRecord := none, earliest := none, latest := none } else e)
  marked : ∀ (j : RecordsJob) (b : Nat) (u : State), s.store.format ≠ none → j.cls = .formatMarker →
    u = s.recordsCommitted b j ∨ u = s.discardJob (.records j) →
    (u.store.badCount < 13 → (u.store.format, u.store.exportMark) = (some .mark, s.store.identity))
    ∧ (13 ≤ u.store.badCount → (u.store.format, u.store.exportMark) = (s.store.format, s.store.exportMark))
  ended : ∀ (w : ImageWork) (u : State), s.store.format ≠ none →
    (u = s.workDone false w ∧ w.who = .formatEnd) ∨ (u = s.workFailed false w ∧ (w.who = .formatStart ∨ w.who = .formatEnd)) →
    (u.store.job, u.store.format) = (none, none) ∧ u.link.causes &&& Cause.store.bit = Cause.store.bit
    ∧ (u.store.identity, u.store.floor, u.store.exportMark, u.store.index)
      = (s.store.identity, s.store.floor, s.store.exportMark, s.store.index)
    ∧ (s.store.active = none → u.store.activationDue = true)

/-- EXPORT_MARK (R119) and FORMAT_STORE (R97) as decided at their arrival, each condition with its reply in its order. An accepted mark is
proposed, a SETTINGS image is asked for and the slot stays HELD; an accepted format makes the store FORMATTING. The steps of a running
format (R97, R98), each waiting in HOLDUP (log 21, the model's choice), what the ends of its own jobs do, its marker's discard among them
(log 35, the model's choice), and the activation of a block (R86). -/
def Obligations.ExportMarkAndFormatDecide : Prop :=
  (∀ s : State, FormatSteps s ∧ FormatEnds s ∧ Activates s)
  ∧ ∀ (tag : Byte) (body : List Byte) (s : State), s.serving → body.length = 4 →
    let seq := fieldAt body 0 4
    let newest := s.store.nextSeq - 1
    let busy := s.supply.power = .holdup ∨ s.store.state = .formatting
    let held := ∃ i, (s.case i).isSome = true
    let mark (reply : List Byte) := Completes (.exportMark tag body) s (s.sending 0xAA tag reply)
    let format (u : State) := Completes (.formatStore tag []) s u
    (busy → mark [0x03])
    ∧ (¬ busy → s.store.state = .readOnly → mark [0x0B])
    ∧ (¬ busy → s.store.state ≠ .readOnly → s.store.proposed.isSome = true → mark [0x03])
    ∧ (¬ busy → s.store.state ≠ .readOnly → s.store.proposed = none →
        (seq < s.store.exportMark ∨ newest < seq → mark [0x05])
        ∧ (¬(seq < s.store.exportMark ∨ newest < seq) → seq = s.store.exportMark → mark [0x00])
        ∧ (¬(seq < s.store.exportMark ∨ newest < seq) → seq ≠ s.store.exportMark → s.store.markerQueue.length < 8 →
          .image .settings ∉ s.store.markerQueue →
          Completes (.exportMark tag body) s
            { s.holding 0x2A tag with
              store := { s.store with proposed := some seq, markerQueue := s.store.markerQueue ++ [.image .settings] } }))
    ∧ (held → format (s.sending 0xAC tag [0x04]))
    ∧ (¬ held → busy → format (s.sending 0xAC tag [0x03]))
    ∧ (¬ held → ¬ busy → s.store.state = .readOnly → format (s.sending 0xAC tag [0x0B]))
    ∧ (¬ held → ¬ busy → s.store.state ≠ .readOnly →
        format (State.sending 0xAC tag [0x01]
          { s with store := { s.store with format := some .start, state := .formatting } }))

/-- OPEN_CASE (R125, R126). The conditions are judged in order: FORMATTING, bad arguments (a stray bit among them, log 24), a number in use, a
full table. Otherwise the lowest FREE slot takes the case; ahead of the clock and of every record it is PENDING with the reply OK, else
it is scanned, ACCEPTED; the CASE_OPENED marker is queued, and every other case keeps its number, window and phases. -/
def Obligations.OpenCaseFillsLowestSlot : Prop :=
  ∀ (tag : Byte) (body : List Byte) (s : State), s.serving → body.length = 17 →
    let a := caseAskOf body
    let bad := caseAskStray body = true ∨ a.caseNo = 0 ∨ 999 < a.start.ms ∨ a.phases.isEmpty = true
      ∨ (∃ t, a.finish = some t ∧ (999 < t.ms ∨ t.toMs < a.start.toMs ∨ a.start.toMs + 2678400000 < t.toMs))
      ∨ (a.finish = none ∧ a.start.toMs + 2678400000 < s.nowMs)
    let taken := (s.findCase a.caseNo).isSome = true
    let ahead := s.nowMs < a.start.toMs ∧ ∀ n, s.store.newestTime = some n → n * 1000 < a.start.toMs
    let refuse (code : Byte) := Completes (.openCase tag body) s (s.sending 0xB0 tag [code])
    (s.store.state = .formatting → refuse 0x04)
    ∧ (s.store.state ≠ .formatting → bad → refuse 0x05)
    ∧ (s.store.state ≠ .formatting → ¬ bad → taken → refuse 0x09)
    ∧ (s.store.state ≠ .formatting → ¬ bad → ¬ taken → freeSlot s.cases.slots = none → refuse 0x0A)
    ∧ ∀ i, s.store.state ≠ .formatting → ¬ bad → ¬ taken → freeSlot s.cases.slots = some i →
      ∃ u c, Completes (.openCase tag body) s u ∧ u.case i = some c
        ∧ (c.caseNo, c.start, c.finish, c.phases, c.opened) = (a.caseNo, a.start, a.finish, a.phases, s.now)
        ∧ (ahead → c.state = .pending ∧ c.horizon = s.cases.highWater ∧ u.link.tx = some ⟨0xB0, tag, 0x00 :: field 1 i, false⟩)
        ∧ (¬ ahead → c.state ≠ .pending ∧ u.link.tx = some ⟨0xB0, tag, 0x01 :: field 1 i, false⟩)
        ∧ (s.store.markerQueue.length < 8 →
            .marker s.now (.caseOpened i a.caseNo a.start a.finish a.phases) ∈ u.store.markerQueue)
        ∧ (∀ j, j ≠ i → (u.case j).map (fun c => (c.caseNo, c.start, c.finish, c.phases))
            = (s.case j).map fun c => (c.caseNo, c.start, c.finish, c.phases))
        ∧ (u.supply, u.meas, u.tracker, u.capture, u.agg, u.settings)
            = (s.supply, s.meas, s.tracker, s.capture, s.agg, s.settings)

/-- CLOSE_CASE (R141) and RELEASE_CASE (R142). An unknown number is NOT_FOUND. A case that is LIVE, or SCANNING with its end not reached, takes
the present as its end, and a LIVE one becomes ENDED; in any other state the close is REFUSED_STATE. A release frees the slot in any
state: it leaves every hold set and every registered time of the case. -/
def Obligations.CloseAndRelease : Prop :=
  ∀ (tag : Byte) (body : List Byte) (s : State), s.serving → body.length = 2 →
    let no := fieldAt body 0 2
    (s.findCase no = none →
      Completes (.closeCase tag body) s (s.sending 0xB1 tag [0x08])
      ∧ Completes (.releaseCase tag body) s (s.sending 0xB2 tag [0x08]))
    ∧ ∀ i c, s.findCase no = some (i, c) → s.case i = some c →
      let closable := c.state = .live
        ∨ ((c.state = .waiting ∨ c.state = .running) ∧ ∀ t, c.finish = some t → s.nowMs < t.toMs)
      (¬ closable → Completes (.closeCase tag body) s (s.sending 0xB1 tag [0x04]))
      ∧ (closable →
        ∃ u c', Completes (.closeCase tag body) s u ∧ u.link.tx = some ⟨0xB1, tag, [0x00], false⟩
          ∧ u.case i = some c' ∧ c'.finish = some ⟨s.time.sec, s.time.ms⟩
          ∧ c'.state = (if c.state = .live then .ended else c.state) ∧ onlyCase i s u
          ∧ (s.store.markerQueue.length < 7 → .marker s.now (.caseClosed i no ⟨s.time.sec, s.time.ms⟩) ∈ u.store.markerQueue)
          ∧ (u.supply, u.meas, u.tracker, u.capture, u.agg, u.settings)
              = (s.supply, s.meas, s.tracker, s.capture, s.agg, s.settings))
      ∧ ∃ u, Completes (.releaseCase tag body) s u ∧ u.link.tx = some ⟨0xB2, tag, [0x00], false⟩
          ∧ u.case i = none ∧ (∀ e ∈ u.store.index, e.holds &&& slotBit i = 0)
          ∧ (∀ a, a ∈ u.time.arrivals ↔ a ∈ s.time.arrivals ∧ a.caseNo ≠ no)
          ∧ (u.time.sec, u.time.ms, u.time.epoch) = (s.time.sec, s.time.ms, s.time.epoch)
          ∧ (u.supply, u.meas, u.tracker, u.capture, u.agg, u.settings)
              = (s.supply, s.meas, s.tracker, s.capture, s.agg, s.settings)

/-- WATCH_START and WATCH_STOP (R186). A threshold outside 1 to 16 is BAD_ARGUMENT. With watch on the threshold is replaced and FIFO, drop count
and frame counter are kept; with watch off they start empty. Stopping turns watch off, empties the FIFO and clears the drop count. While
watch is on, a window value set joins the FIFO when it holds fewer than 32 sets, and is dropped and counted twice at 32; this is shown
while a frame is being sent, when none is chosen. -/
def Obligations.WatchStartsAndStops : Prop :=
  (∀ (base : Option Nat) (w : WindowSet) (n : Nat) (f : TxFrame) (l : Link), l.watch = some n → l.tx = some f →
    (l.fifo.length < 32 → l.joinFifo base w = { l with fifo := l.fifo ++ [w] })
    ∧ (32 ≤ l.fifo.length → l.dropCount + 1 < 2 ^ 32 → l.counters.watchDrop < 4294967295 →
        l.joinFifo base w =
          { l with dropCount := l.dropCount + 1, counters := { l.counters with watchDrop := l.counters.watchDrop + 1 } }))
  ∧ ∀ (tag : Byte) (n : Byte) (s : State), s.serving →
    (n.toNat = 0 ∨ 16 < n.toNat → Completes (.watchStart tag [n]) s (s.sending 0xC0 tag [0x05]))
    ∧ (1 ≤ n.toNat → n.toNat ≤ 16 →
      (s.link.watch.isSome = true →
        Completes (.watchStart tag [n]) s
          (State.sending 0xC0 tag [0x00] { s with link := { s.link with watch := some n.toNat } }))
      ∧ (s.link.watch = none →
        Completes (.watchStart tag [n]) s
          (State.sending 0xC0 tag [0x00]
            { s with link := { s.link with watch := some n.toNat, fifo := [], dropCount := 0, frameCounter := 0 } })))
    ∧ Completes (.watchStop tag []) s
        (State.sending 0xC1 tag [0x00] { s with link := { s.link with watch := none, fifo := [], dropCount := 0 } })

/-- ABORT (R179), with the slot EMPTY or HELD: the held request ends without a reply, a host read waiting is withdrawn, watch goes off with its
FIFO empty, and ABORT's own reply is sent, or waits in the slot behind the frame being sent. Link counters, causes, cases, clock, settings,
measurement and tracker stay. RESTART (R180): in HOLDUP it is REFUSED_STATE without effect; otherwise its reply is sent as the frame after
which the core stops, and the receiver takes in no further character, not even one of a broken frame (log 29). While the start-up scan
runs an ABORT that finds the slot HELD changes nothing but that its reply STARTING is to be sent (R179, log 42). -/
def Obligations.AbortAndRestart : Prop :=
  (∀ (tag : Byte) (s : State), s.listens = true → s.link.rx = Receiver.hunting → s.store.scan = none →
    ∃ u, Completes (.abort tag []) s u
      ∧ (s.link.tx = none → u.link.tx = some ⟨0xFE, tag, [0x00], false⟩ ∧ u.link.slot = none)
      ∧ (∀ f, s.link.tx = some f → u.link.tx = some f ∧ u.link.slot = some ⟨0x7E, tag, some [0x00]⟩)
      ∧ u.link.watch = none ∧ u.link.fifo = [] ∧ u.link.dropCount = 0 ∧ u.link.rx = Receiver.hunting
      ∧ u.link.counters = s.link.counters ∧ u.link.causes &&& s.link.causes = s.link.causes
      ∧ u.store.hostRequest = none ∧ u.store.proposed = s.store.proposed ∧ u.store.array = s.store.array
      ∧ (u.time, u.supply, u.meas, u.tracker, u.capture, u.agg, u.settings, u.cases)
          = (s.time, s.supply, s.meas, s.tracker, s.capture, s.agg, s.settings, s.cases))
  ∧ (∀ (tag : Byte) (f : TxFrame) (h : Held) (s : State), s.listens = true → s.link.rx = Receiver.hunting →
    s.store.scan.isSome = true → s.link.slot = some h → s.link.tx = some f →
    Completes (.abort tag []) s { s with link := { s.link with startingAborts := s.link.startingAborts ++ [tag] } })
  ∧ ∀ (tag : Byte) (s : State), s.serving →
    (s.supply.power = .holdup → Completes (.restart tag []) s (s.sending 0xF1 tag [0x04]))
    ∧ (s.supply.power ≠ .holdup →
      Completes (.restart tag []) s
        { s with link := { s.link with restarting := true, tx := some ⟨0xF1, tag, [0x00], true⟩ } })
    ∧ ∀ (t : State) (c : RxChar), t.link.restarting = true → t.receive c = t
end

