-- ==== Sys2Proof/Laws/State.lean ====
section
/-!
SUPPORT. What each plain update of the state leaves in each field: one lemma for each update and each field, so that no
proof unfolds a record update.
-/

namespace Sys2Proof.Machine

@[simp] theorem State.modifyStore_pending (s : State) (f : Store → Store) : (s.modifyStore f).pending = s.pending := rfl
@[simp] theorem State.modifyStore_supply (s : State) (f : Store → Store) : (s.modifyStore f).supply = s.supply := rfl
@[simp] theorem State.modifyStore_time (s : State) (f : Store → Store) : (s.modifyStore f).time = s.time := rfl
@[simp] theorem State.modifyStore_meas (s : State) (f : Store → Store) : (s.modifyStore f).meas = s.meas := rfl
@[simp] theorem State.modifyStore_tracker (s : State) (f : Store → Store) : (s.modifyStore f).tracker = s.tracker := rfl
@[simp] theorem State.modifyStore_capture (s : State) (f : Store → Store) : (s.modifyStore f).capture = s.capture := rfl
@[simp] theorem State.modifyStore_agg (s : State) (f : Store → Store) : (s.modifyStore f).agg = s.agg := rfl
@[simp] theorem State.modifyStore_store (s : State) (f : Store → Store) : (s.modifyStore f).store = f s.store := rfl
@[simp] theorem State.modifyStore_settings (s : State) (f : Store → Store) : (s.modifyStore f).settings = s.settings := rfl
@[simp] theorem State.modifyStore_cases (s : State) (f : Store → Store) : (s.modifyStore f).cases = s.cases := rfl
@[simp] theorem State.modifyStore_link (s : State) (f : Store → Store) : (s.modifyStore f).link = s.link := rfl
@[simp] theorem State.modifyStore_reports (s : State) (f : Store → Store) : (s.modifyStore f).reports = s.reports := rfl

@[simp] theorem State.modifyTracker_pending (s : State) (f : Tracker → Tracker) : (s.modifyTracker f).pending = s.pending := rfl
@[simp] theorem State.modifyTracker_supply (s : State) (f : Tracker → Tracker) : (s.modifyTracker f).supply = s.supply := rfl
@[simp] theorem State.modifyTracker_time (s : State) (f : Tracker → Tracker) : (s.modifyTracker f).time = s.time := rfl
@[simp] theorem State.modifyTracker_meas (s : State) (f : Tracker → Tracker) : (s.modifyTracker f).meas = s.meas := rfl
@[simp] theorem State.modifyTracker_tracker (s : State) (f : Tracker → Tracker) : (s.modifyTracker f).tracker = f s.tracker := rfl
@[simp] theorem State.modifyTracker_capture (s : State) (f : Tracker → Tracker) : (s.modifyTracker f).capture = s.capture := rfl
@[simp] theorem State.modifyTracker_agg (s : State) (f : Tracker → Tracker) : (s.modifyTracker f).agg = s.agg := rfl
@[simp] theorem State.modifyTracker_store (s : State) (f : Tracker → Tracker) : (s.modifyTracker f).store = s.store := rfl
@[simp] theorem State.modifyTracker_settings (s : State) (f : Tracker → Tracker) : (s.modifyTracker f).settings = s.settings := rfl
@[simp] theorem State.modifyTracker_cases (s : State) (f : Tracker → Tracker) : (s.modifyTracker f).cases = s.cases := rfl
@[simp] theorem State.modifyTracker_link (s : State) (f : Tracker → Tracker) : (s.modifyTracker f).link = s.link := rfl
@[simp] theorem State.modifyTracker_reports (s : State) (f : Tracker → Tracker) : (s.modifyTracker f).reports = s.reports := rfl

@[simp] theorem State.modifyCapture_pending (s : State) (f : Capture → Capture) : (s.modifyCapture f).pending = s.pending := rfl
@[simp] theorem State.modifyCapture_supply (s : State) (f : Capture → Capture) : (s.modifyCapture f).supply = s.supply := rfl
@[simp] theorem State.modifyCapture_time (s : State) (f : Capture → Capture) : (s.modifyCapture f).time = s.time := rfl
@[simp] theorem State.modifyCapture_meas (s : State) (f : Capture → Capture) : (s.modifyCapture f).meas = s.meas := rfl
@[simp] theorem State.modifyCapture_tracker (s : State) (f : Capture → Capture) : (s.modifyCapture f).tracker = s.tracker := rfl
@[simp] theorem State.modifyCapture_capture (s : State) (f : Capture → Capture) : (s.modifyCapture f).capture = f s.capture := rfl
@[simp] theorem State.modifyCapture_agg (s : State) (f : Capture → Capture) : (s.modifyCapture f).agg = s.agg := rfl
@[simp] theorem State.modifyCapture_store (s : State) (f : Capture → Capture) : (s.modifyCapture f).store = s.store := rfl
@[simp] theorem State.modifyCapture_settings (s : State) (f : Capture → Capture) : (s.modifyCapture f).settings = s.settings := rfl
@[simp] theorem State.modifyCapture_cases (s : State) (f : Capture → Capture) : (s.modifyCapture f).cases = s.cases := rfl
@[simp] theorem State.modifyCapture_link (s : State) (f : Capture → Capture) : (s.modifyCapture f).link = s.link := rfl
@[simp] theorem State.modifyCapture_reports (s : State) (f : Capture → Capture) : (s.modifyCapture f).reports = s.reports := rfl

@[simp] theorem State.modifyCase_pending (s : State) (f : CaseSlot → CaseSlot) (i : Nat) : (s.modifyCase f i).pending = s.pending := rfl
@[simp] theorem State.modifyCase_supply (s : State) (f : CaseSlot → CaseSlot) (i : Nat) : (s.modifyCase f i).supply = s.supply := rfl
@[simp] theorem State.modifyCase_time (s : State) (f : CaseSlot → CaseSlot) (i : Nat) : (s.modifyCase f i).time = s.time := rfl
@[simp] theorem State.modifyCase_meas (s : State) (f : CaseSlot → CaseSlot) (i : Nat) : (s.modifyCase f i).meas = s.meas := rfl
@[simp] theorem State.modifyCase_tracker (s : State) (f : CaseSlot → CaseSlot) (i : Nat) : (s.modifyCase f i).tracker = s.tracker := rfl
@[simp] theorem State.modifyCase_capture (s : State) (f : CaseSlot → CaseSlot) (i : Nat) : (s.modifyCase f i).capture = s.capture := rfl
@[simp] theorem State.modifyCase_agg (s : State) (f : CaseSlot → CaseSlot) (i : Nat) : (s.modifyCase f i).agg = s.agg := rfl
@[simp] theorem State.modifyCase_store (s : State) (f : CaseSlot → CaseSlot) (i : Nat) : (s.modifyCase f i).store = s.store := rfl
@[simp] theorem State.modifyCase_settings (s : State) (f : CaseSlot → CaseSlot) (i : Nat) : (s.modifyCase f i).settings = s.settings := rfl
@[simp] theorem State.modifyCase_cases (s : State) (f : CaseSlot → CaseSlot) (i : Nat) : (s.modifyCase f i).cases = { s.cases with slots := modifySlot f i s.cases.slots } := rfl
@[simp] theorem State.modifyCase_link (s : State) (f : CaseSlot → CaseSlot) (i : Nat) : (s.modifyCase f i).link = s.link := rfl
@[simp] theorem State.modifyCase_reports (s : State) (f : CaseSlot → CaseSlot) (i : Nat) : (s.modifyCase f i).reports = s.reports := rfl

@[simp] theorem State.setReports_pending (s : State) (r : Reports) : (s.setReports r).pending = s.pending := rfl
@[simp] theorem State.setReports_supply (s : State) (r : Reports) : (s.setReports r).supply = s.supply := rfl
@[simp] theorem State.setReports_time (s : State) (r : Reports) : (s.setReports r).time = s.time := rfl
@[simp] theorem State.setReports_meas (s : State) (r : Reports) : (s.setReports r).meas = s.meas := rfl
@[simp] theorem State.setReports_tracker (s : State) (r : Reports) : (s.setReports r).tracker = s.tracker := rfl
@[simp] theorem State.setReports_capture (s : State) (r : Reports) : (s.setReports r).capture = s.capture := rfl
@[simp] theorem State.setReports_agg (s : State) (r : Reports) : (s.setReports r).agg = s.agg := rfl
@[simp] theorem State.setReports_store (s : State) (r : Reports) : (s.setReports r).store = s.store := rfl
@[simp] theorem State.setReports_settings (s : State) (r : Reports) : (s.setReports r).settings = s.settings := rfl
@[simp] theorem State.setReports_cases (s : State) (r : Reports) : (s.setReports r).cases = s.cases := rfl
@[simp] theorem State.setReports_link (s : State) (r : Reports) : (s.setReports r).link = s.link := rfl
@[simp] theorem State.setReports_reports (s : State) (r : Reports) : (s.setReports r).reports = r := rfl

@[simp] theorem State.setOutbox_pending (s : State) (o : List Output) : (s.setOutbox o).pending = s.pending := rfl
@[simp] theorem State.setOutbox_supply (s : State) (o : List Output) : (s.setOutbox o).supply = s.supply := rfl
@[simp] theorem State.setOutbox_time (s : State) (o : List Output) : (s.setOutbox o).time = s.time := rfl
@[simp] theorem State.setOutbox_meas (s : State) (o : List Output) : (s.setOutbox o).meas = { s.meas with outbox := o } := rfl
@[simp] theorem State.setOutbox_tracker (s : State) (o : List Output) : (s.setOutbox o).tracker = s.tracker := rfl
@[simp] theorem State.setOutbox_capture (s : State) (o : List Output) : (s.setOutbox o).capture = s.capture := rfl
@[simp] theorem State.setOutbox_agg (s : State) (o : List Output) : (s.setOutbox o).agg = s.agg := rfl
@[simp] theorem State.setOutbox_store (s : State) (o : List Output) : (s.setOutbox o).store = s.store := rfl
@[simp] theorem State.setOutbox_settings (s : State) (o : List Output) : (s.setOutbox o).settings = s.settings := rfl
@[simp] theorem State.setOutbox_cases (s : State) (o : List Output) : (s.setOutbox o).cases = s.cases := rfl
@[simp] theorem State.setOutbox_link (s : State) (o : List Output) : (s.setOutbox o).link = s.link := rfl
@[simp] theorem State.setOutbox_reports (s : State) (o : List Output) : (s.setOutbox o).reports = s.reports := rfl

@[simp] theorem State.setQueue_pending (s : State) (q : List QueueItem) : (s.setQueue q).pending = s.pending := rfl
@[simp] theorem State.setQueue_supply (s : State) (q : List QueueItem) : (s.setQueue q).supply = s.supply := rfl
@[simp] theorem State.setQueue_time (s : State) (q : List QueueItem) : (s.setQueue q).time = s.time := rfl
@[simp] theorem State.setQueue_meas (s : State) (q : List QueueItem) : (s.setQueue q).meas = s.meas := rfl
@[simp] theorem State.setQueue_tracker (s : State) (q : List QueueItem) : (s.setQueue q).tracker = s.tracker := rfl
@[simp] theorem State.setQueue_capture (s : State) (q : List QueueItem) : (s.setQueue q).capture = s.capture := rfl
@[simp] theorem State.setQueue_agg (s : State) (q : List QueueItem) : (s.setQueue q).agg = s.agg := rfl
@[simp] theorem State.setQueue_store (s : State) (q : List QueueItem) : (s.setQueue q).store = { s.store with markerQueue := q } := rfl
@[simp] theorem State.setQueue_settings (s : State) (q : List QueueItem) : (s.setQueue q).settings = s.settings := rfl
@[simp] theorem State.setQueue_cases (s : State) (q : List QueueItem) : (s.setQueue q).cases = s.cases := rfl
@[simp] theorem State.setQueue_link (s : State) (q : List QueueItem) : (s.setQueue q).link = s.link := rfl
@[simp] theorem State.setQueue_reports (s : State) (q : List QueueItem) : (s.setQueue q).reports = s.reports := rfl

@[simp] theorem State.setJob_pending (s : State) (j : Option Job) : (s.setJob j).pending = s.pending := rfl
@[simp] theorem State.setJob_supply (s : State) (j : Option Job) : (s.setJob j).supply = s.supply := rfl
@[simp] theorem State.setJob_time (s : State) (j : Option Job) : (s.setJob j).time = s.time := rfl
@[simp] theorem State.setJob_meas (s : State) (j : Option Job) : (s.setJob j).meas = s.meas := rfl
@[simp] theorem State.setJob_tracker (s : State) (j : Option Job) : (s.setJob j).tracker = s.tracker := rfl
@[simp] theorem State.setJob_capture (s : State) (j : Option Job) : (s.setJob j).capture = s.capture := rfl
@[simp] theorem State.setJob_agg (s : State) (j : Option Job) : (s.setJob j).agg = s.agg := rfl
@[simp] theorem State.setJob_store (s : State) (j : Option Job) : (s.setJob j).store = { s.store with job := j } := rfl
@[simp] theorem State.setJob_settings (s : State) (j : Option Job) : (s.setJob j).settings = s.settings := rfl
@[simp] theorem State.setJob_cases (s : State) (j : Option Job) : (s.setJob j).cases = s.cases := rfl
@[simp] theorem State.setJob_link (s : State) (j : Option Job) : (s.setJob j).link = s.link := rfl
@[simp] theorem State.setJob_reports (s : State) (j : Option Job) : (s.setJob j).reports = s.reports := rfl

@[simp] theorem State.setOp_pending (s : State) (op : MediumOp) : (s.setOp op).pending = s.pending := rfl
@[simp] theorem State.setOp_supply (s : State) (op : MediumOp) : (s.setOp op).supply = s.supply := rfl
@[simp] theorem State.setOp_time (s : State) (op : MediumOp) : (s.setOp op).time = s.time := rfl
@[simp] theorem State.setOp_meas (s : State) (op : MediumOp) : (s.setOp op).meas = s.meas := rfl
@[simp] theorem State.setOp_tracker (s : State) (op : MediumOp) : (s.setOp op).tracker = s.tracker := rfl
@[simp] theorem State.setOp_capture (s : State) (op : MediumOp) : (s.setOp op).capture = s.capture := rfl
@[simp] theorem State.setOp_agg (s : State) (op : MediumOp) : (s.setOp op).agg = s.agg := rfl
@[simp] theorem State.setOp_store (s : State) (op : MediumOp) : (s.setOp op).store = { s.store with op := some op } := rfl
@[simp] theorem State.setOp_settings (s : State) (op : MediumOp) : (s.setOp op).settings = s.settings := rfl
@[simp] theorem State.setOp_cases (s : State) (op : MediumOp) : (s.setOp op).cases = s.cases := rfl
@[simp] theorem State.setOp_link (s : State) (op : MediumOp) : (s.setOp op).link = s.link := rfl
@[simp] theorem State.setOp_reports (s : State) (op : MediumOp) : (s.setOp op).reports = s.reports := rfl

@[simp] theorem State.setStaged_pending (s : State) (set : Settings) : (s.setStaged set).pending = s.pending := rfl
@[simp] theorem State.setStaged_supply (s : State) (set : Settings) : (s.setStaged set).supply = s.supply := rfl
@[simp] theorem State.setStaged_time (s : State) (set : Settings) : (s.setStaged set).time = s.time := rfl
@[simp] theorem State.setStaged_meas (s : State) (set : Settings) : (s.setStaged set).meas = s.meas := rfl
@[simp] theorem State.setStaged_tracker (s : State) (set : Settings) : (s.setStaged set).tracker = s.tracker := rfl
@[simp] theorem State.setStaged_capture (s : State) (set : Settings) : (s.setStaged set).capture = s.capture := rfl
@[simp] theorem State.setStaged_agg (s : State) (set : Settings) : (s.setStaged set).agg = s.agg := rfl
@[simp] theorem State.setStaged_store (s : State) (set : Settings) : (s.setStaged set).store = s.store := rfl
@[simp] theorem State.setStaged_settings (s : State) (set : Settings) : (s.setStaged set).settings = { s.settings with staged := set } := rfl
@[simp] theorem State.setStaged_cases (s : State) (set : Settings) : (s.setStaged set).cases = s.cases := rfl
@[simp] theorem State.setStaged_link (s : State) (set : Settings) : (s.setStaged set).link = s.link := rfl
@[simp] theorem State.setStaged_reports (s : State) (set : Settings) : (s.setStaged set).reports = s.reports := rfl

@[simp] theorem State.handOver_pending (s : State) (q : HostRequest) : (s.handOver q).pending = s.pending := rfl
@[simp] theorem State.handOver_supply (s : State) (q : HostRequest) : (s.handOver q).supply = s.supply := rfl
@[simp] theorem State.handOver_time (s : State) (q : HostRequest) : (s.handOver q).time = s.time := rfl
@[simp] theorem State.handOver_meas (s : State) (q : HostRequest) : (s.handOver q).meas = s.meas := rfl
@[simp] theorem State.handOver_tracker (s : State) (q : HostRequest) : (s.handOver q).tracker = s.tracker := rfl
@[simp] theorem State.handOver_capture (s : State) (q : HostRequest) : (s.handOver q).capture = s.capture := rfl
@[simp] theorem State.handOver_agg (s : State) (q : HostRequest) : (s.handOver q).agg = s.agg := rfl
@[simp] theorem State.handOver_store (s : State) (q : HostRequest) : (s.handOver q).store = { s.store with hostRequest := some q } := rfl
@[simp] theorem State.handOver_settings (s : State) (q : HostRequest) : (s.handOver q).settings = s.settings := rfl
@[simp] theorem State.handOver_cases (s : State) (q : HostRequest) : (s.handOver q).cases = s.cases := rfl
@[simp] theorem State.handOver_link (s : State) (q : HostRequest) : (s.handOver q).link = s.link := rfl
@[simp] theorem State.handOver_reports (s : State) (q : HostRequest) : (s.handOver q).reports = s.reports := rfl

@[simp] theorem State.latch_pending (s : State) (c : Cause) : (s.latch c).pending = s.pending := rfl
@[simp] theorem State.latch_supply (s : State) (c : Cause) : (s.latch c).supply = s.supply := rfl
@[simp] theorem State.latch_time (s : State) (c : Cause) : (s.latch c).time = s.time := rfl
@[simp] theorem State.latch_meas (s : State) (c : Cause) : (s.latch c).meas = s.meas := rfl
@[simp] theorem State.latch_tracker (s : State) (c : Cause) : (s.latch c).tracker = s.tracker := rfl
@[simp] theorem State.latch_capture (s : State) (c : Cause) : (s.latch c).capture = s.capture := rfl
@[simp] theorem State.latch_agg (s : State) (c : Cause) : (s.latch c).agg = s.agg := rfl
@[simp] theorem State.latch_store (s : State) (c : Cause) : (s.latch c).store = s.store := rfl
@[simp] theorem State.latch_settings (s : State) (c : Cause) : (s.latch c).settings = s.settings := rfl
@[simp] theorem State.latch_cases (s : State) (c : Cause) : (s.latch c).cases = s.cases := rfl
@[simp] theorem State.latch_link (s : State) (c : Cause) : (s.latch c).link = s.link.latch c := rfl
@[simp] theorem State.latch_reports (s : State) (c : Cause) : (s.latch c).reports = s.reports := rfl

@[simp] theorem State.judgeExport_pending (s : State) : (s.judgeExport).pending = s.pending := rfl
@[simp] theorem State.judgeExport_supply (s : State) : (s.judgeExport).supply = s.supply := rfl
@[simp] theorem State.judgeExport_time (s : State) : (s.judgeExport).time = s.time := rfl
@[simp] theorem State.judgeExport_meas (s : State) : (s.judgeExport).meas = s.meas := rfl
@[simp] theorem State.judgeExport_tracker (s : State) : (s.judgeExport).tracker = s.tracker := rfl
@[simp] theorem State.judgeExport_capture (s : State) : (s.judgeExport).capture = s.capture := rfl
@[simp] theorem State.judgeExport_agg (s : State) : (s.judgeExport).agg = s.agg := rfl
@[simp] theorem State.judgeExport_store (s : State) : (s.judgeExport).store = s.store := rfl
@[simp] theorem State.judgeExport_settings (s : State) : (s.judgeExport).settings = s.settings := rfl
@[simp] theorem State.judgeExport_cases (s : State) : (s.judgeExport).cases = s.cases := rfl
@[simp] theorem State.judgeExport_link (s : State) : (s.judgeExport).link = s.link.judgeExport s.store.unexportedList.length s.store.saturated := rfl
@[simp] theorem State.judgeExport_reports (s : State) : (s.judgeExport).reports = s.reports := rfl

@[simp] theorem State.reportClock_pending (s : State) : (s.reportClock).pending = s.pending := rfl
@[simp] theorem State.reportClock_supply (s : State) : (s.reportClock).supply = s.supply := rfl
@[simp] theorem State.reportClock_time (s : State) : (s.reportClock).time = s.time := rfl
@[simp] theorem State.reportClock_meas (s : State) : (s.reportClock).meas = s.meas := rfl
@[simp] theorem State.reportClock_tracker (s : State) : (s.reportClock).tracker = s.tracker := rfl
@[simp] theorem State.reportClock_capture (s : State) : (s.reportClock).capture = s.capture := rfl
@[simp] theorem State.reportClock_agg (s : State) : (s.reportClock).agg = s.agg := rfl
@[simp] theorem State.reportClock_store (s : State) : (s.reportClock).store = s.store := rfl
@[simp] theorem State.reportClock_settings (s : State) : (s.reportClock).settings = s.settings := rfl
@[simp] theorem State.reportClock_cases (s : State) : (s.reportClock).cases = s.cases := rfl
@[simp] theorem State.reportClock_link (s : State) : (s.reportClock).link = s.link.judgeClock s.clockCondition := rfl
@[simp] theorem State.reportClock_reports (s : State) : (s.reportClock).reports = s.reports := rfl

@[simp] theorem State.answer_pending (s : State) (b : List Byte) : (s.answer b).pending = s.pending := rfl
@[simp] theorem State.answer_supply (s : State) (b : List Byte) : (s.answer b).supply = s.supply := rfl
@[simp] theorem State.answer_time (s : State) (b : List Byte) : (s.answer b).time = s.time := rfl
@[simp] theorem State.answer_meas (s : State) (b : List Byte) : (s.answer b).meas = s.meas := rfl
@[simp] theorem State.answer_tracker (s : State) (b : List Byte) : (s.answer b).tracker = s.tracker := rfl
@[simp] theorem State.answer_capture (s : State) (b : List Byte) : (s.answer b).capture = s.capture := rfl
@[simp] theorem State.answer_agg (s : State) (b : List Byte) : (s.answer b).agg = s.agg := rfl
@[simp] theorem State.answer_store (s : State) (b : List Byte) : (s.answer b).store = s.store := rfl
@[simp] theorem State.answer_settings (s : State) (b : List Byte) : (s.answer b).settings = s.settings := rfl
@[simp] theorem State.answer_cases (s : State) (b : List Byte) : (s.answer b).cases = s.cases := rfl
@[simp] theorem State.answer_link (s : State) (b : List Byte) : (s.answer b).link = (s.link.answer b).choose s.time.base := rfl
@[simp] theorem State.answer_reports (s : State) (b : List Byte) : (s.answer b).reports = s.reports := rfl

@[simp] theorem State.reply_pending (s : State) (st : Status) (b : List Byte) : (s.reply st b).pending = s.pending := rfl
@[simp] theorem State.reply_supply (s : State) (st : Status) (b : List Byte) : (s.reply st b).supply = s.supply := rfl
@[simp] theorem State.reply_time (s : State) (st : Status) (b : List Byte) : (s.reply st b).time = s.time := rfl
@[simp] theorem State.reply_meas (s : State) (st : Status) (b : List Byte) : (s.reply st b).meas = s.meas := rfl
@[simp] theorem State.reply_tracker (s : State) (st : Status) (b : List Byte) : (s.reply st b).tracker = s.tracker := rfl
@[simp] theorem State.reply_capture (s : State) (st : Status) (b : List Byte) : (s.reply st b).capture = s.capture := rfl
@[simp] theorem State.reply_agg (s : State) (st : Status) (b : List Byte) : (s.reply st b).agg = s.agg := rfl
@[simp] theorem State.reply_store (s : State) (st : Status) (b : List Byte) : (s.reply st b).store = s.store := rfl
@[simp] theorem State.reply_settings (s : State) (st : Status) (b : List Byte) : (s.reply st b).settings = s.settings := rfl
@[simp] theorem State.reply_cases (s : State) (st : Status) (b : List Byte) : (s.reply st b).cases = s.cases := rfl
@[simp] theorem State.reply_link (s : State) (st : Status) (b : List Byte) : (s.reply st b).link = (s.link.answer (field 1 st.code ++ b)).choose s.time.base := rfl
@[simp] theorem State.reply_reports (s : State) (st : Status) (b : List Byte) : (s.reply st b).reports = s.reports := rfl

@[simp] theorem State.holdRequest_pending (s : State) (kind tag : Byte) : (s.holdRequest kind tag).pending = s.pending := rfl
@[simp] theorem State.holdRequest_supply (s : State) (kind tag : Byte) : (s.holdRequest kind tag).supply = s.supply := rfl
@[simp] theorem State.holdRequest_time (s : State) (kind tag : Byte) : (s.holdRequest kind tag).time = s.time := rfl
@[simp] theorem State.holdRequest_meas (s : State) (kind tag : Byte) : (s.holdRequest kind tag).meas = s.meas := rfl
@[simp] theorem State.holdRequest_tracker (s : State) (kind tag : Byte) : (s.holdRequest kind tag).tracker = s.tracker := rfl
@[simp] theorem State.holdRequest_capture (s : State) (kind tag : Byte) : (s.holdRequest kind tag).capture = s.capture := rfl
@[simp] theorem State.holdRequest_agg (s : State) (kind tag : Byte) : (s.holdRequest kind tag).agg = s.agg := rfl
@[simp] theorem State.holdRequest_store (s : State) (kind tag : Byte) : (s.holdRequest kind tag).store = s.store := rfl
@[simp] theorem State.holdRequest_settings (s : State) (kind tag : Byte) : (s.holdRequest kind tag).settings = s.settings := rfl
@[simp] theorem State.holdRequest_cases (s : State) (kind tag : Byte) : (s.holdRequest kind tag).cases = s.cases := rfl
@[simp] theorem State.holdRequest_link (s : State) (kind tag : Byte) : (s.holdRequest kind tag).link = { s.link with slot := some ⟨kind, tag, none⟩ } := rfl
@[simp] theorem State.holdRequest_reports (s : State) (kind tag : Byte) : (s.holdRequest kind tag).reports = s.reports := rfl

end Sys2Proof.Machine
end

