-- ==== Sys2Proof/Laws/Writer.lean ====
section
/-!
SUPPORT. What the store writer may change when it goes on (`State.pump`): one relation, `WriterFrame`, with one lemma for
each operation of the writer. Whoever needs a fact about the state behind `pump` cites `pump_frame`.
-/

-- One proof after the other: proofs checked side by side hold more memory than the check allows.
set_option Elab.async false

namespace Sys2Proof.Machine

theorem cause_kept (a b : CauseSet) : (a ||| b) &&& a = a := by
  ext i; simp; intro h; exact Or.inl h

theorem causes_trans {a b c : CauseSet} (h : b &&& a = a) (h' : c &&& b = b) : c &&& a = a := by
  rw [← h, ← BitVec.and_assoc, h']

namespace WriterFrame

theorem refl (s : State) : WriterFrame s s := by
  constructor <;> first | rfl | exact Nat.le_refl _ | exact Nat.le_max_left _ _ | exact fun _ e => e | exact ⟨_, rfl⟩ | simp

theorem trans {s t u : State} (h : WriterFrame s t) (k : WriterFrame t u) : WriterFrame s u where
  pending := k.pending.trans h.pending
  supply := k.supply.trans h.supply
  time := k.time.trans h.time
  meas := k.meas.trans h.meas
  settings := k.settings.trans h.settings
  ring := k.ring.trans h.ring
  lengths := k.lengths.trans h.lengths
  slotCount := k.slotCount.trans h.slotCount
  accumulator := k.accumulator.trans h.accumulator
  aggInForce := k.aggInForce.trans h.aggInForce
  intervals := Nat.le_trans k.intervals h.intervals
  detectors := k.detectors.trans h.detectors
  marks := k.marks.trans h.marks
  missed := k.missed.trans h.missed
  windowFlag := k.windowFlag.trans h.windowFlag
  lastStamp := k.lastStamp.trans h.lastStamp
  trackerInForce := k.trackerInForce.trans h.trackerInForce
  entryCount := k.entryCount.trans h.entryCount
  cases := k.cases.trans h.cases
  highWater := k.highWater.trans h.highWater
  array := k.array.trans h.array
  queue := by have := h.queue; have := k.queue; omega
  scan := k.scan.trans h.scan
  correcting := k.correcting.trans h.correcting
  listening := k.listening.trans h.listening
  rx := k.rx.trans h.rx
  restarting := k.restarting.trans h.restarting
  attention := k.attention.trans h.attention
  watch := k.watch.trans h.watch
  counters := k.counters.trans h.counters
  clock := k.clock.trans h.clock
  threshold := k.threshold.trans h.threshold
  fifo := Nat.le_trans k.fifo h.fifo
  sending := fun f e => k.sending f (h.sending f e)
  causes := causes_trans h.causes k.causes
  reports := by
    obtain ⟨l, e⟩ := h.reports
    obtain ⟨l', e'⟩ := k.reports
    exact ⟨l', by rw [e', e]⟩

/-- A change of the store that keeps the array and the reads, and does not overfill the marker queue. -/
theorem ofStore (s : State) (f : Store → Store)
    (ha : (f s.store).array = s.store.array := by rfl) (hs : (f s.store).scan = s.store.scan := by rfl)
    (hc : (f s.store).correcting = s.store.correcting := by rfl)
    (hq : (f s.store).markerQueue.length ≤ max s.store.markerQueue.length queueDepth := by
      exact Nat.le_max_left _ _) :
    WriterFrame s (s.modifyStore f) where
  pending := rfl
  supply := rfl
  time := rfl
  meas := rfl
  settings := rfl
  ring := rfl
  lengths := rfl
  slotCount := rfl
  accumulator := rfl
  aggInForce := rfl
  intervals := Nat.le_refl _
  detectors := rfl
  marks := rfl
  missed := rfl
  windowFlag := rfl
  lastStamp := rfl
  trackerInForce := rfl
  entryCount := rfl
  cases := rfl
  highWater := rfl
  array := ha
  queue := hq
  scan := hs
  correcting := hc
  listening := rfl
  rx := rfl
  restarting := rfl
  attention := rfl
  watch := rfl
  counters := rfl
  clock := rfl
  threshold := rfl
  fifo := Nat.le_refl _
  sending := fun _ e => e
  causes := by simp
  reports := ⟨_, rfl⟩

/-- A change of the link unit alone. -/
theorem ofLink (s : State) (l : Link) (h1 : l.listening = s.link.listening := by rfl)
    (h2 : l.rx = s.link.rx := by rfl) (h3 : l.restarting = s.link.restarting := by rfl)
    (h4 : (l.mask, l.mode) = (s.link.mask, s.link.mode) := by rfl) (h5 : l.watch = s.link.watch := by rfl)
    (h6 : l.counters = s.link.counters := by rfl) (h7 : l.clockCondition = s.link.clockCondition := by rfl)
    (h8 : (l.exportThreshold, l.lineRate) = (s.link.exportThreshold, s.link.lineRate) := by rfl)
    (h9 : l.fifo.length ≤ s.link.fifo.length := by exact Nat.le_refl _)
    (h10 : ∀ f, s.link.tx = some f → l.tx = some f := by exact fun _ e => e)
    (h11 : l.causes &&& s.link.causes = s.link.causes := by simp) :
    WriterFrame s { s with link := l } where
  pending := rfl
  supply := rfl
  time := rfl
  meas := rfl
  settings := rfl
  ring := rfl
  lengths := rfl
  slotCount := rfl
  accumulator := rfl
  aggInForce := rfl
  intervals := Nat.le_refl _
  detectors := rfl
  marks := rfl
  missed := rfl
  windowFlag := rfl
  lastStamp := rfl
  trackerInForce := rfl
  entryCount := rfl
  cases := rfl
  highWater := rfl
  array := rfl
  queue := Nat.le_max_left _ _
  scan := rfl
  correcting := rfl
  listening := h1
  rx := h2
  restarting := h3
  attention := h4
  watch := h5
  counters := h6
  clock := h7
  threshold := h8
  fifo := h9
  sending := h10
  causes := h11
  reports := ⟨_, rfl⟩

end WriterFrame

/-! ## The link unit's part -/

theorem Link.sendWatch_fifo (base : Option Nat) (l : Link) : (l.sendWatch base).fifo.length ≤ l.fifo.length := by
  simp [Link.sendWatch]

/-- What the transmitter's choice keeps (R176). -/
theorem choose_frame (s : State) (l : Link) (b : Option Nat) (hs : WriterFrame s { s with link := l }) :
    WriterFrame s { s with link := l.choose b } := by
  refine hs.trans (WriterFrame.ofLink { s with link := l } (l.choose b) ?_ ?_ ?_ ?_ ?_ ?_ ?_ ?_ ?_ ?_ ?_) <;>
    (unfold Link.choose; split; · simp) <;> (split; · simp_all) <;> (split; · split <;> simp_all [Link.sendStarting]) <;> (try split) <;> simp_all [Link.sendWatch]

theorem answer_frame (s : State) (b : List Byte) : WriterFrame s (s.answer b) := by
  unfold State.answer
  apply choose_frame
  unfold Link.answer
  split
  · exact WriterFrame.ofLink _ _
  · exact WriterFrame.refl s

theorem reply_frame (s : State) (st : Status) (b : List Byte) : WriterFrame s (s.reply st b) := answer_frame s _

theorem latch_frame (s : State) (c : Cause) : WriterFrame s (s.latch c) :=
  WriterFrame.ofLink s _ (h11 := cause_kept _ _)

theorem judgeExport_frame (s : State) : WriterFrame s s.judgeExport := by
  unfold State.judgeExport Link.judgeExport
  dsimp only
  split
  · exact WriterFrame.ofLink s _ (h11 := cause_kept _ _)
  · exact WriterFrame.ofLink s _

/-! ## Loss counters and the marker queue -/

theorem raiseLoss_frame (s : State) (k : LossKind) (n : Nat) : WriterFrame s (s.raiseLoss k n) := by
  unfold State.raiseLoss
  split
  · exact WriterFrame.refl s
  · constructor <;> first | rfl | exact Nat.le_refl _ | exact Nat.le_max_left _ _ | exact fun _ e => e | exact ⟨_, rfl⟩ | exact cause_kept _ _

theorem setQueue_frame (s : State) (q : List QueueItem) (h : q.length ≤ max s.store.markerQueue.length queueDepth) :
    WriterFrame s (s.setQueue q) :=
  WriterFrame.ofStore s (fun st => { st with markerQueue := q }) (hq := h)

theorem withdrawProposal_frame (s : State) (st : Status) : WriterFrame s (s.withdrawProposal st) := by
  unfold State.withdrawProposal
  have h := WriterFrame.ofStore s fun x => { x with proposed := none }
  split
  · exact WriterFrame.refl s
  · split
    · split
      · exact h.trans (reply_frame _ _ _)
      · exact h
    · exact h

theorem requestDiscarded_frame (s : State) (k : ImageKind) : WriterFrame s (s.requestDiscarded k) := by
  unfold State.requestDiscarded
  split
  · split
    · exact WriterFrame.refl s
    · exact withdrawProposal_frame s _
  · exact WriterFrame.refl s

theorem queueMarker_frame (s : State) (b : MarkerBody) : WriterFrame s (s.queueMarker b) := by
  unfold State.queueMarker
  split
  · refine setQueue_frame s _ ?_
    simp only [List.length_append, List.length_singleton]
    omega
  · exact raiseLoss_frame s _ _

theorem queueImage_frame (s : State) (k : ImageKind) : WriterFrame s (s.queueImage k) := by
  unfold State.queueImage
  split
  · exact WriterFrame.refl s
  · split
    · refine setQueue_frame s _ ?_
      simp only [List.length_append, List.length_singleton]
      omega
    · exact (raiseLoss_frame s _ _).trans (requestDiscarded_frame _ _)

theorem raiseLoss_queue (s : State) (k : LossKind) (n : Nat) :
    (s.raiseLoss k n).store.markerQueue = s.store.markerQueue := by
  unfold State.raiseLoss; split <;> rfl

theorem withdrawProposal_queue (s : State) (st : Status) :
    (s.withdrawProposal st).store.markerQueue = s.store.markerQueue := by
  unfold State.withdrawProposal
  split
  · rfl
  · split
    · split <;> rfl
    · rfl

theorem requestDiscarded_queue (s : State) (k : ImageKind) :
    (s.requestDiscarded k).store.markerQueue = s.store.markerQueue := by
  unfold State.requestDiscarded
  split
  · split
    · rfl
    · exact withdrawProposal_queue s _
  · rfl

/-- The queue that a discard of its last item leaves (R116). -/
theorem makeRoom_queue (s : State) :
    s.makeRoom.store.markerQueue
      = if s.store.markerQueue.length < queueDepth then s.store.markerQueue else s.store.markerQueue.dropLast := by
  unfold State.makeRoom
  split
  · rfl
  · dsimp only
    split
    · rw [requestDiscarded_queue, raiseLoss_queue]; rfl
    · rw [raiseLoss_queue]; rfl

theorem makeRoom_frame (s : State) : WriterFrame s s.makeRoom := by
  unfold State.makeRoom
  have h : WriterFrame s ((s.setQueue s.store.markerQueue.dropLast).raiseLoss .marker 1) :=
    (setQueue_frame s _ (by simp only [List.length_dropLast]; omega)).trans (raiseLoss_frame _ _ _)
  split
  · exact WriterFrame.refl s
  · dsimp only
    split
    · exact h.trans (requestDiscarded_frame _ _)
    · exact h

theorem makeRoom_length (s : State) : s.makeRoom.store.markerQueue.length + 1 ≤ max s.store.markerQueue.length queueDepth := by
  rw [makeRoom_queue]
  have : queueDepth = 8 := rfl
  split
  · omega
  · simp only [List.length_dropLast]; omega

/-- A queue built on what `makeRoom` leaves, longer by one. -/
theorem queueOnto_frame (s : State) (q : List QueueItem) (h : q.length ≤ s.makeRoom.store.markerQueue.length + 1) :
    WriterFrame s (s.makeRoom.setQueue q) := by
  have h1 := makeRoom_frame s
  have h2 := makeRoom_length s
  have f := h1.trans (WriterFrame.refl _)
  constructor
  case queue => exact Nat.le_trans h h2
  all_goals first
    | exact h1.pending | exact h1.supply | exact h1.time | exact h1.meas | exact h1.settings | exact h1.ring
    | exact h1.lengths | exact h1.slotCount | exact h1.accumulator | exact h1.aggInForce | exact h1.intervals
    | exact h1.detectors | exact h1.marks | exact h1.missed | exact h1.windowFlag | exact h1.lastStamp
    | exact h1.trackerInForce | exact h1.entryCount | exact h1.cases | exact h1.highWater | exact h1.array
    | exact h1.scan | exact h1.correcting | exact h1.listening | exact h1.rx | exact h1.restarting
    | exact h1.attention | exact h1.watch | exact h1.counters | exact h1.clock | exact h1.threshold
    | exact h1.fifo | exact h1.sending | exact h1.causes | exact h1.reports

theorem queueFormat_frame (s : State) : WriterFrame s s.queueFormat :=
  queueOnto_frame s _ (by simp)

theorem queueSupplyLoss_frame (s : State) : WriterFrame s s.queueSupplyLoss := by
  unfold State.queueSupplyLoss
  dsimp only
  split
  · rename_i h
    split <;> exact queueOnto_frame s _ (by simp [h])
  · rename_i h
    exact queueOnto_frame s _ (by simp)

theorem lossReview_frame (s : State) : WriterFrame s s.lossReview := by
  unfold State.lossReview
  split
  · rename_i h
    simp only [Bool.and_eq_true, decide_eq_true_eq] at h
    refine setQueue_frame s _ ?_
    simp only [List.length_append, List.length_singleton]
    omega
  · exact WriterFrame.refl s

/-! ## Store state, retirement, activation -/

theorem enterStore_frame (s : State) (a b : StoreState) : WriterFrame s (s.enterStore a b) := by
  unfold State.enterStore
  split
  · exact WriterFrame.refl s
  · split
    · exact latch_frame s _
    · exact ((WriterFrame.ofStore s fun st => { st with format := none }).trans (latch_frame _ _)).trans
        (withdrawProposal_frame _ _)
    · exact WriterFrame.refl s

theorem review_frame (s : State) : WriterFrame s s.review := by
  unfold State.review
  split
  · exact WriterFrame.refl s
  · dsimp only
    have h1 : WriterFrame s (if urgencyOf s.store.urgency s.store.free = Urgency.must ∧ s.store.urgency ≠ Urgency.must
        then s.latch Cause.store else s) := by
      split
      · exact latch_frame s _
      · exact WriterFrame.refl s
    have h2 := h1.trans (WriterFrame.ofStore _ fun st => { st with urgency := urgencyOf s.store.urgency s.store.free })
    split
    · exact h2
    · exact (h2.trans (WriterFrame.ofStore _ _)).trans (enterStore_frame _ _ _)

theorem retire_frame (s : State) (b : Nat) (w : RetireReason) : WriterFrame s (s.retire b w) := by
  unfold State.retire
  dsimp only
  have h := ((queueMarker_frame s (.blockRetired b w)).trans
    (WriterFrame.ofStore _ fun st => { st with badList := insertAsc b st.badList })).trans (latch_frame _ .store)
  split
  · exact h.trans (WriterFrame.ofStore _ _)
  · exact h.trans (queueImage_frame _ _)

theorem modifyBlock_array (f : BlockEntry → BlockEntry) (b : Nat) (st : Store) :
    (st.modifyBlock f b).array = st.array := by unfold Store.modifyBlock; split <;> rfl

theorem modifyBlock_scan (f : BlockEntry → BlockEntry) (b : Nat) (st : Store) :
    (st.modifyBlock f b).scan = st.scan := by unfold Store.modifyBlock; split <;> rfl

theorem modifyBlock_correcting (f : BlockEntry → BlockEntry) (b : Nat) (st : Store) :
    (st.modifyBlock f b).correcting = st.correcting := by unfold Store.modifyBlock; split <;> rfl

theorem modifyBlock_queue (f : BlockEntry → BlockEntry) (b : Nat) (st : Store) :
    (st.modifyBlock f b).markerQueue = st.markerQueue := by unfold Store.modifyBlock; split <;> rfl

/-- A change of one block's entry, and then of fields that the frame does not name. -/
theorem modifyBlock_frame (s : State) (g : BlockEntry → BlockEntry) (b : Nat) (f : Store → Store)
    (hf : ∀ st, (f st).array = st.array ∧ (f st).scan = st.scan ∧ (f st).correcting = st.correcting
      ∧ (f st).markerQueue = st.markerQueue := by exact fun _ => ⟨rfl, rfl, rfl, rfl⟩) :
    WriterFrame s (s.modifyStore fun st => f (st.modifyBlock g b)) := by
  obtain ⟨h1, h2, h3, h4⟩ := hf (s.store.modifyBlock g b)
  exact WriterFrame.ofStore s _ (ha := h1.trans (modifyBlock_array _ _ _)) (hs := h2.trans (modifyBlock_scan _ _ _))
    (hc := h3.trans (modifyBlock_correcting _ _ _)) (hq := by rw [h4, modifyBlock_queue]; omega)

theorem activate_frame (s t : State) (h : s.activate = some t) : WriterFrame s t := by
  unfold State.activate at h
  split at h
  · cases h
  · split at h
    · cases h
    · split at h
      · cases h; exact WriterFrame.ofStore s _
      · cases h; exact modifyBlock_frame s _ _ fun st => { st with op := _ }

theorem endActive_frame (s : State) : WriterFrame s s.endActive := by
  unfold State.endActive
  split
  · exact WriterFrame.refl s
  · exact modifyBlock_frame s _ _ fun st => { st with active := none }

theorem spaceCheck_frame (s : State) (n : Nat) : WriterFrame s (s.spaceCheck n) := by
  unfold State.spaceCheck
  split
  · exact WriterFrame.refl s
  · exact endActive_frame s

theorem pageUsed_frame (s : State) : WriterFrame s s.pageUsed := by
  unfold State.pageUsed
  split
  · exact WriterFrame.refl s
  · split
    · exact WriterFrame.ofStore s _
    · exact (endActive_frame s).trans (WriterFrame.ofStore _ _)

theorem activated_frame (s : State) (b q : Nat) : WriterFrame s (s.activated b q) :=
  modifyBlock_frame s _ b fun st => { st with active := some (b, 1), activationDue := false }

theorem raiseMark_frame (s : State) (m : Nat) : WriterFrame s (s.raiseMark m) :=
  (WriterFrame.ofStore s _).trans (judgeExport_frame _)

theorem proposalDone_frame (s : State) (i : SettingsImage) : WriterFrame s (s.proposalDone i) := by
  unfold State.proposalDone
  split
  · exact WriterFrame.refl s
  · split
    · dsimp only
      have h := (WriterFrame.ofStore s fun st => { st with proposed := none }).trans (raiseMark_frame _ ‹Nat›)
      split
      · split
        · exact h.trans (reply_frame _ _ _)
        · exact h
      · exact h
    · exact WriterFrame.refl s

/-! ## Images and formats -/

theorem endFormat_frame (s : State) : WriterFrame s s.endFormat := (WriterFrame.ofStore s _).trans (latch_frame _ _)

theorem beginErasing_frame (s : State) (i : SettingsImage) : WriterFrame s (s.beginErasing i) := WriterFrame.ofStore s _

theorem dropWork_frame (s : State) (d : Bool) : WriterFrame s (s.dropWork d) := by
  cases d <;> exact WriterFrame.ofStore s _

theorem setWork_frame (s : State) (d : Bool) (w : ImageWork) : WriterFrame s (s.modifyStore (Store.setWork d w)) := by
  cases d <;> exact WriterFrame.ofStore s _

theorem issueImage_frame (s : State) (d : Bool) (w : ImageWork) : WriterFrame s (s.issueImage d w) := by
  unfold State.issueImage
  dsimp only
  split
  · exact WriterFrame.ofStore s _
  · split
    · exact WriterFrame.ofStore s _
    · cases d <;> exact WriterFrame.ofStore s _

theorem workDone_frame (s : State) (d : Bool) (w : ImageWork) : WriterFrame s (s.workDone d w) := by
  unfold State.workDone
  dsimp only
  have h := dropWork_frame s d
  split
  · split
    · exact h.trans (beginErasing_frame _ _)
    · exact h
  · split
    · exact h.trans (endFormat_frame _)
    · exact h
  · exact h

theorem loseImage_frame (s : State) (d : PageData) : WriterFrame s (s.loseImage d) := by
  unfold State.loseImage
  dsimp only
  have h := ((WriterFrame.ofStore s fun st => { st with storeFault := true }).trans (latch_frame _ .store)).trans
    (raiseLoss_frame _ .marker 1)
  split
  · split
    · exact h.trans (withdrawProposal_frame _ _)
    · exact h
  · exact h

theorem workFailed_frame (s : State) (d : Bool) (w : ImageWork) : WriterFrame s (s.workFailed d w) := by
  unfold State.workFailed
  dsimp only
  have h := (dropWork_frame s d).trans (loseImage_frame _ w.data)
  split
  · split
    · exact h.trans (endFormat_frame _)
    · exact h
  · split
    · exact h.trans (endFormat_frame _)
    · exact h
  · exact h

theorem imageWritten_frame (s : State) (d : PageData) : WriterFrame s (s.imageWritten d) := by
  unfold State.imageWritten
  split
  · exact (WriterFrame.ofStore s _).trans (proposalDone_frame _ _)
  · exact WriterFrame.ofStore s _
  · exact WriterFrame.refl s

theorem imageProgrammed_frame (s : State) (d : Bool) (p : PageData) : WriterFrame s (s.imageProgrammed d p) := by
  unfold State.imageProgrammed
  dsimp only
  have h := (WriterFrame.ofStore s fun st =>
    { st with imagePage := st.imagePage + 1, imageCounter := p.counter.getD st.imageCounter }).trans (imageWritten_frame _ p)
  split
  · exact h
  · split
    · exact h.trans (setWork_frame _ _ _)
    · exact h.trans (workDone_frame _ _ _)

theorem imageTimedOut_frame (s : State) (d : Bool) : WriterFrame s (s.imageTimedOut d) := by
  unfold State.imageTimedOut
  dsimp only
  have h := WriterFrame.ofStore s fun st => { st with imagePage := st.imagePage + 1 }
  split
  · exact h
  · split
    · split
      · exact h.trans (setWork_frame _ _ _)
      · exact (h.trans (setWork_frame _ _ _)).trans (loseImage_frame _ _)
    · split
      · exact h.trans (setWork_frame _ _ _)
      · exact h.trans (workFailed_frame _ _ _)

theorem settingsErased_frame (s : State) (d : Bool) (b : Nat) : WriterFrame s (s.settingsErased d b) := by
  unfold State.settingsErased
  dsimp only
  have h := WriterFrame.ofStore s fun st => { st with imageBlock := b, imagePage := 0 }
  split
  · exact h
  · split
    · refine h.trans ?_
      cases d <;> exact WriterFrame.ofStore _ _
    · exact h.trans (setWork_frame _ _ _)

theorem settingsEraseFailed_frame (s : State) (d : Bool) : WriterFrame s (s.settingsEraseFailed d) := by
  unfold State.settingsEraseFailed
  split
  · exact WriterFrame.refl s
  · exact workFailed_frame _ _ _

theorem beginImage_frame (s : State) (k : ImageKind) (w : ImageWho) : WriterFrame s (s.beginImage k w) :=
  WriterFrame.ofStore s _

theorem beginFormatImage_frame (s : State) : WriterFrame s s.beginFormatImage := by
  unfold State.beginFormatImage
  exact WriterFrame.ofStore s _

/-! ## Changes of the tracker's table, the capture slots, the output queue and the scan engine -/

theorem modifyTracker_frame (s : State) (f : Tracker → Tracker)
    (h : (f s.tracker).detectors = s.tracker.detectors ∧ (f s.tracker).marks = s.tracker.marks
      ∧ (f s.tracker).missed = s.tracker.missed ∧ (f s.tracker).windowFlag = s.tracker.windowFlag
      ∧ (f s.tracker).lastStamp = s.tracker.lastStamp ∧ (f s.tracker).inForce = s.tracker.inForce
      ∧ (f s.tracker).entries.length = s.tracker.entries.length) : WriterFrame s (s.modifyTracker f) := by
  obtain ⟨h1, h2, h3, h4, h5, h6, h7⟩ := h
  constructor <;> first
    | assumption | rfl | exact Nat.le_refl _ | exact Nat.le_max_left _ _ | exact fun _ e => e | exact ⟨_, rfl⟩ | simp

theorem modifyAt_length {α : Type} (f : α → α) (i : Nat) (l : List α) : (modifyAt f i l).length = l.length := by
  induction l generalizing i with
  | nil => cases i <;> rfl
  | cons a rest ih => cases i <;> simp [modifyAt, ih]

theorem putSlot_length {α : Type} (a : Option α) (i : Nat) (l : List (Option α)) : (putSlot a i l).length = l.length :=
  modifyAt_length _ _ _

theorem modifySlot_length {α : Type} (f : α → α) (i : Nat) (l : List (Option α)) : (modifySlot f i l).length = l.length :=
  modifyAt_length _ _ _

/-- What a change of one entry, or its freeing, keeps of the tracker. -/
theorem free_keeps (t : Tracker) (i : Nat) :
    (t.free i).detectors = t.detectors ∧ (t.free i).marks = t.marks ∧ (t.free i).missed = t.missed
      ∧ (t.free i).windowFlag = t.windowFlag ∧ (t.free i).lastStamp = t.lastStamp ∧ (t.free i).inForce = t.inForce
      ∧ (t.free i).entries.length = t.entries.length :=
  ⟨rfl, rfl, rfl, rfl, rfl, rfl, putSlot_length _ _ _⟩

theorem nestInto_keeps (t : Tracker) (n : Nat) (x : Entry) :
    (t.nestInto n x).detectors = t.detectors ∧ (t.nestInto n x).marks = t.marks ∧ (t.nestInto n x).missed = t.missed
      ∧ (t.nestInto n x).windowFlag = t.windowFlag ∧ (t.nestInto n x).lastStamp = t.lastStamp
      ∧ (t.nestInto n x).inForce = t.inForce ∧ (t.nestInto n x).entries.length = t.entries.length := by
  unfold Tracker.nestInto
  split
  · split
    · simp
    · split
      · exact ⟨rfl, rfl, rfl, rfl, rfl, rfl, modifySlot_length _ _ _⟩
      · simp
  · simp

theorem commitDone_keeps (t : Tracker) (n i : Nat) :
    (t.commitDone n i).detectors = t.detectors ∧ (t.commitDone n i).marks = t.marks
      ∧ (t.commitDone n i).missed = t.missed ∧ (t.commitDone n i).windowFlag = t.windowFlag
      ∧ (t.commitDone n i).lastStamp = t.lastStamp ∧ (t.commitDone n i).inForce = t.inForce
      ∧ (t.commitDone n i).entries.length = t.entries.length := by
  unfold Tracker.commitDone
  split
  · simp
  · rename_i x _
    obtain ⟨a1, a2, a3, a4, a5, a6, a7⟩ := nestInto_keeps t n x
    obtain ⟨b1, b2, b3, b4, b5, b6, b7⟩ := free_keeps (t.nestInto n x) i
    exact ⟨b1.trans a1, b2.trans a2, b3.trans a3, b4.trans a4, b5.trans a5, b6.trans a6, b7.trans a7⟩

theorem modifyCapture_frame (s : State) (f : Capture → Capture)
    (h : (f s.capture).ring = s.capture.ring
      ∧ ((f s.capture).preCycles, (f s.capture).postCycles) = (s.capture.preCycles, s.capture.postCycles)
      ∧ (f s.capture).slots.length = s.capture.slots.length) : WriterFrame s (s.modifyCapture f) := by
  obtain ⟨h1, h2, h3⟩ := h
  constructor <;> first
    | assumption | rfl | exact Nat.le_refl _ | exact Nat.le_max_left _ _ | exact fun _ e => e | exact ⟨_, rfl⟩ | simp

/-- Two frames told apart only by the output queue, emptied, and the scan engine. -/
theorem drained_frame (s : State) (q : List IntervalRecord) (h : Bool) (hq : q.length ≤ s.agg.queue.length) :
    WriterFrame s { s with agg := { s.agg with queue := q }, store := { s.store with holdupInterval := h } } := by
  constructor <;> first
    | assumption | rfl | exact Nat.le_refl _ | exact Nat.le_max_left _ _ | exact fun _ e => e | exact ⟨_, rfl⟩ | simp

theorem engine_frame (s : State) (e : Option Engine) : WriterFrame s { s with cases := { s.cases with engine := e } } := by
  constructor <;> first
    | assumption | rfl | exact Nat.le_refl _ | exact Nat.le_max_left _ _ | exact fun _ e => e | exact ⟨_, rfl⟩ | simp

/-! ## The jobs -/

theorem setJob_frame (s : State) (j : Option Job) : WriterFrame s (s.setJob j) := WriterFrame.ofStore s fun st => { st with job := j }

theorem setOp_frame (s : State) (op : MediumOp) : WriterFrame s (s.setOp op) :=
  WriterFrame.ofStore s fun st => { st with op := some op }

theorem discardDisturbance_frame (s : State) (i : Option Nat) : WriterFrame s (s.discardDisturbance i) := by
  unfold State.discardDisturbance
  cases i with
  | none => exact raiseLoss_frame _ _ _
  | some i =>
    exact ((modifyTracker_frame s _ (free_keeps _ _)).trans (WriterFrame.ofStore _ _)).trans (raiseLoss_frame _ _ _)

theorem releaseSlot_frame (s : State) (k : Option Nat) : WriterFrame s (s.releaseSlot k) := by
  cases k with
  | none => exact WriterFrame.refl s
  | some k => exact modifyCapture_frame s _ ⟨rfl, rfl, putSlot_length _ _ _⟩

theorem captureSlot_frame (s : State) (f : CaptureSlot → CaptureSlot) (k : Nat) :
    WriterFrame s (s.modifyCapture (·.modifySlot f k)) := modifyCapture_frame s _ ⟨rfl, rfl, modifySlot_length _ _ _⟩

theorem beginDisturbance_frame (s : State) (i : Option Nat) (r : DisturbanceRecord) (k : Option (Nat × CaptureSlot)) :
    WriterFrame s (s.beginDisturbance i r k) := by
  unfold State.beginDisturbance
  cases k with
  | none => exact (WriterFrame.ofStore s _).trans (setJob_frame _ _)
  | some k => exact ((captureSlot_frame s _ k.1).trans (WriterFrame.ofStore _ _)).trans (setJob_frame _ _)

theorem takeDisturbance_frame (s : State) (h : DisturbanceHead) : WriterFrame s (s.takeDisturbance h) := by
  unfold State.takeDisturbance
  dsimp only
  split
  · have k := WriterFrame.ofStore s fun st => { st with synthesised := st.synthesised.drop 1 }
    split
    · exact k.trans (discardDisturbance_frame _ _)
    · exact (k.trans (spaceCheck_frame _ _)).trans (beginDisturbance_frame _ _ _ _)
  · split
    · split
      · exact discardDisturbance_frame _ _
      · exact (spaceCheck_frame _ _).trans (beginDisturbance_frame _ _ _ _)
    · split
      · exact (releaseSlot_frame _ _).trans (discardDisturbance_frame _ _)
      · split
        · exact (spaceCheck_frame _ _).trans (beginDisturbance_frame _ _ _ _)
        · exact ((releaseSlot_frame _ _).trans (spaceCheck_frame _ _)).trans (beginDisturbance_frame _ _ _ _)

theorem discardRecords_frame (s : State) (j : RecordsJob) : WriterFrame s (s.discardRecords j) := by
  unfold State.discardRecords
  dsimp only
  split
  · exact (raiseLoss_frame s _ _).trans (WriterFrame.ofStore _ _)
  · exact raiseLoss_frame s _ _

theorem formatMarked_frame (s : State) : WriterFrame s s.formatMarked := by
  unfold State.formatMarked
  split
  · exact (WriterFrame.ofStore s _).trans (raiseMark_frame _ _)
  · exact WriterFrame.refl s

theorem discardJob_frame (s : State) (j : Job) : WriterFrame s (s.discardJob j) := by
  unfold State.discardJob
  split
  · exact ((setJob_frame s _).trans (releaseSlot_frame _ _)).trans (discardDisturbance_frame _ _)
  · dsimp only
    have h := (setJob_frame s none).trans (discardRecords_frame _ ‹RecordsJob›)
    split
    · exact h.trans (formatMarked_frame _)
    · exact h
  · exact setJob_frame s _

theorem issuePage_frame (s : State) (j : Job) (d : Nat → PageData) : WriterFrame s (s.issuePage j d) := by
  unfold State.issuePage
  split
  · exact setOp_frame s _
  · split
    · exact activate_frame _ _ ‹_›
    · exact discardJob_frame s j

theorem issueRead_frame (s t : State) (r : HostRead) (h : s.issueRead r = some t) : WriterFrame s t := by
  unfold State.issueRead at h
  split at h
  · cases h
  · cases h; exact setOp_frame s _

theorem continueDisturbance_frame (s t : State) (j : DisturbanceJob) (h : s.continueDisturbance j = some t) :
    WriterFrame s t := by
  unfold State.continueDisturbance at h
  split at h
  · exact issueRead_frame s t _ h
  · cases h
  · split at h
    · cases h; exact discardJob_frame s _
    · dsimp only at h
      split at h
      · cases h; exact issuePage_frame s _ _
      · cases h; exact ((releaseSlot_frame s _).trans (setJob_frame _ _)).trans (issuePage_frame _ _ _)

theorem continueJob_frame (s t : State) (j : Job) (h : s.continueJob j = some t) : WriterFrame s t := by
  unfold State.continueJob at h
  split at h
  · exact continueDisturbance_frame s t _ h
  · split at h
    · cases h; exact discardJob_frame s _
    · cases h; exact issuePage_frame s _ _
  · split at h
    · cases h; exact (setJob_frame s _).trans (raiseLoss_frame _ _ _)
    · cases h; exact issueImage_frame s _ _
  · exact issueRead_frame s t _ h
  all_goals cases h

/-! ## Taking a job -/

theorem takeReclaim_frame (s : State) (b : Nat) : WriterFrame s (s.takeReclaim b) := by
  unfold State.takeReclaim
  dsimp only
  have h := modifyBlock_frame s (fun e => { e with state := .erasing, blockSeq := none }) b
    fun st => { st with op := some (.erase b .reclaim) }
  repeat' split
  all_goals first | exact h | exact h.trans (raiseLoss_frame _ _ _)

theorem takeIntervals_frame (s : State) : WriterFrame s s.takeIntervals := by
  unfold State.takeIntervals
  dsimp only
  have h := drained_frame s [] true (Nat.zero_le _)
  split
  · exact h.trans (raiseLoss_frame _ _ _)
  · exact ((h.trans (spaceCheck_frame _ _)).trans (WriterFrame.ofStore _ _)).trans (setJob_frame _ _)

theorem beginMarkers_frame (s : State) (c : RecordsClass) (m : List (TimeStamp × MarkerBody)) :
    WriterFrame s (s.beginMarkers c m) := by
  unfold State.beginMarkers
  dsimp only
  refine ((spaceCheck_frame s 1).trans (WriterFrame.ofStore _ _ (hq := ?_))).trans (setJob_frame _ _)
  simp only [List.length_drop]
  omega

theorem discardHead_frame (s : State) (i : QueueItem) : WriterFrame s (s.discardHead i) := by
  unfold State.discardHead
  dsimp only
  have h := (setQueue_frame s (s.store.markerQueue.drop 1) (by simp only [List.length_drop]; omega)).trans
    (raiseLoss_frame _ .marker 1)
  split
  · exact h.trans (requestDiscarded_frame _ _)
  · split
    · exact h.trans (WriterFrame.ofStore _ _)
    · exact h

theorem takeMarkers_frame (s : State) : WriterFrame s s.takeMarkers := by
  unfold State.takeMarkers
  split
  · exact WriterFrame.refl s
  · split
    · exact discardHead_frame s _
    · split
      · exact (setQueue_frame s _ (by simp only [List.length_drop]; omega)).trans (beginImage_frame _ _ _)
      · repeat' split
        all_goals first | exact discardHead_frame s _ | exact beginMarkers_frame s _ _

theorem answerRead_frame (s : State) (n : ReadNext) : WriterFrame s (s.answerRead n).2 := by
  cases n with
  | more r => exact WriterFrame.refl s
  | done st rest => exact reply_frame s st rest

theorem takeHostRead_frame (s : State) (q : HostRequest) : WriterFrame s (s.takeHostRead q) := by
  unfold State.takeHostRead
  dsimp only
  have h := WriterFrame.ofStore s fun st => { st with hostRequest := none }
  have k := h.trans (answerRead_frame _ (State.beginRead q (s.modifyStore fun st => { st with hostRequest := none })))
  split
  · rename_i e; rw [e] at k; exact k.trans (setJob_frame _ _)
  · rename_i e; rw [e] at k; exact k

theorem takeScanRead_frame (s : State) (e : Engine) : WriterFrame s (s.takeScanRead e) :=
  ((engine_frame s _).trans (setJob_frame _ _)).trans (setOp_frame _ _)

theorem reclaimJob_frame (s t : State) (u : Urgency) (h : s.reclaimJob u = some t) : WriterFrame s t := by
  unfold State.reclaimJob at h
  cases e : s.reclaimWaits u with
  | none => simp [e] at h
  | some b => simp only [e, Option.map_some, Option.some.injEq] at h; subst h; exact (takeReclaim_frame s b).trans (setJob_frame _ _)

/-- Every choice of a list has the frame, so the one taken has. -/
theorem firstOf_frame (s t : State) (l : List (Option State)) (hl : ∀ u, some u ∈ l → WriterFrame s u)
    (h : firstOf l = some t) : WriterFrame s t := by
  induction l with
  | nil => cases h
  | cons a rest ih =>
    cases a with
    | some u => cases h; exact hl _ (by simp)
    | none => exact ih (fun u hu => hl u (by simp [hu])) h

theorem disturbanceChoice_frame (s t : State) (h : some t = s.disturbanceWaits.map s.takeDisturbance) : WriterFrame s t := by
  cases e : s.disturbanceWaits with
  | none => simp [e] at h
  | some d => simp only [e, Option.map_some, Option.some.injEq] at h; subst h; exact takeDisturbance_frame s d

theorem takeHoldup_frame (s t : State) (h : s.takeHoldup = some t) : WriterFrame s t := by
  unfold State.takeHoldup at h
  dsimp only at h
  split at h
  · exact disturbanceChoice_frame s t h.symm
  refine firstOf_frame s t _ ?_ h
  intro u hu
  simp only [List.mem_cons, List.not_mem_nil, or_false] at hu
  rcases hu with hu | hu | hu | hu
  · split at hu
    · cases hu; exact takeMarkers_frame s
    · cases hu
  · repeat' split at hu
    all_goals first | (cases hu; done) | (cases hu; exact takeIntervals_frame s)
  · exact disturbanceChoice_frame s u hu
  · split at hu
    · cases hu; exact takeIntervals_frame s
    · cases hu

theorem takeRanked_frame (s t : State) (h : s.takeRanked = some t) : WriterFrame s t := by
  refine firstOf_frame s t _ ?_ h
  intro u hu
  simp only [List.mem_cons, List.not_mem_nil, or_false] at hu
  rcases hu with hu | hu | hu | hu | hu | hu | hu | hu
  · exact reclaimJob_frame s u _ hu.symm
  · exact disturbanceChoice_frame s u hu
  · split at hu
    · cases hu; exact takeMarkers_frame s
    · cases hu
  · cases e : s.store.hostRequest with
    | none => simp [e] at hu
    | some q => simp only [e, Option.map_some, Option.some.injEq] at hu; subst hu; exact takeHostRead_frame s q
  · exact reclaimJob_frame s u _ hu.symm
  · split at hu
    · cases hu; exact takeIntervals_frame s
    · cases hu
  · cases e : s.askingEngine with
    | none => simp [e] at hu
    | some q => simp only [e, Option.map_some, Option.some.injEq] at hu; subst hu; exact takeScanRead_frame s q
  · exact reclaimJob_frame s u _ hu.symm

theorem formatStep_frame (s t : State) (f : FormatStep) (h : s.formatStep f = some t) : WriterFrame s t := by
  unfold State.formatStep at h
  split at h
  · cases h
  · split at h
    · cases h; exact beginFormatImage_frame s
    · split at h
      · cases h
        exact WriterFrame.ofStore s _ (ha := modifyBlock_array _ _ _) (hs := modifyBlock_scan _ _ _)
          (hc := modifyBlock_correcting _ _ _) (hq := by simp only [modifyBlock_queue]; omega)
      · cases h; exact WriterFrame.ofStore s _
    · split at h
      · cases h; exact WriterFrame.ofStore s _
      · split at h
        · cases h; exact activate_frame s _ ‹_›
        · cases h; exact endFormat_frame s
    · dsimp only at h
      split at h
      · cases h; exact (queueFormat_frame s).trans (beginMarkers_frame _ _ _)
      · cases h; exact queueFormat_frame s
    · cases h; exact beginImage_frame s _ _

theorem pumpOnce_frame (s t : State) (h : s.pumpOnce = some t) : WriterFrame s t := by
  unfold State.pumpOnce at h
  split at h
  · cases h
  · split at h
    · cases h; exact issueImage_frame s _ _
    · split at h
      · exact continueJob_frame s t _ h
      · split at h
        · split at h
          · cases h; exact WriterFrame.ofStore s _
          · split at h
            · cases h; exact activate_frame s _ ‹_›
            · cases h; exact WriterFrame.ofStore s _
        · split at h
          · exact formatStep_frame s t _ h
          · split at h
            · exact takeHoldup_frame s t h
            · exact takeRanked_frame s t h

theorem pumpFor_frame (n : Nat) (s : State) : WriterFrame s (s.pumpFor n) := by
  induction n generalizing s with
  | zero => exact WriterFrame.refl s
  | succ n ih =>
    unfold State.pumpFor
    dsimp only
    have h := (review_frame s).trans (lossReview_frame _)
    split
    · exact h
    · split
      · exact (h.trans (pumpOnce_frame _ _ ‹_›)).trans (ih _)
      · exact h

/-- All that the store writer may change when it goes on. -/
theorem pump_frame (s : State) : WriterFrame s s.pump := pumpFor_frame _ s

end Sys2Proof.Machine
end

