-- ==== Sys2Proof/Laws/Blocks.lean ====
section
/-!
SUPPORT. The block index table (`Store.block`, `Store.blocks`, `Store.modifyBlock`): what one block's entry reads after a change of another
or of all, how the table is listed, and what a sorted list starts with.
-/

-- One proof after the other: proofs checked side by side hold more memory than the check allows.
set_option Elab.async false

namespace Sys2Proof.Machine

/-! ## Lists -/

section Lists

variable {α : Type}

theorem getElem?_modifyAt (f : α → α) (i : Nat) (l : List α) : (modifyAt f i l)[i]? = l[i]?.map f := by
  induction l generalizing i with
  | nil => cases i <;> rfl
  | cons a l ih =>
    cases i with
    | zero => rfl
    | succ i => simpa [modifyAt] using ih i

theorem getElem?_modifyAt_of_ne (f : α → α) {i j : Nat} (h : j ≠ i) (l : List α) : (modifyAt f i l)[j]? = l[j]? := by
  induction l generalizing i j with
  | nil => cases i <;> rfl
  | cons a l ih =>
    cases i with
    | zero => cases j with
      | zero => exact absurd rfl h
      | succ j => rfl
    | succ i => cases j with
      | zero => rfl
      | succ j => simpa [modifyAt] using ih (by omega)

theorem mem_insertBy {key : α → Nat} {a b : α} {l : List α} : b ∈ insertBy key a l ↔ b = a ∨ b ∈ l := by
  induction l with
  | nil => simp [insertBy]
  | cons c l ih =>
    unfold insertBy
    split
    · simp
    · simp only [List.mem_cons, ih, or_left_comm]

@[simp] theorem mem_sortBy {key : α → Nat} {b : α} {l : List α} : b ∈ sortBy key l ↔ b ∈ l := by
  induction l with
  | nil => simp [sortBy]
  | cons a l ih => simp [sortBy, mem_insertBy, ih]

theorem insertBy_sorted {key : α → Nat} (a : α) {l : List α} (h : l.Pairwise fun x y => key x ≤ key y) :
    (insertBy key a l).Pairwise fun x y => key x ≤ key y := by
  induction l with
  | nil => simp [insertBy]
  | cons c l ih =>
    rw [List.pairwise_cons] at h
    unfold insertBy
    split
    · rename_i k
      refine List.pairwise_cons.2 ⟨fun x hx => ?_, List.pairwise_cons.2 h⟩
      rcases List.mem_cons.1 hx with rfl | hx
      · exact k
      · exact Nat.le_trans k (h.1 x hx)
    · rename_i k
      refine List.pairwise_cons.2 ⟨fun x hx => ?_, ih h.2⟩
      rcases mem_insertBy.1 hx with rfl | hx
      · omega
      · exact h.1 x hx

/-- Sorting sorts. -/
theorem sortBy_sorted (key : α → Nat) (l : List α) : (sortBy key l).Pairwise fun x y => key x ≤ key y := by
  induction l with
  | nil => simp [sortBy]
  | cons a l ih => exact insertBy_sorted a ih

/-- A sorted list starts with an item of the lowest key. -/
theorem sortBy_head {key : α → Nat} {l : List α} {a : α} (h : (sortBy key l).head? = some a) :
    a ∈ l ∧ ∀ b ∈ l, key a ≤ key b := by
  have hs := sortBy_sorted key l
  have hm : ∀ b, b ∈ sortBy key l ↔ b ∈ l := fun b => mem_sortBy
  generalize sortBy key l = m at *
  cases m with
  | nil => cases h
  | cons c m =>
    cases h
    rw [List.pairwise_cons] at hs
    refine ⟨(hm a).1 List.mem_cons_self, fun b hb => ?_⟩
    rcases List.mem_cons.1 ((hm b).2 hb) with rfl | hb
    · exact Nat.le_refl _
    · exact hs.1 b hb

theorem sortBy_head_none {key : α → Nat} {l : List α} : (sortBy key l).head? = none ↔ l = [] := by
  have hm : ∀ b, b ∈ sortBy key l ↔ b ∈ l := fun b => mem_sortBy
  constructor
  · intro h
    rw [List.head?_eq_none_iff] at h
    rw [h] at hm
    exact List.eq_nil_iff_forall_not_mem.2 fun b hb => by simpa using (hm b).2 hb
  · rintro rfl; rfl

theorem lastOf_append (l : List α) (a : α) : lastOf (l ++ [a]) = some a := by
  induction l with
  | nil => rfl
  | cons b r ih => cases r with
    | nil => rfl
    | cons c r => simpa [lastOf] using ih

end Lists

/-! ## One block's entry -/

theorem block_modifyBlock {f : BlockEntry → BlockEntry} {b : Nat} {e : BlockEntry} {st : Store} (h : st.block b = some e) :
    (st.modifyBlock f b).block b = some (f e) := by
  unfold Store.block at *
  unfold Store.modifyBlock
  split at h
  · cases h
  · rename_i k
    simp only [k, if_false]
    rw [getElem?_modifyAt, h]
    rfl

theorem block_modifyBlock_of_ne (f : BlockEntry → BlockEntry) {a b : Nat} (h : a ≠ b) (st : Store) :
    (st.modifyBlock f b).block a = st.block a := by
  unfold Store.modifyBlock
  split
  · rfl
  · rename_i k
    unfold Store.block
    split
    · rfl
    · rename_i k'
      exact getElem?_modifyAt_of_ne f (by unfold indexOf; omega) _

/-- A change of every entry. -/
theorem block_map (f : BlockEntry → BlockEntry) (st : Store) (b : Nat) :
    ({ st with index := st.index.map f } : Store).block b = (st.block b).map f := by
  unfold Store.block
  split
  · rfl
  · simp

/-- The entry of a block depends on the index alone. -/
theorem block_index {st st' : Store} (h : st'.index = st.index) (b : Nat) : st'.block b = st.block b := by
  unfold Store.block; rw [h]

theorem block_mem {st : Store} {b : Nat} {e : BlockEntry} (h : st.block b = some e) : e ∈ st.index := by
  unfold Store.block at h
  split at h
  · cases h
  · exact List.mem_of_getElem? h

/-- A listed block has the entry it is listed with. -/
theorem block_of_mem_blocks {st : Store} {b : Nat} {e : BlockEntry} (h : (b, e) ∈ st.blocks) : st.block b = some e := by
  unfold Store.blocks at h
  obtain ⟨i, hi, he⟩ := List.mem_iff_getElem.1 h
  rw [List.getElem_zip] at he
  obtain ⟨h1, h2⟩ := Prod.mk.inj he
  have hb : b = i + 2 := by
    rw [← h1]; unfold logBlocks; simp [Config.firstLogBlock]
  unfold Store.block indexOf
  rw [if_neg (by rw [hb]; unfold Config.firstLogBlock; omega)]
  have : b - Config.firstLogBlock = i := by rw [hb]; unfold Config.firstLogBlock; omega
  rw [this, ← h2]
  exact List.getElem?_eq_getElem _

/-- No block is listed twice. -/
theorem blocks_nodup (st : Store) : (st.blocks.map (·.1)).Nodup := by
  unfold Store.blocks
  have h : logBlocks.Nodup := by
    unfold logBlocks
    rw [List.Nodup, List.pairwise_map]
    exact (List.nodup_range (n := Config.logBlockCount)).imp fun h e => h (Nat.add_right_cancel e)
  refine List.Nodup.sublist ?_ h
  generalize logBlocks = l
  generalize st.index = m
  induction l generalizing m with
  | nil => simp
  | cons a l ih => cases m with
    | nil => simp
    | cons b m => simpa using ih m

end Sys2Proof.Machine
end

