-- ==== Sys2Proof/Laws/Tables.lean ====
section
/-!
SUPPORT. Tables of optional items (`slotAt`, `putSlot`, `modifySlot`, `freeSlot`, `filled`): what one position reads after a change of
another, and which items the filled positions list.
-/

-- One proof after the other: proofs checked side by side hold more memory than the check allows.
set_option Elab.async false

namespace Sys2Proof.Machine

variable {α β : Type}

@[simp] theorem slotAt_nil (i : Nat) : slotAt ([] : List (Option α)) i = none := rfl

@[simp] theorem slotAt_cons_zero (a : Option α) (l : List (Option α)) : slotAt (a :: l) 0 = a := by
  cases a <;> rfl

@[simp] theorem slotAt_cons_succ (a : Option α) (l : List (Option α)) (i : Nat) : slotAt (a :: l) (i + 1) = slotAt l i := rfl

@[simp] theorem slotAt_replicate (n i : Nat) : slotAt (List.replicate n (none : Option α)) i = none := by
  induction n generalizing i with
  | zero => rfl
  | succ n ih =>
    cases i with
    | zero => rfl
    | succ i => exact ih i

theorem slotAt_map (f : α → β) (l : List (Option α)) (i : Nat) : slotAt (l.map (Option.map f)) i = (slotAt l i).map f := by
  induction l generalizing i with
  | nil => rfl
  | cons a l ih =>
    cases i with
    | zero => cases a <;> rfl
    | succ i => exact ih i

theorem slotAt_modifySlot (f : α → α) (i : Nat) (l : List (Option α)) : slotAt (modifySlot f i l) i = (slotAt l i).map f := by
  unfold modifySlot
  induction l generalizing i with
  | nil => cases i <;> rfl
  | cons a l ih =>
    cases i with
    | zero => cases a <;> rfl
    | succ i => exact ih i

theorem slotAt_modifyAt_of_ne (f : Option α → Option α) {i j : Nat} (h : j ≠ i) (l : List (Option α)) :
    slotAt (modifyAt f i l) j = slotAt l j := by
  induction l generalizing i j with
  | nil => cases i <;> rfl
  | cons a l ih =>
    cases i with
    | zero =>
      cases j with
      | zero => exact absurd rfl h
      | succ j => rfl
    | succ i =>
      cases j with
      | zero => cases a <;> rfl
      | succ j => exact ih (by omega)

theorem slotAt_modifySlot_of_ne (f : α → α) {i j : Nat} (h : j ≠ i) (l : List (Option α)) :
    slotAt (modifySlot f i l) j = slotAt l j := slotAt_modifyAt_of_ne _ h l

theorem slotAt_putSlot_of_ne (a : Option α) {i j : Nat} (h : j ≠ i) (l : List (Option α)) :
    slotAt (putSlot a i l) j = slotAt l j := slotAt_modifyAt_of_ne _ h l

theorem slotAt_putSlot (a : Option α) {i : Nat} {l : List (Option α)} (h : i < l.length) : slotAt (putSlot a i l) i = a := by
  unfold putSlot
  induction l generalizing i with
  | nil => exact absurd h (by simp)
  | cons b l ih =>
    cases i with
    | zero => cases a <;> rfl
    | succ i => exact ih (by simpa using h)

@[simp] theorem slotAt_putSlot_none (i : Nat) (l : List (Option α)) : slotAt (putSlot none i l) i = none := by
  unfold putSlot
  induction l generalizing i with
  | nil => cases i <;> rfl
  | cons b l ih =>
    cases i with
    | zero => rfl
    | succ i => exact ih i

theorem slotAt_lt {l : List (Option α)} {i : Nat} {a : α} (h : slotAt l i = some a) : i < l.length := by
  induction l generalizing i with
  | nil => cases h
  | cons b l ih =>
    cases i with
    | zero => simp
    | succ i => have := ih h; simp; omega

/-- The lowest free position is free, and lies in the table. -/
theorem freeSlot_some {l : List (Option α)} {i : Nat} (h : freeSlot l = some i) : slotAt l i = none ∧ i < l.length := by
  induction l generalizing i with
  | nil => cases h
  | cons b l ih =>
    cases b with
    | none => cases h; exact ⟨rfl, by simp⟩
    | some a =>
      simp only [freeSlot] at h
      cases hf : freeSlot l with
      | none => rw [hf] at h; cases h
      | some j =>
        rw [hf] at h
        cases h
        have := ih hf
        exact ⟨this.1, by simp; omega⟩

theorem mem_filledFrom {l : List (Option α)} {n i : Nat} {a : α} :
    (i, a) ∈ filledFrom n l ↔ n ≤ i ∧ slotAt l (i - n) = some a := by
  induction l generalizing n with
  | nil => simp [filledFrom]
  | cons b l ih =>
    have step : n < i → i - n = (i - (n + 1)) + 1 := by omega
    cases b with
    | none =>
      rw [filledFrom, ih]
      by_cases h : n < i
      · rw [step h]; simp; omega
      · by_cases e : i = n
        · subst e
          have : ¬ (i + 1 ≤ i) := by omega
          simp [this]
        · constructor
          · intro k; omega
          · intro k; omega
    | some c =>
      rw [filledFrom, List.mem_cons, ih]
      by_cases h : n < i
      · rw [step h]
        have : i ≠ n := by omega
        simp [this]; omega
      · by_cases e : i = n
        · subst e
          have : ¬ (i + 1 ≤ i) := by omega
          simp [this, eq_comm]
        · constructor
          · rintro (k | k)
            · cases k; omega
            · omega
          · intro k; omega

/-- The filled positions with their items. -/
theorem mem_filled {l : List (Option α)} {i : Nat} {a : α} : (i, a) ∈ filled l ↔ slotAt l i = some a := by
  unfold filled
  rw [mem_filledFrom]
  simp

theorem filledFrom_lower {l : List (Option α)} {n : Nat} {e : Nat × α} (h : e ∈ filledFrom n l) : n ≤ e.1 :=
  (mem_filledFrom.1 h).1

theorem filledFrom_nodup (l : List (Option α)) (n : Nat) : ((filledFrom n l).map (·.1)).Nodup := by
  induction l generalizing n with
  | nil => exact List.nodup_nil
  | cons b l ih =>
    cases b with
    | none => exact ih (n + 1)
    | some a =>
      rw [filledFrom, List.map_cons, List.nodup_cons]
      refine ⟨?_, ih (n + 1)⟩
      intro h
      obtain ⟨e, he, hn⟩ := List.mem_map.1 h
      have := filledFrom_lower he
      omega

/-- No position is listed twice. -/
theorem filled_nodup (l : List (Option α)) : ((filled l).map (·.1)).Nodup := filledFrom_nodup l 0

theorem insertBy_perm (key : α → Nat) (a : α) (l : List α) : (insertBy key a l).Perm (a :: l) := by
  induction l with
  | nil => exact List.Perm.refl _
  | cons b l ih =>
    unfold insertBy
    split
    · exact List.Perm.refl _
    · exact (ih.cons b).trans (List.Perm.swap a b l)

/-- Sorting keeps the items. -/
theorem sortBy_perm (key : α → Nat) (l : List α) : (sortBy key l).Perm l := by
  induction l with
  | nil => exact List.Perm.refl _
  | cons a l ih => exact (insertBy_perm key a _).trans (ih.cons a)

end Sys2Proof.Machine
end

