-- ==== Sys2Proof/Laws/Track.lean ====
section
/-!
SUPPORT. What the tracker may change when it takes a value set, a report or a notice: `TrackFrame`, with one lemma for each
operation that acts on the whole state.
-/

-- One proof after the other: proofs checked side by side hold more memory than the check allows.
set_option Elab.async false

namespace Sys2Proof.Machine

namespace TrackFrame

theorem refl (s : State) : TrackFrame s s := by
  constructor <;> first | rfl | exact ⟨_, _, rfl⟩

theorem trans {s t u : State} (h : TrackFrame s t) (k : TrackFrame t u) : TrackFrame s u where
  pending := k.pending.trans h.pending
  supply := k.supply.trans h.supply
  time := k.time.trans h.time
  meas := k.meas.trans h.meas
  agg := k.agg.trans h.agg
  store := k.store.trans h.store
  settings := k.settings.trans h.settings
  cases := k.cases.trans h.cases
  ring := k.ring.trans h.ring
  lengths := k.lengths.trans h.lengths
  slotCount := k.slotCount.trans h.slotCount
  entryCount := k.entryCount.trans h.entryCount
  inForce := k.inForce.trans h.inForce
  link := by
    obtain ⟨c, p, e⟩ := h.link
    obtain ⟨c', p', e'⟩ := k.link
    exact ⟨c', p', by rw [e', e]⟩
  deliveries := k.deliveries.trans h.deliveries
  full := k.full.trans h.full

/-- A change of the tracker that keeps the size of its table. -/
theorem ofTracker (s : State) (f : Tracker → Tracker) (h : (f s.tracker).entries.length = s.tracker.entries.length)
    (k : (f s.tracker).inForce = s.tracker.inForce) : TrackFrame s (s.modifyTracker f) := by
  constructor <;> first | assumption | rfl | exact ⟨_, _, rfl⟩

/-- A request put in flight. -/
theorem ofReports (s : State) (r : Reports) (h : r.deliveries = s.reports.deliveries) (k : r.full = s.reports.full) :
    TrackFrame s { s with reports := r } := by
  constructor <;> first | assumption | rfl | exact ⟨_, _, rfl⟩

end TrackFrame

/-- A change of the table that keeps its size and the active set. -/
def Tracker.Keeps (t u : Tracker) : Prop := u.entries.length = t.entries.length ∧ u.inForce = t.inForce

namespace Tracker.Keeps

theorem refl (t : Tracker) : t.Keeps t := ⟨rfl, rfl⟩

theorem trans {t u w : Tracker} (h : t.Keeps u) (k : u.Keeps w) : t.Keeps w := ⟨k.1.trans h.1, k.2.trans h.2⟩

theorem modify (t : Tracker) (f : Entry → Entry) (i : Nat) : t.Keeps (t.modify f i) := ⟨modifySlot_length _ _ _, rfl⟩

theorem enqueue (t : Tracker) (i : Nat) : t.Keeps (t.enqueue i) := ⟨modifySlot_length _ _ _, rfl⟩

theorem free (t : Tracker) (i : Nat) : t.Keeps (t.free i) := ⟨putSlot_length _ _ _, rfl⟩

theorem leaveOpen (t : Tracker) (i : Nat) : t.Keeps (t.leaveOpen i) := by
  unfold Tracker.leaveOpen
  split
  · exact refl t
  · split
    · exact ⟨modifySlot_length _ _ _, rfl⟩
    · exact enqueue t i

theorem endAll (base : Option Nat) (f : TimeStamp) (l : List Nat) (t : Tracker) : t.Keeps (t.endAll base f l) := by
  induction l generalizing t with
  | nil => exact refl t
  | cons i rest ih => exact ((modify t _ i).trans (leaveOpen _ i)).trans (ih _)

theorem releaseDetectors (t : Tracker) : t.Keeps t.releaseDetectors := ⟨rfl, rfl⟩

theorem takeWindow (t : Tracker) (w : Nat) : t.Keeps (t.takeWindow w) := by
  unfold Tracker.takeWindow
  repeat' split
  all_goals exact ⟨rfl, rfl⟩

theorem stage1 (base : Option Nat) (v : HalfCycleSet) (t : Tracker) : t.Keeps (t.stage1 base v) := by
  unfold Tracker.stage1
  dsimp only
  have h := ((endAll base v.stamp (t.ending v .interruption) t).trans (endAll base v.stamp (t.ending v .dip) _)).trans
    (endAll base v.stamp (t.ending v .swell) _)
  split <;> exact h

theorem freeAll (l : List (Nat × Entry)) (t : Tracker) : t.Keeps (l.foldl (fun t e => t.free e.1) t) := by
  induction l generalizing t with
  | nil => exact refl t
  | cons a rest ih => exact (free t a.1).trans (ih _)

theorem stage2 (v : HalfCycleSet) (t : Tracker) : t.Keeps (t.stage2 v).1 := by
  unfold Tracker.stage2
  exact freeAll _ t

theorem endRvc (base : Option Nat) (f : Freq) (e : List (Phase × TimeStamp)) (l : List (Nat × Entry)) (t : Tracker) :
    t.Keeps (t.endRvc base f e l) := by
  induction l generalizing t with
  | nil => exact refl t
  | cons a rest ih =>
    unfold Tracker.endRvc
    dsimp only
    split
    · split
      · exact ih t
      · exact ((modify t _ _).trans (leaveOpen _ _)).trans (ih _)
    · exact ih t

theorem closeAll (base : Option Nat) (l : List Nat) (t : Tracker) : t.Keeps (t.closeAll base l) := by
  induction l generalizing t with
  | nil => exact refl t
  | cons i rest ih => exact ((modify t _ i).trans (leaveOpen _ i)).trans (ih _)

theorem slotFull (i k : Nat) (t : Tracker) : t.Keeps (t.slotFull i k) := by
  unfold Tracker.slotFull
  split
  · exact refl t
  · split
    · exact refl t
    · split
      · dsimp only
        split
        · exact (modify t _ i).trans (enqueue _ i)
        · exact modify t _ i
      · exact refl t

theorem slotDropped (i k : Nat) (t : Tracker) : t.Keeps (t.slotDropped i k) := by
  unfold Tracker.slotDropped
  split
  · exact refl t
  · split
    · exact refl t
    · split
      · dsimp only
        split
        · exact (modify t _ i).trans (enqueue _ i)
        · exact modify t _ i
      · exact refl t

end Tracker.Keeps

theorem tracker_frame (s : State) (f : Tracker → Tracker) (h : s.tracker.Keeps (f s.tracker)) :
    TrackFrame s (s.modifyTracker f) := TrackFrame.ofTracker s f h.1 h.2

/-! ## Openings -/

theorem miss_track (s : State) (k : Kind) (p : Option Phase) (q : PhaseSet) : TrackFrame s (s.miss k p q) := by
  constructor <;> first | rfl | exact ⟨_, _, rfl⟩

theorem openEntry_track (s : State) (v : HalfCycleSet) (x : Entry) (m : Option Phase) (w : SlotWish) :
    TrackFrame s (s.openEntry v x m w) := by
  unfold State.openEntry
  split
  · exact miss_track s _ _ _
  · cases w <;> (constructor <;> first | rfl | exact ⟨_, _, rfl⟩ | exact putSlot_length _ _ _)

theorem join_track (s : State) (u : Superseded) (i : Nat) (q : PhaseSet) : TrackFrame s (s.join u i q).1 := by
  unfold State.join
  split
  · exact TrackFrame.refl s
  · dsimp only
    have h : TrackFrame s (s.modifyTracker (·.modify
      (fun x => Entry.precede (q.meets u.phases) { x with phases := x.phases.union q }) i)) :=
      tracker_frame s _ (Tracker.Keeps.modify _ _ _)
    split
    · split
      · exact h.trans (TrackFrame.ofReports _ _ rfl rfl)
      · exact h
    · exact h

theorem joinAll_track (v : HalfCycleSet) (l : List (Nat × Entry)) (a : State × Superseded) :
    TrackFrame a.1 (joinAll v l a).1 := by
  induction l generalizing a with
  | nil => exact TrackFrame.refl _
  | cons e rest ih => exact (join_track a.1 a.2 e.1 _).trans (ih _)

theorem openDisturbance_track (v : HalfCycleSet) (k : Kind) (m : Option Phase) (q : PhaseSet) (a : State × Superseded) :
    TrackFrame a.1 (State.openDisturbance v k m q a).1 := by
  unfold State.openDisturbance
  dsimp only
  split
  · exact tracker_frame _ _ ⟨rfl, rfl⟩
  · split <;> (dsimp only; exact openEntry_track _ _ _ _ _)

theorem openPerPhase_track (v : HalfCycleSet) (k : Kind) (l : List Phase) (a : State × Superseded) :
    TrackFrame a.1 (openPerPhase v k l a).1 := by
  induction l generalizing a with
  | nil => exact TrackFrame.refl _
  | cons p rest ih =>
    unfold openPerPhase
    dsimp only
    split
    · exact ih a
    · exact (openDisturbance_track v k _ _ a).trans (ih _)

theorem stage3Kind_track (v : HalfCycleSet) (k : Kind) (a : State × Superseded) : TrackFrame a.1 (stage3Kind v k a).1 := by
  unfold stage3Kind
  dsimp only
  have h := joinAll_track v (a.1.tracker.openedOf k) a
  split
  · exact h.trans (openPerPhase_track _ _ _ _)
  · split
    · exact h
    · exact h.trans (openDisturbance_track _ _ _ _ _)

theorem stage3_track (s : State) (v : HalfCycleSet) (u : Superseded) : TrackFrame s (s.stage3 v u) := by
  unfold State.stage3
  exact ((stage3Kind_track v .dip (s, u)).trans (stage3Kind_track v .swell _)).trans (TrackFrame.ofReports _ _ rfl rfl)

theorem openInterruption_track (s : State) (v : HalfCycleSet) (p : Option Phase) (q : PhaseSet) :
    TrackFrame s (s.openInterruption v p q) := by
  unfold State.openInterruption
  split
  · exact TrackFrame.refl s
  · exact openEntry_track _ _ _ _ _

theorem interruptPhases_track (v : HalfCycleSet) (l : List Phase) (s : State) : TrackFrame s (interruptPhases v l s) := by
  induction l generalizing s with
  | nil => exact TrackFrame.refl _
  | cons p rest ih =>
    unfold interruptPhases
    dsimp only
    split
    · exact ih s
    · exact (openInterruption_track _ _ _ _).trans (ih _)

theorem stage4_track (s : State) (v : HalfCycleSet) : TrackFrame s (s.stage4 v) := by
  unfold State.stage4
  dsimp only
  split
  · exact interruptPhases_track _ _ _
  · split
    · exact openInterruption_track _ _ _ _
    · exact TrackFrame.refl s

/-! ## Stages 5 to 7 -/

theorem depart_track (s : State) (v : HalfCycleSet) (p : Phase) : TrackFrame s (s.depart v p) := by
  unfold State.depart
  dsimp only
  repeat' split
  all_goals first
    | exact openEntry_track _ _ _ _ _
    | exact tracker_frame _ _ (Tracker.Keeps.modify _ _ _)
    | exact tracker_frame _ (Tracker.coverMark _ _ _) ⟨rfl, rfl⟩

theorem stepDetector_track (v : HalfCycleSet) (p : Phase) (a : State × List (Phase × TimeStamp)) :
    TrackFrame a.1 (State.stepDetector v p a).1 := by
  unfold State.stepDetector
  dsimp only
  have h (d : Detector) : TrackFrame a.1 (a.1.setDetector p d) := tracker_frame _ _ ⟨rfl, rfl⟩
  split
  · exact h _
  · split
    · exact h _
    · exact (h _).trans (depart_track _ _ _)
    · exact (h _).trans (tracker_frame _ _ ⟨List.length_map _, rfl⟩)

/-- The end of stage 6, on the state the detectors leave. -/
theorem stage6_end (s : State) (v : HalfCycleSet) (ended : List (Phase × TimeStamp)) (g : Entry → Entry) :
    TrackFrame s
      { s with
        tracker := Tracker.endRvc s.time.base v.freq ended
          (Tracker.openedOf .rvc { s.tracker with entries := s.tracker.entries.map (Option.map g) })
          { s.tracker with entries := s.tracker.entries.map (Option.map g) } } := by
  have k : s.tracker.Keeps { s.tracker with entries := s.tracker.entries.map (Option.map g) } := ⟨List.length_map _, rfl⟩
  exact tracker_frame s (fun _ => Tracker.endRvc s.time.base v.freq ended
    (Tracker.openedOf .rvc { s.tracker with entries := s.tracker.entries.map (Option.map g) })
    { s.tracker with entries := s.tracker.entries.map (Option.map g) }) (k.trans (Tracker.Keeps.endRvc _ _ _ _ _))

theorem stage6_track (s : State) (v : HalfCycleSet) : TrackFrame s (s.stage6 v) := by
  unfold State.stage6
  have h := ((stepDetector_track v .l1 (s, [])).trans (stepDetector_track v .l2 _)).trans (stepDetector_track v .l3 _)
  generalize State.stepDetector v .l3 (State.stepDetector v .l2 (State.stepDetector v .l1 (s, []))) = a at h ⊢
  exact h.trans (stage6_end a.1 v a.2 _)

theorem stage5_keeps (base : Option Nat) (v : HalfCycleSet) (t : Tracker) : t.Keeps (t.stage5 base v) :=
  ⟨List.length_map _, rfl⟩

theorem stage7_keeps (v : HalfCycleSet) (t : Tracker) : t.Keeps (t.stage7 v) := ⟨rfl, rfl⟩

/-- All that the tracker may change when it takes a value set (R20). -/
theorem track_frame (s : State) (v : HalfCycleSet) : TrackFrame s (s.track v) := by
  unfold State.track
  dsimp only
  have k := ((Tracker.Keeps.takeWindow s.tracker v.window).trans (Tracker.Keeps.stage1 s.time.base v _)).trans
    (Tracker.Keeps.stage2 v _)
  generalize ((s.tracker.takeWindow v.window).stage1 s.time.base v).stage2 v = a at k ⊢
  refine TrackFrame.trans ?_ (tracker_frame _ _ (stage7_keeps v _))
  refine TrackFrame.trans ?_ (stage6_track _ v)
  refine TrackFrame.trans ?_ (tracker_frame _ _ (stage5_keeps _ v _))
  refine TrackFrame.trans ?_ (stage4_track _ v)
  refine TrackFrame.trans ?_ (stage3_track _ v a.2)
  exact tracker_frame s (fun _ => a.1) k

theorem track_lastStamp (s : State) (v : HalfCycleSet) : (s.track v).tracker.lastStamp = some v.stamp := rfl

/-! ## Requests to the capture unit -/

theorem serveClaim_track (s : State) (c : Claim) : TrackFrame s (s.serveClaim c) := by
  unfold State.serveClaim
  split
  · exact TrackFrame.refl s
  · split
    · exact tracker_frame _ _ (Tracker.Keeps.modify _ _ _)
    · split
      · exact tracker_frame _ _ (Tracker.Keeps.modify _ _ _)
      · constructor <;> first | rfl | exact ⟨_, _, rfl⟩ | exact putSlot_length _ _ _ | exact modifySlot_length _ _ _

theorem serveRelink_track (s : State) (k e : Nat) : TrackFrame s (s.serveRelink k e) := by
  unfold State.serveRelink
  dsimp only
  repeat' split
  · exact tracker_frame _ _ (Tracker.Keeps.modify _ _ _)
  · exact tracker_frame _ _ (Tracker.Keeps.modify _ _ _)
  · constructor <;> first | rfl | exact ⟨_, _, rfl⟩ | exact putSlot_length _ _ _ | exact modifySlot_length _ _ _

theorem serveHandBack_track (s : State) (k : Nat) : TrackFrame s (s.serveHandBack k) := by
  unfold State.serveHandBack
  split
  · split
    · exact TrackFrame.refl s
    · constructor <;> first | rfl | exact ⟨_, _, rfl⟩ | exact putSlot_length _ _ _
  · exact TrackFrame.refl s

theorem serveClaims_track (l : List Claim) (s : State) : TrackFrame s (serveClaims l s) := by
  induction l generalizing s with
  | nil => exact TrackFrame.refl s
  | cons c rest ih => exact (serveClaim_track s c).trans (ih _)

theorem serveRelinks_track (l : List (Nat × Nat)) (s : State) : TrackFrame s (serveRelinks l s) := by
  induction l generalizing s with
  | nil => exact TrackFrame.refl s
  | cons c rest ih => exact (serveRelink_track s c.1 c.2).trans (ih _)

theorem serveHandBacks_track (l : List Nat) (s : State) : TrackFrame s (serveHandBacks l s) := by
  induction l generalizing s with
  | nil => exact TrackFrame.refl s
  | cons c rest ih => exact (serveHandBack_track s c).trans (ih _)

theorem settleRequests_track (s : State) : TrackFrame s s.settleRequests := by
  unfold State.settleRequests
  dsimp only
  refine TrackFrame.trans (TrackFrame.trans (TrackFrame.trans ?_ (serveRelinks_track _ _)) (serveHandBacks_track _ _))
    (serveClaims_track _ _)
  exact TrackFrame.ofReports s _ rfl rfl

theorem serveOverdueClaims_track (s : State) : TrackFrame s s.serveOverdueClaims := by
  unfold State.serveOverdueClaims
  dsimp only
  refine TrackFrame.trans ?_ (serveClaims_track _ _)
  exact TrackFrame.ofReports s _ rfl rfl

end Sys2Proof.Machine
end

