-- ==== Sys2Proof/Laws/Entries.lean ====
section
/-!
SUPPORT. What the tracker's operations and stages do to one entry of its table: an entry that ends, one that stays OPEN, and one
that a stage leaves alone.
-/

-- One proof after the other: proofs checked side by side hold more memory than the check allows.
set_option Elab.async false

namespace Sys2Proof.Machine

/-! ## One entry changes -/

theorem entry_modify (f : Entry → Entry) (i : Nat) (t : Tracker) : (t.modify f i).entry i = (t.entry i).map f :=
  slotAt_modifySlot f i t.entries

theorem entry_modify_of_ne (f : Entry → Entry) {i j : Nat} (h : j ≠ i) (t : Tracker) : (t.modify f i).entry j = t.entry j :=
  slotAt_modifySlot_of_ne f h t.entries

theorem entry_enqueue (i : Nat) (t : Tracker) :
    (t.enqueue i).entry i = (t.entry i).map fun x => { x with state := .commitWait } := entry_modify _ i t

theorem entry_enqueue_of_ne {i j : Nat} (h : j ≠ i) (t : Tracker) : (t.enqueue i).entry j = t.entry j := entry_modify_of_ne _ h t

theorem entry_free (i : Nat) (t : Tracker) : (t.free i).entry i = none := slotAt_putSlot_none i t.entries

theorem entry_free_of_ne {i j : Nat} (h : j ≠ i) (t : Tracker) : (t.free i).entry j = t.entry j := slotAt_putSlot_of_ne none h t.entries

theorem entry_leaveOpen {i : Nat} {x : Entry} {t : Tracker} (h : t.entry i = some x) :
    (t.leaveOpen i).entry i = some { x with state := if x.slot.map (·.full) = some false then .tail else .commitWait } := by
  unfold Tracker.leaveOpen
  rw [h]
  dsimp only
  split
  · rename_i e
    have : x.slot.map (·.full) = some false := by rw [e]; rfl
    rw [if_pos this]
    show (t.modify _ i).entry i = _
    rw [entry_modify, h]
    rfl
  · rename_i e
    have : ¬ x.slot.map (·.full) = some false := by
      cases hs : x.slot with
      | none => simp
      | some l =>
        obtain ⟨k, b⟩ := l
        cases b with
        | false => exact absurd hs (e k)
        | true => simp
    rw [if_neg this, entry_enqueue, h]
    rfl

theorem entry_leaveOpen_of_ne {i j : Nat} (h : j ≠ i) (t : Tracker) : (t.leaveOpen i).entry j = t.entry j := by
  unfold Tracker.leaveOpen
  split
  · rfl
  · split
    · exact entry_modify_of_ne _ h t
    · exact entry_enqueue_of_ne h t

/-- The entry as it stands when it has ended (R23). -/
def Entry.ended (base : Option Nat) (finish : TimeStamp) (x : Entry) : Entry :=
  { x.finishAt base finish with state := if x.slot.map (·.full) = some false then .tail else .commitWait }

theorem Entry.noteEpoch_slot (base : Option Nat) (e : Epoch) (x : Entry) : (x.noteEpoch base e).slot = x.slot := by
  unfold Entry.noteEpoch
  split <;> rfl

theorem entry_endEntry (base : Option Nat) (finish : TimeStamp) {i : Nat} {x : Entry} {t : Tracker} (h : t.entry i = some x) :
    (t.endEntry base finish i).entry i = some (x.ended base finish) := by
  unfold Tracker.endEntry
  have k : (t.modify (Entry.finishAt base finish) i).entry i = some (x.finishAt base finish) := by rw [entry_modify, h]; rfl
  have : (x.finishAt base finish).slot = x.slot := x.noteEpoch_slot base finish.epoch
  rw [entry_leaveOpen k]
  unfold Entry.ended
  dsimp only
  rw [this]

theorem entry_endEntry_of_ne (base : Option Nat) (finish : TimeStamp) {i j : Nat} (h : j ≠ i) (t : Tracker) :
    (t.endEntry base finish i).entry j = t.entry j := by
  unfold Tracker.endEntry
  rw [entry_leaveOpen_of_ne h, entry_modify_of_ne _ h]

theorem entry_endAll_of_notMem (base : Option Nat) (finish : TimeStamp) {l : List Nat} {j : Nat} (h : j ∉ l) (t : Tracker) :
    (t.endAll base finish l).entry j = t.entry j := by
  induction l generalizing t with
  | nil => rfl
  | cons i l ih =>
    rw [List.mem_cons, not_or] at h
    unfold Tracker.endAll
    rw [ih h.2, entry_endEntry_of_ne base finish h.1]

theorem entry_endAll (base : Option Nat) (finish : TimeStamp) {l : List Nat} (n : l.Nodup) {j : Nat} {x : Entry} {t : Tracker}
    (h : j ∈ l) (e : t.entry j = some x) : (t.endAll base finish l).entry j = some (x.ended base finish) := by
  induction l generalizing t with
  | nil => cases h
  | cons i l ih =>
    rw [List.nodup_cons] at n
    unfold Tracker.endAll
    by_cases k : j = i
    · subst k
      rw [entry_endAll_of_notMem base finish n.1, entry_endEntry base finish e]
    · refine ih n.2 ?_ (by rw [entry_endEntry_of_ne base finish k]; exact e)
      rcases List.mem_cons.1 h with h | h
      · exact absurd h k
      · exact h

/-! ## Which entries are OPEN -/

theorem mem_opened {t : Tracker} {i : Nat} {x : Entry} : (i, x) ∈ t.opened ↔ t.entry i = some x ∧ x.state = .opened := by
  unfold Tracker.opened Tracker.entry
  rw [List.mem_filter, mem_filled]
  simp

theorem mem_openedOf {t : Tracker} {k : Kind} {i : Nat} {x : Entry} :
    (i, x) ∈ t.openedOf k ↔ t.entry i = some x ∧ x.state = .opened ∧ x.kind = k := by
  unfold Tracker.openedOf
  rw [(sortBy_perm _ _).mem_iff, List.mem_filter, mem_opened, and_assoc]
  simp

theorem openedOf_nodup (k : Kind) (t : Tracker) : ((t.openedOf k).map (·.1)).Nodup := by
  unfold Tracker.openedOf
  rw [((sortBy_perm _ _).map _).nodup_iff]
  refine List.Nodup.sublist ?_ (filled_nodup t.entries)
  unfold Tracker.opened
  exact ((List.filter_sublist).trans List.filter_sublist).map _

theorem ending_nodup (v : HalfCycleSet) (k : Kind) (t : Tracker) : (t.ending v k).Nodup := by
  unfold Tracker.ending
  refine List.Nodup.sublist ?_ (openedOf_nodup k t)
  induction t.openedOf k with
  | nil => exact List.Sublist.refl _
  | cons a l ih =>
    rw [List.filterMap_cons]
    split
    · exact (List.Sublist.cons _ ih)
    · rename_i b hb
      have : b = a.1 := by
        split at hb
        · cases hb; rfl
        · cases hb
      subst this
      exact ih.cons_cons _

theorem mem_ending {v : HalfCycleSet} {k : Kind} {t : Tracker} {i : Nat} {x : Entry} (h : t.entry i = some x) :
    i ∈ t.ending v k ↔ x.state = .opened ∧ x.kind = k ∧ x.hasEnded v = true := by
  unfold Tracker.ending
  rw [List.mem_filterMap]
  constructor
  · rintro ⟨⟨j, y⟩, hy, e⟩
    rw [mem_openedOf] at hy
    dsimp only at e
    split at e
    · rename_i c
      cases e
      rw [h] at hy
      obtain ⟨hy1, hy2⟩ := hy
      cases hy1
      exact ⟨hy2.1, hy2.2, c⟩
    · cases e
  · rintro ⟨a, b, c⟩
    exact ⟨(i, x), mem_openedOf.2 ⟨h, a, b⟩, by dsimp only; rw [if_pos c]⟩

/-! ## Stages 1 and 2 -/

theorem entry_releaseDetectors (t : Tracker) (i : Nat) : t.releaseDetectors.entry i = t.entry i := rfl

theorem entry_stage1 (base : Option Nat) (v : HalfCycleSet) (t : Tracker) (i : Nat) :
    (t.stage1 base v).entry i
      = (((t.endAll base v.stamp (t.ending v .interruption)).endAll base v.stamp (t.ending v .dip)).endAll base v.stamp
          (t.ending v .swell)).entry i := by
  unfold Tracker.stage1
  dsimp only
  split <;> rfl

theorem Entry.hasEnded_rvc {v : HalfCycleSet} {x : Entry} (h : x.kind = .rvc) : x.hasEnded v = false := by
  unfold Entry.hasEnded
  rw [h]

/-- Stage 1 ends the OPEN entries that meet their end condition, and leaves every other entry as it stands. -/
theorem entry_stage1_some (base : Option Nat) (v : HalfCycleSet) {t : Tracker} {i : Nat} {x : Entry} (h : t.entry i = some x) :
    (t.stage1 base v).entry i
      = some (if x.state = .opened ∧ x.hasEnded v = true then x.ended base v.stamp else x) := by
  rw [entry_stage1]
  have other : ∀ k, x.kind ≠ k → i ∉ t.ending v k := fun k hk m => hk ((mem_ending h).1 m).2.1
  by_cases e : x.state = .opened ∧ x.hasEnded v = true
  · rw [if_pos e]
    have mine : i ∈ t.ending v x.kind := (mem_ending h).2 ⟨e.1, rfl, e.2⟩
    cases k : x.kind with
    | rvc => rw [Entry.hasEnded_rvc k] at e; exact absurd e.2 (by decide)
    | dip =>
      rw [k] at mine
      rw [entry_endAll_of_notMem _ _ (other .swell (by rw [k]; decide)), entry_endAll _ _ (ending_nodup v .dip t) mine]
      rw [entry_endAll_of_notMem _ _ (other .interruption (by rw [k]; decide)), h]
    | swell =>
      rw [k] at mine
      rw [entry_endAll _ _ (ending_nodup v .swell t) mine]
      rw [entry_endAll_of_notMem _ _ (other .dip (by rw [k]; decide)),
        entry_endAll_of_notMem _ _ (other .interruption (by rw [k]; decide)), h]
    | interruption =>
      rw [k] at mine
      rw [entry_endAll_of_notMem _ _ (other .swell (by rw [k]; decide)),
        entry_endAll_of_notMem _ _ (other .dip (by rw [k]; decide)), entry_endAll _ _ (ending_nodup v .interruption t) mine h]
  · rw [if_neg e]
    have none_ : ∀ k, i ∉ t.ending v k := fun k m => e ⟨((mem_ending h).1 m).1, ((mem_ending h).1 m).2.2⟩
    rw [entry_endAll_of_notMem _ _ (none_ _), entry_endAll_of_notMem _ _ (none_ _), entry_endAll_of_notMem _ _ (none_ _), h]

theorem entry_freeAll_of_notMem {l : List (Nat × Entry)} {j : Nat} (h : j ∉ l.map (·.1)) (t : Tracker) :
    (l.foldl (fun t e => t.free e.1) t).entry j = t.entry j := by
  induction l generalizing t with
  | nil => rfl
  | cons a l ih =>
    rw [List.map_cons, List.mem_cons, not_or] at h
    rw [List.foldl_cons, ih h.2, entry_free_of_ne h.1]

theorem entry_freeAll_of_none {l : List (Nat × Entry)} {j : Nat} {t : Tracker} (h : t.entry j = none) :
    (l.foldl (fun t e => t.free e.1) t).entry j = none := by
  induction l generalizing t with
  | nil => exact h
  | cons a l ih =>
    refine ih ?_
    by_cases k : j = a.1
    · rw [k, entry_free]
    · rw [entry_free_of_ne k, h]

theorem entry_freeAll {l : List (Nat × Entry)} {j : Nat} (h : j ∈ l.map (·.1)) (t : Tracker) :
    (l.foldl (fun t e => t.free e.1) t).entry j = none := by
  induction l generalizing t with
  | nil => cases h
  | cons a l ih =>
    rw [List.foldl_cons]
    by_cases k : j = a.1
    · exact entry_freeAll_of_none (by rw [k, entry_free])
    · rw [List.map_cons, List.mem_cons] at h
      exact ih (h.resolve_left k) _

/-- Stage 2 discards the OPEN RVC entries that are superseded and leaves every other entry as it stands (R34). -/
theorem entry_stage2 (v : HalfCycleSet) {t : Tracker} {i : Nat} {x : Entry} (h : t.entry i = some x) :
    (t.stage2 v).1.entry i
      = if x.state = .opened ∧ x.kind = .rvc ∧ (t.supersededBy (t.crossingSet v) x).isEmpty = false then none else some x := by
  have mem : i ∈ ((t.openedOf .rvc).filter fun e => !(t.supersededBy (t.crossingSet v) e.2).isEmpty).map (·.1)
      ↔ x.state = .opened ∧ x.kind = .rvc ∧ (t.supersededBy (t.crossingSet v) x).isEmpty = false := by
    rw [List.mem_map]
    constructor
    · rintro ⟨⟨j, y⟩, hy, e⟩
      rw [List.mem_filter, mem_openedOf] at hy
      cases e
      obtain ⟨⟨hy1, hy2, hy3⟩, hy4⟩ := hy
      rw [h] at hy1
      cases hy1
      exact ⟨hy2, hy3, by simpa using hy4⟩
    · rintro ⟨a, b, c⟩
      exact ⟨(i, x), List.mem_filter.2 ⟨mem_openedOf.2 ⟨h, a, b⟩, by simp [c]⟩, rfl⟩
  show (((t.openedOf .rvc).filter fun e => !(t.supersededBy (t.crossingSet v) e.2).isEmpty).foldl
    (fun t e => t.free e.1) t).entry i = _
  by_cases c : x.state = .opened ∧ x.kind = .rvc ∧ (t.supersededBy (t.crossingSet v) x).isEmpty = false
  · rw [if_pos c, entry_freeAll (mem.2 c)]
  · rw [if_neg c, entry_freeAll_of_notMem (fun m => c (mem.1 m)), h]

/-! ## Openings take only FREE entries -/

theorem entry_openEntry (v : HalfCycleSet) (y : Entry) (mark : Option Phase) (wish : SlotWish) {s : State} {i : Nat} {x : Entry}
    (h : s.tracker.entry i = some x) : (s.openEntry v y mark wish).tracker.entry i = some x := by
  unfold State.openEntry
  split
  · exact h
  · rename_i j hj
    have : i ≠ j := by
      intro e
      subst e
      have := (freeSlot_some hj).1
      rw [show slotAt s.tracker.entries i = some x from h] at this
      cases this
    have k : slotAt (putSlot (some y) j s.tracker.entries) i = some x := by rw [slotAt_putSlot_of_ne _ this]; exact h
    cases wish <;> exact k

theorem entry_openDisturbance (v : HalfCycleSet) (k : Kind) (mark : Option Phase) (phases : PhaseSet) {a : State × Superseded}
    {i : Nat} {x : Entry} (h : a.1.tracker.entry i = some x) :
    (State.openDisturbance v k mark phases a).1.tracker.entry i = some x := by
  unfold State.openDisturbance
  dsimp only
  split
  · exact h
  · split
    · exact entry_openEntry v _ mark _ h
    · exact entry_openEntry v _ mark _ h

theorem entry_openPerPhase (v : HalfCycleSet) (k : Kind) (l : List Phase) {a : State × Superseded} {i : Nat} {x : Entry}
    (h : a.1.tracker.entry i = some x) : (openPerPhase v k l a).1.tracker.entry i = some x := by
  induction l generalizing a with
  | nil => exact h
  | cons p l ih =>
    unfold openPerPhase
    dsimp only
    refine ih ?_
    split
    · exact h
    · exact entry_openDisturbance v k _ _ h

theorem entry_openInterruption (v : HalfCycleSet) (p : Option Phase) (phases : PhaseSet) {s : State} {i : Nat} {x : Entry}
    (h : s.tracker.entry i = some x) : (s.openInterruption v p phases).tracker.entry i = some x := by
  unfold State.openInterruption
  split
  · exact h
  · exact entry_openEntry v _ p _ h

theorem entry_interruptPhases (v : HalfCycleSet) (l : List Phase) {s : State} {i : Nat} {x : Entry}
    (h : s.tracker.entry i = some x) : (interruptPhases v l s).tracker.entry i = some x := by
  induction l generalizing s with
  | nil => exact h
  | cons p l ih =>
    unfold interruptPhases
    dsimp only
    refine ih ?_
    split
    · exact h
    · exact entry_openInterruption v _ _ h

theorem entry_stage4 (v : HalfCycleSet) {s : State} {i : Nat} {x : Entry} (h : s.tracker.entry i = some x) :
    (s.stage4 v).tracker.entry i = some x := by
  unfold State.stage4
  dsimp only
  split
  · exact entry_interruptPhases v _ h
  · split
    · exact entry_openInterruption v _ _ h
    · exact h

/-! ## Stage 3: joining -/

/-- The entry with the phases that join it; PRECEDED_BY_RVC may be set. -/
def Entry.Joined (phases : PhaseSet) (x y : Entry) : Prop :=
  ∃ c : Bool, y = { x with phases := x.phases.union phases, flags := { x.flags with precededByRvc := x.flags.precededByRvc || c } }

theorem entry_join_of_ne (sup : Superseded) {i j : Nat} (h : j ≠ i) (phases : PhaseSet) (s : State) :
    (s.join sup i phases).1.tracker.entry j = s.tracker.entry j := by
  unfold State.join
  split
  · rfl
  · dsimp only
    split
    · split <;> exact entry_modify_of_ne _ h _
    · exact entry_modify_of_ne _ h _

theorem PhaseSet.union_empty {p q : PhaseSet} (h : q.isEmpty = true) : p.union q = p := by
  obtain ⟨a, b, c⟩ := p
  obtain ⟨d, e, f⟩ := q
  cases d <;> cases e <;> cases f <;> simp_all [PhaseSet.isEmpty, PhaseSet.union, PhaseSet.of, PhaseSet.has]

theorem entry_join (sup : Superseded) {i : Nat} (phases : PhaseSet) {s : State} {x : Entry} (h : s.tracker.entry i = some x) :
    ∃ y, (s.join sup i phases).1.tracker.entry i = some y ∧ Entry.Joined phases x y := by
  unfold State.join
  split
  · rename_i e
    exact ⟨x, h, false, by rw [PhaseSet.union_empty e, Bool.or_false]⟩
  · dsimp only
    have k : ∀ f : Entry → Entry, (s.modifyTracker (·.modify f i)).tracker.entry i = some (f x) := by
      intro f
      show (s.tracker.modify f i).entry i = _
      rw [entry_modify, h]
      rfl
    have g : ∀ b : Bool, Entry.Joined phases x (Entry.precede b { x with phases := x.phases.union phases }) := by
      intro b
      cases b
      · exact ⟨false, by rw [Bool.or_false]; rfl⟩
      · exact ⟨true, by rw [Bool.or_true]; rfl⟩
    split
    · split <;> exact ⟨_, k _, g _⟩
    · exact ⟨_, k _, g _⟩

theorem entry_joinAll_of_notMem (v : HalfCycleSet) {l : List (Nat × Entry)} {j : Nat} (h : j ∉ l.map (·.1)) (a : State × Superseded) :
    (joinAll v l a).1.tracker.entry j = a.1.tracker.entry j := by
  induction l generalizing a with
  | nil => rfl
  | cons b l ih =>
    rw [List.map_cons, List.mem_cons, not_or] at h
    unfold joinAll
    rw [ih h.2, entry_join_of_ne _ h.1]

theorem entry_joinAll (v : HalfCycleSet) {l : List (Nat × Entry)} (n : (l.map (·.1)).Nodup) {a : State × Superseded} {i : Nat} {x : Entry}
    (m : (i, x) ∈ l) (h : a.1.tracker.entry i = some x) :
    ∃ y, (joinAll v l a).1.tracker.entry i = some y ∧ Entry.Joined (x.joining v) x y := by
  induction l generalizing a with
  | nil => cases m
  | cons b l ih =>
    rw [List.map_cons, List.nodup_cons] at n
    unfold joinAll
    by_cases k : i = b.1
    · have : b = (i, x) := by
        rcases List.mem_cons.1 m with m | m
        · exact m.symm
        · exact absurd (List.mem_map.2 ⟨_, m, k⟩) n.1
      subst this
      rw [entry_joinAll_of_notMem v n.1]
      exact entry_join _ _ h
    · have m' : (i, x) ∈ l := by
        rcases List.mem_cons.1 m with m | m
        · exact absurd (congrArg Prod.fst m) k
        · exact m
      exact ih n.2 m' (by rw [entry_join_of_ne _ k]; exact h)

theorem entry_stage3Kind_of_ne (v : HalfCycleSet) (k : Kind) {a : State × Superseded} {i : Nat} {x : Entry}
    (h : a.1.tracker.entry i = some x) (n : ¬(x.state = .opened ∧ x.kind = k)) :
    (stage3Kind v k a).1.tracker.entry i = some x := by
  have j : (joinAll v (a.1.tracker.openedOf k) a).1.tracker.entry i = some x := by
    rw [entry_joinAll_of_notMem v, h]
    intro m
    obtain ⟨⟨j, y⟩, hy, e⟩ := List.mem_map.1 m
    cases e
    rw [mem_openedOf, h] at hy
    obtain ⟨hy1, hy2⟩ := hy
    cases hy1
    exact n hy2
  unfold stage3Kind
  dsimp only
  split
  · exact entry_openPerPhase v k _ j
  · split
    · exact j
    · exact entry_openDisturbance v k _ _ j

theorem entry_stage3Kind (v : HalfCycleSet) {a : State × Superseded} {i : Nat} {x : Entry}
    (h : a.1.tracker.entry i = some x) (n : x.state = .opened) :
    ∃ y, (stage3Kind v x.kind a).1.tracker.entry i = some y ∧ Entry.Joined (x.joining v) x y := by
  obtain ⟨y, hy, j⟩ := entry_joinAll v (openedOf_nodup x.kind a.1.tracker) (mem_openedOf.2 ⟨h, n, rfl⟩) h
  refine ⟨y, ?_, j⟩
  unfold stage3Kind
  dsimp only
  split
  · exact entry_openPerPhase v _ _ hy
  · split
    · exact hy
    · exact entry_openDisturbance v _ _ _ hy

/-- Stage 3 leaves an entry as it stands but for the phases that join an OPEN DIP or SWELL, and its PRECEDED_BY_RVC. -/
theorem entry_stage3 (v : HalfCycleSet) (sup : Superseded) {s : State} {i : Nat} {x : Entry} (h : s.tracker.entry i = some x) :
    (x.state = .opened → x.kind = .dip ∨ x.kind = .swell →
      ∃ y, (s.stage3 v sup).tracker.entry i = some y ∧ Entry.Joined (x.joining v) x y)
    ∧ (x.state ≠ .opened ∨ (x.kind ≠ .dip ∧ x.kind ≠ .swell) → (s.stage3 v sup).tracker.entry i = some x) := by
  have shape : (s.stage3 v sup).tracker = (stage3Kind v .swell (stage3Kind v .dip (s, sup))).1.tracker := rfl
  rw [shape]
  constructor
  · intro o k
    rcases k with k | k
    · obtain ⟨y, hy, j⟩ := entry_stage3Kind (a := (s, sup)) v h o
      rw [k] at hy
      refine ⟨y, entry_stage3Kind_of_ne v .swell hy ?_, j⟩
      obtain ⟨f, e⟩ := j
      rintro ⟨_, e'⟩
      rw [e] at e'
      exact absurd (k.symm.trans e') (by decide)
    · have hd := entry_stage3Kind_of_ne (a := (s, sup)) v .dip h (by rw [k]; rintro ⟨_, e⟩; cases e)
      have := entry_stage3Kind v hd o
      rw [k] at this
      exact this
  · intro n
    refine entry_stage3Kind_of_ne v .swell (entry_stage3Kind_of_ne (a := (s, sup)) v .dip h ?_) ?_
    · rintro ⟨a, b⟩
      rcases n with n | n
      · exact n a
      · exact n.1 b
    · rintro ⟨a, b⟩
      rcases n with n | n
      · exact n a
      · exact n.2 b

/-! ## Stages 5 to 7 -/

theorem entry_stage5 (base : Option Nat) (v : HalfCycleSet) (t : Tracker) (i : Nat) :
    (t.stage5 base v).entry i
      = (t.entry i).map fun x => if x.state == .opened && x.kind != .rvc then x.takeIn base v else x :=
  slotAt_map _ t.entries i

theorem entry_depart (v : HalfCycleSet) (p : Phase) {s : State} {i : Nat} {x : Entry} (h : s.tracker.entry i = some x)
    (n : ¬(x.state = .opened ∧ x.kind = .rvc)) : (s.depart v p).tracker.entry i = some x := by
  unfold State.depart
  dsimp only
  split
  · rename_i j y rest _ ho
    have : i ≠ j := by
      intro e
      subst e
      have m : (i, y) ∈ s.tracker.openedOf .rvc := by rw [ho]; exact List.mem_cons_self
      rw [mem_openedOf, h] at m
      obtain ⟨m1, m2⟩ := m
      cases m1
      exact n m2
    show (s.tracker.modify _ j).entry i = _
    rw [entry_modify_of_ne _ this]
    exact h
  · repeat' split
    all_goals first | exact h | exact entry_openEntry v _ _ _ h

theorem entry_stepDetector (v : HalfCycleSet) (p : Phase) {a : State × List (Phase × TimeStamp)} {i : Nat} {x : Entry}
    (h : a.1.tracker.entry i = some x) (n : ¬(x.state = .opened ∧ x.kind = .rvc)) :
    (State.stepDetector v p a).1.tracker.entry i = some x := by
  unfold State.stepDetector
  dsimp only
  split
  · exact h
  · split
    · exact h
    · exact entry_depart v p (s := State.setDetector p _ a.1) h n
    · rename_i first steady _
      show slotAt (a.1.tracker.entries.map (Option.map _)) i = _
      rw [slotAt_map, show slotAt a.1.tracker.entries i = some x from h]
      refine congrArg some ?_
      dsimp only
      rw [if_neg]
      simp only [Bool.and_eq_true, beq_iff_eq]
      exact fun c => n c.1

theorem entry_endRvc_of_notMem (base : Option Nat) (f : Freq) (ended : List (Phase × TimeStamp)) {l : List (Nat × Entry)} {j : Nat}
    (h : j ∉ l.map (·.1)) (t : Tracker) : (t.endRvc base f ended l).entry j = t.entry j := by
  induction l generalizing t with
  | nil => rfl
  | cons a l ih =>
    rw [List.map_cons, List.mem_cons, not_or] at h
    unfold Tracker.endRvc
    dsimp only
    split
    · split
      · exact ih h.2 t
      · rw [ih h.2, entry_leaveOpen_of_ne h.1, entry_modify_of_ne _ h.1]
    · exact ih h.2 t

theorem entry_stage6 (v : HalfCycleSet) {s : State} {i : Nat} {x : Entry} (h : s.tracker.entry i = some x)
    (n : ¬(x.state = .opened ∧ x.kind = .rvc)) : (s.stage6 v).tracker.entry i = some x := by
  unfold State.stage6
  dsimp only
  have h3 := entry_stepDetector v .l3 (entry_stepDetector v .l2 (entry_stepDetector v .l1 (a := (s, [])) h n) n) n
  generalize State.stepDetector v .l3 (State.stepDetector v .l2 (State.stepDetector v .l1 (s, []))) = a at h3
  obtain ⟨s1, ended⟩ := a
  dsimp only at h3 ⊢
  generalize hg : (fun y : Entry => if y.state == .opened && y.kind == .rvc then
    y.takeDeviation s1.time.base v s1.tracker.detectors else y) = g
  have gx : g x = x := by
    rw [← hg]
    dsimp only
    rw [if_neg]
    simp only [Bool.and_eq_true, beq_iff_eq]
    exact n
  have h4 : ({ s1.tracker with entries := s1.tracker.entries.map (Option.map g) } : Tracker).entry i = some x := by
    show slotAt (s1.tracker.entries.map (Option.map g)) i = _
    rw [slotAt_map, show slotAt s1.tracker.entries i = some x from h3]
    exact congrArg some gx
  rw [entry_endRvc_of_notMem, h4]
  intro m
  obtain ⟨⟨j, y⟩, hy, e⟩ := List.mem_map.1 m
  cases e
  rw [mem_openedOf, h4] at hy
  obtain ⟨hy1, hy2⟩ := hy
  cases hy1
  exact n hy2

/-! ## The whole value set -/

/-- A value set's stages in the order of R20, the first two as the tracker's own, the rest as the part's. -/
theorem track_eq (v : HalfCycleSet) (s : State) :
    s.track v =
      ((((({ s with tracker := (((s.tracker.takeWindow v.window).stage1 s.time.base v).stage2 v).1 } : State).stage3 v
        (((s.tracker.takeWindow v.window).stage1 s.time.base v).stage2 v).2).stage4 v).modifyTracker
          (·.stage5 s.time.base v)).stage6 v).modifyTracker (·.stage7 v) := rfl

theorem entry_stage7 (v : HalfCycleSet) (u : State) (i : Nat) :
    (u.modifyTracker (·.stage7 v)).tracker.entry i = u.tracker.entry i := rfl

/-- Stages 4 to 6 leave an entry that is no RVC entry as it stands but for what an OPEN one takes in. -/
theorem entry_lateStages (base : Option Nat) (v : HalfCycleSet) {u : State} {i : Nat} {y : Entry} (hu : u.tracker.entry i = some y)
    (ky : y.kind ≠ .rvc) :
    (((u.stage4 v).modifyTracker (·.stage5 base v)).stage6 v).tracker.entry i
      = some (if y.state = .opened then y.takeIn base v else y) := by
  have h4 := entry_stage4 v hu
  refine entry_stage6 v ?_ ?_
  · show ((u.stage4 v).tracker.stage5 base v).entry i = _
    rw [entry_stage5, h4]
    have : (y.kind != .rvc) = true := by simp [ky]
    simp only [Option.map_some, this, Bool.and_true, beq_iff_eq]
  · rintro ⟨_, c⟩
    split at c
    · refine ky ?_
      rw [← c]
      unfold Entry.takeIn
      dsimp only
      unfold Entry.noteEpoch Entry.noteClipped Entry.takeOverall
      dsimp only
      repeat' split
      all_goals rfl
    · exact ky c

/-- A DIP, SWELL or INTERRUPTION entry through a value set: an OPEN one that meets its end condition ends; one that does not
takes it in, with the phases that join it; any other entry stays as it stands. -/
theorem entry_track (v : HalfCycleSet) {s : State} {i : Nat} {x : Entry} (h : s.tracker.entry i = some x) (n : x.kind ≠ .rvc) :
    (x.state = .opened → x.hasEnded v = true →
      (s.track v).tracker.entry i = some (x.ended s.time.base v.stamp))
    ∧ (x.state = .opened → x.hasEnded v = false → ∃ y,
      (s.track v).tracker.entry i = some (y.takeIn s.time.base v)
        ∧ Entry.Joined (if x.kind = .interruption then PhaseSet.none else x.joining v) x y)
    ∧ (x.state ≠ .opened → (s.track v).tracker.entry i = some x) := by
  have h0 : (s.tracker.takeWindow v.window).entry i = some x := by
    unfold Tracker.takeWindow
    repeat' split
    all_goals exact h
  have h1 := entry_stage1_some s.time.base v h0
  generalize hz : (if x.state = .opened ∧ x.hasEnded v = true then x.ended s.time.base v.stamp else x) = z at h1
  have zk : z.kind = x.kind := by
    rw [← hz]
    split
    · show (Entry.noteEpoch _ _ x).kind = x.kind
      unfold Entry.noteEpoch
      split <;> rfl
    · rfl
  have h2 : (((s.tracker.takeWindow v.window).stage1 s.time.base v).stage2 v).1.entry i = some z := by
    rw [entry_stage2 v h1, if_neg]
    rintro ⟨_, c, _⟩
    exact n (zk.symm.trans c)
  have whole : ∀ y, (({ s with tracker := (((s.tracker.takeWindow v.window).stage1 s.time.base v).stage2 v).1 } : State).stage3 v
      (((s.tracker.takeWindow v.window).stage1 s.time.base v).stage2 v).2).tracker.entry i = some y → y.kind ≠ .rvc →
      (s.track v).tracker.entry i = some (if y.state = .opened then y.takeIn s.time.base v else y) := by
    intro y hy ky
    rw [track_eq, entry_stage7]
    exact entry_lateStages _ v hy ky
  have h3 := entry_stage3 v (((s.tracker.takeWindow v.window).stage1 s.time.base v).stage2 v).2
    (s := { s with tracker := (((s.tracker.takeWindow v.window).stage1 s.time.base v).stage2 v).1 }) h2
  refine ⟨?_, ?_, ?_⟩
  · intro o e
    rw [if_pos ⟨o, e⟩] at hz
    have zs : z.state ≠ .opened := by
      rw [← hz]
      show (if x.slot.map (·.full) = some false then EntryState.tail else .commitWait) ≠ .opened
      split <;> decide
    rw [whole z (h3.2 (.inl zs)) (by rw [zk]; exact n), if_neg zs, ← hz]
  · intro o e
    rw [if_neg (by rw [e]; rintro ⟨_, c⟩; cases c)] at hz
    subst hz
    by_cases k : x.kind = .interruption
    · refine ⟨x, ?_, ?_⟩
      · rw [whole x (h3.2 (.inr (by rw [k]; exact ⟨by decide, by decide⟩))) n, if_pos o]
      · rw [if_pos k]
        exact ⟨false, by rw [PhaseSet.union_empty rfl, Bool.or_false]⟩
    · have kk : x.kind = .dip ∨ x.kind = .swell := by
        cases hk : x.kind with
        | dip => exact .inl rfl
        | swell => exact .inr rfl
        | interruption => exact absurd hk k
        | rvc => exact absurd hk n
      obtain ⟨y, hy, j⟩ := h3.1 o kk
      rw [if_neg k]
      refine ⟨y, ?_, j⟩
      obtain ⟨f, e'⟩ := j
      rw [whole y hy (by rw [e']; exact n), if_pos (by rw [e']; exact o)]
  · intro o
    rw [if_neg (by rintro ⟨c, _⟩; exact o c)] at hz
    subst hz
    rw [whole x (h3.2 (.inl o)) n, if_neg o]

/-! ## Ends of many, and requests settled -/

theorem queue_leaveOpen {i : Nat} {x : Entry} {t : Tracker} (h : t.entry i = some x) :
    (t.leaveOpen i).commitQueue = if x.slot.map (·.full) = some false then t.commitQueue else t.commitQueue ++ [i] := by
  unfold Tracker.leaveOpen
  rw [h]
  dsimp only
  split
  · rename_i e
    have : x.slot.map (·.full) = some false := by rw [e]; rfl
    rw [if_pos this]
    rfl
  · rename_i e
    have : ¬ x.slot.map (·.full) = some false := by
      cases hs : x.slot with
      | none => simp
      | some l =>
        obtain ⟨k, b⟩ := l
        cases b with
        | false => exact absurd hs (e k)
        | true => simp
    rw [if_neg this]
    rfl

theorem entry_closeAll_of_notMem (base : Option Nat) {l : List Nat} {j : Nat} (h : j ∉ l) (t : Tracker) :
    (t.closeAll base l).entry j = t.entry j := by
  induction l generalizing t with
  | nil => rfl
  | cons i l ih =>
    rw [List.mem_cons, not_or] at h
    unfold Tracker.closeAll
    dsimp only
    rw [ih h.2, entry_leaveOpen_of_ne h.1, entry_modify_of_ne _ h.1]

theorem entry_enqueueAll {l : List Nat} {t : Tracker} {j : Nat} {x : Entry} (h : t.entry j = some x) :
    (t.enqueueAll l).entry j = some (if j ∈ l then { x with state := .commitWait } else x) := by
  induction l generalizing t x with
  | nil => exact h
  | cons i l ih =>
    unfold Tracker.enqueueAll
    by_cases k : j = i
    · subst k
      rw [ih (x := { x with state := .commitWait }) (by rw [entry_enqueue, h]; rfl)]
      simp
    · rw [ih (x := x) (by rw [entry_enqueue_of_ne k]; exact h)]
      simp [k]

theorem queue_enqueueAll (l : List Nat) (t : Tracker) : (t.enqueueAll l).commitQueue = t.commitQueue ++ l := by
  induction l generalizing t with
  | nil => simp [Tracker.enqueueAll]
  | cons i l ih =>
    unfold Tracker.enqueueAll
    rw [ih]
    show (t.commitQueue ++ [i]) ++ l = _
    simp

/-- A series that a start begins leaves every entry but the OPEN RVC entries as it stands (R42). -/
theorem entry_beginSeries (base : Option Nat) (stamp : TimeStamp) {t : Tracker} {i : Nat} {x : Entry} (h : t.entry i = some x)
    (stays : x.state ≠ .opened ∨ x.kind ≠ .rvc) : (t.beginSeries base stamp).entry i = some x := by
  have apart (l : List Nat) (u : Tracker) (n : i ∉ l) : (u.endRvcAt base stamp l).entry i = u.entry i := by
    induction l generalizing u with
    | nil => rfl
    | cons j l ih =>
      rw [List.mem_cons, not_or] at n
      unfold Tracker.endRvcAt
      rw [ih _ n.2, entry_enqueue_of_ne n.1, entry_modify_of_ne _ n.1]
  refine (apart _ t fun m => ?_).trans h
  obtain ⟨⟨j, y⟩, hy, rfl⟩ := List.mem_map.1 m
  rw [List.mem_filter, mem_opened, h] at hy
  obtain ⟨⟨e, o⟩, k⟩ := hy
  cases e
  exact stays.elim (· o) (· (by simpa using k))

/-- Settings loaded at a start leave every entry but the OPEN RVC entries as the requests in flight leave it (R16, R42). -/
theorem entry_loadSettings (set : Settings) (g : Nat) {s : State} {i : Nat} {x : Entry} (f : set.freq ≠ s.meas.freq)
    (h : s.settleRequests.tracker.entry i = some x) (stays : x.state ≠ .opened ∨ x.kind ≠ .rvc) :
    (s.loadSettings set g).tracker.entry i = some x := by
  show (s.loadSeries set).tracker.entry i = some x
  unfold State.loadSeries
  rw [if_neg f]
  exact entry_beginSeries _ _ h stays

/-- With the nominal frequency that the series has, the settings loaded leave the table as it stands. -/
theorem entry_loadSettings_same (set : Settings) (g : Nat) {s : State} (f : set.freq = s.meas.freq) (i : Nat) :
    (s.loadSettings set g).tracker.entry i = s.tracker.entry i := by
  show (s.loadSeries set).tracker.entry i = _
  unfold State.loadSeries
  rw [if_pos f]

/-- What serving the tracker's requests leaves alone, beside `TrackFrame`. -/
structure Settled (s t : State) : Prop where
  lastStamp : t.tracker.lastStamp = s.tracker.lastStamp
  commitQueue : t.tracker.commitQueue = s.tracker.commitQueue
  missed : t.tracker.missed = s.tracker.missed
  detectors : t.tracker.detectors = s.tracker.detectors
  marks : t.tracker.marks = s.tracker.marks
  link : t.link = s.link
  reports : t.reports = s.reports
  taken : ∀ i, (t.tracker.entry i).isSome = (s.tracker.entry i).isSome

namespace Settled

theorem refl (s : State) : Settled s s := ⟨rfl, rfl, rfl, rfl, rfl, rfl, rfl, fun _ => rfl⟩

theorem trans {s t u : State} (h : Settled s t) (k : Settled t u) : Settled s u where
  lastStamp := k.lastStamp.trans h.lastStamp
  commitQueue := k.commitQueue.trans h.commitQueue
  missed := k.missed.trans h.missed
  detectors := k.detectors.trans h.detectors
  marks := k.marks.trans h.marks
  link := k.link.trans h.link
  reports := k.reports.trans h.reports
  taken i := (k.taken i).trans (h.taken i)

theorem modify (s : State) (f : Entry → Entry) (i : Nat) (c : Capture) :
    Settled s { s with tracker := s.tracker.modify f i, capture := c } := by
  refine ⟨rfl, rfl, rfl, rfl, rfl, rfl, rfl, fun j => ?_⟩
  show ((s.tracker.modify f i).entry j).isSome = _
  by_cases h : j = i
  · subst h
    rw [entry_modify]
    cases s.tracker.entry j <;> rfl
  · rw [entry_modify_of_ne _ h]

theorem claim (c : Claim) (s : State) : Settled s (s.serveClaim c) := by
  unfold State.serveClaim
  repeat' split
  all_goals first | exact refl s | exact modify s _ _ _

theorem relink (k e : Nat) (s : State) : Settled s (s.serveRelink k e) := by
  unfold State.serveRelink
  dsimp only
  repeat' split
  all_goals exact modify s _ _ _

theorem handBack (k : Nat) (s : State) : Settled s (s.serveHandBack k) := by
  unfold State.serveHandBack
  repeat' split
  all_goals exact ⟨rfl, rfl, rfl, rfl, rfl, rfl, rfl, fun _ => rfl⟩

end Settled

/-- Requests settled: none is left, and of the tracker only links and NO_CAPTURE of standing entries may change (log 9). -/
theorem settleRequests_settled (s : State) :
    Settled { s with reports := { s.reports with claims := [], relinks := [], handBacks := [] } } s.settleRequests := by
  have claims : ∀ (l : List Claim) (t : State), Settled t (serveClaims l t) := by
    intro l
    induction l with
    | nil => exact Settled.refl
    | cons c l ih => exact fun t => (Settled.claim c t).trans (ih _)
  have relinks : ∀ (l : List (Nat × Nat)) (t : State), Settled t (serveRelinks l t) := by
    intro l
    induction l with
    | nil => exact Settled.refl
    | cons c l ih => exact fun t => (Settled.relink c.1 c.2 t).trans (ih _)
  have handBacks : ∀ (l : List Nat) (t : State), Settled t (serveHandBacks l t) := by
    intro l
    induction l with
    | nil => exact Settled.refl
    | cons c l ih => exact fun t => (Settled.handBack c t).trans (ih _)
  exact ((relinks s.reports.relinks _).trans (handBacks s.reports.handBacks _)).trans (claims s.reports.claims _)

/-- The requests in flight are served alike whatever the store holds. -/
theorem settleRequests_modifyStore (f : Store → Store) (s : State) :
    (s.modifyStore f).settleRequests = s.settleRequests.modifyStore f := by
  have claim (c : Claim) (t : State) : (t.modifyStore f).serveClaim c = (t.serveClaim c).modifyStore f := by
    unfold State.serveClaim State.inHoldup State.modifyStore State.modifyTracker
    dsimp only
    repeat' split
    all_goals rfl
  have relink (r : Nat × Nat) (t : State) : (t.modifyStore f).serveRelink r.1 r.2 = (t.serveRelink r.1 r.2).modifyStore f := by
    unfold State.serveRelink State.stillLinked State.modifyStore State.modifyTracker
    dsimp only
    repeat' split
    all_goals rfl
  have handBack (k : Nat) (t : State) : (t.modifyStore f).serveHandBack k = (t.serveHandBack k).modifyStore f := by
    unfold State.serveHandBack State.stillLinked State.modifyStore State.modifyCapture
    dsimp only
    repeat' split
    all_goals rfl
  have claims (l : List Claim) (t : State) : serveClaims l (t.modifyStore f) = (serveClaims l t).modifyStore f := by
    induction l generalizing t with
    | nil => rfl
    | cons c l ih => exact (congrArg (serveClaims l) (claim c t)).trans (ih _)
  have relinks (l : List (Nat × Nat)) (t : State) : serveRelinks l (t.modifyStore f) = (serveRelinks l t).modifyStore f := by
    induction l generalizing t with
    | nil => rfl
    | cons r l ih => exact (congrArg (serveRelinks l) (relink r t)).trans (ih _)
  have handBacks (l : List Nat) (t : State) : serveHandBacks l (t.modifyStore f) = (serveHandBacks l t).modifyStore f := by
    induction l generalizing t with
    | nil => rfl
    | cons k l ih => exact (congrArg (serveHandBacks l) (handBack k t)).trans (ih _)
  unfold State.settleRequests
  rw [← claims, ← handBacks, ← relinks]
  rfl

/-- The settings loaded at a start leave the store as it stands. -/
theorem loadSettings_store (set : Settings) (g : Nat) (s : State) : (s.loadSettings set g).store = s.store := by
  show (s.loadSeries set).store = s.store
  unfold State.loadSeries
  split
  · rfl
  · exact (settleRequests_track s).store

end Sys2Proof.Machine
end

