-- ==== Sys2Proof/Laws/Sound.lean ====
section
/-!
SUPPORT. What every shared operation keeps, as one relation: `Sound s t` says that `t` holds the invariants of Safety.lean
when `s` does, and that the command queue is untouched. One lemma for each shared operation; the frames of the writer and of
the tracker give it for theirs.
-/

-- One proof after the other: proofs checked side by side hold more memory than the check allows.
set_option Elab.async false

namespace Sys2Proof.Machine

/-- `t` is as good a state as `s`, and its queue of commands is the same. -/
structure Sound (s t : State) : Prop where
  pending : t.pending = s.pending
  ms : s.time.ms ≤ 999 → t.time.ms ≤ 999
  array : s.store.array.wf = true → t.store.array.wf = true
  queue : t.store.markerQueue.length ≤ max s.store.markerQueue.length 8
  intervals : t.agg.queue.length ≤ max s.agg.queue.length 4
  fifo : t.link.fifo.length ≤ max s.link.fifo.length 32
  ring : t.capture.ring.length ≤ max s.capture.ring.length 16
  entries : s.tracker.entries.length = 12 → t.tracker.entries.length = 12
  slots : s.capture.slots.length = 4 → t.capture.slots.length = 4

namespace Sound

theorem refl (s : State) : Sound s s := by
  constructor <;> first | rfl | exact Nat.le_max_left _ _ | exact fun h => h

theorem trans {s t u : State} (h : Sound s t) (k : Sound t u) : Sound s u where
  pending := k.pending.trans h.pending
  ms := k.ms ∘ h.ms
  array := k.array ∘ h.array
  queue := by have := h.queue; have := k.queue; omega
  intervals := by have := h.intervals; have := k.intervals; omega
  fifo := by have := h.fifo; have := k.fifo; omega
  ring := by have := h.ring; have := k.ring; omega
  entries := k.entries ∘ h.entries
  slots := k.slots ∘ h.slots

/-- The invariants go from a state to any that is sound behind it. -/
theorem ok {s t : State} (h : Sound s t) (k : s.ok) : t.ok := by
  obtain ⟨k1, k2, ⟨k3, k4, k5, k6⟩, k7, k8⟩ := k
  refine ⟨h.ms k1, h.array k2, ⟨?_, ?_, ?_, ?_⟩, h.entries k7, h.slots k8⟩
  · have := h.queue; omega
  · have := h.intervals; omega
  · have := h.fifo; omega
  · have := h.ring; omega

theorem ofWriter {s t : State} (h : WriterFrame s t) : Sound s t where
  pending := h.pending
  ms := by rw [h.time]; exact id
  array := by rw [h.array]; exact id
  queue := h.queue
  intervals := by have := h.intervals; omega
  fifo := by have := h.fifo; omega
  ring := by rw [h.ring]; omega
  entries := by rw [h.entryCount]; exact id
  slots := by rw [h.slotCount]; exact id

theorem ofTrack {s t : State} (h : TrackFrame s t) : Sound s t where
  pending := h.pending
  ms := by rw [h.time]; exact id
  array := by rw [h.store]; exact id
  queue := by rw [h.store]; omega
  intervals := by rw [h.agg]; omega
  fifo := by obtain ⟨c, p, e⟩ := h.link; rw [e]; exact Nat.le_max_left _ _
  ring := by rw [h.ring]; omega
  entries := by rw [h.entryCount]; exact id
  slots := by rw [h.slotCount]; exact id

theorem ofCases (s : State) (c : CaseUnit) : Sound s { s with cases := c } := by
  constructor <;> first | rfl | exact Nat.le_max_left _ _ | exact fun h => h

theorem ofReports (s : State) (r : Reports) : Sound s { s with reports := r } := by
  constructor <;> first | rfl | exact Nat.le_max_left _ _ | exact fun h => h

theorem ofMeas (s : State) (m : Measurement) : Sound s { s with meas := m } := by
  constructor <;> first | rfl | exact Nat.le_max_left _ _ | exact fun h => h

theorem ofSupply (s : State) (u : Supply) : Sound s { s with supply := u } := by
  constructor <;> first | rfl | exact Nat.le_max_left _ _ | exact fun h => h

theorem ofSettings (s : State) (x : SettingsSection) : Sound s { s with settings := x } := by
  constructor <;> first | rfl | exact Nat.le_max_left _ _ | exact fun h => h

theorem ofTime (s : State) (x : Timebase) (h : s.time.ms ≤ 999 → x.ms ≤ 999) : Sound s { s with time := x } := by
  constructor <;> first | assumption | rfl | exact Nat.le_max_left _ _ | exact fun h => h

theorem ofLink (s : State) (l : Link) (h : l.fifo.length ≤ max s.link.fifo.length 32) : Sound s { s with link := l } := by
  constructor <;> first | assumption | rfl | exact Nat.le_max_left _ _ | exact fun h => h

theorem ofAgg (s : State) (a : Aggregator) (h : a.queue.length ≤ max s.agg.queue.length 4) : Sound s { s with agg := a } := by
  constructor <;> first | assumption | rfl | exact Nat.le_max_left _ _ | exact fun h => h

theorem ofCapture (s : State) (c : Capture) (h : c.ring.length ≤ max s.capture.ring.length 16)
    (k : s.capture.slots.length = 4 → c.slots.length = 4) : Sound s { s with capture := c } := by
  constructor <;> first | assumption | rfl | exact Nat.le_max_left _ _ | exact fun h => h

theorem ofTracker (s : State) (t : Tracker) (h : s.tracker.entries.length = 12 → t.entries.length = 12) :
    Sound s { s with tracker := t } := by
  constructor <;> first | assumption | rfl | exact Nat.le_max_left _ _ | exact fun h => h

theorem ofStore (s : State) (st : Store) (h : s.store.array.wf = true → st.array.wf = true)
    (k : st.markerQueue.length ≤ max s.store.markerQueue.length 8 := by exact Nat.le_max_left _ _) :
    Sound s { s with store := st } := by
  constructor <;> first | assumption | rfl | exact Nat.le_max_left _ _ | exact fun h => h

theorem ofTimeReports (s : State) (x : Timebase) (r : Reports) (h : s.time.ms ≤ 999 → x.ms ≤ 999) :
    Sound s { s with time := x, reports := r } := (ofTime s x h).trans (ofReports { s with time := x } r)

theorem ofCaptureReports (s : State) (c : Capture) (r : Reports) (h : c.ring.length ≤ max s.capture.ring.length 16)
    (k : s.capture.slots.length = 4 → c.slots.length = 4) : Sound s { s with capture := c, reports := r } :=
  (ofCapture s c h k).trans (ofReports { s with capture := c } r)

end Sound

/-! ## The array (R74): every operation keeps the canonical form -/

/-- Every address listed lies above a bound. -/
def Memory.above (n : Nat) (m : Memory) : Bool := m.all fun c => decide (n < c.1)

theorem Memory.wf_cons (c : Nat × Page) (m : Memory) : Memory.wf (c :: m) = (Memory.above c.1 m && Memory.wf m) := by
  induction m generalizing c with
  | nil => rfl
  | cons d rest ih =>
    have h : Memory.wf (c :: d :: rest) = (decide (c.1 < d.1) && Memory.wf (d :: rest)) := rfl
    rw [h, ih d]
    simp only [Memory.above, List.all_cons]
    by_cases hcd : c.1 < d.1
    · simp only [hcd, decide_true, Bool.true_and]
      by_cases ha : (rest.all fun x => decide (d.1 < x.1)) = true
      · have hb : (rest.all fun x => decide (c.1 < x.1)) = true := by
          simp only [List.all_eq_true, decide_eq_true_eq] at ha ⊢
          intro x hx; exact Nat.lt_trans hcd (ha x hx)
        rw [ha, hb]; simp
      · rw [Bool.not_eq_true] at ha
        rw [ha]; simp
    · simp [hcd]

theorem Memory.above_write {n a : Nat} {p : Page} {m : Memory} (h : Memory.above n m = true) (k : n < a) :
    Memory.above n (m.write a p) = true := by
  induction m with
  | nil => simp [Memory.write, Memory.above, k]
  | cons c rest ih =>
    simp only [Memory.above, List.all_cons, Bool.and_eq_true, decide_eq_true_eq] at h
    unfold Memory.write
    split
    · simp only [Memory.above, List.all_cons, Bool.and_eq_true, decide_eq_true_eq]; exact ⟨k, h.1, h.2⟩
    · split
      · simp only [Memory.above, List.all_cons, Bool.and_eq_true, decide_eq_true_eq]; exact ⟨k, h.2⟩
      · simp only [Memory.above, List.all_cons, Bool.and_eq_true, decide_eq_true_eq]; exact ⟨h.1, ih h.2⟩

theorem Memory.wf_write {m : Memory} (a : Nat) (p : Page) (h : m.wf = true) : (m.write a p).wf = true := by
  induction m with
  | nil => rfl
  | cons c rest ih =>
    rw [Memory.wf_cons, Bool.and_eq_true] at h
    unfold Memory.write
    split
    · rename_i hlt
      rw [Memory.wf_cons, Memory.wf_cons, Bool.and_eq_true, Bool.and_eq_true]
      refine ⟨?_, h⟩
      have := h.1
      simp only [Memory.above, List.all_cons, Bool.and_eq_true, decide_eq_true_eq, List.all_eq_true] at this ⊢
      exact ⟨hlt, fun x hx => Nat.lt_trans hlt (this x hx)⟩
    · split
      · rename_i heq
        rw [Memory.wf_cons, Bool.and_eq_true]
        rw [heq]; exact h
      · rename_i h1 h2
        rw [Memory.wf_cons, Bool.and_eq_true]
        exact ⟨Memory.above_write h.1 (by have : ¬ a < c.1 := h1; have : a ≠ c.1 := h2; omega), ih h.2⟩

theorem Memory.above_filter {n : Nat} {m : Memory} (f : Nat × Page → Bool) (h : Memory.above n m = true) :
    Memory.above n (m.filter f) = true := by
  simp only [Memory.above, List.all_eq_true, decide_eq_true_eq, List.mem_filter] at h ⊢
  exact fun x hx => h x hx.1

theorem Memory.wf_filter {m : Memory} (f : Nat × Page → Bool) (h : m.wf = true) : Memory.wf (m.filter f) = true := by
  induction m with
  | nil => rfl
  | cons c rest ih =>
    rw [Memory.wf_cons, Bool.and_eq_true] at h
    by_cases hf : f c = true
    · rw [List.filter_cons_of_pos hf, Memory.wf_cons, Bool.and_eq_true]
      exact ⟨Memory.above_filter f h.1, ih h.2⟩
    · rw [List.filter_cons_of_neg hf]; exact ih h.2

theorem Memory.wf_erase {m : Memory} (b : Nat) (h : m.wf = true) : (m.erase b).wf = true := Memory.wf_filter _ h

/-- A change of conditions alone keeps the addresses. -/
theorem Memory.wf_map {m : Memory} (f : Nat × Page → Nat × Page) (hf : ∀ c, (f c).1 = c.1) (h : m.wf = true) :
    Memory.wf (m.map f) = true := by
  induction m with
  | nil => rfl
  | cons c rest ih =>
    rw [Memory.wf_cons, Bool.and_eq_true] at h
    rw [List.map_cons, Memory.wf_cons, Bool.and_eq_true]
    refine ⟨?_, ih h.2⟩
    have := h.1
    simp only [Memory.above, List.all_eq_true, decide_eq_true_eq, List.mem_map] at this ⊢
    rintro x ⟨y, hy, rfl⟩
    rw [hf, hf]; exact this y hy

theorem Memory.wf_degrade {m : Memory} (b : Nat) (h : m.wf = true) : (m.degrade b).wf = true :=
  Memory.wf_map _ (fun c => by split <;> rfl) h

/-- What a page holds behind an erase of its block that did not complete. -/
theorem Memory.read_degrade (m : Memory) (b a : Nat) :
    (m.degrade b).read a = if a / Config.pagesPerBlock = b then (m.read a).map (Page.halfErased a) else m.read a := by
  induction m with
  | nil => split <;> rfl
  | cons c m ih =>
    obtain ⟨x, p⟩ := c
    have degraded : Memory.degrade b ((x, p) :: m)
        = (if x / Config.pagesPerBlock = b then (x, p.halfErased x) else (x, p)) :: Memory.degrade b m := rfl
    rw [degraded]
    by_cases e : x = a
    · subst e
      by_cases h : x / Config.pagesPerBlock = b <;> simp [Memory.read, h]
    · have tail (q : Page) (n : Memory) : Memory.read ((x, q) :: n) a = Memory.read n a := by simp [Memory.read, e]
      rw [tail, ← ih]
      split <;> exact tail _ _

/-- A lost page stays lost through an erase that does not complete. -/
theorem Page.halfErased_lost (a : Nat) (p : Page) (h : p.condition = .lost) : (p.halfErased a).condition = .lost :=
  if_pos (.inl h)

/-- Behind an erase that does not complete, a content page of a log block is lost (R110). -/
theorem Page.halfErased_content (a : Nat) (p : Page) (h : Config.firstLogBlock ≤ a / Config.pagesPerBlock)
    (content : a % Config.pagesPerBlock ≠ 0) : (p.halfErased a).condition = .lost :=
  if_pos (.inr ⟨h, content⟩)

/-- A lost page reads BLANK or as unreadable, so that no reader finds its contents (R110). -/
theorem viewOf_lost (result : ReadResult) (body : Option (List Byte)) (d : PageData) :
    viewOf result body (some ⟨d, .lost⟩) = if result = .blank then .blank else .unreadable := by
  cases result <;> rfl

/-- What a page reads as behind a write. -/
theorem Memory.read_write (m : Memory) (a b : Nat) (p : Page) (h : m.wf = true) :
    (m.write a p).read b = if b = a then some p else m.read b := by
  induction m with
  | nil =>
    by_cases e : b = a
    · simp [Memory.write, Memory.read, e]
    · have : ¬ a = b := fun x => e x.symm
      simp [Memory.write, Memory.read, e, this]
  | cons c rest ih =>
    rw [Memory.wf_cons, Bool.and_eq_true] at h
    unfold Memory.write
    split
    · by_cases e : b = a
      · simp [Memory.read, e]
      · have : ¬ a = b := fun x => e x.symm
        simp [Memory.read, e, this]
    · split
      · rename_i heq
        by_cases e : b = a
        · simp [Memory.read, e]
        · have h1 : ¬ a = b := fun x => e x.symm
          have h2 : ¬ c.1 = b := by rw [← heq]; exact h1
          simp [Memory.read, e, h1, h2]
      · rename_i hne
        have hn : ¬ a = c.1 := hne
        simp only [Memory.read]
        by_cases e : c.1 = b
        · have : ¬ b = a := fun x => hn (by rw [← x, e])
          simp [e, this]
        · simp only [e, if_false]; exact ih h.2

/-- What a page reads as behind an erase: blank in the erased block, as before elsewhere. -/
theorem Memory.read_erase (m : Memory) (block a : Nat) :
    (m.erase block).read a = if a / Config.pagesPerBlock = block then none else m.read a := by
  unfold Memory.erase
  induction m with
  | nil => simp [Memory.read]
  | cons c rest ih =>
    by_cases hc : c.1 / Config.pagesPerBlock = block
    · rw [List.filter_cons_of_neg (by simp [hc]), ih]
      by_cases ha : a / Config.pagesPerBlock = block
      · simp [ha]
      · have : ¬ c.1 = a := fun e => ha (by rw [← e, hc])
        simp [ha, Memory.read, this]
    · rw [List.filter_cons_of_pos (by simp [hc])]
      by_cases e : c.1 = a
      · have : ¬ a / Config.pagesPerBlock = block := by rw [← e]; exact hc
        simp [Memory.read, e, this]
      · simp only [Memory.read, e, if_false]; exact ih

/-! ## Clock and link -/

theorem tick_ms (t : Timebase) (h : t.ms ≤ 999) : t.tick.ms ≤ 999 := by
  unfold Timebase.tick
  split
  · show t.ms + 1 ≤ 999; omega
  · exact Nat.zero_le _

theorem deliverReached_sound (s : State) : Sound s s.deliverReached :=
  Sound.ofTimeReports s _ _ (fun h => h)

theorem register_sound (s : State) (a n : Nat) (k : ArrivalKind) : Sound s (s.register a n k) := by
  unfold State.register
  split
  · exact Sound.ofReports s _
  · exact Sound.ofTime s _ (fun h => h)

theorem withdraw_sound (s : State) (n : Nat) (w : ArrivalKind → Bool) : Sound s (s.withdraw n w) :=
  Sound.ofTimeReports s _ _ (fun h => h)

theorem latch_fifo (l : Link) (c : Cause) : (l.latch c).fifo = l.fifo := rfl

theorem judgeClock_fifo (l : Link) (b : Bool) : (l.judgeClock b).fifo = l.fifo := by
  unfold Link.judgeClock; dsimp only; split <;> rfl

theorem reportClock_sound (s : State) : Sound s s.reportClock :=
  Sound.ofLink s _ (by rw [judgeClock_fifo]; omega)

theorem stepClock_sound (s : State) (t : WTime) (h : t.ms ≤ 999) : Sound s (s.stepClock t) := by
  unfold State.stepClock
  dsimp only
  refine Sound.trans ?_ (deliverReached_sound _)
  refine Sound.trans ?_ (Sound.ofReports _ _)
  refine Sound.trans ?_ (Sound.ofWriter (queueMarker_frame _ _))
  refine Sound.trans ?_ (reportClock_sound _)
  exact Sound.ofTime s _ (fun _ => h)

theorem setClock_sound (s : State) (t : WTime) (h : t.ms ≤ 999) : Sound s (s.setClock t) := by
  unfold State.setClock
  split
  · refine Sound.trans ?_ (deliverReached_sound _)
    exact Sound.ofTime s _ (fun _ => h)
  · exact stepClock_sound s t h

theorem settle_ms (t : Timebase) (n : Option Nat) : (t.settle n).ms = t.ms := by
  unfold Timebase.settle; split <;> rfl

theorem choose_fifo (b : Option Nat) (l : Link) : (l.choose b).fifo.length ≤ l.fifo.length := by
  unfold Link.choose
  repeat' split
  all_goals first | exact Nat.le_refl _ | exact Link.sendWatch_fifo b l

theorem joinFifo_fifo (b : Option Nat) (w : WindowSet) (l : Link) :
    (l.joinFifo b w).fifo.length ≤ max l.fifo.length 32 := by
  unfold Link.joinFifo
  split
  · omega
  · split
    · rename_i h
      have := choose_fifo b { l with fifo := l.fifo ++ [w] }
      simp only [List.length_append, List.length_singleton] at this
      have : watchDepth = 32 := rfl
      omega
    · exact Nat.le_max_left _ _

theorem joinFifo_sound (s : State) (b : Option Nat) (w : WindowSet) : Sound s { s with link := s.link.joinFifo b w } :=
  Sound.ofLink s _ (joinFifo_fifo b w s.link)

/-! ## The aggregator and the capture unit -/

theorem queueInterval_sound (s : State) (r : IntervalRecord) : Sound s (s.queueInterval r) := by
  unfold State.queueInterval
  split
  · rename_i h
    refine Sound.ofAgg s _ ?_
    have : outputDepth = 4 := rfl
    simp only [List.length_append, List.length_singleton]
    omega
  · exact Sound.ofWriter (raiseLoss_frame _ _ _)

theorem closeInterval_sound (s : State) (b : Bool) (f : IntervalFixed) (n : Truncation) : Sound s (s.closeInterval b f n) := by
  unfold State.closeInterval
  dsimp only
  refine Sound.trans ?_ (queueInterval_sound _ _)
  exact Sound.ofAgg s _ (Nat.le_max_left _ _)

theorem fix_queue (a : Aggregator) (t : TimeStamp) : (a.fix t).queue = a.queue := rfl

theorem takeWindow_sound (s : State) (w : WindowSet) : Sound s (s.takeWindow w) := by
  unfold State.takeWindow
  dsimp only
  have hq : (if s.agg.acc.fixed.isNone then s.agg.fix w.stamp else s.agg).queue = s.agg.queue := by split <;> rfl
  generalize (if s.agg.acc.fixed.isNone then s.agg.fix w.stamp else s.agg) = a at hq ⊢
  split
  · exact Sound.refl s
  · have h (x : Accumulator) : Sound s { s with agg := { a with acc := x } } :=
      Sound.ofAgg s _ (by show a.queue.length ≤ _; rw [hq]; omega)
    split
    · refine Sound.trans ?_ (Sound.ofReports _ _)
      exact (h _).trans (closeInterval_sound _ _ _ _)
    · exact h _

theorem takeFrequency_sound (s : State) (f : FrequencyValue) : Sound s (s.takeFrequency f) :=
  Sound.ofAgg s _ (Nat.le_max_left _ _)

theorem takeMiss_sound (s : State) (k : Kind) : Sound s (s.takeMiss k) := Sound.ofAgg s _ (Nat.le_max_left _ _)

theorem cutInterval_sound (s : State) (c : Truncation) : Sound s (s.cutInterval c) := by
  unfold State.cutInterval
  dsimp only
  have h (x : Accumulator) : Sound s { s with agg := { s.agg with acc := x } } := Sound.ofAgg s _ (Nat.le_max_left _ _)
  split
  · exact h _
  · exact (h _).trans (closeInterval_sound _ _ _ _)

theorem takeBlock_sound (s : State) (b : SampleBlock) : Sound s (s.takeBlock b) := by
  unfold State.takeBlock
  dsimp only
  refine Sound.ofCaptureReports s _ _ ?_ ?_
  · have : ringDepth = 16 := rfl
    simp only [List.length_drop, List.length_append, List.length_singleton]
    omega
  · intro h; simpa using h

theorem restartCapture_sound (s : State) : Sound s s.restartCapture := by
  unfold State.restartCapture
  exact Sound.ofCaptureReports s _ _ (Nat.zero_le _) (fun h => by simpa using h)

theorem dropSlots_sound (s : State) : Sound s s.dropSlots := by
  unfold State.dropSlots
  exact Sound.ofCaptureReports s _ _ (Nat.le_max_left _ _) (fun h => by simpa using h)

/-! ## The case unit -/

theorem modifyCase_sound (s : State) (f : CaseSlot → CaseSlot) (i : Nat) : Sound s (s.modifyCase f i) := Sound.ofCases s _

theorem queueImage_sound (s : State) (k : ImageKind) : Sound s (s.queueImage k) := Sound.ofWriter (queueImage_frame s k)

theorem queueMarker_sound (s : State) (b : MarkerBody) : Sound s (s.queueMarker b) := Sound.ofWriter (queueMarker_frame s b)

theorem latch_sound (s : State) (c : Cause) : Sound s (s.latch c) := Sound.ofWriter (latch_frame s c)

theorem reply_sound (s : State) (st : Status) (b : List Byte) : Sound s (s.reply st b) := Sound.ofWriter (reply_frame s st b)

theorem pump_sound (s : State) : Sound s s.pump := Sound.ofWriter (pump_frame s)

theorem modifyStore_sound (s : State) (f : Store → Store) (h : (f s.store).array = s.store.array := by rfl)
    (k : (f s.store).markerQueue = s.store.markerQueue := by rfl) : Sound s (s.modifyStore f) :=
  Sound.ofStore s _ (by rw [h]; exact id) (by rw [k]; exact Nat.le_max_left _ _)

theorem modifyBlock_sound (s : State) (f : BlockEntry → BlockEntry) (b : Nat) :
    Sound s (s.modifyStore (Store.modifyBlock f b)) :=
  modifyStore_sound s _ (modifyBlock_array _ _ _) (modifyBlock_queue _ _ _)

theorem flagCases_sound (s : State) (f : CaseSlot → CaseSlot) : Sound s (s.flagCases f) := by
  unfold State.flagCases
  dsimp only
  split
  · exact Sound.ofCases s _
  · exact (Sound.ofCases s _).trans (queueImage_sound _ _)

theorem loseEvidence_sound (s : State) (i : Nat) : Sound s (s.loseEvidence i) := by
  unfold State.loseEvidence
  split
  · exact Sound.refl s
  · split
    · exact Sound.refl s
    · exact (modifyCase_sound s _ _).trans (queueImage_sound _ _)

theorem placeHolds_sound (s : State) (i : Nat) : Sound s (s.placeHolds i) := by
  unfold State.placeHolds
  split
  · exact Sound.refl s
  · dsimp only
    have h (c : CaseSlot) : Sound s { s with store := s.store.place s.nowMs i c } := Sound.ofStore s _ (fun h => h)
    split
    · exact (h _).trans (loseEvidence_sound _ _)
    · exact h _

theorem judgeBlock_sound (s : State) (i b : Nat) : Sound s (s.judgeBlock i b) := by
  unfold State.judgeBlock
  split
  · exact Sound.refl s
  · dsimp only
    have h (f : BlockEntry → BlockEntry) : Sound s { s with store := s.store.modifyBlock f b } := modifyBlock_sound s f b
    split
    · exact h _
    · split
      · exact (h _).trans (loseEvidence_sound _ _)
      · exact h _

theorem removeHolds_sound (s : State) (i : Nat) : Sound s (s.removeHolds i) := Sound.ofStore s _ (fun h => h)

theorem judgeForSlots_sound (b : Nat) (l : List Nat) (s : State) : Sound s (judgeForSlots b l s) := by
  induction l generalizing s with
  | nil => exact Sound.refl s
  | cons i rest ih => exact (judgeBlock_sound s i b).trans (ih _)

theorem spanChanged_sound (s : State) (b : Nat) : Sound s (s.spanChanged b) := judgeForSlots_sound _ _ _

theorem placeForSlots_sound (l : List Nat) (s : State) : Sound s (placeForSlots l s) := by
  induction l generalizing s with
  | nil => exact Sound.refl s
  | cons i rest ih => exact (placeHolds_sound s i).trans (ih _)

theorem noteOpening_sound (s : State) (r : Record) : Sound s (s.noteOpening r) := by
  unfold State.noteOpening
  split
  · split
    · split
      · exact (modifyCase_sound s _ _).trans (queueImage_sound _ _)
      · exact Sound.refl s
    · exact Sound.refl s
  · exact Sound.refl s

theorem deliver_sound (s : State) (r : Record) : Sound s (s.deliver r) := by
  unfold State.deliver
  refine Sound.trans ?_ (noteOpening_sound _ _)
  exact Sound.ofCases s _

theorem scanFinished_sound (s : State) (i : Nat) : Sound s (s.scanFinished i) := by
  unfold State.scanFinished
  dsimp only
  refine Sound.trans ?_ (queueImage_sound _ _)
  refine Sound.trans ?_ (latch_sound _ _)
  refine Sound.trans ?_ (modifyCase_sound _ _ _)
  exact Sound.ofCases s _

theorem walkFrom_sound (s : State) (i a : Nat) : Sound s (s.walkFrom i a) := by
  unfold State.walkFrom
  split
  · exact Sound.ofCases s _
  · split
    · exact Sound.ofCases s _
    · exact scanFinished_sound s i

theorem serveQueue_sound (n : Nat) (s : State) : Sound s (s.serveQueue n) := by
  induction n generalizing s with
  | zero => exact Sound.refl s
  | succ n ih =>
    unfold State.serveQueue
    split
    · exact Sound.refl s
    · split
      · exact Sound.refl s
      · refine Sound.trans ?_ (ih _)
        exact (modifyCase_sound s _ _).trans (walkFrom_sound _ _ _)

theorem runScans_sound (s : State) : Sound s s.runScans := serveQueue_sound _ s

theorem nextPage_sound (s : State) (e : Engine) : Sound s (s.nextPage e) := by
  unfold State.nextPage
  split
  · exact Sound.ofCases s _
  · exact walkFrom_sound _ _ _

theorem scanResult_sound (s : State) (v : PageView) : Sound s (s.scanResult v) := by
  unfold State.scanResult
  split
  · exact Sound.refl s
  · split
    · exact (walkFrom_sound _ _ _).trans (runScans_sound _)
    · exact ((modifyCase_sound s _ _).trans (nextPage_sound _ _)).trans (runScans_sound _)
    · split
      · exact (walkFrom_sound _ _ _).trans (runScans_sound _)
      · split
        · exact ((modifyCase_sound s _ _).trans (nextPage_sound _ _)).trans (runScans_sound _)
        · split
          · exact (walkFrom_sound _ _ _).trans (runScans_sound _)
          · exact ((modifyCase_sound s _ _).trans (nextPage_sound _ _)).trans (runScans_sound _)
    · exact (nextPage_sound _ _).trans (runScans_sound _)

theorem gapReport_sound (s : State) : Sound s s.gapReport := by
  unfold State.gapReport
  split
  · exact Sound.ofCases s _
  · exact flagCases_sound s _

theorem stepCases_sound (s : State) : Sound s s.stepCases := flagCases_sound s _

theorem registerCase_sound (s : State) (c : CaseSlot) : Sound s (s.registerCase c) := by
  unfold State.registerCase
  dsimp only
  have h : Sound s (if c.state == .pending then s.register c.start.toMs c.caseNo .start else s) := by
    split
    · exact register_sound _ _ _ _
    · exact Sound.refl s
  split <;> exact h.trans (register_sound _ _ _ _)

theorem endCase_sound (s : State) (i : Nat) : Sound s (s.endCase i) :=
  ((modifyCase_sound s _ i).trans (latch_sound _ _)).trans (queueImage_sound _ _)

theorem setEnd_sound (s : State) (i : Nat) (c : CaseSlot) (t : WTime) : Sound s (s.setEnd i c t) := by
  unfold State.setEnd
  dsimp only
  have h := ((((withdraw_sound s c.caseNo fun k => k != .start).trans
    (modifyCase_sound _ (fun c => { c with finish := some t }) i)).trans (placeHolds_sound _ i)).trans
    (queueMarker_sound _ (.caseClosed i c.caseNo t))).trans (queueImage_sound _ .cases)
  split
  · exact h.trans (endCase_sound _ _)
  · exact h

theorem takeArrival_sound (s : State) (n : Nat) (k : ArrivalKind) : Sound s (s.takeArrival n k) := by
  unfold State.takeArrival
  split
  · exact Sound.refl s
  · split
    · split
      · exact (modifyCase_sound s _ _).trans (queueImage_sound _ _)
      · exact Sound.refl s
    · split
      · exact endCase_sound _ _
      · exact Sound.refl s
    · split
      · exact Sound.refl s
      · exact setEnd_sound _ _ _ _

theorem reloadCases_sound (s : State) (l : Option (List (Option ImageCase))) : Sound s (s.reloadCases l) := by
  unfold State.reloadCases
  dsimp only
  refine Sound.trans ?_ (flagCases_sound _ _)
  split
  · refine Sound.trans ?_ (gapReport_sound _)
    refine Sound.trans ?_ (flagCases_sound _ _)
    exact Sound.ofCases s _
  · refine Sound.trans ?_ (flagCases_sound _ _)
    exact Sound.ofCases s _

theorem registerAll_sound (l : List (Nat × CaseSlot)) (s : State) : Sound s (registerAll l s) := by
  induction l generalizing s with
  | nil => exact Sound.refl s
  | cons c rest ih => exact (registerCase_sound s c.2).trans (ih _)

theorem concludeCases_sound (s : State) (n : Nat) : Sound s (s.concludeCases n) := by
  unfold State.concludeCases
  dsimp only
  refine Sound.trans ?_ (registerAll_sound _ _)
  refine Sound.trans ?_ (Sound.ofCases _ _)
  refine Sound.trans ?_ (flagCases_sound _ _)
  refine Sound.trans ?_ (placeForSlots_sound _ _)
  exact Sound.ofCases s _

/-! ## Commits and outcomes of operations -/

theorem reportCommit_sound (s : State) (r : Record) : Sound s (s.reportCommit r) := by
  unfold State.reportCommit
  dsimp only
  split
  · refine Sound.trans ?_ (Sound.ofWriter (judgeExport_frame _))
    rename_i d
    refine Sound.trans (Sound.ofReports s _) (modifyStore_sound _ (Store.joinUnexported d.seq) ?_ ?_) <;>
      (unfold Store.joinUnexported; repeat' split) <;> rfl
  · exact (Sound.ofReports s _).trans (Sound.ofWriter (judgeExport_frame _))

theorem reportAll_sound (l : List Record) (s : State) : Sound s (l.foldl (fun s r => s.reportCommit r) s) := by
  induction l generalizing s with
  | nil => exact Sound.refl s
  | cons r rest ih => exact (reportCommit_sound s r).trans (ih _)

theorem commit_sound (s : State) (b : Nat) (l : List Record) : Sound s (s.commit b l) := by
  unfold State.commit
  dsimp only
  have h (f : Store → BlockEntry → BlockEntry) : Sound s
      ((l.foldl (fun s r => s.reportCommit r) s).modifyStore fun st => st.modifyBlock (f st) b) :=
    (reportAll_sound l s).trans (modifyStore_sound _ _ (modifyBlock_array _ _ _) (modifyBlock_queue _ _ _))
  split
  · split
    · exact h _
    · exact (h _).trans (spanChanged_sound _ _)
  · exact h _

theorem boundary_sound (s : State) (j : DisturbanceJob) : Sound s (s.boundary j) := by
  unfold State.boundary
  dsimp only
  split
  · exact Sound.ofWriter (setJob_frame s _)
  split
  · exact Sound.ofWriter ((takeReclaim_frame s _).trans (setJob_frame _ _))
  · split
    · split
      · have h := WriterFrame.ofStore s fun st => { st with hostRequest := none }
        have k (n : ReadNext) := h.trans (answerRead_frame _ n)
        split
        · rename_i e
          have := k (State.beginRead ‹_› (s.modifyStore fun st => { st with hostRequest := none }))
          rw [e] at this
          exact Sound.ofWriter (this.trans (setJob_frame _ _))
        · rename_i e
          have := k (State.beginRead ‹_› (s.modifyStore fun st => { st with hostRequest := none }))
          rw [e] at this
          exact Sound.ofWriter (this.trans (setJob_frame _ _))
      · exact Sound.ofWriter (setJob_frame s _)
    · exact Sound.ofWriter (setJob_frame s _)

theorem captureWritten_sound (s : State) (b p : Nat) (j : DisturbanceJob) : Sound s (s.captureWritten b p j) := by
  unfold State.captureWritten
  dsimp only
  refine Sound.trans ?_ (boundary_sound _ _)
  refine Sound.trans ?_ (Sound.ofWriter ((pageUsed_frame _).trans (review_frame _)))
  split
  · exact Sound.ofWriter (captureSlot_frame s _ _)
  · exact Sound.refl s

theorem disturbanceCommitted_sound (s : State) (b : Nat) (j : DisturbanceJob) : Sound s (s.disturbanceCommitted b j) := by
  unfold State.disturbanceCommitted
  dsimp only
  refine Sound.trans ?_ (Sound.ofWriter (pageUsed_frame _))
  refine Sound.trans ?_ (commit_sound _ _ _)
  refine Sound.trans ?_ (Sound.ofWriter (setJob_frame _ _))
  split
  · exact Sound.ofWriter ((modifyTracker_frame s _ (commitDone_keeps _ _ _)).trans (WriterFrame.ofStore _ _))
  · exact Sound.refl s

theorem recordsCommitted_sound (s : State) (b : Nat) (j : RecordsJob) : Sound s (s.recordsCommitted b j) := by
  unfold State.recordsCommitted
  dsimp only
  have h := ((Sound.ofWriter (setJob_frame s none)).trans (commit_sound _ b j.records)).trans
    (Sound.ofWriter (pageUsed_frame _))
  generalize ((s.setJob none).commit b j.records).pageUsed = t at h ⊢
  have h2 : Sound s (if j.ownLoss = true then t.modifyStore fun st => { st with lossMarker := .committed } else t) := by
    split
    · exact h.trans (modifyStore_sound _ _)
    · exact h
  generalize (if j.ownLoss = true then t.modifyStore fun st => { st with lossMarker := .committed } else t) = u at h2 ⊢
  have h3 : Sound s (if j.returnDue = true then u.queueMarker (.supplyReturn none) else u) := by
    split
    · exact h2.trans (queueMarker_sound _ _)
    · exact h2
  split
  · exact h3.trans (Sound.ofWriter (formatMarked_frame _))
  · exact h3

theorem contentDone_sound (s : State) (b p : Nat) (d : PageData) : Sound s (s.contentDone b p d) := by
  unfold State.contentDone
  repeat' split
  all_goals first
    | exact captureWritten_sound _ _ _ _ | exact disturbanceCommitted_sound _ _ _ | exact recordsCommitted_sound _ _ _
    | exact Sound.refl s

/-- A page is written into the array, and the operation ends. -/
theorem written_sound (s : State) (b p : Nat) (d : PageData) (c : PageCondition) :
    Sound s (s.modifyStore fun st => { st.program b p d c with op := none }) :=
  Sound.ofStore s _ (fun h => Memory.wf_write _ _ h)

theorem programDone_sound (s : State) (b p : Nat) (d : PageData) (w : ProgramWhy) : Sound s (s.programDone b p d w) := by
  unfold State.programDone
  dsimp only
  have h := written_sound s b p d .whole
  split
  · exact h.trans (contentDone_sound _ _ _ _)
  · exact h.trans (Sound.ofWriter (imageProgrammed_frame _ _ _))
  · split
    · exact h.trans (Sound.ofWriter (activated_frame _ _ _))
    · exact h

theorem contentTimedOut_sound (s : State) : Sound s s.contentTimedOut := by
  unfold State.contentTimedOut
  repeat' split
  all_goals first
    | exact Sound.ofWriter ((discardJob_frame s _).trans (WriterFrame.ofStore _ _))
    | exact Sound.ofWriter (discardJob_frame s _)
    | exact Sound.ofWriter (setJob_frame s _)

theorem programTimedOut_sound (s : State) (b p : Nat) (d : PageData) (w : ProgramWhy) :
    Sound s (s.programTimedOut b p d w) := by
  unfold State.programTimedOut
  dsimp only
  have h := written_sound s b p d w.leaves
  split
  · exact h.trans (Sound.ofWriter (imageTimedOut_frame _ _))
  · exact (h.trans (modifyBlock_sound _ _ _)).trans (Sound.ofWriter (retire_frame _ _ _))
  · refine Sound.trans ?_ (contentTimedOut_sound _)
    refine Sound.trans ?_ (Sound.ofWriter (retire_frame _ _ _))
    exact h.trans (Sound.ofWriter (modifyBlock_frame _ _ b fun st => { st with active := none }))

theorem eraseEnded_sound (s : State) (w : EraseWhy) : Sound s (s.eraseEnded w) := by
  unfold State.eraseEnded
  split
  · exact Sound.ofWriter (setJob_frame s _)
  · exact (Sound.ofWriter (review_frame s)).trans (boundary_sound _ _)
  · exact Sound.refl s

theorem eraseDone_sound (s : State) (b : Nat) (w : EraseWhy) : Sound s (s.eraseDone b w) := by
  unfold State.eraseDone
  dsimp only
  have h : Sound s (s.modifyStore fun st => { st with array := st.array.erase b, op := none }) :=
    Sound.ofStore s _ (fun h => Memory.wf_erase _ h)
  split
  · exact h.trans (Sound.ofWriter (settingsErased_frame _ _ _))
  · split
    · exact h.trans (eraseEnded_sound _ _)
    · split
      · exact ((h.trans (modifyBlock_sound _ _ _)).trans (Sound.ofWriter (retire_frame _ _ _))).trans (eraseEnded_sound _ _)
      · exact (h.trans (modifyBlock_sound _ _ _)).trans (eraseEnded_sound _ _)

theorem eraseTimedOut_sound (s : State) (b : Nat) (w : EraseWhy) : Sound s (s.eraseTimedOut b w) := by
  unfold State.eraseTimedOut
  dsimp only
  have h : Sound s (s.modifyStore fun st => { st with array := st.array.degrade b, op := none }) :=
    Sound.ofStore s _ (fun h => Memory.wf_degrade _ h)
  split
  · exact h.trans (Sound.ofWriter (settingsEraseFailed_frame _ _))
  · exact ((h.trans (modifyBlock_sound _ _ _)).trans (Sound.ofWriter (retire_frame _ _ _))).trans (eraseEnded_sound _ _)

theorem hostResult_sound (s : State) (v : PageView) : Sound s (s.hostResult v) := by
  unfold State.hostResult
  split
  · have k := answerRead_frame s (HostRead.take s.store.newestSeq v ‹HostRead›)
    split
    · rename_i e; rw [e] at k; exact Sound.ofWriter (k.trans (setJob_frame _ _))
    · rename_i e; rw [e] at k; exact Sound.ofWriter (k.trans (setJob_frame _ _))
  · exact Sound.ofWriter ((setJob_frame s _).trans (reply_frame _ _ _))
  · split
    · have k := answerRead_frame s (HostRead.take s.store.newestSeq v ‹HostRead›)
      split
      · rename_i e; rw [e] at k; exact Sound.ofWriter (k.trans (setJob_frame _ _))
      · rename_i e; rw [e] at k
        exact (Sound.ofWriter (k.trans (review_frame _))).trans (boundary_sound _ _)
    · exact Sound.refl s
  · exact Sound.refl s

theorem scanReadDone_sound (s : State) (v : PageView) : Sound s (s.scanReadDone v) := by
  unfold State.scanReadDone
  split
  · exact (Sound.ofWriter (setJob_frame s _)).trans (scanResult_sound _ _)
  · exact scanResult_sound _ _

theorem orphan_sound (s : State) (w : Requester) : Sound s (s.modifyStore (Store.orphan w)) := modifyStore_sound s _

theorem dropHostRead_sound (s : State) : Sound s s.dropHostRead := by
  unfold State.dropHostRead
  dsimp only
  have h : Sound s (s.modifyStore fun st => { st.orphan .host with hostRequest := none }) := modifyStore_sound s _
  split
  · exact h.trans (Sound.ofWriter (setJob_frame _ _))
  · exact h.trans (Sound.ofWriter (setJob_frame _ _))
  · split
    · split
      · exact h.trans (Sound.ofWriter (setJob_frame _ _))
      · exact h.trans (boundary_sound _ _)
    · exact h
  · exact h

theorem dropScanRead_sound (s : State) : Sound s s.dropScanRead := by
  unfold State.dropScanRead
  dsimp only
  split
  · exact (orphan_sound s _).trans (Sound.ofWriter (setJob_frame _ _))
  · exact orphan_sound s _

end Sys2Proof.Machine
end

