-- ==== Sys2Proof/Laws/Service.lean ====
section
/-!
SUPPORT. `Sound` for the start-up scan, the supply supervisor, the notices and the requests: with these lemmas a meaning's
invariant is one composition.
-/

-- One proof after the other: proofs checked side by side hold more memory than the check allows.
set_option Elab.async false

namespace Sys2Proof.Machine

/-! ## The start-up scan -/

/-- A change of the store that keeps the array and the marker queue, block entries and scan among what it may change. -/
theorem touch_sound (s : State) (f : Store → Store)
    (h : (f s.store).array = s.store.array := by
      simp only [Store.modifyScan, Store.classify, Store.classifyForeign, modifyBlock_array])
    (k : (f s.store).markerQueue = s.store.markerQueue := by
      simp only [Store.modifyScan, Store.classify, Store.classifyForeign, modifyBlock_queue]) :
    Sound s (s.modifyStore f) := modifyStore_sound s f h k

theorem scanRead_sound (s : State) (g : ScanStage) : Sound s (s.scanRead g) := by
  unfold State.scanRead
  split
  all_goals exact modifyStore_sound s _

theorem endRvcAt_length (base : Option Nat) (stamp : TimeStamp) (l : List Nat) (t : Tracker) :
    (t.endRvcAt base stamp l).entries.length = t.entries.length := by
  induction l generalizing t with
  | nil => rfl
  | cons i rest ih => exact (ih _).trans ((modifySlot_length _ _ _).trans (modifySlot_length _ _ _))

theorem beginSeries_length (base : Option Nat) (stamp : TimeStamp) (t : Tracker) :
    (t.beginSeries base stamp).entries.length = t.entries.length := endRvcAt_length base stamp _ t

theorem loadSeries_sound (s : State) (x : Settings) : Sound s (s.loadSeries x) := by
  unfold State.loadSeries
  split
  · constructor <;> first | rfl | exact Nat.le_max_left _ _ | exact fun h => h
  · refine ((Sound.ofTrack (settleRequests_track s)).trans (restartCapture_sound _)).trans ?_
    constructor <;> first | rfl | exact Nat.le_max_left _ _ | exact fun h => h | exact fun h => (beginSeries_length _ _ _).trans h

theorem loadSettings_sound (s : State) (x : Settings) (g : Nat) : Sound s (s.loadSettings x g) := by
  refine (loadSeries_sound s x).trans ?_
  constructor <;> first | rfl | exact Nat.le_max_left _ _ | exact fun h => h

theorem settingsAreaRead_sound (s : State) : Sound s s.settingsAreaRead := by
  unfold State.settingsAreaRead
  split
  · exact Sound.refl s
  · dsimp only
    refine Sound.trans ?_ (reloadCases_sound _ _)
    split
    · exact ((modifyStore_sound s _).trans (modifyStore_sound _ _)).trans (loadSettings_sound _ _ _)
    · exact (modifyStore_sound s _).trans (loadSettings_sound _ _ _)

theorem passPage_sound (s : State) (b p : Nat) (v : PageView) : Sound s (s.passPage b p v) := by
  unfold State.passPage
  split <;> first | exact Sound.refl s | exact modifyStore_sound s _

theorem scanHeader_sound (s : State) (b : Nat) (v : PageView) : Sound s (s.scanHeader b v).1 := by
  unfold State.scanHeader
  split
  · split <;> exact touch_sound s _
  · exact (touch_sound s _).trans (touch_sound _ _)
  · exact touch_sound s _

theorem scanFirst_sound (s : State) (b p : Nat) (v : PageView) : Sound s (s.scanFirst b p v).1 := by
  unfold State.scanFirst
  dsimp only
  split
  · exact touch_sound s _
  · split
    · dsimp only
      refine modifyStore_sound s _ ?_ ?_
      · simp only [Store.modifyScan, modifyBlock_array]
      · simp only [Store.modifyScan, modifyBlock_queue]
    · split
      · exact passPage_sound s _ _ _
      · exact (passPage_sound s _ _ _).trans (touch_sound _ _)

theorem lastFound_sound (s : State) (b : Nat) (f : FoundPage) : Sound s (s.lastFound b f).1 :=
  (touch_sound s _).trans (touch_sound _ _)

theorem scanLast_sound (s : State) (b p : Nat) (v : PageView) : Sound s (s.scanLast b p v).1 := by
  unfold State.scanLast
  dsimp only
  split
  · exact lastFound_sound _ _ _
  · split
    · exact passPage_sound s _ _ _
    · split
      · exact (passPage_sound s _ _ _).trans (lastFound_sound _ _ _)
      · exact (passPage_sound s _ _ _).trans (touch_sound _ _)

theorem matchEntries_sound (r : DisturbanceRecord) (l : List (Nat × Entry)) (s : State) : Sound s (matchEntries r l s) := by
  induction l generalizing s with
  | nil => exact Sound.refl s
  | cons e rest ih =>
    refine Sound.trans ?_ (ih _)
    split
    · exact Sound.ofWriter ((modifyTracker_frame s _ (commitDone_keeps _ _ _)).trans (WriterFrame.ofStore _ _))
    · exact Sound.refl s

theorem matchRecords_sound (l : List Record) (s : State) : Sound s (State.matchRecords l s) := by
  induction l generalizing s with
  | nil => exact Sound.refl s
  | cons r rest ih =>
    cases r with
    | disturbance d => exact (matchEntries_sound d _ s).trans (ih _)
    | interval i => exact ih _
    | marker m => exact ih _

theorem concludeFirst_sound (s : State) (x : StartScan) : Sound s (s.concludeFirst x) := by
  unfold State.concludeFirst
  dsimp only
  refine Sound.trans ?_ (Sound.ofTime _ _ (by rw [settle_ms]; exact id))
  exact (modifyStore_sound s _).trans (matchRecords_sound _ _)

theorem concludeLast_sound (s : State) : Sound s s.concludeLast := by
  unfold State.concludeLast
  dsimp only
  refine Sound.trans ?_ (runScans_sound _)
  refine Sound.trans ?_ (Sound.ofSupply _ _)
  refine Sound.trans ?_ (modifyStore_sound _ _)
  exact (modifyStore_sound s _).trans (concludeCases_sound _ _)

theorem takeMarker_sound (s : State) (m : MarkerRecord) (l : List (Kind × TimeStamp)) : Sound s (s.takeMarker m l) := by
  unfold State.takeMarker
  split
  · exact modifyStore_sound s _
  · exact Sound.refl s

theorem scanBack_sound (s : State) (b p : Nat) (l : List (Nat × Nat)) (v : PageView) : Sound s (s.scanBack b p l v).1 := by
  unfold State.scanBack
  dsimp only
  split
  · exact takeMarker_sound _ _ _
  · exact modifyStore_sound s _

theorem classified_sound (s : State) : Sound s s.classified := by
  unfold State.classified
  split
  · exact Sound.refl s
  · dsimp only
    split
    · exact (concludeFirst_sound s _).trans (scanRead_sound _ _)
    · exact (concludeFirst_sound s _).trans (concludeLast_sound _)

theorem startResult_sound (s : State) (v : PageView) : Sound s (s.startResult v) := by
  unfold State.startResult
  split
  · exact Sound.refl s
  · dsimp only
    have follow (a : State × ScanNext) (h : Sound s a.1) :
        Sound s (match a.2 with | .read stage => a.1.scanRead stage | .conclude => a.1.classified) := by
      split
      · exact h.trans (scanRead_sound _ _)
      · exact h.trans (classified_sound _)
    split
    · split
      · exact (modifyStore_sound s _).trans (scanRead_sound _ _)
      · split
        · exact (modifyStore_sound s _).trans (scanRead_sound _ _)
        · exact ((modifyStore_sound s _).trans (settingsAreaRead_sound _)).trans (scanRead_sound _ _)
    · exact follow _ (scanHeader_sound s _ _)
    · exact follow _ (scanFirst_sound s _ _ _)
    · exact follow _ (scanLast_sound s _ _ _)
    · split
      · exact (scanBack_sound s _ _ _ _).trans (scanRead_sound _ _)
      · exact (scanBack_sound s _ _ _ _).trans (concludeLast_sound _)

theorem readDone_sound (s : State) : Sound s s.readDone := by
  unfold State.readDone
  split
  · dsimp only
    split
    · exact (modifyStore_sound s _).trans (boundary_sound _ _)
    · exact modifyStore_sound s _
  · exact Sound.refl s

theorem correctionEnded_sound (s : State) (r : ReadResult) (b : Option (List Byte)) : Sound s (s.correctionEnded r b) := by
  unfold State.correctionEnded
  split
  · exact Sound.refl s
  · dsimp only
    rename_i c _
    have h : Sound s (s.modifyStore fun st =>
        if weakens r c.found = true then Store.modifyBlock (fun e => { e with weak := true }) c.block { st with correcting := none }
        else { st with correcting := none }) := by
      refine modifyStore_sound s _ ?_ ?_ <;> split <;>
        first | rfl | simp only [modifyBlock_array] | simp only [modifyBlock_queue]
    split
    · exact h.trans (hostResult_sound _ _)
    · exact h.trans (scanReadDone_sound _ _)
    · exact h.trans (startResult_sound _ _)
    · exact h

/-! ## The supply supervisor -/

theorem busyRead_sound (s : State) : Sound s s.busyRead := by
  unfold State.busyRead
  split
  · exact (reply_sound s _ _).trans (dropHostRead_sound _)
  · exact Sound.refl s

theorem enterHoldup_sound (s : State) : Sound s s.enterHoldup := by
  unfold State.enterHoldup
  dsimp only
  refine Sound.trans ?_ (Sound.ofWriter (queueSupplyLoss_frame _))
  refine Sound.trans ?_ (modifyStore_sound _ _)
  refine Sound.trans ?_ (busyRead_sound _)
  refine Sound.trans ?_ (cutInterval_sound _ _)
  exact (Sound.ofSupply s _).trans (dropSlots_sound _)

theorem leaveHoldup_sound (s : State) : Sound s s.leaveHoldup := by
  unfold State.leaveHoldup
  dsimp only
  have h := (Sound.ofSupply s { s.supply with power := if s.store.scan.isSome = true then .starting else .run }).trans
    (modifyStore_sound _ (fun st => { st with lossBatch := [] }))
  split
  · exact (h.trans (modifyStore_sound _ _)).trans (queueMarker_sound _ _)
  · exact h.trans (modifyStore_sound _ _)
  · refine h.trans (Sound.ofStore _ _ (fun h => h) ?_)
    exact Nat.le_trans (List.length_filter_le _ _) (Nat.le_max_left _ _)
  · exact h.trans (modifyStore_sound _ _)
  · exact h.trans (modifyStore_sound _ _)

theorem cutShort_wf (st : Store) (h : st.array.wf = true) : st.cutShort.wf = true := by
  unfold Store.cutShort
  split
  · exact Memory.wf_write _ _ h
  · exact Memory.wf_degrade _ h
  · exact h

theorem stopCore_sound (s : State) (p : Power) : Sound s (s.stopCore p) := by
  have h := Sound.ofTrack (settleRequests_track s)
  unfold State.stopCore
  dsimp only
  generalize s.settleRequests = t at h ⊢
  refine h.trans ⟨rfl, fun h => h, cutShort_wf _, ?_, ?_, ?_, ?_, fun h => h, fun _ => rfl⟩
  all_goals exact Nat.zero_le _

theorem restart_length (base : Option Nat) (r : Bool) (t : TimeStamp) (f : InForce) (x : Tracker) :
    (x.restart base r t f).entries.length = x.entries.length := by
  have h1 (l : List Nat) (y : Tracker) : (y.enqueueAll l).entries.length = y.entries.length := by
    induction l generalizing y with
    | nil => rfl
    | cons i rest ih => exact (ih _).trans (modifySlot_length _ _ _)
  unfold Tracker.restart
  dsimp only
  rw [beginSeries_length, h1, List.length_map]

theorem start_sound (s : State) (b : Bool) : Sound s (s.start b) := by
  unfold State.start
  dsimp only
  refine Sound.trans ?_ (reportClock_sound _)
  refine Sound.trans ?_ (latch_sound _ _)
  refine ⟨rfl, fun h => h, fun h => h, ?_, Nat.zero_le _, Nat.zero_le _, Nat.zero_le _, ?_, fun _ => rfl⟩
  · refine Nat.le_trans ?_ (Nat.le_max_right _ _)
    dsimp only
    split <;> exact Nat.le_of_ble_eq_true rfl
  · intro h
    dsimp only
    split
    · rfl
    · rw [restart_length]; exact h

theorem loseBackup_sound (s : State) : Sound s s.loseBackup :=
  ⟨rfl, fun _ => Nat.zero_le _, fun h => h, Nat.le_max_left _ _, Nat.le_max_left _ _, Nat.le_max_left _ _,
    Nat.le_max_left _ _, fun _ => rfl, fun h => h⟩

theorem powerUp_sound (s : State) : Sound s s.powerUp := by
  unfold State.powerUp
  split
  · exact Sound.refl s
  · exact ⟨rfl, fun _ => Nat.zero_le _, fun h => h, Nat.le_max_left _ _, Nat.le_max_left _ _, Nat.le_max_left _ _,
      Nat.le_max_left _ _, fun _ => rfl, fun h => h⟩

/-! ## Notices -/

theorem setReports_sound (s : State) (r : Reports) : Sound s (s.setReports r) := Sound.ofReports s r

theorem modifyTracker_sound (s : State) (f : Tracker → Tracker)
    (h : (f s.tracker).entries.length = s.tracker.entries.length) : Sound s (s.modifyTracker f) :=
  Sound.ofTracker s _ (fun k => h.trans k)

theorem closeStructural_length (t : Tracker) (b : Option Nat) : (t.closeStructural b).entries.length = t.entries.length := by
  exact (Tracker.Keeps.closeAll b _ t).1

theorem restartTracker_sound (s : State) : Sound s s.restartTracker := by
  unfold State.restartTracker
  dsimp only
  exact (Sound.ofTrack (settleRequests_track s)).trans (modifyTracker_sound _ _ (closeStructural_length _ _))

theorem applyTracker_sound (s : State) (n : Notice) : Sound s (s.applyTracker n) := by
  unfold State.applyTracker
  dsimp only
  refine (Sound.ofTrack (settleRequests_track s)).trans (modifyTracker_sound _ _ ?_)
  dsimp only
  split
  · exact closeStructural_length _ _
  · rfl

theorem applyLink_sound (s : State) (n : Notice) : Sound s (s.applyLink n) := by
  unfold State.applyLink
  dsimp only
  refine Sound.trans ?_ (Sound.ofWriter (judgeExport_frame _))
  refine Sound.ofLink s _ ?_
  dsimp only
  split <;> exact Nat.le_max_left _ _

theorem applyNotice_sound (s : State) (dest : ApplyReceiver) (n : Notice) : Sound s (s.applyNotice dest n) := by
  cases dest with
  | measurement => exact Sound.ofMeas s _
  | tracker => exact applyTracker_sound s n
  | capture => exact Sound.ofCapture s _ (Nat.le_max_left _ _) (fun h => h)
  | aggregator => exact Sound.ofAgg s _ (Nat.le_max_left _ _)
  | link => exact applyLink_sound s n

theorem activateSettings_sound (s : State) (p : Settings) : Sound s (s.activateSettings p) := by
  unfold State.activateSettings
  dsimp only
  refine Sound.trans ?_ (setReports_sound _ _)
  refine Sound.trans ?_ (queueMarker_sound _ _)
  exact (Sound.ofSettings s _).trans (queueImage_sound _ _)

/-! ## Requests -/

/-- A change of the link that keeps the watch queue or empties it. -/
theorem link_sound (s : State) (l : Link) (h : l.fifo = s.link.fifo ∨ l.fifo = [] := by exact Or.inl rfl) :
    Sound s { s with link := l } := by
  refine Sound.ofLink s l ?_
  rcases h with h | h <;> rw [h]
  · exact Nat.le_max_left _ _
  · exact Nat.zero_le _

theorem setStaged_sound (s : State) (x : Settings) : Sound s (s.setStaged x) := Sound.ofSettings s _

theorem handOver_sound (s : State) (q : HostRequest) : Sound s (s.handOver q) := modifyStore_sound s _

theorem startWatch_fifo (l : Link) (n : Nat) : (l.startWatch n).fifo = l.fifo ∨ (l.startWatch n).fifo = [] := by
  unfold Link.startWatch
  split
  · exact Or.inl rfl
  · exact Or.inr rfl

theorem serveAbort_sound (s : State) (t : Byte) : Sound s (s.serveAbort t) := by
  unfold State.serveAbort
  dsimp only
  refine Sound.trans ?_ (reply_sound _ _ _)
  exact (dropHostRead_sound s).trans (link_sound _ _ (Or.inr rfl))

theorem serveSetTime_sound (s : State) (b : List Byte) : Sound s (s.serveSetTime b) := by
  unfold State.serveSetTime
  dsimp only
  split
  · exact reply_sound s _ _
  · rename_i h
    exact (setClock_sound s _ (by omega)).trans (reply_sound _ _ _)

theorem serveExportMark_sound (s : State) (b : List Byte) : Sound s (s.serveExportMark b) := by
  unfold State.serveExportMark
  dsimp only
  repeat' split
  all_goals first
    | exact reply_sound s _ _
    | exact (modifyStore_sound s _).trans (queueImage_sound _ _)

theorem openCase_sound (s : State) (i : Nat) (a : CaseAsk) : Sound s (s.openCase i a) := by
  unfold State.openCase
  dsimp only
  refine Sound.trans ?_ (runScans_sound _)
  refine Sound.trans ?_ (reply_sound _ _ _)
  refine Sound.trans ?_ (registerCase_sound _ _)
  refine Sound.trans ?_ (queueImage_sound _ _)
  refine Sound.trans ?_ (queueMarker_sound _ _)
  constructor <;> first | rfl | exact Nat.le_max_left _ _ | exact fun h => h

theorem abandonScan_sound (s : State) (i : Nat) : Sound s (s.abandonScan i) := by
  unfold State.abandonScan
  repeat' split
  all_goals first
    | exact Sound.refl s
    | exact (Sound.ofCases s _).trans (dropScanRead_sound _)

theorem releaseCase_sound (s : State) (i : Nat) (c : CaseSlot) : Sound s (s.releaseCase i c) := by
  unfold State.releaseCase
  dsimp only
  refine Sound.trans ?_ (queueImage_sound _ _)
  refine Sound.trans ?_ (queueMarker_sound _ _)
  refine Sound.trans ?_ (removeHolds_sound _ _)
  refine Sound.trans ?_ (runScans_sound _)
  refine Sound.trans ?_ (withdraw_sound _ _ _)
  exact (abandonScan_sound s i).trans (Sound.ofCases _ _)

/-- Whatever kind is served. -/
theorem serve_sound (s : State) (k : Nat) (t : Byte) (b : List Byte) : Sound s (s.serve k t b) := by
  unfold State.serve
  split
  all_goals first
    | exact serveSetTime_sound s _ | exact serveExportMark_sound s _ | exact serveAbort_sound s _
    | exact Sound.refl s | exact reply_sound s _ _
    | (simp only [State.serveAckCauses, State.serveWatchStop, State.serveDiscardStaged]
       refine Sound.trans ?_ (reply_sound _ _ _)
       first
         | exact link_sound s _
         | exact link_sound s _ (Or.inr rfl)
         | exact Sound.ofSettings s _)
    | skip
  · unfold State.serveSetAttention
    split
    · exact (link_sound s _).trans (reply_sound _ _ _)
    · exact reply_sound s _ _
  · unfold State.serveGetSettings
    dsimp only
    split <;> exact reply_sound s _ _
  · unfold State.serveSetSettings
    dsimp only
    split
    · exact reply_sound s _ _
    · exact (setStaged_sound s _).trans (reply_sound _ _ _)
  · unfold State.serveApplySettings
    split
    · exact reply_sound s _ _
    · exact (Sound.ofSettings s _).trans (reply_sound _ _ _)
  · unfold State.serveReadRecords
    dsimp only
    repeat' split
    all_goals first | exact reply_sound s _ _ | exact handOver_sound s _
  · unfold State.serveReadCapture
    dsimp only
    repeat' split
    all_goals first | exact reply_sound s _ _ | exact handOver_sound s _
  · unfold State.serveFormatStore
    repeat' split
    all_goals first | exact reply_sound s _ _ | exact (modifyStore_sound s _).trans (reply_sound _ _ _)
  · unfold State.serveOpenCase
    dsimp only
    repeat' split
    all_goals first | exact reply_sound s _ _ | exact openCase_sound s _ _
  · unfold State.serveCloseCase
    repeat' split
    all_goals first | exact reply_sound s _ _ | exact (setEnd_sound s _ _ _).trans (reply_sound _ _ _)
  · unfold State.serveReleaseCase
    repeat' split
    all_goals first | exact reply_sound s _ _ | exact (releaseCase_sound s _ _).trans (reply_sound _ _ _)
  · unfold State.serveCaseSummary
    repeat' split
    all_goals exact reply_sound s _ _
  · unfold State.serveCaseRecords
    dsimp only
    repeat' split
    all_goals exact reply_sound s _ _
  · unfold State.serveWatchStart
    dsimp only
    split
    · exact (link_sound s _ (startWatch_fifo _ _)).trans (reply_sound _ _ _)
    · exact reply_sound s _ _
  · unfold State.serveRestart
    split
    · exact reply_sound s _ _
    · exact (link_sound s _).trans (reply_sound _ _ _)

theorem dispatch_sound (s : State) (k t : Byte) (b : List Byte) : Sound s (s.dispatch k t b) := by
  unfold State.dispatch
  repeat' split
  all_goals first | exact reply_sound s _ _ | exact serve_sound s _ _ _

theorem countOverrun_sound (s : State) : Sound s s.countOverrun := (link_sound s _).trans (latch_sound _ _)

theorem abortInScan_sound (s : State) (t : Byte) : Sound s (s.abortInScan t) :=
  Sound.ofLink s _ (Nat.le_trans (choose_fifo _ _) (Nat.le_max_left _ _))

theorem countCheckFail_sound (s : State) : Sound s s.countCheckFail := (link_sound s _).trans (latch_sound _ _)

theorem completeFrame_sound (s : State) (k t : Byte) (b : List Byte) : Sound s (s.completeFrame k t b) := by
  unfold State.completeFrame
  repeat' split
  all_goals first
    | exact Sound.refl s | exact (link_sound s _).trans (dispatch_sound _ _ _ _) | exact serveAbort_sound s _
    | exact countOverrun_sound s | exact abortInScan_sound s _

theorem receive_sound (s : State) (c : RxChar) : Sound s (s.receive c) := by
  unfold State.receive
  split
  · exact Sound.refl s
  · dsimp only
    split
    · exact link_sound s _
    · exact (link_sound s _).trans (countCheckFail_sound _)
    · exact (link_sound s _).trans (completeFrame_sound _ _ _ _)

theorem receiveAll_sound (l : List RxChar) (s : State) : Sound s (s.receiveAll l) := by
  induction l generalizing s with
  | nil => exact Sound.refl s
  | cons c rest ih => exact (receive_sound s c).trans (ih _)

theorem rxGap_sound (s : State) : Sound s s.rxGap := by
  unfold State.rxGap
  repeat' split
  all_goals first | exact Sound.refl s | exact (link_sound s _).trans (latch_sound _ _)

theorem arrive_sound (s : State) (k t : Byte) (b : List Byte) : Sound s (s.arrive k t b) := by
  unfold State.arrive
  repeat' split
  all_goals first | exact Sound.refl s | exact completeFrame_sound s _ _ _ | exact receiveAll_sound _ s

theorem request_sound (s : State) (k t : Byte) (b : List Byte) : Sound s (s.request k t b) :=
  (arrive_sound s k t b).trans (pump_sound _)

end Sys2Proof.Machine
end

