-- ==== Sys2Proof/Tests/Slice0.lean ====
section
/-!
SUPPORT. Small tests: the ill-formed commands that `wellFormed` refuses, one step of the part here and there, and for every
statement of Certificates/ a concrete state and operands that meet its hypotheses, clause by clause at the edges of their
ranges.
-/

-- One proof after the other: proofs checked side by side hold more memory than the check allows.
set_option Elab.async false

namespace Sys2Proof.Tests

open Sys2Proof Sys2Proof.Machine

/-! ## Well-formedness: one ill-formed command for each check -/

theorem test_wf_bits_corrected : (Instr.correctionDone (.corrected 5) none).wellFormed = false := by decide +kernel
theorem test_wf_no_bit_corrected : (Instr.correctionDone (.corrected 0) none).wellFormed = false := by decide +kernel
theorem test_wf_body_read_back : (Instr.correctionDone .clean (some [0x00])).wellFormed = false := by decide +kernel
theorem test_wf_settings_block_judged : (Instr.holdJudgeBlock 0 1).wellFormed = false := by decide +kernel
theorem test_wf_block_past_array : (Instr.holdJudgeBlock 0 256).wellFormed = false := by decide +kernel
theorem test_wf_long_overrun : (Instr.overrun 0x01 0 (List.replicate 1025 0)).wellFormed = false := by decide +kernel
theorem test_wf_abort_overrun : (Instr.overrun 0x7E 0 []).wellFormed = false := by decide +kernel
theorem test_wf_long_unknown : (Instr.unknownKind 0x55 0 (List.replicate 1025 0)).wellFormed = false := by decide +kernel
theorem test_wf_assigned_unknown : (Instr.unknownKind 0x30 0 []).wellFormed = false := by decide +kernel
theorem test_wf_long_request : (Instr.getStatus 0 (List.replicate 1025 0)).wellFormed = false := by decide +kernel
theorem test_wf_longest_request : (Instr.setSettings 0 (List.replicate 1024 0)).wellFormed = true := by decide +kernel

/-! ## Small states -/

/-- In RUN after a start on a blank array: the scan is over, nothing is queued, and the line is listened to. -/
def running : State :=
  { State.reset with
    supply := { State.reset.supply with power := .run }
    store := { State.reset.store with op := none, scan := none, markerQueue := [], reviewed := some State.reset.store.reviewKey }
    cases := { CaseUnit.fresh with loaded := true }
    link := { Link.fresh with listening := true } }

/-- In HOLDUP. -/
def held : State := { running with supply := { running.supply with power := .holdup, supplyGood := false } }

/-- Supply and RESETN good, with the stability timer running, in a power state. -/
def waiting (p : Power) : State := { running with supply := { running.supply with power := p, timerRunning := true } }

def withOutbox (o : List Output) : State := { running with meas := { running.meas with outbox := o } }

def withReports (r : Reports) : State := { running with reports := r }

def withStore (f : Store → Store) : State := { running with store := f running.store }

def withLink (f : Link → Link) : State := { running with link := f running.link }

def at_ (sec : Nat) : TimeStamp := ⟨sec, 0, .settled 3⟩

def sample (code : SampleCode) : SampleSet := Quad.all code

/-- A half-cycle value set with these phase values. -/
def halfCycle (l1 l2 l3 : Nat) : HalfCycleSet where
  number := 9
  window := 1
  position := 9
  stamp := at_ 5
  values := ⟨l1, l2, l3, 0⟩
  clipped := Quad.all false
  fitted := fittedSet true
  freq := .hz50

def windowSet (stamp : TimeStamp) : WindowSet where
  window := 4
  halfCycles := 20
  stamp := stamp
  values := Quad.all 23000
  clipped := Quad.all false
  fitted := fittedSet true

def genValues : GenValues := ⟨23000, 9000, 11000, 500, 200, 500, .hz50, .polyphase, true⟩

/-- A dip entry in a state, linked to a slot or not. -/
def dipEntry (state : EntryState) (slot : Option SlotLink) : Entry where
  state := state
  kind := .dip
  phases := fittedSet false
  start := at_ 5
  finish := none
  halfCycles := 1
  duration := none
  extreme := some ⟨20470, 1, false⟩
  extremePhase := some .l1
  perPhase := ⟨some ⟨20470, 1, false⟩, none, none⟩
  steady := none
  steadyOf := Tri.all none
  enclosing := none
  slot := slot
  generation := 0
  values := genValues
  nested := []
  flags := {}

/-- The tracker with an entry at index 11, on the commit queue or not. -/
def withEntry (x : Entry) (queue : List Nat) (s : State) : State :=
  { s with tracker := { s.tracker with entries := putSlot (some x) 11 s.tracker.entries, commitQueue := queue } }

def block (n : Nat) : SampleBlock := ⟨n, at_ 5, .hz50, []⟩

/-- A slot whose capture runs from block 3 to block 34. -/
def slot (state : SlotState) (entry : Nat) : CaptureSlot := ⟨state, entry, 4, 12, 10, at_ 5, [], 0⟩

def withSlot (i : Nat) (c : CaptureSlot) (s : State) : State :=
  { s with capture := { s.capture with slots := putSlot (some c) i s.capture.slots } }

def disturbance (seq : Nat) : DisturbanceRecord := (dipEntry .commitWait none).record seq none

/-- A case from second 5 to second 9, on L1. -/
def case_ (state : CaseState) (finish : Option WTime) : CaseSlot where
  caseNo := 77
  start := ⟨5, 0⟩
  finish := finish
  phases := fittedSet false
  state := state
  opened := at_ 5
  openingMarker := none
  horizon := some 6
  headLost := false
  evidenceLost := false
  gap := false
  timeStepped := false
  unreadable := 0
  table := Settlement.zero
  list := []
  listFull := false

/-- The case in slot 7, with the clock at a second. -/
def withCase (c : CaseSlot) (sec : Nat) (s : State) : State :=
  { s with
    cases := { s.cases with slots := putSlot (some c) 7 s.cases.slots }
    time := { s.time with sec := sec, ms := 0 } }

/-- A log block that holds records of the seconds 9 to 12. -/
def fullBlock (state : BlockState) : BlockEntry :=
  { BlockEntry.plain state with
    blockSeq := some 1, firstRecord := some 1, lastRecord := some 6, earliest := some 9, latest := some 12 }

/-- The log with this block 2. -/
def withBlock (e : BlockEntry) (s : State) : State :=
  { s with store := { s.store with index := e :: s.store.index.drop 1 } }

def identity (l : List Nat) : List Byte := l.map byte

/-- READY to take a request, and serving it. -/
theorem test_serving : running.serving := ⟨⟨rfl, rfl, rfl, rfl⟩, rfl⟩

/-- READY while the start-up scan runs. -/
def starting : State := { State.reset with link := { State.reset.link with listening := true } }

theorem test_ready_in_scan : starting.ready ∧ starting.store.scan.isSome = true := ⟨⟨rfl, rfl, rfl, rfl⟩, rfl⟩

/-! ## Small steps -/

/-- The next state of an outcome. -/
def nextOf : Host.Outcome State Fault Refusal → Option State
  | .next t => some t
  | _ => none


theorem test_idle : step State.reset = .next State.reset := by rfl

theorem test_front_runs : step { State.reset with pending := [.attnPulseEnd, .clockTick] }
    = exec .attnPulseEnd { State.reset with pending := [.clockTick] } := by rfl

/-- A factory-blank part, never supplied: its first start is the reset state (log 1). -/
def factory : State :=
  { State.reset with
    supply := { State.reset.supply with power := .retain, markAbsent := true, timerRunning := true, startStamp := at_ 0 }
    meas := Measurement.fresh .hz60 1 false
    cases := { CaseUnit.fresh with highWater := some 3 }
    link := Link.fresh
    store := { State.reset.store with markerQueue := [], op := none, scan := none } }

theorem test_first_start_is_reset : nextOf (exec (.stabilityTimerExpiry false) factory) = some State.reset := by decide +kernel

theorem test_tick_carries :
    nextOf (exec .clockTick { running with time := { running.time with sec := 7, ms := 999 } })
      = some { running with time := { running.time with sec := 8, ms := 0 } } := by decide +kernel

theorem test_blank_page_starts_scan :
    nextOf (exec .pageReadDone State.reset)
      = some { State.reset with
          store := { State.reset.store with op := none, correcting := some ⟨0, 0, none, .startUp⟩ } } := by decide +kernel

/-- The sample scale: code 32767 on a whole block is 600 V. -/
theorem test_rms_full_scale : rmsOf (128 * (32767 * 32767)) 128 = 60000 := by decide +kernel

theorem test_watch_start : nextOf (exec (.watchStart 9 [3]) running)
    = some { running with
        link := { running.link with watch := some 3, tx := some ⟨0xC0, 9, [0x00], false⟩ } } := by decide +kernel

/-- The frame of IDENTIFY with tag 5, as chapter 9 lays it out: sync byte, length, kind, tag, check. -/
theorem test_frame_begins : (frameBytes 0x01 0x05 []).take 5 = identity [0xA5, 0x00, 0x00, 0x01, 0x05] := by decide +kernel

/-! ## Hypotheses met: the machine as a whole -/

theorem test_meets_StepKeeps : State.reset.ok ∧ running.ok ∧ ∃ t, step running = .next t := by
  refine ⟨?_, ?_, _, rfl⟩ <;> (unfold State.ok State.clockOk State.arrayOk State.queuesOk State.tablesOk; decide)

theorem test_meets_CharactersMakeTheFrame : running.listens = true ∧ running.link.rx = Receiver.hunting
    ∧ (List.replicate 1024 (0 : Byte)).length ≤ 1024 ∧ ([] : List Byte).length ≤ 1024 := by decide +kernel

/-! ## Hypotheses met: measured quantities -/

/-- This many sample sets since the last block and in the open window, and windows completed in the period. -/
def sampled (sinceBlock inWindow inPeriod : Nat) (previous : Option (List SampleSet)) : State :=
  { running with meas := { running.meas with
      current := List.replicate sinceBlock (sample 1), previous := previous, windowSamples := inWindow, periodWindows := inPeriod } }

/-- L1 armed, at zero before the sample. -/
def armedAtZero : State :=
  { running with meas := { running.meas with armed := ⟨true, false, false⟩, lastSample := some (sample 0), windowSamples := 1278 } }

theorem test_meets_SampleSet : running.coreRunning = true ∧ (waiting .retain).coreRunning = false
    ∧ armedAtZero.meas.lastSample = some (sample 0) ∧ armedAtZero.meas.armed.get .l1 = true ∧ ((sample 0).phase .l1).toInt ≤ 0
    ∧ 0 < ((sample 1).phase .l1).toInt ∧ ¬ 0 < ((sample 0).phase .l1).toInt
    ∧ armedAtZero.meas.windowSamples + 1 < armedAtZero.meas.freq.samplesPerWindow
    ∧ ¬ (sampled 0 1279 48 none).meas.windowSamples + 1 < (sampled 0 1279 48 none).meas.freq.samplesPerWindow
    ∧ (sampled 0 1279 48 none).meas.periodWindows + 1 < 50 := by decide +kernel

/-- The crossing on L1 lies half way between samples 1278 and 1279, on L2, which is not armed, there is none. -/
theorem test_crossing :
    (nextOf (exec (.sampleSet 0x0002 0x0002 0 0)
        { armedAtZero with meas := { armedAtZero.meas with lastSample := some (sample 0xFFFE) } })).map
      (fun t => (t.meas.tallies.get .l1, t.meas.tallies.get .l2, t.meas.armed))
      = some (⟨1, some ⟨1278 * 4 + 2, 4⟩, some ⟨1278 * 4 + 2, 4⟩⟩, Tally.empty, Tri.all false) := by decide +kernel

theorem test_meets_SixtyFourthSample :
    (sampled 63 0 0 none).coreRunning = true ∧ (sampled 63 0 0 none).meas.current.length = 63
    ∧ (sampled 63 0 0 none).meas.previous = none ∧ (sampled 63 0 0 (some [sample 1])).meas.previous = some [sample 1] := by decide +kernel

theorem test_meets_WindowEnd : (sampled 63 1279 48 none).coreRunning = true
    ∧ (sampled 63 1279 48 none).meas.windowSamples + 1 = (sampled 63 1279 48 none).meas.freq.samplesPerWindow
    ∧ (sampled 63 1279 48 none).meas.periodWindows + 1 < 50 ∧ 49 ≤ (sampled 63 1279 49 none).meas.periodWindows
    ∧ 63 ≤ (sampled 63 1279 48 none).meas.current.length ∧ ¬ 63 ≤ (sampled 62 1279 48 none).meas.current.length := by decide +kernel

/-- A window of 230.00 V, a tally that spans just 5 s, and one that misses it by a sample interval. -/
theorem test_meets_FrequencyByRule :
    let w := { windowSet (at_ 10) with values := ⟨11499, 11500, 23000, 0⟩ }
    let fit (p : Phase) : Prop := w.fitted.has p = true ∧ 23000 ≤ 2 * w.values.phase p
    fit .l2 ∧ ¬ fit .l1 ∧ (∀ q : Phase, q.code < Phase.l2.code → ¬ fit q) ∧ 5 * 6400 * 1 ≤ 32000 * 1 - 0 * 1
    ∧ 31999 * 1 - 0 * 1 < 5 * 6400 * 1 ∧ frequencyOf 6400 ⟨251, some ⟨0, 1⟩, some ⟨32000, 1⟩⟩ = .inr 50000
    ∧ frequencyOf 6400 ⟨251, some ⟨0, 1⟩, some ⟨31999, 1⟩⟩ = .inl .shortSpan
    ∧ frequencyOf 6400 ⟨352, some ⟨0, 1⟩, some ⟨32000, 1⟩⟩ = .inl .outOfRange := by
  refine ⟨by decide, by decide, ?_, by decide, by decide, by decide +kernel, by decide +kernel, by decide +kernel⟩
  intro q h; cases q
  · decide
  · exact absurd h (by decide)
  · exact absurd h (by decide)

theorem test_meets_RmsIsNearest : 0 < 128 ∧ 128 * (32768 * 32768) ≤ 128 * (32768 * 32768) := by decide +kernel

/-! ## Hypotheses met: disturbance tracking -/

theorem test_meets_HalfCycleReaches :
    (withOutbox [.halfCycle (halfCycle 1 2 3)]).coreRunning = true
    ∧ dueHalfCycle (withOutbox [.halfCycle (halfCycle 1 2 3)]).meas.outbox = some (halfCycle 1 2 3, [])
    ∧ dueHalfCycle [.block (block 1), .halfCycle (halfCycle 1 2 3)] = some (halfCycle 1 2 3, [.block (block 1)]) := by decide +kernel

/-- L1 just below 90 % of 230 V, L2 exactly at 110 %, L3 exactly at 5 %. -/
theorem test_meets_DipOpens :
    let v := halfCycle 20699 25300 1150
    let set := running.tracker.inForce.set
    running.tracker.entries = List.replicate 12 none ∧ running.tracker.marks = [] ∧ set.mode = .polyphase
    ∧ (v.fitted.has .l1 = true ∧ v.values.phase .l1 * 10000 < set.dip * set.udecl)
    ∧ (∀ p, v.fitted.has p = true → ¬ set.swell * set.udecl < v.values.phase p * 10000)
    ∧ (v.fitted.has .l3 = true ∧ ¬ v.values.phase .l3 * 10000 < set.interruption * set.udecl) := by
  refine ⟨rfl, rfl, rfl, by decide, ?_, by decide⟩
  intro p; cases p <;> decide

/-- One phase just above 110 %; all phases just below 5 %; the same under a missed DIP mark, in PER_PHASE mode, and with a full table. -/
theorem test_meets_OpeningsByMode :
    let swell := halfCycle 25301 23000 23000
    let down := halfCycle 1149 800 700
    let perPhase := { running with tracker := { running.tracker with
      inForce := { running.tracker.inForce with set := { Settings.default with mode := .perPhase } } } }
    running.tracker.inForce.set.mode = .polyphase ∧ running.tracker.entries = List.replicate 12 none ∧ running.tracker.marks = []
    ∧ (crossed swell running .swell .l1 ∧ ∀ p, ¬ crossed swell running .dip p) ∧ ¬ crossed (halfCycle 25300 0 0) running .swell .l1
    ∧ (swell.fitted.has .l1 = true ∧ ¬ crossed swell running .interruption .l1)
    ∧ (∀ p, down.fitted.has p = true → crossed down running .interruption p ∧ crossed down running .dip p)
    ∧ (∀ p, ¬ crossed down running .swell p) ∧ ¬ crossed (halfCycle 1150 0 0) running .interruption .l1
    ∧ { running.tracker with marks := [⟨.dip, none, fittedSet true⟩] }.marks = [⟨.dip, none, fittedSet true⟩]
    ∧ perPhase.tracker.inForce.set.mode = .perPhase ∧ crossed down perPhase .interruption .l3 := by
  unfold crossed
  refine ⟨rfl, rfl, rfl, ⟨by decide, ?_⟩, by decide, by decide, ?_, ?_, by decide, rfl, rfl, by decide⟩ <;> (intro p; cases p <;> decide)

/-- No entry is FREE and none OPEN. -/
def fullTable : State :=
  { running with tracker := { running.tracker with entries := List.replicate 12 (some (dipEntry .commitWait none)) } }

theorem test_meets_Missed : fullTable.tracker.inForce.set.mode = .polyphase ∧ fullTable.tracker.marks = []
    ∧ fullTable.tracker.entries.length = 12 ∧ ∀ i, i < 12 → ∃ x, fullTable.tracker.entry i = some x ∧ x.state ≠ .opened := by
  refine ⟨rfl, rfl, rfl, fun i h => ⟨dipEntry .commitWait none, ?_, by decide⟩⟩
  revert i; decide

/-- What such value sets open, and what they miss. -/
theorem test_openings :
    let down := halfCycle 1149 800 700
    let kinds (s : State) := (filled (s.track down).tracker.entries).map fun e => (e.1, e.2.kind, e.2.phases.lowest, e.2.enclosing.map (·.1))
    kinds running = [(0, .dip, 0, none), (1, .interruption, 0, some 0)]
    ∧ kinds { running with tracker := { running.tracker with marks := [⟨.dip, none, fittedSet false⟩] } } = [(0, .interruption, 0, none)]
    ∧ kinds { running with tracker := { running.tracker with
        inForce := { running.tracker.inForce with set := { Settings.default with mode := .perPhase } } } }
        = [(0, .dip, 0, none), (1, .dip, 1, none), (2, .dip, 2, none), (3, .interruption, 0, some 0), (4, .interruption, 1, some 1),
          (5, .interruption, 2, some 2)]
    ∧ ((fullTable.track down).tracker.marks.map fun m => (m.kind, m.covers)) = [(.dip, fittedSet true), (.interruption, fittedSet true)]
    ∧ (fullTable.track down).reports.missedToAggregator = [.dip, .interruption] := by decide +kernel

/-- A detector of a part at 230 V whose buffer holds one value, in a state. -/
def detector (state : DetectorState) (value : Nat) : Detector := ⟨state, [⟨value, at_ 4⟩], 22000, 1⟩

/-- Every detector is STEADY at 230.00 V. -/
def steadyAt230 : State := { running with tracker := { running.tracker with detectors := Tri.all (detector .steady 23000) } }

/-- L1 departs by 11.51 V, L2 by 11.50 V, the step limit, does not; L3 rises by 15 V and departs. -/
theorem test_meets_RvcOpens :
    let v := halfCycle 21849 21850 24500
    let set := steadyAt230.tracker.inForce.set
    steadyAt230.tracker.entries = List.replicate 12 none ∧ steadyAt230.tracker.marks = [] ∧ set.mode = .polyphase
    ∧ (∀ p, v.fitted.has p = true → ¬ v.values.phase p * 10000 < set.dip * set.udecl
      ∧ ¬ set.swell * set.udecl < v.values.phase p * 10000 ∧ ¬ v.values.phase p * 10000 < set.interruption * set.udecl)
    ∧ (v.fitted.has .l1 = true ∧ (steadyAt230.tracker.detectors.get .l1).state = .steady
      ∧ set.rvc * set.udecl * 1 < apart (1 * 21849) 23000 * 10000)
    ∧ ¬ set.rvc * set.udecl * 1 < apart (1 * 21850) 23000 * 10000 ∧ set.rvcCapture = false := by
  refine ⟨by decide, by decide, by decide, ?_, by decide, by decide, by decide⟩
  intro p; cases p <;> decide

theorem test_rvc_opens :
    let t := steadyAt230.track (halfCycle 21849 21850 24500)
    (t.tracker.entry 0).map (fun x => (x.kind, x.phases, x.halfCycles)) = some (.rvc, ⟨true, false, true⟩, 1)
    ∧ (t.tracker.entry 0).map (·.perPhase) = some ⟨some ⟨1151, 1, false⟩, none, some ⟨1500, 1, true⟩⟩
    ∧ (t.tracker.entry 0).map (·.extremePhase) = some (some .l3)
    ∧ (t.tracker.detectors.get .l1) = ⟨.excursion, [⟨21849, at_ 5⟩], 23000, 1⟩ ∧ t.reports.claims = [] := by decide +kernel

/-- An OPEN RVC entry on L1 and L2, linked to slot 3. -/
def rvcEntry : Entry := { dipEntry .opened (some ⟨3, false⟩) with kind := .rvc, phases := ⟨true, true, false⟩ }

/-- A state in PER_PHASE mode. -/
def byPhase (s : State) : State :=
  { s with tracker := { s.tracker with inForce := { s.tracker.inForce with set := { s.tracker.inForce.set with mode := .perPhase } } } }

/-- No crossing in PER_PHASE mode, a departure just past the step limit of 11.50 V and one just on it; a full table with no mark, where L1
crosses the dip and the interruption threshold. -/
theorem test_meets_OpeningsPerPhase :
    let v := halfCycle 21849 21850 23000
    (byPhase steadyAt230).tracker.inForce.set.mode = .perPhase ∧ (byPhase steadyAt230).tracker.entries = List.replicate 12 none
    ∧ (byPhase steadyAt230).tracker.marks = [] ∧ (∀ k p, k ≠ .rvc → ¬ crossed v (byPhase steadyAt230) k p)
    ∧ (byPhase steadyAt230).tracker.departsAt v .l1 ∧ ¬ (byPhase steadyAt230).tracker.departsAt v .l2
    ∧ ¬ (byPhase running).tracker.departsAt v .l1
    ∧ ((filled ((byPhase steadyAt230).track v).tracker.entries).map fun e => (e.1, e.2.kind, e.2.phases)) = [(0, .rvc, fittedSet false)]
    ∧ (byPhase fullTable).tracker.marks = [] ∧ (byPhase fullTable).tracker.entries = fullTable.tracker.entries
    ∧ (((byPhase fullTable).track (halfCycle 1149 20699 23000)).tracker.marks.map fun m => (m.kind, m.phase))
        = [(.dip, some .l1), (.dip, some .l2), (.interruption, some .l1)] := by
  unfold crossed Tracker.departsAt
  refine ⟨rfl, rfl, rfl, ?_, by decide, by decide, by decide, by decide +kernel, rfl, rfl, by decide +kernel⟩
  intro k p; cases k <;> cases p <;> decide

/-- A departing phase beside an OPEN RVC entry, alone, under a mark of RVC, and with no entry FREE and no mark. -/
theorem test_meets_PhaseDeparts :
    let v := halfCycle 21849 23000 23000
    let beside := withEntry { rvcEntry with phases := ⟨false, true, false⟩ } [] steadyAt230
    let fullSteady := { steadyAt230 with tracker := { steadyAt230.tracker with entries := fullTable.tracker.entries } }
    let marked := { steadyAt230 with tracker := { steadyAt230.tracker with marks := [⟨.rvc, none, ⟨false, true, false⟩⟩] } }
    let after (s : State) := (State.stepDetector v .l1 (s, [])).1.tracker
    (beside.tracker.departsAt v .l1 ∧ steadyAt230.tracker.departsAt v .l1 ∧ marked.tracker.departsAt v .l1
      ∧ fullSteady.tracker.departsAt v .l1)
    ∧ beside.tracker.entry 11 = some { rvcEntry with phases := ⟨false, true, false⟩ } ∧ beside.tracker.inForce.set.mode = .polyphase
    ∧ filled steadyAt230.tracker.entries = [] ∧ freeSlot steadyAt230.tracker.entries = some 0
    ∧ freeSlot fullSteady.tracker.entries = none ∧ (fullSteady.tracker.openedOf .rvc).isEmpty = true
    ∧ (after beside).entry 11 = some { rvcEntry with phases := ⟨true, true, false⟩ }
    ∧ (after marked).marks = [⟨.rvc, none, ⟨true, true, false⟩⟩] ∧ (after fullSteady).marks = [⟨.rvc, none, fittedSet false⟩]
    ∧ (after (byPhase fullSteady)).marks = [⟨.rvc, some .l1, fittedSet false⟩] := by
  unfold Tracker.departsAt
  decide +kernel

/-- The OPEN RVC entry in entry 11, and every detector in EXCURSION. -/
def inExcursion (x : Entry) : State :=
  withEntry x [] { running with tracker := { running.tracker with detectors := Tri.all (detector .excursion 21000) } }

/-- L1 just below the dip threshold supersedes it; L2 goes to WARMUP, and a dip takes slot 3 by a relink. -/
theorem test_meets_Supersession :
    (inExcursion rvcEntry).tracker.brings (halfCycle 20699 20700 23000) .l1
    ∧ ¬ (inExcursion rvcEntry).tracker.brings (halfCycle 20699 20700 23000) .l2
    ∧ (inExcursion rvcEntry).tracker.entry 11 = some rvcEntry ∧ rvcEntry.state = .opened ∧ rvcEntry.slot = some ⟨3, false⟩
    ∧ ((inExcursion rvcEntry).tracker.detectors.get .l1).state = .excursion := by
  refine ⟨⟨by decide, .inl (by decide)⟩, ?_, by decide, by decide, by decide, by decide⟩
  rintro ⟨_, h | h | ⟨i, x, h, _, k, _⟩⟩
  · exact absurd h (by decide)
  · exact absurd h (by decide)
  · have m : (i, x) ∈ filled (inExcursion rvcEntry).tracker.entries := mem_filled.2 h
    have : filled (inExcursion rvcEntry).tracker.entries = [(11, rvcEntry)] := by decide +kernel
    rw [this, List.mem_singleton] at m
    cases m
    exact absurd k (by decide)

theorem test_supersession :
    let t := (inExcursion rvcEntry).track (halfCycle 20699 20700 23000)
    t.tracker.entry 11 = none ∧ (t.tracker.entry 0).map (fun x => (x.kind, x.flags.precededByRvc)) = some (.dip, true)
    ∧ t.reports.relinks = [(3, 0)] ∧ t.reports.claims = [] ∧ (t.tracker.detectors.get .l1).state = .suppressed
    ∧ (t.tracker.detectors.get .l2).state = .warmup ∧ (t.tracker.detectors.get .l3).state = .excursion := by decide +kernel

theorem test_meets_OpenDisturbance :
    running.tracker.marked .dip none = false ∧ freeSlot running.tracker.entries = some 0
    ∧ [(fittedSet false, 3)] = [] ++ (fittedSet false, 3) :: [] ∧ (fittedSet false).meets (fittedSet true) = true
    ∧ (fittedSet false).meets ⟨false, true, false⟩ = false := by decide +kernel

/-- A full buffer at its mean is steady: the excursion ends with its first value; one value short it is not. -/
theorem test_meets_Detector :
    let x : Sampled := ⟨21000, at_ 6⟩
    let d : Detector := ⟨.excursion, List.replicate 99 ⟨21000, at_ 4⟩, 23000, 1⟩
    let slid := (d.buffer ++ [x]).drop (d.buffer.length + 1 - 100)
    slid.length = Freq.hz50.halfCyclesPerSecond ∧ (slid.all fun y => y.value == 21000) = true
    ∧ (({ d with buffer := List.replicate 98 x }.buffer ++ [x]).drop (98 + 1 - 100)).length ≠ 100
    ∧ d.state = .excursion ∧ (detector .warmup 1).state = .warmup ∧ (detector .suppressed 1).state = .suppressed
    ∧ (detector .steady 1).state = .steady := by decide +kernel

/-- L1 at 92 % has recovered; at a hundredth of a volt less it has not, and L2 just below 90 % joins. -/
theorem test_meets_EntryThrough :
    (withEntry (dipEntry .opened none) [] running).tracker.entry 11 = some (dipEntry .opened none)
    ∧ (dipEntry .opened none).endsAt (halfCycle 21160 21160 21160) ∧ ¬ (dipEntry .opened none).endsAt (halfCycle 21159 20699 23000)
    ∧ crosses genValues .dip 20699 = true ∧ crosses genValues .dip 20700 = false
    ∧ { dipEntry .opened none with kind := .interruption }.endsAt (halfCycle 0 0 1610)
    ∧ { dipEntry .opened none with values := { genValues with mode := .perPhase } }.endsAt (halfCycle 21160 0 0) := by
  refine ⟨by decide, .inr (.inr ⟨rfl, by decide, ?_⟩), ?_, by decide, by decide,
    .inr (.inl ⟨rfl, rfl, .l3, by decide, by decide⟩), .inl ⟨rfl, ?_⟩⟩
  · intro p _; cases p <;> decide
  · rintro (h | h | h)
    · exact absurd h.1 (by decide)
    · exact absurd h.2.1 (by decide)
    · exact absurd (h.2.2 .l1 (by decide)) (by decide)
  · intro p h; cases p
    · decide
    · exact absurd h (by decide)
    · exact absurd h (by decide)

/-- A value of L1 below the extreme of a dip, the extreme again, and one above it; a phase that joins, and one marked CLIPPED. -/
theorem test_meets_TookIn :
    let taken (l1 : Nat) := (dipEntry .opened none).takeIn none (halfCycle l1 23000 23000)
    Kind.passes .dip 20469 20470 ∧ ¬ Kind.passes .dip 20470 20470 ∧ Kind.passes .swell 20471 20470 ∧ ¬ Kind.passes .swell 20470 20470
    ∧ (dipEntry .opened none).perPhase.get .l1 = some ⟨20470, 1, false⟩ ∧ (dipEntry .opened none).phases.has .l1 = true
    ∧ (dipEntry .opened none).perPhase.get .l2 = none ∧ (dipEntry .opened none).phases.has .l2 = false
    ∧ [20469, 20470, 20471].map (fun n => (taken n).extreme.map (·.num)) = [some 20469, some 20470, some 20470]
    ∧ ({ halfCycle 0 0 0 with clipped := ⟨true, false, false, false⟩ }).clipped.phase .l1 = true
    ∧ resolveEpoch none (halfCycle 0 0 0).stamp.epoch = resolveEpoch none (dipEntry .opened none).start.epoch
    ∧ resolveEpoch none (.settled 4) ≠ resolveEpoch none (dipEntry .opened none).start.epoch := by
  unfold Kind.passes; decide +kernel

/-- One half-cycle at 50 Hz and at 60 Hz; ACROSS_SUPPLY_LOSS with its end a millisecond before the count's and on it. -/
theorem test_meets_DurationByRule :
    let x := dipEntry .opened none
    let at60 := { x with values := { x.values with freq := .hz60 } }
    let across := { x with flags := { x.flags with acrossSupplyLoss := true } }
    x.values.freq = .hz50 ∧ (x.flags.acrossSupplyLoss, x.flags.measurementGap) = (false, false)
    ∧ (x.durationTo (at_ 9), at60.durationTo (at_ 9), across.durationTo (at_ 9)) = (10, 8, 4000)
    ∧ (⟨5, 9, .settled 3⟩ : TimeStamp).toMs < across.start.toMs + 10
    ∧ across.start.toMs + 10 ≤ (⟨5, 10, .settled 3⟩ : TimeStamp).toMs ∧ across.durationTo ⟨5, 9, .settled 3⟩ = 10 := by decide +kernel

/-- A dip of a generation with one phase fitted, kept across a start that fits three: L2 does not join it, and L1 alone ends it. -/
theorem test_one_phase_entry :
    let x := { dipEntry .opened none with values := { genValues with threePhases := false } }
    let v := halfCycle 23000 20699 23000
    v.fitted.has .l2 = true ∧ (fittedSet x.values.threePhases).has .l2 = false ∧ crosses x.values .dip (v.values.phase .l2) = true
    ∧ (x.joining v).isEmpty = true ∧ ((dipEntry .opened none).joining v).has .l2 = true
    ∧ x.hasEnded v = true ∧ (dipEntry .opened none).hasEnded v = false := by decide +kernel

/-- Marks of a kind, and of a kind and phase, on values that have recovered and one that has not. -/
theorem test_meets_Marks :
    recovers running.tracker.inForce.set.genValues .dip 21160 = true ∧ recovers running.tracker.inForce.set.genValues .dip 21159 = false
    ∧ recovers running.tracker.inForce.set.genValues .interruption 1610 = true
    ∧ (running.tracker.stage1 none (halfCycle 21160 21160 21160)).marks = []
    ∧ ({ running.tracker with marks := [⟨.dip, none, fittedSet true⟩, ⟨.dip, some .l1, fittedSet false⟩, ⟨.rvc, none, fittedSet false⟩] }.stage1
        none (halfCycle 21160 21159 23000)).marks = [⟨.dip, none, fittedSet true⟩] := by decide +kernel

/-- An RVC entry on L1 whose excursion has ended, its detector being STEADY, and one that goes on. -/
theorem test_meets_RvcEnds :
    let x := { rvcEntry with phases := fittedSet false, halfCycles := 100 }
    let t := (withEntry x [] steadyAt230).tracker
    t.entry 11 = some x ∧ x.state = .opened ∧ x.kind = .rvc
    ∧ (∃ e ∈ [(Phase.l1, at_ 7)], x.phases.has e.1 = true) ∧ (∀ e ∈ [(Phase.l1, at_ 7)], x.phases.has e.1 = true → e.2 = at_ 7)
    ∧ (t.detectors.get .l1).state ≠ .excursion ∧ ((inExcursion x).tracker.detectors.get .l1).state = .excursion
    ∧ (∀ e ∈ [(Phase.l2, at_ 7)], x.phases.has e.1 = false)
    ∧ ((t.endRvc none .hz50 [(.l1, at_ 7)] (t.openedOf .rvc)).entry 11).map (fun y => (y.state, y.finish, y.halfCycles, y.duration))
        = some (.tail, some (at_ 7), 0, some 0) := by decide +kernel

theorem test_meets_EndedEntryWaits :
    (withEntry (dipEntry .opened (some ⟨3, false⟩)) [] running).tracker.entry 11 = some (dipEntry .opened (some ⟨3, false⟩))
    ∧ (dipEntry .opened (some ⟨3, false⟩)).slot.map (·.full) = some false
    ∧ (dipEntry .opened (some ⟨3, true⟩)).slot.map (·.full) ≠ some false
    ∧ (dipEntry .opened none).slot.map (·.full) ≠ some false := by decide +kernel

def slotReport (x : Entry) (full dropped : List (Nat × Nat)) : State :=
  withEntry x [] (withReports { Reports.none with full := full, dropped := dropped })

theorem test_meets_SlotReports :
    (slotReport (dipEntry .tail (some ⟨3, false⟩)) [(11, 3)] [(11, 3)]).coreRunning = true
    ∧ (slotReport (dipEntry .tail (some ⟨3, false⟩)) [(11, 3)] [(11, 3)]).tracker.entry 11
        = some (dipEntry .tail (some ⟨3, false⟩))
    ∧ (slotReport (dipEntry .tail (some ⟨3, false⟩)) [(11, 3)] []).reports.full = [(11, 3)]
    ∧ (slotReport (dipEntry .tail (some ⟨3, false⟩)) [] [(11, 3)]).reports.dropped = [(11, 3)]
    ∧ (dipEntry .tail (some ⟨3, false⟩)).slot.map (·.slot) = some 3
    ∧ (dipEntry .opened none).slot.map (·.slot) ≠ some 3 := by decide +kernel

/-! ## Hypotheses met: waveform capture -/

theorem test_meets_SampleBlock :
    (withOutbox [.block (block 34)]).coreRunning = true
    ∧ dueBlock (withOutbox [.block (block 34)]).meas.outbox = some (block 34, [])
    ∧ slotAt (withSlot 3 (slot .filling 11) (withOutbox [.block (block 34)])).capture.slots 3 = some (slot .filling 11)
    ∧ (slot .filling 11).includes 34 = true ∧ (slot .filling 11).includes 3 = true
    ∧ (slot .filling 11).includes 35 = false ∧ (slot .filling 11).includes 2 = false
    ∧ (block 34).number = (slot .filling 11).triggerBlock + 2 * (slot .filling 11).postCycles
    ∧ (slot .full 11).state ≠ .filling := by decide +kernel

def claiming (s : State) : State :=
  withEntry (dipEntry .opened none) [] { s with reports := { Reports.none with claims := [⟨11, 9, at_ 5⟩] } }

theorem test_meets_Claim :
    (claiming running).coreRunning = true ∧ (claiming running).reports.claims = [⟨11, 9, at_ 5⟩]
    ∧ (claiming running).tracker.entry 11 = some (dipEntry .opened none)
    ∧ (dipEntry .opened none).start = at_ 5 ∧ (dipEntry .opened none).slot = none
    ∧ (dipEntry .opened none).flags.noCapture = none
    ∧ (claiming held).inHoldup = true ∧ (claiming held).coreRunning = true
    ∧ (claiming running).inHoldup = false ∧ freeSlot (claiming running).capture.slots = some 0
    ∧ freeSlot (List.replicate 4 (some (slot .filling 11))) = none := by decide +kernel

/-- Slot 3, which entry 2 has given up, and entry 11 to take it; a COMMIT_WAIT entry 4 still names the slot. -/
def relinking : State :=
  let s := withSlot 3 (slot .filling 2) (slotReport (dipEntry .opened none) [] [])
  { s with tracker := { s.tracker with entries := putSlot (some (dipEntry .commitWait (some ⟨3, true⟩))) 4 s.tracker.entries } }

theorem test_meets_Relink :
    relinking.coreRunning = true ∧ { relinking with reports := { Reports.none with relinks := [(3, 11)] } }.reports.relinks = [(3, 11)]
    ∧ { relinking with reports := { Reports.none with handBacks := [3] } }.reports.handBacks = [3]
    ∧ slotAt relinking.capture.slots 3 = some (slot .filling 2) ∧ relinking.tracker.entry 2 = none
    ∧ relinking.tracker.entry 11 = some (dipEntry .opened none) ∧ (slot .full 2).state ≠ .writing
    ∧ (relinking.serveRelink 3 11).tracker.entry 11 = some (dipEntry .opened (some ⟨3, false⟩)) := by decide +kernel

theorem test_meets_SeriesRestart :
    let o := [Output.restart .tracker, .restart .capture, .restart .aggregator]
    (withOutbox o).coreRunning = true
    ∧ dueRestart .tracker (withOutbox o).meas.outbox = some [.restart .capture, .restart .aggregator]
    ∧ dueRestart .capture (withOutbox o).meas.outbox = some [.restart .tracker, .restart .aggregator]
    ∧ dueRestart .aggregator (withOutbox o).meas.outbox = some [.restart .tracker, .restart .capture] := by decide +kernel

/-- Slot 0 FILLING and slot 3 WRITING, an entry OPEN that is linked to slot 0, and the three notices due. -/
def restarting : State :=
  withSlot 0 (slot .filling 11) (withSlot 3 (slot .writing 2) (withEntry (dipEntry .opened (some ⟨0, false⟩)) [5]
    (withOutbox [.restart .tracker, .restart .capture, .restart .aggregator])))

theorem test_series_restart :
    let u := nextOf (exec (.seriesRestart .tracker) restarting)
    let w := nextOf (exec (.seriesRestart .capture) restarting)
    (u.bind fun t => (t.tracker.entry 11).map fun x => (x.state, x.flags.closedBySettings, x.finish, x.duration))
      = some (.tail, true, some (at_ 5), some 10)
    ∧ w.map (fun t => (t.capture.slots, t.reports.full)) = some ([some (slot .full 11), none, none, some (slot .writing 2)], [(11, 0)]) := by
  decide +kernel

/-! ## Hypotheses met: interval statistics -/

def fixedAt (boundary : Nat) : IntervalFixed := ⟨at_ 1, at_ 1, boundary, 0, fittedSet true, 600, 1000, 23000⟩

/-- An interval with a fixed boundary, and this many records in the output queue. -/
def inInterval (boundary : Nat) (queue : List IntervalRecord) (s : State) : State :=
  { s with agg := { s.agg with acc := { s.agg.acc with fixed := some (fixedAt boundary) }, queue := queue } }

def record : IntervalRecord :=
  ⟨0, at_ 1, at_ 1, none, 0, 600, 1000, 23000, fittedSet true, 1, 0, Tri.all ⟨none, 0, 0, 0⟩, none, 0, Quad.all false,
    none, 0, 0, PerKind.zero, {}⟩

/-- The last window before the boundary of an open interval, and one of an empty interval. -/
theorem test_meets_WindowJoins :
    let w := windowSet ⟨599, 999, .settled 3⟩
    (withOutbox [.window w]).coreRunning = true ∧ dueWindow (withOutbox [.window w]).meas.outbox = some (w, [])
    ∧ 0 < running.agg.inForce.set.intervalLength ∧ (inInterval 600 [] running).agg.acc.fixed = some (fixedAt 600)
    ∧ w.stamp.toMs < (fixedAt 600).boundary * 1000
    ∧ running.agg.acc.fixed = none ∧ w.stamp.toMs < boundaryAfter 600 w.stamp * 1000
    ∧ { running.agg with previousLength := some 60 }.previousLength = some 60 ∧ 60 ≠ running.agg.inForce.set.intervalLength
    ∧ running.agg.previousLength = none
    ∧ { running.agg with previousLength := some 600 }.previousLength = some running.agg.inForce.set.intervalLength := by decide +kernel

theorem test_meets_WindowAtBoundary :
    let w := windowSet (at_ 600)
    dueWindow (withOutbox [.window w]).meas.outbox = some (w, [])
    ∧ (inInterval 600 [] running).agg.acc.fixed = some (fixedAt 600) ∧ (fixedAt 600).boundary * 1000 ≤ w.stamp.toMs
    ∧ (inInterval 600 [record, record, record] running).agg.queue.length < 4
    ∧ 4 ≤ (inInterval 600 [record, record, record, record] running).agg.queue.length
    ∧ running.agg.acc.fixed = none ∧ boundaryAfter running.agg.inForce.set.intervalLength w.stamp * 1000 ≤ w.stamp.toMs
    ∧ ¬ boundaryAfter running.agg.inForce.set.intervalLength ⟨600, 1, .settled 3⟩ * 1000 ≤ (⟨600, 1, .settled 3⟩ : TimeStamp).toMs := by
  decide +kernel

theorem test_meets_Frequency :
    let f : FrequencyValue := ⟨1, at_ 10, some 50000, some .l1, none, some 499⟩
    (withOutbox [.frequency f]).coreRunning = true
    ∧ dueFrequency (withOutbox [.frequency f]).meas.outbox = some (f, []) := by decide +kernel

theorem test_meets_Miss :
    (withReports { Reports.none with missedToAggregator := [.dip] }).coreRunning = true
    ∧ (withReports { Reports.none with missedToAggregator := [.dip] }).reports.missedToAggregator = [.dip]
    ∧ (inInterval 600 [] running).agg.acc.fixed = some (fixedAt 600)
    ∧ (fixedAt 600).boundary * 1000 ≤ (windowSet (at_ 600)).stamp.toMs
    ∧ (inInterval 600 [record, record, record] running).agg.queue.length < 4 := by decide +kernel

/-! ## Hypotheses met: the evidence log -/

def programming (b p : Nat) (d : PageData) (why : ProgramWhy) (job : Option Job) : State :=
  withStore fun st => { st with op := some (.program b p d why), job := job }

def recordsJob : RecordsJob := ⟨.marker, [.marker ⟨1, at_ 5, .supplyReturn none⟩], 0, false, false⟩

def disturbanceJob (source : Option Nat) : DisturbanceJob := ⟨source, disturbance 7, none, [], 0, 0, false, none⟩

theorem test_meets_ProgramDone :
    let header := PageData.header 2 0 1 (at_ 5)
    let s := programming 2 0 header .header none
    s.coreRunning = true ∧ s.store.op = some (.program 2 0 header .header) ∧ s.store.array.wf = true
    ∧ s.store.block 2 = some (BlockEntry.plain .stale)
    ∧ (programming 2 1 (.records 1 1 5 5 []) .content (some (.records recordsJob))).store.job
        = some (.records recordsJob) := by decide +kernel

theorem test_meets_DisturbanceCommit :
    let s := withEntry (dipEntry .commitWait none) [11]
      (programming 2 127 (.records 1 7 5 5 []) .content (some (.disturbance (disturbanceJob (some 11)))))
    s.coreRunning = true ∧ s.store.op = some (.program 2 127 (.records 1 7 5 5 []) .content)
    ∧ s.store.job = some (.disturbance (disturbanceJob (some 11))) ∧ (s.tracker.entry 11).isSome = true
    ∧ s.store.exportMark < (disturbanceJob (some 11)).record.seq ∧ s.store.unexportedList.length < 256 := by decide +kernel

/-- Page 126 and page 127 of the ACTIVE block, a capture page of a job with a slot, an image of each kind with the proposed mark. -/
theorem test_meets_ProgramDoneEffects :
    let s := programming 2 127 (.records 1 7 5 5 []) .content (some (.disturbance (disturbanceJob none)))
    let active (p : Nat) := { s.store with active := some (2, p) }
    let j := { disturbanceJob (some 11) with slot := some 3, remaining := [block 3] }
    let c := withSlot 3 (slot .writing 11) (programming 2 1 (.capture 7 0 0 (at_ 5) .hz50 []) .content (some (.disturbance j)))
    let w : ImageWork := ⟨.settings, .queued, .settings 4 running.settingsImage, .own, 0⟩
    (active 127).active = some (2, 127) ∧ (active 126).active = some (2, 126) ∧ s.store.exportMark < (disturbance 7).seq
    ∧ { s.store with exportMark := 7 }.exportMark = (disturbance 7).seq
    ∧ c.store.job = some (.disturbance j) ∧ j.slot = some 3 ∧ slotAt c.capture.slots 3 = some (slot .writing 11)
    ∧ j.record.pageCount = 0 ∧ 0 < { j.record with pageCount := 1 }.pageCount
    ∧ (programming 1 127 w.data (.image false) (some (.image w))).store.work false = some w ∧ w.data.counter = some 4
    ∧ { running.store with proposed := some 0 }.proposed = some running.settingsImage.exportMark
    ∧ { w with stage := .other (.cases 5 []) 1 }.stage = .other (.cases 5 []) 1 ∧ ({ disturbanceJob none with remaining := [] }).aside = none
    ∧ running.store.state ≠ .readOnly ∧ running.store.imagePage < 128 ∧ 128 ≤ { running.store with imagePage := 128 }.imagePage := by
  decide +kernel

/-- A log with this many ERASED blocks, the others FULL, of these hold sets. -/
def withFree (n : Nat) (holds : BitVec 8) : State :=
  withStore fun st => { st with
    index := List.replicate n (BlockEntry.plain .erased) ++ List.replicate (254 - n) { fullBlock .full with holds := holds } }

/-- Entries with and without a slot, where the capture is admitted and where it is not, with room and without. -/
theorem test_meets_JobsTaken :
    let x := dipEntry .commitWait (some ⟨3, true⟩)
    let s := withSlot 3 (slot .full 11) (withEntry x [11] (withFree 6 0))
    s.tracker.entry 11 = some x ∧ x.slot = some ⟨3, true⟩ ∧ slotAt s.capture.slots 3 = some (slot .full 11)
    ∧ (dipEntry .commitWait none).slot = none ∧ s.store.state ≠ .readOnly ∧ (s.store.state ≠ .heldFull ∧ 6 ≤ s.store.free)
    ∧ ¬ 6 ≤ (withFree 5 0).store.free ∧ (withFree 1 0).store.hasRoom 1 ∧ ¬ (withFree 0 0).store.hasRoom 1
    ∧ { (withFree 0 0).store with active := some (2, 127) }.hasRoom 1 ∧ ¬ { (withFree 0 0).store with active := some (2, 127) }.hasRoom 2
    ∧ (inInterval 600 [record] running).agg.queue ≠ []
    ∧ (withStore fun st => { st with markerQueue := [.marker (at_ 5) (.supplyReturn none), .image .cases] }).store.markerQueue
        = .marker (at_ 5) (.supplyReturn none) :: [.image .cases] := by
  unfold Store.hasRoom; decide +kernel

/-- The direct image waits; a reclaim step at MUST; a host read behind 8 capture pages and behind 7, one that goes on and one that needs no
page; a host read in HOLDUP. -/
theorem test_meets_PageBoundary :
    let at_must := { withFree 5 0 with store := { (withFree 5 0).store with urgency := .must } }
    let asks (q : HostRequest) (s : State) : State := { s with store := { s.store with hostRequest := some q } }
    let s := asks (.records 6 9) (withBlock (fullBlock .full) running)
    let none_ := asks (.capture 9 0) running
    let j (n : Nat) := { disturbanceJob none with sinceRead := n }
    { at_must.store with direct := some ⟨.settings, .direct, .settings 1 running.settingsImage, .own, 0⟩ }.direct ≠ none
    ∧ at_must.store.direct = none ∧ at_must.reclaimWaits .must = some 7 ∧ s.store.direct = none ∧ s.reclaimWaits .must = none
    ∧ s.store.hostRequest = some (.records 6 9) ∧ s.inHoldup = false ∧ (asks (.records 6 9) held).inHoldup = true
    ∧ 8 ≤ (j 8).sinceRead ∧ (j 7).sinceRead < 8
    ∧ (s.boundary (j 8)).store.job = some (.disturbance { j 0 with aside := some (.hostRead (.records ⟨6, 4, 2, 1, [], [], 0, 0, 0, none⟩)) })
    ∧ (s.boundary (j 7)).store.job = some (.disturbance (j 7))
    ∧ none_.beginRead (.capture 9 0) = .done .notFound [] ∧ (none_.boundary (j 8)).store.job = some (.disturbance (j 0)) := by
  decide +kernel

/-- An INTERRUPTION that names the dip in entry 11, whose nested list has room for one number more and none; and one that names another. -/
theorem test_meets_Nests :
    let named := { dipEntry .commitWait none with kind := .interruption, enclosing := some (11, at_ 5) }
    let dip (n : Nat) := { dipEntry .opened none with nested := List.replicate n 1 }
    let table (n : Nat) (x : Entry) : Tracker :=
      let t := (withEntry (dip n) [] running).tracker
      { t with entries := putSlot (some x) 2 t.entries }
    let after (n : Nat) (x : Entry) := (((table n x).commitDone 7 2).entry 11).map fun d => (d.nested.length, d.flags.nestedOverflow)
    (table 3 named).entry 11 = some (dip 3) ∧ (dip 3).nested.length < 4 ∧ 4 ≤ (dip 4).nested.length ∧ (table 3 named).entry 1 = none
    ∧ (named.kind, named.enclosing, (dip 3).kind, (dip 3).state) = (.interruption, some (11, (dip 3).start), .dip, .opened)
    ∧ (dip 3).values.mode = .polyphase
    ∧ [after 3 named, after 4 named, after 3 { named with enclosing := some (11, at_ 4) }] = [some (4, false), some (4, true), some (3, false)] := by
  decide +kernel

/-- Two markers ahead of an image request; markers that fill a page body to its last byte, and longer ones; in HELD_FULL one that may be written ahead of one that
may not. -/
theorem test_meets_HeadTaken :
    let return_ := QueueItem.marker (at_ 5) (.supplyReturn none)
    let applied (n : Nat) := QueueItem.marker (at_ 5) (.settingsApplied 1 (List.replicate n .attentionMask))
    let full (q : List QueueItem) : State := withStore fun st => { st with markerQueue := q, state := .heldFull, active := some (2, 1) }
    let plain (q : List QueueItem) : State := withStore fun st => { st with markerQueue := q, active := some (2, 1) }
    let left (s : State) := (s.takeMarkers.store.markerQueue.length, s.takeMarkers.store.job.isSome)
    [left (plain [return_, return_, .image .cases, return_]), left (plain (List.replicate 8 (applied 104))),
      left (plain (List.replicate 8 (applied 105))),
      left (full [return_, .marker (at_ 5) (.format 1 0)]), left (full [.marker (at_ 5) (.format 1 0), return_])]
      = [(2, true), (4, true), (5, true), (1, true), (1, false)]
    ∧ (full [return_]).store.state = .heldFull ∧ (full [return_]).store.hasRoom 1 ∧ (plain [return_]).inHoldup = false := by
  unfold Store.hasRoom; decide +kernel

def imageWork (timeouts : Nat) : ImageWork := ⟨.cases, .queued, .cases 1 [], .own, timeouts⟩

theorem test_meets_ProgramTimeout :
    let s := programming 255 127 (.records 1 1 5 5 []) .content (some (.records recordsJob))
    let image := programming 1 127 (.cases 1 []) (.image false) (some (.image (imageWork 0)))
    s.coreRunning = true ∧ s.store.op = some (.program 255 127 (.records 1 1 5 5 []) .content)
    ∧ (s.store.block 255).isSome = true ∧ s.store.format = none
    ∧ image.store.op = some (.program 1 127 (.cases 1 []) (.image false)) ∧ image.store.job = some (.image (imageWork 0))
    ∧ (imageWork 0).timeouts = 0 ∧ (imageWork 1).timeouts ≠ 0
    ∧ (withStore fun st => { st with op := some (.erase 0 (.settings false)) }).store.op
        = some (.erase 0 (.settings false)) := by decide +kernel

/-- The last timeout a job survives, and the ones that end it; a block that ERASED blocks stand beside, and none; an image of the other
kind on its first and second page. -/
theorem test_meets_ProgramTimeoutJobs :
    let d := PageData.records 1 1 5 5 []
    let s := { withFree 1 0 with store := { (withFree 1 0).store with op := some (.program 255 1 d .content), job := some (.records recordsJob) } }
    s.store.markerQueue.length < 7 ∧ s.store.job = some (.records recordsJob) ∧ recordsJob.records ≠ [] ∧ recordsJob.timeouts = 0
    ∧ { recordsJob with timeouts := 1 }.timeouts ≠ 0 ∧ (disturbanceJob (some 11)).timeouts = 0
    ∧ 0 < (s.programTimedOut 255 1 d .content).store.free ∧ ((withFree 0 0).programTimedOut 255 1 d .content).store.free = 0
    ∧ ({ imageWork 0 with stage := .other (.cases 1 []) 0 }).stage = .other (.cases 1 []) 0
    ∧ ({ imageWork 0 with stage := .other (.cases 1 []) 1 }).stage = .other (.cases 1 []) 1
    ∧ { running.store with direct := some (imageWork 0) }.work true = some (imageWork 0) := by decide +kernel

def erasing (e : BlockEntry) : State := withBlock e (withStore fun st => { st with op := some (.erase 2 .reclaim) })

theorem test_meets_Erase :
    (erasing (fullBlock .erasing)).coreRunning = true ∧ (erasing (fullBlock .erasing)).store.op = some (.erase 2 .reclaim)
    ∧ (∀ direct, EraseWhy.reclaim ≠ .settings direct)
    ∧ (erasing (fullBlock .erasing)).store.block 2 = some (fullBlock .erasing) ∧ (fullBlock .erasing).weak = false
    ∧ { fullBlock .erasing with weak := true }.weak = true := by
  refine ⟨by decide, by decide, ?_, by decide, by decide, by decide⟩
  intro direct; cases direct <;> decide

theorem test_meets_SettingsErase :
    let s := withStore fun st => { st with op := some (.erase 0 (.settings false)), job := some (.image (imageWork 0)) }
    s.coreRunning = true ∧ s.store.work false = some (imageWork 0) ∧ s.store.hasImage .settings = false
    ∧ { s.store with haveSettingsImage := true }.hasImage .settings = true := by decide +kernel

/-- Every level of the urgency at its edges, MUST lasting to F = 9, and the four states of the store. -/
theorem test_meets_Review :
    let level (n : Nat) (u : Urgency) := { withFree n 0 with store := { (withFree n 0).store with urgency := u } }.review.store.urgency
    let state (s : State) := s.review.store.state
    let bad (n : Nat) : State :=
      withStore fun st => { st with index := List.replicate n (BlockEntry.plain .bad) ++ List.replicate (254 - n) (BlockEntry.plain .erased) }
    [level 5 .none, level 6 .none, level 9 .must, level 10 .must, level 15 .none, level 16 .none, level 23 .none, level 24 .none]
      = [.must, .need, .must, .need, .need, .may, .may, .none]
    ∧ (withFree 4 1).store.scan = none ∧ [state (withFree 4 1), state (withFree 5 1), state (withFree 4 0)] = [.heldFull, .writable, .writable]
    ∧ [state (bad 12), state (bad 13)] = [.writable, .readOnly]
    ∧ state { bad 0 with store := { (bad 0).store with format := some .start, reviewed := none } } = .formatting
    ∧ state { withFree 4 1 with store := { (withFree 4 1).store with direct := some (imageWork 0) } } = .writable
    ∧ state { withFree 4 1 with store := { (withFree 4 1).store with reviewed := some (withFree 4 1).store.reviewKey } } = .writable := by
  decide +kernel

/-- A reclaim step at MUST and at MAY, its block unexported or not, and a disturbance job in waiting. -/
theorem test_meets_Arbitration :
    let at_must := { withFree 5 0 with store := { (withFree 5 0).store with urgency := .must } }
    let unexported := { fullBlock .full with unexported := some 6 }
    at_must.reclaimWaits .must = some 7 ∧ at_must.store.block 7 = some (fullBlock .full) ∧ unexported.unexported ≠ none
    ∧ (withEntry (dipEntry .commitWait none) [11] running).tracker.commitQueue = 11 :: []
    ∧ { running.store with synthesised := [disturbance 7] }.synthesised = disturbance 7 :: []
    ∧ (running.coreRunning = true ∧ running.store.scan = none ∧ running.store.op = none ∧ running.store.job = none
      ∧ running.store.direct = none ∧ running.store.activationDue = false ∧ running.store.format = none)
    ∧ (running.review.lossReview.coreRunning = true ∧ running.review.lossReview.store.op = none
      ∧ running.review.lossReview.store.job = none ∧ running.review.lossReview.store.activationDue = false)
    ∧ running.inHoldup = false ∧ held.inHoldup = true ∧ held.review.lossReview.store.job = none := by decide +kernel

/-- In HOLDUP: a synthesised record or the loss batch outstanding, the SUPPLY_LOSS marker at the head, an interval record with the interval
job not yet taken; out of it: a host read and a scan that wait, an image at the head. -/
theorem test_meets_JobOrder :
    let loss := { held.store with markerQueue := [.marker (at_ 5) (.supplyLoss [])] }
    let hold := inInterval 600 [record] { held with store := { held.store with holdupInterval := false } }
    { held.store with lossBatch := [11] }.lossBatch ≠ [] ∧ (loss.synthesised = [] ∧ loss.lossBatch = [])
    ∧ loss.markerQueue = .marker (at_ 5) (.supplyLoss []) :: [] ∧ held.store.markerQueue = []
    ∧ hold.agg.queue ≠ [] ∧ hold.countsWaiting 1 ∧ hold.store.holdupInterval = false
    ∧ { hold.store with holdupInterval := true }.holdupInterval = true
    ∧ { running.store with hostRequest := some (.records 1 1) }.hostRequest = some (.records 1 1)
    ∧ { running.cases with engine := some ⟨7, 1, 2, 1, true⟩ }.engine = some ⟨7, 1, 2, 1, true⟩
    ∧ { running.store with markerQueue := [.image .cases] }.markerQueue = .image .cases :: [] := by
  unfold State.countsWaiting Store.hasRoom; decide +kernel

def correcting (who : Requester) : Correcting := ⟨2, 0, some ⟨.header 2 0 1 (at_ 5), .whole⟩, who⟩

theorem test_meets_Reads :
    (withStore fun st => { st with op := some (.read 2 0 .host) }).store.correcting = none
    ∧ Requester.host ≠ .gone ∧ (running.store.op = none)
    ∧ (withStore fun st => { st with correcting := some (correcting .gone) }).store.correcting = some (correcting .gone)
    ∧ (correcting .gone).found.isSome = true ∧ (running.store.block 2).isSome = true ∧ 3 ≤ 3 := by decide +kernel

/-- A page of a half-done erase in the log, its header page, a page of a settings block, and a lost one; what they read as. -/
theorem test_lost_pages :
    let page (a : Nat) (c : PageCondition) : Memory := Memory.degrade (a / 128) [(a, ⟨.header 2 0 1 (at_ 5), c⟩)]
    [page 257 .whole, page 256 .torn, page 127 .whole, page 127 .lost].map (fun m => m.map (·.2.condition))
      = [[.lost], [.unknown], [.unknown], [.lost]]
    ∧ Memory.degrade 3 [(257, ⟨.header 2 0 1 (at_ 5), .whole⟩)] = [(257, ⟨.header 2 0 1 (at_ 5), .whole⟩)]
    ∧ [ReadResult.blank, .clean, .corrected 2, .uncorrectable].map (fun r => viewOf r none (some ⟨.header 2 0 1 (at_ 5), .lost⟩))
      = [.blank, .unreadable, .unreadable, .unreadable]
    ∧ (programming 1 127 (.cases 1 []) (.image false) (some (.image (imageWork 0)))).store.op = some (.program 1 127 (.cases 1 []) (.image false))
    ∧ ((programming 1 127 (.cases 1 []) (.image false) (some (.image (imageWork 0)))).programTimedOut 1 127 (.cases 1 []) (.image false)).store.array.read
        (pageAddress 1 127) = some ⟨.cases 1 [], .lost⟩
    ∧ newerImage 4 1 (some (4, 0)) = some (4, 1) ∧ newerImage 3 1 (some (4, 0)) = some (4, 0) := by decide +kernel

/-! ### Page results -/

def marker (seq : Nat) : Record := .marker ⟨seq, at_ 5, .supplyReturn none⟩

/-- A RECORDS page of two markers, 7 and 8, and one whose header counts a record more. -/
def recordsView (count : Nat) : PageView := .page (.records count 7 5 5 (bodyOf ([marker 7, marker 8].flatMap Record.bytes)))

def captureView : PageView := .page (.capture 7 0 0 (at_ 5) .hz50 [])

theorem test_page_results :
    (recordsView 2).isRecords 2 7 5 5 [(7, (marker 7).bytes), (8, (marker 8).bytes)] ∧ (recordsView 3).isUnreadable
    ∧ PageView.isUnreadable .unreadable ∧ captureView.isOther := by
  refine ⟨⟨_, rfl, by decide +kernel⟩, .inr ⟨_, _, _, _, _, rfl, by decide +kernel⟩, .inl rfl, _, rfl, ?_⟩
  rintro _ _ _ _ _ ⟨⟩

/-- A READ_RECORDS on page 127 of its last block, and its item of an unreadable page just fitting and not. -/
def recordsRead (page : Nat) (items : List Byte) (unreadable : Nat) : RecordsRead :=
  ⟨8, 2, 2, page, [], items, 0, 1, unreadable, none⟩

theorem test_meets_RecordsCollected :
    12 + (recordsRead 127 (List.replicate 1008 0) 7).items.length + 4 ≤ 1024
    ∧ 1024 < 12 + (recordsRead 127 (List.replicate 1009 0) 7).items.length + 4
    ∧ 8 ≤ (recordsRead 127 [] 7).unreadable + 1 ∧ (recordsRead 127 [] 6).unreadable + 1 < 8
    ∧ ((recordsRead 127 [] 0).take 9 (recordsView 2) = { recordsRead 127 (0x01#8 :: (marker 8).bytes) 0 with
        itemCount := 1, taken := 2, highest := some 8 }.replied 0 9)
    ∧ (recordsRead 126 [] 0).take 9 .blank = (recordsRead 126 [] 0).replied 1 9
    ∧ (recordsRead 126 [] 0).take 9 captureView = .more (.records (recordsRead 127 [] 0))
    ∧ (recordsRead 127 [] 0).take 9 (recordsView 3)
        = { recordsRead 127 (0x02#8 :: field 1 2 ++ field 1 127 ++ reserved 1) 1 with itemCount := 1 }.replied 1 9 := by decide +kernel

def captureRead (target : Option (Nat × Nat)) : CaptureRead := ⟨7, 0, 2, 127, none, target⟩

/-- The page of record 7 holds a marker there; in the segment's place a CAPTURE page of the owner and segment, an unreadable page, a RECORDS
page, and a RECORDS page that fails its walk. -/
theorem test_meets_CaptureFound :
    (captureRead none).target = none ∧ (captureRead (some (2, 1))).target = some (2, 1)
    ∧ (7 ≤ (captureRead none).seq ∧ (captureRead none).seq < 7 + 2) ∧ ¬ (8 ≤ (captureRead none).seq ∧ (captureRead none).seq < 8 + 1)
    ∧ ([(7, (marker 7).bytes)].find? fun x => x.1 == (captureRead none).seq).bind (fun x => recordOf x.2) = some (marker 7)
    ∧ (captureRead none).take (recordsView 2) = .done .notFound []
    ∧ (captureRead (some (2, 1))).take (recordsView 2) = .done .notFound []
    ∧ (captureRead (some (2, 1))).take (recordsView 3)
        = .done .ok (field 1 2 ++ reserved 2 ++ field 1 2 ++ field 1 1 ++ reserved 1)
    ∧ (captureRead none).take .unreadable = .done .ok (field 1 2 ++ reserved 2 ++ field 1 2 ++ field 1 127 ++ reserved 1)
    ∧ (captureRead (some (2, 1))).take captureView
        = .done .ok (field 1 1 ++ reserved 2 ++ capturePageBytes 7 0 0 (at_ 5) .hz50 []) := by decide +kernel

/-- The log with a block 2 of the numbers 1 to 6 and a block 3 of 7 and 8. -/
def twoBlocks : State :=
  let second := { fullBlock .full with blockSeq := some 2, firstRecord := some 7, lastRecord := some 8 }
  withStore fun st => { st with index := fullBlock .full :: second :: st.index.drop 2 }

theorem test_meets_ReadsBegin :
    twoBlocks.store.block 2 = some (fullBlock .full) ∧ (fullBlock .full).holdsRecords = true
    ∧ 6 ≤ optNum (fullBlock .full).lastRecord ∧ twoBlocks.store.recordBlocks.map (fun e => (e.1, e.2.blockSeq)) = [(2, some 1), (3, some 2)]
    ∧ twoBlocks.beginRead (.records 6 9) = .more (.records ⟨6, 4, 2, 1, [3], [], 0, 0, 0, none⟩)
    ∧ twoBlocks.beginRead (.capture 7 0) = .more (.capture ⟨7, 0, 3, 1, none, none⟩)
    ∧ twoBlocks.beginRead (.capture 9 0) = .done .notFound [] ∧ (∀ e ∈ twoBlocks.store.recordBlocks, optNum e.2.lastRecord < 9) := by
  decide +kernel

/-- A host read as the job, one cut short, and one inside a disturbance job. -/
theorem test_meets_HostResult :
    let r : HostRead := .records (recordsRead 126 [] 0)
    let s := withStore fun st => { st with job := some (.hostRead r) }
    let inside := { disturbanceJob none with aside := some (.hostRead r) }
    s.store.job = some (.hostRead r) ∧ r.take (s.store.nextSeq - 1) captureView = .more (.records (recordsRead 127 [] 0))
    ∧ r.take (s.store.nextSeq - 1) .blank = (recordsRead 126 [] 0).replied 1 (s.store.nextSeq - 1)
    ∧ { s.store with job := some .endingRead }.job = some .endingRead
    ∧ { s.store with job := some (.disturbance inside) }.job = some (.disturbance inside) ∧ inside.aside = some (.hostRead r) := by
  decide +kernel

/-- A WAITING case below an idle engine, and a RUNNING one whose block is being read at its last page. -/
def scanningCase (page : Nat) : State :=
  let s := withCase { case_ .running (some ⟨9, 0⟩) with horizon := some 7 } 9 running
  { s with cases := { s.cases with engine := some ⟨7, 1, 2, page, true⟩ } }

theorem test_meets_ScanWalks :
    let w := withCase (case_ .waiting none) 9 running
    w.cases.engine = none ∧ w.store.scan = none ∧ w.case 7 = some (case_ .waiting none) ∧ (∀ j, j < 7 → w.case j = none)
    ∧ (scanningCase 127).cases.engine = some ⟨7, 1, 2, 127, true⟩
    ∧ (scanningCase 127).case 7 = some { case_ .running (some ⟨9, 0⟩) with horizon := some 7 }
    ∧ 7 ≤ ({ case_ .running none with horizon := some 7 }).horizon.getD 0 ∧ ({ case_ .running none with horizon := some 6 }).horizon.getD 0 < 7
    ∧ (((scanningCase 127).scanResult (recordsView 3)).case 7).map (fun c => (c.state, c.unreadable)) = some (.ended, 1)
    ∧ ((scanningCase 126).scanResult captureView).cases.engine = some ⟨7, 1, 2, 127, true⟩
    ∧ { fullBlock .full with holds := slotBit 7 }.holds &&& slotBit 7 ≠ 0 := by decide +kernel

def startScan (stage : ScanStage) : StartScan := ⟨stage, none, none, none, none, none, none, [], none, none, [], []⟩

/-- The start-up scan at a stage, at a COLD start. -/
def scanning (x : StartScan) : State := { State.reset with store := { State.reset.store with op := none, scan := some x } }

/-- Each stage of the start-up scan, with page results at the edges of its pages and blocks. -/
theorem test_meets_StartScan :
    let image := running.settingsImage
    let next (stage : ScanStage) (v : PageView) := ((scanning (startScan stage)).startResult v).store.scan.map (·.stage)
    let header := PageView.page (.header 2 State.reset.store.identity 1 (at_ 5))
    (next (.settingsArea 0 126) .blank, next (.settingsArea 0 127) .blank, next (.settingsArea 1 127) .unreadable)
      = (some (.settingsArea 0 127), some (.settingsArea 1 0), some (.header 2))
    ∧ (((scanning (startScan (.settingsArea 0 0))).startResult (.page (.settings 4 image))).store.scan.map
        fun x => (x.bestSettings, x.bestCounter, x.top0)) = some (some (4, image), some (4, 0), some 0)
    ∧ (next (.header 2) header, next (.header 2) .unreadable, next (.header 255) .blank)
      = (some (.firstPage 2 1), some (.header 3), none)
    ∧ (next (.firstPage 2 126) captureView, next (.firstPage 2 127) captureView, next (.firstPage 2 1) .blank, next (.firstPage 2 1) (recordsView 2))
      = (some (.firstPage 2 127), some (.header 3), some (.header 3), some (.lastPage 2 127))
    ∧ (next (.lastPage 2 2) .blank, next (.lastPage 2 1) .blank, next (.lastPage 2 1) (recordsView 2))
      = (some (.lastPage 2 1), some (.header 3), some (.header 3))
    ∧ (next (.readBack 2 2 [(3, 9)]) captureView, next (.readBack 2 1 [(3, 9)]) captureView, next (.readBack 2 1 []) captureView)
      = (some (.readBack 2 1 [(3, 9)]), some (.readBack 3 9 []), none) := by decide +kernel

/-- The last page of the settings area, with an image of the series' nominal frequency and of another; an entry kept OPEN across the start
stays so. -/
theorem test_meets_SeriesLoaded :
    let image (f : Freq) := { running.settingsImage with set := { Settings.default with freq := f } }
    let s (f : Freq) := withEntry (dipEntry .opened none) [] (scanning { startScan (.settingsArea 1 127) with bestSettings := some (4, image f) })
    let u (f : Freq) := (s f).startResult .blank
    [Freq.hz50, .hz60].map (fun f => (decide ((u f).settings.active.freq = (s f).meas.freq), (u f).meas.freq, (u f).meas.outbox))
      = [(true, .hz50, []), (false, .hz60, [])]
    ∧ (s .hz60).settleRequests.tracker.entry 11 = some (dipEntry .opened none)
    ∧ (u .hz60).tracker.entry 11 = some (dipEntry .opened none) := by decide +kernel

/-- An unreadable page above the newest number's, one below it, and no number at all. -/
theorem test_meets_ScanConcludes :
    let x := startScan (.header 255)
    let found (b p : Nat) := { x with newestNumber := some (8, 2, 2), unreadable := [(b, p)] }
    (scanning (found 2 3)).hidesNumbers (found 2 3) ∧ (scanning (found 2 3)).supply.startCause = .cold
    ∧ ((scanning (found 2 3)).classified.store.nextSeq, (scanning (found 2 1)).classified.store.nextSeq,
        (scanning { x with unreadable := [(2, 0)] }).classified.store.nextSeq) = (41, 9, 1)
    ∧ (scanning { x with newestPage := some ⟨2, 3, 8, 5, 5, [marker 7, marker 8]⟩ }).classified.store.op = some (.read 2 3 .startUp) :=
  ⟨⟨8, 2, 2, rfl, (2, 3), by simp, .inl ⟨rfl, by decide⟩⟩, by decide +kernel, by decide +kernel, by decide +kernel⟩

/-- The last marker of a page is a SUPPLY_LOSS with an item that no record passed answers, and one that a record does. -/
theorem test_meets_ReadBack :
    let item (sec : Nat) : LossItem := ⟨.dip, fittedSet false, at_ sec⟩
    let loss : Record := .marker ⟨8, at_ 5, .supplyLoss [item 5, item 6]⟩
    let v := PageView.page (.records 2 7 5 5 (bodyOf ([marker 7, loss].flatMap Record.bytes)))
    let x := { startScan (.readBack 2 2 []) with passed := [(.dip, at_ 5)] }
    [marker 7, loss].flatMap (fun r => (recordOf r.bytes).toList) = [marker 7] ++ loss :: []
    ∧ ((scanning x).startResult v).store.synthesised.map (fun r => (r.kind, r.start)) = [(.dip, at_ 6)]
    ∧ ((scanning x).startResult (recordsView 2)).store.scan = none := by decide +kernel

/-! ## Hypotheses met: complaint cases -/

/-- The record of sequence number 7, of second 5, for a case of horizon 6. -/
theorem test_meets_Delivery :
    let s := withCase (case_ .live (some ⟨5, 0⟩)) 9 (withReports { Reports.none with deliveries := [.disturbance (disturbance 7)] })
    s.coreRunning = true ∧ s.reports.deliveries = [.disturbance (disturbance 7)]
    ∧ s.case 7 = some (case_ .live (some ⟨5, 0⟩)) ∧ (case_ .live (some ⟨5, 0⟩)).horizon = some 6 ∧ 6 < (disturbance 7).seq
    ∧ (case_ .live (some ⟨5, 0⟩)).covers s.nowMs (.disturbance (disturbance 7)) = true
    ∧ (disturbance 7).phases.has .l1 = true ∧ (case_ .live (some ⟨5, 0⟩)).phases.has .l1 = true
    ∧ { case_ .live none with list := List.replicate 511 0 }.list.length < 512
    ∧ 512 ≤ { case_ .live none with list := List.replicate 512 0 }.list.length
    ∧ { case_ .live none with horizon := none }.horizon = none ∧ (disturbance 6).seq ≤ 6
    ∧ { case_ .live none with start := ⟨5, 1⟩ }.covers s.nowMs (.disturbance (disturbance 7)) = false := by decide +kernel

/-- A record of the seconds 5 to 3, which a correction of the clock leaves, touches a window that ends at second 4; nothing does one second
on. -/
theorem test_meets_Overlapped :
    (case_ .live (some ⟨5, 0⟩)).overlapped 9000 5000 5000 ∧ (case_ .live none).overlapped 5000 5000 5000
    ∧ ¬ (case_ .live (some ⟨5, 0⟩)).overlapped 9000 5001 6000 ∧ ¬ (case_ .live none).overlapped 4999 5000 5000
    ∧ ¬ (case_ .live none).overlapped 9000 0 4999 ∧ (case_ .live (some ⟨5, 0⟩)).overlapped 9000 (min 5000 3000) (max 5000 3000) := by
  refine ⟨⟨?_, ?_, ?_⟩, ⟨?_, ?_, ?_⟩, ?_, ?_, ?_, ⟨?_, ?_, ?_⟩⟩
  · intro t h; cases h; decide
  · intro h; cases h
  · decide
  · intro t h; cases h
  · intro _; decide
  · decide
  · intro h; exact absurd (h.1 ⟨5, 0⟩ rfl) (by decide)
  · intro h; exact absurd (h.2.1 rfl) (by decide)
  · intro h; exact absurd h.2.2 (by decide)
  · intro t h; cases h; decide
  · intro h; cases h
  · decide

/-- The first and last residual and duration of a bin, the first beyond, and an unknown end. -/
theorem test_bins :
    let bin (percent ms : Nat) := (Settlement.zero.disturbance
      { disturbance 7 with extreme := some ⟨0, percent, false⟩, duration := some ms }).dipBins.findIdx? (· == 1)
    bin 8999 10 = some 0 ∧ bin 8000 199 = some 0 ∧ bin 7999 200 = some 6 ∧ bin 3000 999 = some 11 ∧ bin 500 9999 = some 17
    ∧ bin 499 59999 = some 23 ∧ bin 0 60000 = some 24 ∧ bin 9000 10 = none ∧ bin 8999 9 = none
    ∧ { (disturbance 7).flags with endUnknown := true }.endUnknown = true ∧ (disturbance 7).flags.endUnknown = false := by decide +kernel

def withDelivery (r : Record) : State := withCase (case_ .live none) 9 (withReports { Reports.none with deliveries := [r] })

theorem test_meets_OtherDeliveries :
    let r := { record with seq := 7, stamp := at_ 5, phases := ⟨⟨some 20700, 0, 0, 0⟩, ⟨none, 0, 0, 0⟩, ⟨some 1, 0, 0, 0⟩⟩ }
    let m : MarkerRecord := ⟨7, at_ 9, .supplyLoss []⟩
    (withDelivery (.interval r)).reports.deliveries = [.interval r] ∧ (withDelivery (.marker m)).reports.deliveries = [.marker m]
    ∧ (withDelivery (.interval r)).case 7 = some (case_ .live none) ∧ (case_ .live none).horizon = some 6 ∧ 6 < r.seq
    ∧ (r.phases.get .l1).mean = some 20700 ∧ (case_ .live none).phases.has .l1 = true ∧ r.fitted.has .l1 = true
    ∧ ¬ 20700 * 10000 < (10000 - r.tolerance) * r.udecl ∧ 20699 * 10000 < (10000 - r.tolerance) * r.udecl
    ∧ (r.phases.get .l2).mean = none ∧ (case_ .live none).phases.has .l3 = false ∧ m.body = .supplyLoss []
    ∧ (nextOf (exec .commitDelivery (withDelivery (.marker m)))).bind (fun t => (t.case 7).map (·.table.supplyLoss)) = some 1
    ∧ (nextOf (exec .commitDelivery (withDelivery (.interval r)))).bind
        (fun t => (t.case 7).map fun c => (c.table.intervals, c.table.phases.get .l1)) = some (1, ⟨1, 0, some 20700, some 20700⟩) := by
  decide +kernel

/-- A block of the seconds 9 to 12 overlaps a window that ends at second 9, and none that ends before. -/
theorem test_meets_Holds :
    let s := withBlock (fullBlock .full) (withCase (case_ .live (some ⟨9, 0⟩)) 9 running)
    s.coreRunning = true ∧ s.case (7 : Fin 8).val = some (case_ .live (some ⟨9, 0⟩))
    ∧ s.store.block 2 = some (fullBlock .full)
    ∧ ((fullBlock .full).firstRecord.isSome = true ∧ (fullBlock .full).earliest = some 9 ∧ (fullBlock .full).latest = some 12
      ∧ 9 * 1000 ≤ (⟨9, 0⟩ : WTime).toMs ∧ (case_ .live (some ⟨9, 0⟩)).start.toMs ≤ 12 * 1000)
    ∧ (fullBlock .full).state ≠ .erasing ∧ (fullBlock .erasing).state = .erasing
    ∧ ¬ 9 * 1000 ≤ (⟨8, 999⟩ : WTime).toMs := by decide +kernel

theorem test_meets_ReportsSetGap :
    let l := withReports { Reports.none with losses := [.marker] }
    let m := withReports { Reports.none with missedToCases := [.dip] }
    l.coreRunning = true ∧ l.reports.losses = [.marker] ∧ m.reports.missedToCases = [.dip]
    ∧ { l with cases := CaseUnit.fresh }.cases.loaded = false ∧ l.cases.loaded = true
    ∧ (withCase (case_ .waiting (some ⟨9, 0⟩)) 9 l).case 7 = some (case_ .waiting (some ⟨9, 0⟩))
    ∧ (case_ .waiting (some ⟨9, 0⟩)).start.toMs ≤ (withCase (case_ .waiting (some ⟨9, 0⟩)) 9 l).nowMs
    ∧ (withCase (case_ .waiting (some ⟨9, 0⟩)) 9 l).nowMs ≤ (⟨9, 0⟩ : WTime).toMs
    ∧ (case_ .live none).state = .live ∧ (case_ .ended none).state ≠ .live := by decide +kernel

def arriving (c : CaseSlot) (kind : ArrivalKind) : State :=
  withCase c 9 (withReports { Reports.none with timeToCases := [.arrival 77 kind] })

theorem test_meets_Arrivals :
    (arriving (case_ .pending none) .start).coreRunning = true
    ∧ (arriving (case_ .pending none) .start).reports.timeToCases = [.arrival 77 .start]
    ∧ (arriving (case_ .pending none) .start).findCase 77 = some (7, case_ .pending none)
    ∧ (arriving (case_ .pending none) .start).case 7 = some (case_ .pending none)
    ∧ (case_ .pending none).state = .pending ∧ (case_ .live none).state = .live ∧ (case_ .live none).finish = none
    ∧ (case_ .live none).state ≠ .pending ∧ (case_ .ended none).state ≠ .live
    ∧ (case_ .live (some ⟨9, 0⟩)).finish ≠ none := by decide +kernel

/-! ## Hypotheses met: time, supply loss and restart -/

theorem test_meets_ClockTick :
    { running with supply := { running.supply with valid := false } }.supply.valid = false
    ∧ running.supply.valid = true
    ∧ { running with time := { running.time with sec := 2 ^ 32 - 2, ms := 999 } }.time.ms ≤ 999
    ∧ { running with time := { running.time with sec := 2 ^ 32 - 2, ms := 999 } }.time.sec + 1 < 2 ^ 32 := by decide +kernel

theorem test_meets_StepReaches :
    let s := withEntry (dipEntry .opened none) []
      (withReports { Reports.none with stepToTracker := [.settled 4], stepToAggregator := 1, timeToCases := [.step] })
    s.coreRunning = true ∧ s.reports.stepToTracker = [.settled 4] ∧ s.reports.stepToAggregator = 0 + 1
    ∧ s.reports.timeToCases = [.step] ∧ s.tracker.entry 11 = some (dipEntry .opened none)
    ∧ resolveEpoch s.time.base (.settled 4) ≠ resolveEpoch s.time.base (dipEntry .opened none).start.epoch
    ∧ resolveEpoch s.time.base (.settled 3) = resolveEpoch s.time.base (dipEntry .opened none).start.epoch
    ∧ (dipEntry .tail none).state ≠ .opened ∧ s.agg.acc.fixed = none
    ∧ (inInterval 600 [record, record, record] s).agg.acc.fixed = some (fixedAt 600)
    ∧ (inInterval 600 [record, record, record] s).agg.queue.length < 4
    ∧ 4 ≤ (inInterval 600 [record, record, record, record] s).agg.queue.length
    ∧ (case_ .running none).state = .running ∧ (case_ .pending none).state = .pending := by decide +kernel

theorem test_meets_SupplyFail :
    running.supply.power = .run ∧ State.reset.supply.power = .starting ∧ held.supply.power = .holdup
    ∧ (waiting .retain).supply.power = .retain ∧ (waiting .wait).supply.power = .wait := by decide +kernel

theorem test_meets_TimerStarts :
    { (waiting .retain) with supply := { running.supply with power := .retain, supplyGood := false, valid := false } }.supply.valid
      = false
    ∧ held.supply.supplyGood = false ∧ held.supply.power ≠ .retain
    ∧ { running with supply := { running.supply with resetnHigh := false } }.supply.resetnHigh = false := by decide +kernel

theorem test_meets_TimerExpiry :
    (waiting .retain).supply.timerRunning = true ∧ (waiting .retain).supply.supplyGood = true
    ∧ (waiting .retain).supply.resetnHigh = true ∧ (waiting .retain).supply.power = .retain
    ∧ (waiting .wait).supply.power = .wait ∧ (waiting .holdup).supply.power = .holdup
    ∧ (withStore fun st => { st with lossMarker := .committed, markerQueue := List.replicate 7 (.image .cases) }).store.lossMarker
        = .committed
    ∧ (List.replicate 7 (QueueItem.image .cases)).length < 8 := by decide +kernel

/-- Entries in every state with and without a slot; a start from RETAIN that is a RESUME, one from the wait that is not, and a COLD one. -/
def kept : State :=
  withEntry { rvcEntry with kind := .rvc } [] { waiting .retain with
    supply := { (waiting .retain).supply with powerLost := true }
    tracker := { running.tracker with
      entries := some (dipEntry .commitWait none) :: some (dipEntry .tail (some ⟨0, false⟩)) :: some (dipEntry .opened (some ⟨1, true⟩))
        :: List.replicate 9 none
      tailOrder := [1] } }

theorem test_meets_KeptAcrossStart :
    kept.supply.power = .retain ∧ kept.supply.markAbsent = false ∧ kept.tracker.entry 0 = some (dipEntry .commitWait none)
    ∧ kept.tracker.entry 1 = some (dipEntry .tail (some ⟨0, false⟩)) ∧ 1 ∈ kept.tracker.tailOrder
    ∧ kept.tracker.entry 2 = some (dipEntry .opened (some ⟨1, true⟩)) ∧ kept.tracker.entry 11 = some rvcEntry
    ∧ kept.tracker.entry 3 = none ∧ { kept.supply with markAbsent := true }.markAbsent = true := by decide +kernel

theorem test_kept_across_start :
    let t := nextOf (exec (.stabilityTimerExpiry false) { kept with tracker := { kept.tracker with commitQueue := [0] } })
    let entry (i : Nat) := (t.bind fun t => t.tracker.entry i).map fun x => (x.state, x.flags.noCapture)
    t.map (·.tracker.commitQueue) = some [0, 1, 11]
    ∧ entry 0 = some (.commitWait, none) ∧ entry 1 = some (.commitWait, some .supply) ∧ entry 2 = some (.opened, some .supply)
    ∧ entry 11 = some (.commitWait, some .supply)
    ∧ (t.bind fun t => t.tracker.entry 2).map (·.flags.acrossSupplyLoss) = some true := by decide +kernel

theorem test_meets_CoreStops :
    held.supply.power = .holdup ∧ (waiting .wait).supply.power = .wait ∧ running.supply.resetnHigh = true
    ∧ running.coreRunning = true ∧ (erasing (fullBlock .erasing)).store.op = some (.erase 2 .reclaim)
    ∧ (programming 2 127 (.records 1 1 5 5 []) .content none).store.op = some (.program 2 127 (.records 1 1 5 5 []) .content)
    ∧ (programming 2 127 (.records 1 1 5 5 []) .content none).store.array.wf = true ∧ running.store.op = none := by decide +kernel

theorem test_meets_BackupDomain :
    { held with supply := { held.supply with power := .retain } }.supply.power = .retain
    ∧ { held with supply := { held.supply with power := .retain } }.supply.supplyGood = false
    ∧ running.coreRunning = true ∧ (false || !running.time.qualitySet) = true ∧ running.link.clockCondition = false
    ∧ (false || !({ running.time with qualitySet := true } : Timebase).qualitySet) = false := by decide +kernel

/-! ## Hypotheses met: settings -/

def notice (changed : List SettingId) (set : Settings) : Notice := ⟨⟨set, 1⟩, changed⟩

theorem test_meets_Notices :
    let n := notice [.attentionMask] Settings.default
    let s := withReports
      { Reports.none with applyMeasurement := [n], applyTracker := [n], applyCapture := [n], applyAggregator := [n], applyLink := [n] }
    s.coreRunning = true ∧ s.reports.applyMeasurement = [n] ∧ s.reports.applyTracker = [n] ∧ s.reports.applyCapture = [n]
    ∧ s.reports.applyAggregator = [n] ∧ s.reports.applyLink = [n] ∧ n.inForce.set.freq = s.meas.freq
    ∧ { Settings.default with freq := .hz60 }.freq ≠ s.meas.freq
    ∧ structural [.nominalFrequency] = true ∧ structural n.changed = false
    ∧ ((nextOf (exec (.applyNotification .tracker) (withEntry (dipEntry .opened none) []
        (withReports { Reports.none with applyTracker := [notice [.nominalFrequency] Settings.default] })))).bind
          fun t => (t.tracker.entry 11).map fun x => (x.flags.closedBySettings, x.finish)) = some (true, some (at_ 5))
    ∧ SettingId.attentionMask ∈ n.changed ∧ SettingId.attentionMask ∉ [SettingId.replyBurst] := by decide +kernel

theorem test_meets_BoundaryApplies :
    let s := { withReports { Reports.none with boundaries := [at_ 600] } with
      settings := { running.settings with pending := some Settings.default }
      store := { running.store with markerQueue := List.replicate 6 (.image .cases) } }
    s.coreRunning = true ∧ s.reports.boundaries = [at_ 600] ∧ running.settings.pending = none
    ∧ s.settings.pending = some Settings.default ∧ s.settings.generation + 1 < 2 ^ 32 ∧ s.store.markerQueue.length < 7
    ∧ .image .settings ∉ s.store.markerQueue := by decide +kernel

/-- A good pair, then a value just out of range, and an unknown identifier. -/
theorem test_meets_SetSettings :
    let good := identity [2, 0x88, 0x13, 0, 0]
    let low := identity [2, 0x87, 0x13, 0, 0]
    (good ++ low).length ≤ 1024 ∧ (good ++ low).length % 5 = 0
    ∧ pairsOf 10 (good ++ low) = [(2, 5000)] ++ (2, 4999) :: []
    ∧ SettingId.ofCode 2 = some .declaredVoltage ∧ SettingId.declaredVoltage.inRange 5000 = true
    ∧ SettingId.declaredVoltage.inRange 4999 = false ∧ SettingId.ofCode 20 = none ∧ [0x02#8].length % 5 ≠ 0
    ∧ ([] : List Byte).length % 5 = 0 := by decide +kernel

theorem test_meets_SettingsPairsRoundTrip : ∀ i : SettingId, i.inRange (Settings.default.get i) = true := by
  intro i; cases i <;> decide

theorem test_meets_ApplyAndDiscard :
    let set := Settings.default
    (32 < 8 + 25 ∧ { set with preCycles := 8, postCycles := 25 }.preCycles = 8)
    ∧ { set with preCycles := 8, postCycles := 24 }.preCycles + { set with preCycles := 8, postCycles := 24 }.postCycles ≤ 32
    ∧ { set with dip := 700 }.dip ≤ set.interruption + set.hysteresis
    ∧ set.interruption + set.hysteresis < { set with dip := 701 }.dip := by decide +kernel

/-! ## Hypotheses met: the link -/

theorem test_meets_Dispatch :
    (0x55 : Byte).toNat ∉ assignedKinds ∧ (0x30 : Byte).toNat ∈ assignedKinds
    ∧ (starting.store.scan.isSome = true ∧ (0x30 : Byte).toNat ∉ [0x01, 0x02, 0x03, 0x18, 0x19])
    ∧ ¬(starting.store.scan.isSome = true ∧ (0x18 : Byte).toNat ∉ [0x01, 0x02, 0x03, 0x18, 0x19])
    ∧ lengthSuits 0x18 7 = false ∧ lengthSuits 0x18 6 = true
    ∧ (withLink fun l => { l with slot := some ⟨0x01, 9, some [0x00]⟩ }).link.slot = some ⟨0x01, 9, some [0x00]⟩
    ∧ (withLink fun l => { l with slot := some ⟨0x01, 9, some [0x00]⟩ }).link.tx = none := by decide +kernel

theorem test_meets_Overrun :
    let s := withLink fun l => { l with slot := some ⟨0x28, 9, none⟩ }
    s.listens = true ∧ s.link.rx = Receiver.hunting ∧ s.link.slot = some ⟨0x28, 9, none⟩
    ∧ ¬((0x7E : Byte) = 0x7E ∧ [0x00#8] = []) ∧ ¬((0x01 : Byte) = 0x7E ∧ ([] : List Byte) = [])
    ∧ s.link.counters.overrun < 4294967295 ∧ (List.replicate 1024 (0 : Byte)).length ≤ 1024
    ∧ (withLink fun l => { l with restarting := true }).link.restarting = true := by decide +kernel

theorem test_meets_GapInsideFrame :
    (running.receiveAll [.data 0x00]).link.rx.state = .hunt ∧ (running.receiveAll [.data 0xA5]).link.rx.state ≠ .hunt
    ∧ (running.receiveAll [.data 0xA5]).listens = true
    ∧ (running.receiveAll [.data 0xA5]).link.counters.timeout < 4294967295 := by decide +kernel

/-- The last check byte of a frame is changed; a length of 1025 is announced; a framing error inside a frame. -/
theorem test_meets_CheckFailure :
    running.listens = true ∧ running.link.counters.checkFail < 4294967295 ∧ running.link.rx = Receiver.hunting
    ∧ frameBytes 0x01 0x05 [] = (frameBytes 0x01 0x05 []).take 6 ++ [((frameBytes 0x01 0x05 []).drop 6).headD 0]
    ∧ 1024 < (0x01 : Byte).toNat + 256 * (0x04 : Byte).toNat
    ∧ (withLink fun l => { l with rx := ⟨.length none, 0xFFFF#16⟩ }).link.rx.state ≠ .hunt
    ∧ running.link.rx.state = .hunt := by decide +kernel

def sendingFrame (restarts : Bool) (slot : Option Held) (watch : Option Nat) (fifo : List WindowSet) : State :=
  withLink fun l => { l with tx := some ⟨0x81, 5, [], restarts⟩, slot := slot, watch := watch, fifo := fifo }

theorem test_meets_Transmitter :
    (sendingFrame true none none []).coreRunning = true ∧ (sendingFrame true none none []).link.tx = some ⟨0x81, 5, [], true⟩
    ∧ (sendingFrame false (some ⟨0x28, 9, some [0x00]⟩) none []).link.slot = some ⟨0x28, 9, some [0x00]⟩
    ∧ (sendingFrame false none (some 1) [windowSet (at_ 5)]).link.slot = none
    ∧ (sendingFrame false none (some 1) [windowSet (at_ 5)]).link.watch = some 1
    ∧ 1 ≤ (sendingFrame false none (some 1) [windowSet (at_ 5)]).link.fifo.length
    ∧ (sendingFrame false none (some 1) [windowSet (at_ 5)]).link.restarting = false
    ∧ (sendingFrame false none (some 2) [windowSet (at_ 5)]).link.fifo.length < 2
    ∧ (sendingFrame false none none []).link.startingAborts = []
    ∧ { (sendingFrame false none none []).link with startingAborts := [7] }.startingAborts = 7 :: []
    ∧ (sendingFrame false none none []).link.watch = none := by decide +kernel

theorem test_meets_Attention :
    running.coreRunning = true ∧ running.link.listening = true ∧ running.link.mode = .level
    ∧ (withLink fun l => { l with mode := .pulse }).link.mode = .pulse ∧ running.link.pulse = false
    ∧ (waiting .wait).coreRunning = false ∧ State.reset.link.listening = false := by decide +kernel

theorem test_meets_SetAttention :
    ((0 : Byte) = 0 ∧ AttnMode.level = .level) ∧ ((1 : Byte) = 1 ∧ AttnMode.pulse = .pulse) ∧ (2 : Byte) ≠ 0 ∧ (2 : Byte) ≠ 1
    ∧ SettingId.attentionMode ∈ [SettingId.attentionMode] ∧ SettingId.attentionMode ∉ [SettingId.linkRate] := by decide +kernel

theorem test_meets_ReportsChangeNothing :
    running.findCase 78 = none ∧ (withCase (case_ .live none) 9 running).findCase 77 = some (7, case_ .live none)
    ∧ fieldAt (identity [77, 0]) 0 2 = 77 ∧ (identity [77, 0]).length = 2 ∧ (identity [77, 0, 1, 0]).length = 4
    ∧ (case_ .live none).list.length < fieldAt (identity [77, 0, 1, 0]) 2 2
    ∧ fieldAt (identity [77, 0, 0, 0]) 2 2 ≤ (case_ .live none).list.length ∧ (2 : Byte) ≠ 0 ∧ (2 : Byte) ≠ 1 := by decide +kernel

/-- With the clock at 200 ms: 999 ms is the last millisecond field, 1.2 s the last correction. -/
theorem test_meets_SetTime :
    let s := { running with time := { running.time with qualitySet := true } }
    fieldAt (identity [0, 0, 0, 0, 0xE8, 0x03]) 4 2 = 1000 ∧ fieldAt (identity [0, 0, 0, 0, 0xE7, 0x03]) 4 2 = 999
    ∧ (identity [1, 0, 0, 0, 200, 0]).length = 6
    ∧ (s.time.qualitySet = true ∧ (⟨1, 200⟩ : WTime).toMs ≤ s.nowMs + 1000 ∧ s.nowMs ≤ (⟨1, 200⟩ : WTime).toMs + 1000)
    ∧ ¬ (⟨1, 201⟩ : WTime).toMs ≤ s.nowMs + 1000 ∧ ¬ running.time.qualitySet = true
    ∧ s.time.epoch = .unsettled 0 ∧ s.store.markerQueue.length < 8
    ∧ { s.time with epoch := .settled 65535 }.epoch = .settled 65535 := by decide +kernel

def stored : State := withBlock (fullBlock .full) running

theorem test_meets_HostReads :
    (identity [6, 0, 0, 0, 63]).length = 5 ∧ fieldAt (identity [6, 0, 0, 0, 0]) 4 1 = 0 ∧ 63 < fieldAt (identity [6, 0, 0, 0, 64]) 4 1
    ∧ held.supply.power = .holdup ∧ ¬(stored.supply.power = .holdup ∨ stored.store.state = .formatting)
    ∧ (∃ e ∈ stored.store.recordBlocks, 6 ≤ optNum e.2.lastRecord) ∧ (∀ e ∈ stored.store.recordBlocks, optNum e.2.lastRecord < 7)
    ∧ stored.store.enclosing 7 = none ∧ (stored.store.enclosing 6).isSome = true := by decide +kernel

theorem test_meets_ExportMarkAndFormat :
    let s := withStore fun st => { st with nextSeq := 8, exportMark := 3 }
    (identity [4, 0, 0, 0]).length = 4 ∧ held.supply.power = .holdup
    ∧ ¬(s.supply.power = .holdup ∨ s.store.state = .formatting) ∧ s.store.state ≠ .readOnly ∧ s.store.proposed = none
    ∧ (2 < s.store.exportMark ∨ s.store.nextSeq - 1 < 2) ∧ (8 < s.store.exportMark ∨ s.store.nextSeq - 1 < 8)
    ∧ ¬(3 < s.store.exportMark ∨ s.store.nextSeq - 1 < 3) ∧ ¬(7 < s.store.exportMark ∨ s.store.nextSeq - 1 < 7)
    ∧ s.store.markerQueue.length < 8 ∧ .image .settings ∉ s.store.markerQueue
    ∧ (withStore fun st => { st with state := .readOnly }).store.state = .readOnly
    ∧ (withStore fun st => { st with proposed := some 5 }).store.proposed.isSome = true
    ∧ (withStore fun st => { st with state := .formatting }).store.state = .formatting
    ∧ (∃ i, ((withCase (case_ .live none) 9 s).case i).isSome = true) ∧ ¬(s.cases.slots.any Option.isSome = true) := by
  refine ⟨by decide, by decide, by decide, by decide, by decide, by decide, by decide, by decide, by decide, by decide, by decide,
    by decide, by decide, by decide, ⟨7, by decide⟩, by decide⟩

/-- The lowest block with room ERASED, STALE, and none. -/
theorem test_meets_Activates :
    let log (a b : BlockState) : State :=
      withStore fun st => { st with index := [fullBlock .full, BlockEntry.plain a, BlockEntry.plain b] }
    let op (s : State) := s.activate.map fun t => (t.store.op, (t.store.block 3).map (·.state))
    (log .erased .stale).store.blocks = [(2, fullBlock .full), (3, BlockEntry.plain .erased), (4, BlockEntry.plain .stale)]
    ∧ op (log .erased .stale) = some (some (.program 3 0 (.header 3 running.store.identity 2 running.now) .header), some .erased)
    ∧ op (log .stale .erased) = some (some (.erase 3 .activation), some .erasing)
    ∧ (log .full .bad).activate.isNone = true := by decide +kernel

/-- A format over a FULL block between two BAD ones. -/
def formatting : State :=
  withStore fun st => { st with format := some .start, index := [BlockEntry.plain .bad, fullBlock .full, BlockEntry.plain .bad] }

/-- Each step of a format: out of HOLDUP and in it, with a BAD block ahead of the target and nothing but BAD blocks behind, with and without
an ACTIVE block, a block to activate, room in the marker queue. -/
theorem test_meets_FormatSteps :
    let next (f : FormatStep) (s : State) := (s.formatStep f).map fun t => (t.store.format, t.store.op.isSome, t.store.job.isSome)
    let active := { formatting with store := { formatting.store with active := some (3, 1) } }
    (held.inHoldup, formatting.inHoldup, formatting.store.blocks.map (·.1)) = (true, false, [2, 3, 4])
    ∧ [next .start held, next .start formatting, next .mark formatting] = [none, some (some .start, false, true), some (some .start, false, true)]
    ∧ [next (.erase 2) formatting, next (.erase 4) formatting] = [some (some (.erase 4), true, false), some (some .activate, false, false)]
    ∧ ((formatting.formatStep (.erase 2)).bind fun t => t.store.block 3)
        = some { fullBlock .erasing with blockSeq := none, firstRecord := none, lastRecord := none, earliest := none, latest := none }
    ∧ [next .activate active, next .activate formatting, next .activate (withFree 1 0)]
        = [some (some .marker, false, false), some (none, false, false), some (none, true, false)]
    ∧ formatting.activate.isNone = true ∧ active.store.markerQueue.length < 8
    ∧ next .marker active = some (some .start, false, true) := by decide +kernel

/-- The ends of a format's jobs: its first image with a BAD block, its marker's discard with 12 and with 13 blocks BAD, its last image. -/
theorem test_meets_FormatEnds :
    let work (who : ImageWho) : ImageWork := ⟨.settings, who, .settings 4 { running.settingsImage with identity := 9, floor := 8 }, .own, 0⟩
    let s (bad : Nat) : State := withStore fun st => { st with
      format := some .marker, identity := 9, index := List.replicate bad { fullBlock .bad with unexported := some 6 } }
    let marker : RecordsJob := { recordsJob with cls := .formatMarker }
    (s 1).store.format ≠ none ∧ (work .formatStart).who = .formatStart ∧ (work .formatStart).data = .settings 4 { running.settingsImage with identity := 9, floor := 8 }
    ∧ (((s 1).workDone false (work .formatStart)).store.identity, ((s 1).workDone false (work .formatStart)).store.format) = (9, some (.erase 2))
    ∧ ((s 12).discardJob (.records marker)).store.badCount < 13 ∧ 13 ≤ ((s 13).discardJob (.records marker)).store.badCount
    ∧ [(s 12).discardJob (.records marker), (s 13).discardJob (.records marker)].map (fun t => (t.store.format, t.store.exportMark))
      = [(some .mark, 9), (some .marker, running.store.exportMark)]
    ∧ (((s 1).workDone false (work .formatEnd)).store.format, ((s 1).workFailed false (work .formatStart)).store.format) = (none, none)
    ∧ (s 1).store.active = none ∧ ((s 1).workFailed false (work .formatStart)).store.activationDue = true := by
  decide +kernel

/-- A case 1 from second 1 on: with an end 31 days on; a millisecond more is bad; a second already used; a table full. -/
theorem test_meets_OpenCase :
    let body := identity [1, 0, 1, 0, 0, 0, 0, 0, 0x81, 0xDE, 0x28, 0, 0, 0, 1, 7, 0]
    let a := caseAskOf body
    body.length = 17 ∧ caseAskStray body = false ∧ a.caseNo ≠ 0 ∧ ¬ 999 < a.start.ms ∧ a.phases.isEmpty = false
    ∧ a.finish = some ⟨2678401, 0⟩ ∧ ¬ a.start.toMs + 2678400000 < (⟨2678401, 0⟩ : WTime).toMs
    ∧ a.start.toMs + 2678400000 < (⟨2678401, 1⟩ : WTime).toMs
    ∧ caseAskStray (identity [1, 0, 1, 0, 0, 0, 0, 0, 0, 0, 0, 0, 0, 0, 2, 7, 0]) = true
    ∧ running.findCase a.caseNo = none ∧ freeSlot running.cases.slots = some 0
    ∧ freeSlot (List.replicate 8 (some (case_ .live none))) = none
    ∧ running.nowMs < a.start.toMs ∧ running.store.newestTime = none
    ∧ ¬ (withCase (case_ .live none) 1 running).nowMs < a.start.toMs := by decide +kernel

theorem test_meets_CloseAndRelease :
    let s := withCase (case_ .running (some ⟨9, 0⟩)) 8 running
    (identity [77, 0]).length = 2 ∧ running.findCase 77 = none
    ∧ s.findCase 77 = some (7, case_ .running (some ⟨9, 0⟩)) ∧ s.case 7 = some (case_ .running (some ⟨9, 0⟩))
    ∧ s.nowMs < (⟨9, 0⟩ : WTime).toMs ∧ ¬ (withCase (case_ .running (some ⟨9, 0⟩)) 9 running).nowMs < (⟨9, 0⟩ : WTime).toMs
    ∧ (case_ .live none).state = .live ∧ (case_ .ended none).state ≠ .live ∧ s.store.markerQueue.length < 7 := by decide +kernel

theorem test_meets_Watch :
    let l := { Link.fresh with watch := some 3, tx := some ⟨0x81, 5, [], false⟩ }
    l.watch = some 3 ∧ l.tx = some ⟨0x81, 5, [], false⟩ ∧ { l with fifo := List.replicate 31 (windowSet (at_ 5)) }.fifo.length < 32
    ∧ 32 ≤ { l with fifo := List.replicate 32 (windowSet (at_ 5)) }.fifo.length ∧ l.dropCount + 1 < 2 ^ 32
    ∧ l.counters.watchDrop < 4294967295 ∧ (0 : Byte).toNat = 0 ∧ 16 < (17 : Byte).toNat ∧ (16 : Byte).toNat ≤ 16
    ∧ l.watch.isSome = true ∧ running.link.watch = none := by decide +kernel

theorem test_meets_AbortAndRestart :
    let s := withLink fun l => { l with slot := some ⟨0x28, 9, none⟩, tx := some ⟨0xF0, 0, [], false⟩ }
    s.listens = true ∧ s.link.rx = Receiver.hunting ∧ s.store.scan = none ∧ s.link.tx = some ⟨0xF0, 0, [], false⟩
    ∧ running.link.tx = none ∧ held.supply.power = .holdup ∧ running.supply.power ≠ .holdup
    ∧ (withLink fun l => { l with restarting := true }).link.restarting = true := by decide +kernel

/-- The unexported count on the export threshold and one below it, SATURATED, and a condition that stood already. -/
theorem test_meets_ExportCondition :
    let s (n : Nat) (saturated held : Bool) : State := { running with
      store := { running.store with unexportedList := List.replicate n 1, saturated := saturated }
      link := { running.link with exportThreshold := 2, exportCondition := held } }
    [s 2 false false, s 1 false false, s 0 true false, s 2 false true].map
      (fun s => (s.judgeExport.link.exportCondition, s.judgeExport.link.causes == s.link.causes))
      = [(true, false), (false, true), (true, false), (true, true)] := by decide +kernel

/-- While the scan runs, a request waits for its reply behind the frame that is sent. -/
def heldInScan : State :=
  { starting with link := { starting.link with slot := some ⟨0x02, 9, some [0x00]⟩, tx := some ⟨0x81, 5, [], false⟩ } }

theorem test_meets_AbortInScan : heldInScan.listens = true ∧ heldInScan.link.rx = Receiver.hunting
    ∧ heldInScan.store.scan.isSome = true ∧ heldInScan.link.slot = some ⟨0x02, 9, some [0x00]⟩
    ∧ heldInScan.link.tx = some ⟨0x81, 5, [], false⟩
    ∧ (nextOf (exec (.abort 6 []) heldInScan)).map (fun t => (t.link.slot, t.link.startingAborts)) = some (heldInScan.link.slot, [6]) := by
  decide +kernel

theorem test_held_serves : held.serving := ⟨⟨rfl, rfl, rfl, rfl⟩, rfl⟩

end Sys2Proof.Tests
end

