-- ==== Sys2Proof/Proofs/Measure.lean ====
section
/-!
PROOFS. The measurement unit (chapter 1): the bitwise search behind an RMS value, zero-crossing detection, and what forming a half-cycle
value set, a window value set and a frequency value each does to the unit; then the statements about SAMPLE_SET.
-/

namespace Sys2Proof.Machine

/-! ## RMS (R3) -/

/-- The search ends between a number that the test accepts and one that it refuses. -/
theorem largestBits_between (ok : Nat → Bool) (k acc : Nat) (low : ok acc = true) (high : ok (acc + 2 ^ k) = false) :
    ok (largestBits k ok acc) = true ∧ ok (largestBits k ok acc + 1) = false := by
  induction k generalizing acc with
  | zero => exact ⟨low, high⟩
  | succ k ih =>
    have split : acc + 2 ^ (k + 1) = acc + 2 ^ k + 2 ^ k := by rw [Nat.pow_succ]; omega
    unfold largestBits
    by_cases middle : ok (acc + 2 ^ k) = true
    · rw [if_pos middle]
      exact ih _ middle (split ▸ high)
    · rw [if_neg middle]
      exact ih _ low (by simpa using middle)

/-- Settles O10: the bits of an RMS value are the search's, and 17 of them reach past the root of full scale. -/
theorem rmsIsNearest : Obligations.RmsIsNearest := by
  intro q n positive fullScale
  have found := largestBits_between
    (fun r => decide ((2 * r - 1) * (2 * r - 1) * (n * (32767 * 32767)) ≤ 4 * (q * (60000 * 60000)))) 17 0
    (decide_eq_true (by omega)) (decide_eq_false (by omega))
  obtain ⟨below, above⟩ := found
  rw [decide_eq_true_eq] at below
  rw [decide_eq_false_iff_not, Nat.not_le, show ∀ r, 2 * (r + 1) - 1 = 2 * r + 1 by omega] at above
  exact ⟨below, above⟩

/-! ## Zero crossings (R10, R11) -/

/-- A crossing of an armed phase clears the mark and enters the tally. -/
theorem stepPhase_crossing (udecl n : Nat) {before now : SampleCode} (t : Tally) (low : before.toInt ≤ 0) (high : 0 < now.toInt) :
    stepPhase udecl n (some before) now true t
      = (false, ⟨t.count + 1, some (t.first.getD (crossingInstant n before.toInt now.toInt)),
          some (crossingInstant n before.toInt now.toInt)⟩) := by
  have unarming : arms udecl now = false := decide_eq_false (by omega)
  simp only [stepPhase, low, high, and_self, decide_true, Bool.and_self, if_true, unarming]

/-- Without a crossing the mark is kept or set, and the tally stays. -/
theorem stepPhase_noCrossing (udecl n : Nat) {last : Option SampleCode} {now : SampleCode} {armed : Bool} (t : Tally)
    (none_ : ∀ e, last = some e → ¬ (armed = true ∧ e.toInt ≤ 0 ∧ 0 < now.toInt)) :
    stepPhase udecl n last now armed t = (armed || arms udecl now, t) := by
  cases last with
  | none => rfl
  | some e =>
    have : (armed && decide (e.toInt ≤ 0 ∧ 0 < now.toInt)) = false := by
      rw [Bool.eq_false_iff, ne_eq, Bool.and_eq_true, decide_eq_true_eq]
      exact none_ e rfl
    simp only [stepPhase, this, Bool.false_eq_true, if_false]

/-- The instant of a crossing lies on the straight line between its two samples: at distance `-earlier` of `later - earlier` from the
earlier one, which is the one before the `n`th (R10). -/
theorem crossingInstant_onLine (position : Nat) {earlier later : Int} (low : earlier ≤ 0) (high : 0 < later) :
    ((crossingInstant (position + 1) earlier later).den : Int) = later - earlier
    ∧ ((crossingInstant (position + 1) earlier later).num : Int) = position * (later - earlier) - earlier := by
  have span : ((later - earlier).natAbs : Int) = later - earlier := Int.natAbs_of_nonneg (by omega)
  have depth : (earlier.natAbs : Int) = -earlier := Int.ofNat_natAbs_of_nonpos low
  refine ⟨span, ?_⟩
  simp only [crossingInstant, Nat.add_sub_cancel, Int.natCast_add, Int.natCast_mul]
  rw [span, depth, Int.sub_eq_add_neg (b := earlier) (a := position * (later - earlier))]

/-- The arming level in volts and codes (R10). -/
theorem arms_iff (udecl : Nat) (c : SampleCode) :
    arms udecl c = true ↔ c.toInt < 0
      ∧ 2 * (udecl * udecl) * (32767 * 32767) ≤ c.toInt.natAbs * c.toInt.natAbs * (600000 * 600000) := decide_eq_true_iff

theorem detect_phase (n : Nat) (x : SampleSet) (m : Measurement) (p : Phase) :
    ((m.detect n x).armed.get p, (m.detect n x).tallies.get p)
      = stepPhase m.udecl n (m.lastSample.map (·.phase p)) (x.phase p) (m.armed.get p) (m.tallies.get p) := by
  cases p <;> rfl

/-! ## Forming values (R3, R4, R6) -/

/-- The half-cycle value set that the open block forms with the block before it (R3). -/
def Measurement.halfCycleSet (stamp : TimeStamp) (before : List SampleSet) (m : Measurement) : HalfCycleSet where
  number := count32 m.halfCycles
  window := count32 m.windows
  position := m.windowHalfCycles + 1
  stamp := stamp
  values := perChannel fun ch => rmsOf (squares ch (before ++ m.current)) 128
  clipped := perChannel fun ch => anyClipped ch (before ++ m.current)
  fitted := fittedSet m.threePhases
  freq := m.freq

theorem formHalf_short (stamp : TimeStamp) {m : Measurement} (h : m.current.length < 64) : m.formHalf stamp = m := if_pos h

/-- The first block of a series goes alone. -/
theorem formHalf_first (stamp : TimeStamp) {m : Measurement} (h : 64 ≤ m.current.length) (first : m.previous = none) :
    m.formHalf stamp
      = { m with
          previous := some m.current, current := []
          outbox := m.outbox ++ [.block ⟨1, stamp, m.freq, m.current⟩] } := by
  rw [Measurement.formHalf, if_neg (by omega), first]
  rfl

/-- Behind every later block goes a half-cycle value set. -/
theorem formHalf_later (stamp : TimeStamp) {m : Measurement} {before : List SampleSet} (h : 64 ≤ m.current.length)
    (later : m.previous = some before) :
    m.formHalf stamp
      = { m with
          previous := some m.current, current := []
          halfCycles := count32 m.halfCycles, windowHalfCycles := m.windowHalfCycles + 1
          outbox := m.outbox ++
            [.block ⟨count32 m.halfCycles + 1, stamp, m.freq, m.current⟩, .halfCycle (m.halfCycleSet stamp before)] } := by
  have pair (l : List Output) (a b : Output) : l ++ [a] ++ [b] = l ++ [a, b] := List.append_assoc l [a] [b]
  rw [Measurement.formHalf, if_neg (by omega), later]
  simp only [hand, pair]
  rfl

/-- What forming a block and a half-cycle value set leaves alone, and that it counts the set in its window. -/
theorem formHalf_frame (stamp : TimeStamp) (m : Measurement) :
    ∃ current previous halfCycles new,
      m.formHalf stamp
        = { m with
            current := current, previous := previous, halfCycles := halfCycles, outbox := m.outbox ++ new
            windowHalfCycles := m.windowHalfCycles + if 64 ≤ m.current.length ∧ m.previous.isSome = true then 1 else 0 } := by
  by_cases h : 64 ≤ m.current.length
  · cases later : m.previous with
    | none =>
      rw [if_neg (by simp)]
      exact ⟨_, _, _, _, formHalf_first stamp h later⟩
    | some before =>
      rw [if_pos ⟨h, rfl⟩]
      exact ⟨_, _, _, _, formHalf_later stamp h later⟩
  · rw [if_neg (fun c => h c.1)]
    exact ⟨m.current, m.previous, m.halfCycles, [], by rw [formHalf_short stamp (by omega), List.append_nil]; rfl⟩

/-- The window value set that the open window forms (R6). -/
def Measurement.windowSet (stamp : TimeStamp) (m : Measurement) : WindowSet where
  window := count32 m.windows
  halfCycles := m.windowHalfCycles
  stamp := stamp
  values := m.windowSquares.map fun q => rmsOf q m.freq.samplesPerWindow
  clipped := m.windowClipped
  fitted := fittedSet m.threePhases

/-- The next window begins behind a window value set. -/
def Measurement.nextWindow (w : WindowSet) (m : Measurement) : Measurement :=
  { m with
    windows := count32 m.windows, windowSamples := 0, windowSquares := Quad.all 0, windowClipped := Quad.all false
    windowHalfCycles := 0, periodWindows := m.periodWindows + 1, latestWindow := some w }

theorem formWindow_open (stamp : TimeStamp) {m : Measurement} (h : m.windowSamples < m.freq.samplesPerWindow) :
    m.formWindow stamp = m := if_pos h

theorem formWindow_window (stamp : TimeStamp) {m : Measurement} (h : m.freq.samplesPerWindow ≤ m.windowSamples)
    (within : m.periodWindows + 1 < 50) :
    m.formWindow stamp
      = { m.nextWindow (m.windowSet stamp) with outbox := m.outbox ++ [.window (m.windowSet stamp)] } := by
  rw [Measurement.formWindow, if_neg (by omega)]
  exact if_pos within

/-- The 50th window of a period ends it: the frequency value goes ahead of the window value set. -/
theorem formWindow_period (stamp : TimeStamp) {m : Measurement} (h : m.freq.samplesPerWindow ≤ m.windowSamples)
    (last : 49 ≤ m.periodWindows) :
    m.formWindow stamp
      = { m.nextWindow (m.windowSet stamp) with
          periods := count32 m.periods, periodWindows := 0, tallies := Tri.all Tally.empty
          latestFrequency := some (m.frequencyValue (m.windowSet stamp) stamp)
          outbox := m.outbox ++ [.frequency (m.frequencyValue (m.windowSet stamp) stamp)] ++ [.window (m.windowSet stamp)] } := by
  have past : ¬ (m.nextWindow (m.windowSet stamp)).periodWindows < windowsPerPeriod := by
    show ¬ m.periodWindows + 1 < 50
    omega
  rw [Measurement.formWindow, if_neg (by omega)]
  exact if_neg past

/-- What forming a window value set leaves alone: no half-cycle value set goes out, and the tallies stay where no period ends. -/
theorem formWindow_frame (stamp : TimeStamp) (m : Measurement) :
    let u := m.formWindow stamp
    (u.freq, u.udecl, u.threePhases, u.samples, u.armed, u.lastSample)
        = (m.freq, m.udecl, m.threePhases, m.samples, m.armed, m.lastSample)
    ∧ (u.current, u.previous, u.halfCycles) = (m.current, m.previous, m.halfCycles)
    ∧ (∃ new, u.outbox = m.outbox ++ new ∧ ∀ v, .halfCycle v ∉ new)
    ∧ (m.windowSamples < m.freq.samplesPerWindow ∨ m.periodWindows + 1 < 50 → u.tallies = m.tallies) := by
  dsimp only
  by_cases h : m.windowSamples < m.freq.samplesPerWindow
  · rw [formWindow_open stamp h]
    exact ⟨rfl, rfl, ⟨[], by simp, by simp⟩, fun _ => rfl⟩
  · by_cases within : m.periodWindows + 1 < 50
    · rw [formWindow_window stamp (by omega) within]
      exact ⟨rfl, rfl, ⟨_, rfl, by simp⟩, fun _ => rfl⟩
    · rw [formWindow_period stamp (by omega) (by omega), List.append_assoc]
      exact ⟨rfl, rfl, ⟨_, rfl, by simp⟩, fun c => by omega⟩

/-! ## The sample set as a whole -/

/-- The unit with a sample set entered, before any value is formed. -/
def Measurement.entered (x : SampleSet) (m : Measurement) : Measurement := (m.detect m.periodSample x).gather x

theorem take_eq (stamp : TimeStamp) (x : SampleSet) (m : Measurement) :
    m.take stamp x = ((m.entered x).formHalf stamp).formWindow stamp := rfl

theorem exec_sampleSet (l1 l2 l3 ne : SampleCode) {s : State} (runs : s.coreRunning = true) :
    exec (.sampleSet l1 l2 l3 ne) s = .next { s with meas := s.meas.take s.now ⟨l1, l2, l3, ne⟩ } :=
  congrArg Host.Outcome.next (if_pos runs)

theorem exec_sampleSet_stopped (l1 l2 l3 ne : SampleCode) {s : State} (stopped : s.coreRunning = false) :
    exec (.sampleSet l1 l2 l3 ne) s = .next s :=
  congrArg Host.Outcome.next (if_neg (by simp [stopped]))

/-- What a sample set does whatever values it completes. -/
theorem take_frame (stamp : TimeStamp) (x : SampleSet) (m : Measurement) :
    let u := m.take stamp x
    (u.freq, u.udecl, u.threePhases, u.samples, u.armed, u.lastSample)
        = (m.freq, m.udecl, m.threePhases, count32 m.samples, (m.detect m.periodSample x).armed, some x)
    ∧ (∃ new, u.outbox = m.outbox ++ new)
    ∧ (m.windowSamples + 1 < m.freq.samplesPerWindow ∨ m.periodWindows + 1 < 50 →
        u.tallies = (m.detect m.periodSample x).tallies) := by
  dsimp only
  obtain ⟨current, previous, halfCycles, newHalf, half⟩ := formHalf_frame stamp (m.entered x)
  obtain ⟨kept, -, ⟨new, out, -⟩, tallies⟩ := formWindow_frame stamp ((m.entered x).formHalf stamp)
  rw [take_eq]
  rw [half] at kept out tallies ⊢
  exact ⟨kept, ⟨newHalf ++ new, out.trans (List.append_assoc _ _ _)⟩, tallies⟩

/-- Settles O7: detection phase by phase, and what forming values leaves alone. -/
theorem sampleSetEntersSeries : Obligations.SampleSetEntersSeries := by
  intro l1 l2 l3 ne s
  refine ⟨fun runs => ?_, exec_sampleSet_stopped l1 l2 l3 ne⟩
  obtain ⟨kept, out, tallies⟩ := take_frame s.now ⟨l1, l2, l3, ne⟩ s.meas
  simp only [Prod.mk.injEq] at kept
  obtain ⟨freq, udecl, three, samples, armed, last⟩ := kept
  refine ⟨_, exec_sampleSet l1 l2 l3 ne runs, samples, last, by rw [freq, udecl, three], out, fun p => ?_⟩
  have step := detect_phase s.meas.periodSample ⟨l1, l2, l3, ne⟩ s.meas p
  rw [armed]
  refine ⟨fun e ⟨before, marked, low, high⟩ => ?_, fun uncrossed => ?_⟩
  · rw [before, marked, Option.map_some, stepPhase_crossing _ _ _ low high, Prod.mk.injEq] at step
    obtain ⟨den, num⟩ := crossingInstant_onLine
      (s.meas.periodWindows * s.meas.freq.samplesPerWindow + s.meas.windowSamples) low high
    exact ⟨step.1, fun within => ⟨_, by rw [tallies within]; exact step.2, den, num⟩⟩
  · rw [stepPhase_noCrossing, Prod.mk.injEq] at step
    · refine ⟨?_, fun within => by rw [tallies within]; exact step.2⟩
      rw [step.1, Bool.or_eq_true, arms_iff]
    · intro c before ⟨marked, low, high⟩
      obtain ⟨e, last, rfl⟩ := Option.map_eq_some_iff.1 before
      exact uncrossed e ⟨last, marked, low, high⟩

/-- Settles O8: the block and the set go out where they are formed, and a window formed at the same sample goes behind them. -/
theorem sixtyFourthSampleHandsOver : Obligations.SixtyFourthSampleHandsOver := by
  intro l1 l2 l3 ne s runs length
  have full : 64 ≤ (s.meas.entered ⟨l1, l2, l3, ne⟩).current.length := by
    show 64 ≤ (s.meas.current ++ [_]).length
    rw [List.length_append, length]
    exact Nat.le_refl _
  obtain ⟨-, kept, ⟨new, out, noSet⟩, -⟩ := formWindow_frame s.now ((s.meas.entered ⟨l1, l2, l3, ne⟩).formHalf s.now)
  simp only [Prod.mk.injEq] at kept
  rw [← take_eq] at kept out
  refine ⟨s.meas.take s.now ⟨l1, l2, l3, ne⟩, ?_⟩
  cases previous : s.meas.previous with
  | none =>
    rw [formHalf_first s.now full previous] at kept out
    obtain ⟨current, before, halfCycles⟩ := kept
    refine ⟨_, new, exec_sampleSet l1 l2 l3 ne runs, out.trans (List.append_assoc _ _ _), rfl, rfl, rfl, current, before,
      fun _ => ⟨rfl, halfCycles, noSet⟩, ?_⟩
    rintro _ ⟨⟩
  | some before =>
    rw [formHalf_later s.now full previous] at kept out
    obtain ⟨current, behind, halfCycles⟩ := kept
    refine ⟨_, _ :: new, exec_sampleSet l1 l2 l3 ne runs, out.trans (List.append_assoc _ _ _), rfl, rfl, rfl, current, behind, ?_, ?_⟩
    · rintro ⟨⟩
    · rintro _ ⟨⟩
      exact ⟨rfl, halfCycles, _, new, rfl, rfl, rfl, rfl, rfl, rfl, rfl, rfl, rfl⟩

/-! ## Frequency (R11, R12) -/

/-- Rounding with a tie either way misses the quotient by half a unit at most. -/
theorem roundTie_nearest (num : Nat) {den : Nat} (positive : 0 < den) :
    2 * (roundTie num den * den) ≤ 2 * num + den ∧ 2 * num ≤ 2 * (roundTie num den * den) + den := by
  have whole : num / den * den + num % den = num := Nat.div_add_mod' num den
  have rest : num % den < den := Nat.mod_lt num positive
  have next : (num / den + 1) * den = num / den * den + den := Nat.succ_mul _ _
  unfold roundTie
  dsimp only
  repeat' split
  all_goals omega

theorem referencePhase_none {udecl : Nat} {w : WindowSet}
    (h : ∀ p, ¬ (w.fitted.has p = true ∧ udecl ≤ 2 * w.values.phase p)) : referencePhase udecl w = none := by
  refine List.find?_eq_none.2 fun p _ => ?_
  rw [Bool.and_eq_true, decide_eq_true_eq]
  exact h p

/-- The phases are searched by their codes. -/
theorem referencePhase_some {udecl : Nat} {w : WindowSet} {p : Phase}
    (fit : w.fitted.has p = true ∧ udecl ≤ 2 * w.values.phase p)
    (lowest : ∀ q : Phase, q.code < p.code → ¬ (w.fitted.has q = true ∧ udecl ≤ 2 * w.values.phase q)) :
    referencePhase udecl w = some p := by
  have passed : (w.fitted.has p && decide (udecl ≤ 2 * w.values.phase p)) = true := by
    rw [Bool.and_eq_true, decide_eq_true_eq]
    exact fit
  have refused (q : Phase) (h : q.code < p.code) : (w.fitted.has q && decide (udecl ≤ 2 * w.values.phase q)) = false := by
    rw [Bool.eq_false_iff, ne_eq, Bool.and_eq_true, decide_eq_true_eq]
    exact lowest q h
  unfold referencePhase Phase.all
  cases p with
  | l1 => simp only [List.find?_cons, passed]
  | l2 => simp only [List.find?_cons, passed, refused .l1 (by decide)]
  | l3 => simp only [List.find?_cons, passed, refused .l1 (by decide), refused .l2 (by decide)]

theorem frequencyOf_few (rate : Nat) {t : Tally} (few : t.count < 2) : frequencyOf rate t = .inl .shortSpan := by
  unfold frequencyOf
  split
  · exact if_pos (.inl few)
  · rfl

theorem frequencyOf_short (rate : Nat) {t : Tally} {f l : Instant} (first : t.first = some f) (last : t.last = some l)
    (short : (spanOf f l).1 < 5 * rate * (spanOf f l).2) : frequencyOf rate t = .inl .shortSpan := by
  unfold frequencyOf
  rw [first, last]
  exact if_pos (.inr (.inl short))

/-- A long enough span is divided to the nearest millihertz and judged against the range. -/
theorem frequencyOf_long (rate : Nat) {t : Tally} {f l : Instant} (many : 2 ≤ t.count) (first : t.first = some f)
    (last : t.last = some l) (long : 5 * rate * (spanOf f l).2 ≤ (spanOf f l).1) (positive : 0 < (spanOf f l).1) :
    let mhz := roundTie ((t.count - 1) * 1000 * rate * (spanOf f l).2) (spanOf f l).1
    (40000 ≤ mhz ∧ mhz ≤ 70000 → frequencyOf rate t = .inr mhz)
    ∧ (mhz < 40000 ∨ 70000 < mhz → frequencyOf rate t = .inl .outOfRange) := by
  have judged : ¬ (t.count < 2 ∨ (spanOf f l).1 < 5 * rate * (spanOf f l).2 ∨ (spanOf f l).1 = 0) := by omega
  intro mhz
  have outcome : frequencyOf rate t = if 40000 ≤ mhz ∧ mhz ≤ 70000 then .inr mhz else .inl .outOfRange := by
    unfold frequencyOf
    rw [first, last]
    exact if_neg judged
  exact ⟨fun inside => outcome.trans (if_pos inside), fun outside => outcome.trans (if_neg (by omega))⟩

theorem frequencyValue_noReference {m : Measurement} {w : WindowSet} (stamp : TimeStamp) (h : referencePhase m.udecl w = none) :
    m.frequencyValue w stamp = ⟨count32 m.periods, stamp, none, none, some .noReference, none⟩ := by
  unfold Measurement.frequencyValue
  rw [h]

theorem frequencyValue_invalid {m : Measurement} {w : WindowSet} {p : Phase} {r : InvalidReason} (stamp : TimeStamp)
    (h : referencePhase m.udecl w = some p) (e : frequencyOf m.freq.sampleRate (m.tallies.get p) = .inl r) :
    m.frequencyValue w stamp = ⟨count32 m.periods, stamp, none, some p, some r, some (m.tallies.get p).count⟩ := by
  unfold Measurement.frequencyValue
  rw [h]
  dsimp only
  rw [e]

theorem frequencyValue_valid {m : Measurement} {w : WindowSet} {p : Phase} {mhz : Nat} (stamp : TimeStamp)
    (h : referencePhase m.udecl w = some p) (e : frequencyOf m.freq.sampleRate (m.tallies.get p) = .inr mhz) :
    m.frequencyValue w stamp = ⟨count32 m.periods, stamp, some mhz, some p, none, some (m.tallies.get p).count⟩ := by
  unfold Measurement.frequencyValue
  rw [h]
  dsimp only
  rw [e]

/-- Whatever its tally gives, a frequency value carries number, stamp, reference phase and crossing count. -/
theorem frequencyValue_period (m : Measurement) (w : WindowSet) (stamp : TimeStamp) :
    (m.frequencyValue w stamp).period = count32 m.periods ∧ (m.frequencyValue w stamp).stamp = stamp := by
  unfold Measurement.frequencyValue
  dsimp only
  repeat' split
  all_goals exact ⟨rfl, rfl⟩

theorem frequencyValue_reference {m : Measurement} {w : WindowSet} {p : Phase} (stamp : TimeStamp)
    (h : referencePhase m.udecl w = some p) :
    (m.frequencyValue w stamp).reference = some p ∧ (m.frequencyValue w stamp).crossings = some (m.tallies.get p).count := by
  cases e : frequencyOf m.freq.sampleRate (m.tallies.get p) with
  | inl r => rw [frequencyValue_invalid stamp h e]; exact ⟨rfl, rfl⟩
  | inr mhz => rw [frequencyValue_valid stamp h e]; exact ⟨rfl, rfl⟩

theorem frequencyValue_byRule (m : Measurement) (w : WindowSet) (stamp : TimeStamp) :
    FrequencyByRule m.udecl m.freq.sampleRate w m.tallies (m.frequencyValue w stamp) := by
  refine ⟨fun noFit => ?_, fun p fit lowest => ?_⟩
  · rw [frequencyValue_noReference stamp (referencePhase_none noFit)]
    exact ⟨⟨rfl, rfl⟩, rfl, rfl⟩
  · have reference := referencePhase_some fit lowest
    have invalid {r : InvalidReason} (e : frequencyOf m.freq.sampleRate (m.tallies.get p) = .inl r) :
        (m.frequencyValue w stamp).frequency = none ∧ (m.frequencyValue w stamp).reason = some r := by
      rw [frequencyValue_invalid stamp reference e]
      exact ⟨rfl, rfl⟩
    obtain ⟨named, counted⟩ := frequencyValue_reference stamp reference
    refine ⟨named, counted, fun few => invalid (frequencyOf_few _ few), fun f l many first last => ?_⟩
    refine ⟨fun short => ?_, fun long positive => ?_⟩
    · exact invalid (frequencyOf_short _ first last short)
    · obtain ⟨inside, outside⟩ := frequencyOf_long m.freq.sampleRate many first last long positive
      obtain ⟨low, high⟩ := roundTie_nearest
        (((m.tallies.get p).count - 1) * 1000 * m.freq.sampleRate * (spanOf f l).2) positive
      refine ⟨_, low, high, fun range => ?_, fun range => invalid (outside range)⟩
      rw [frequencyValue_valid stamp reference (inside range)]
      exact ⟨rfl, rfl⟩

/-! ## The end of a window -/

/-- The sample set that makes 64 in the open block forms the half-cycle value set counted in its window. -/
theorem formHalf_entered (stamp : TimeStamp) (x : SampleSet) (m : Measurement) :
    ∃ current previous halfCycles new,
      (m.entered x).formHalf stamp
        = { m.entered x with
            current := current, previous := previous, halfCycles := halfCycles, outbox := m.outbox ++ new
            windowHalfCycles := m.windowHalfCycles + if 63 ≤ m.current.length ∧ m.previous.isSome = true then 1 else 0 } := by
  obtain ⟨current, previous, halfCycles, new, half⟩ := formHalf_frame stamp (m.entered x)
  have length : (m.entered x).current.length = m.current.length + 1 := List.length_append
  simp only [length, Nat.reduceLeDiff] at half
  exact ⟨current, previous, halfCycles, new, half⟩

/-- Settles O9: the window value set of the sums this sample has entered, and the frequency value of the tallies. -/
theorem windowEndHandsOver : Obligations.WindowEndHandsOver := by
  intro l1 l2 l3 ne s runs last
  have taken := exec_sampleSet l1 l2 l3 ne runs
  obtain ⟨current, previous, halfCycles, new, half⟩ := formHalf_entered s.now ⟨l1, l2, l3, ne⟩ s.meas
  have full : ((s.meas.entered ⟨l1, l2, l3, ne⟩).formHalf s.now).freq.samplesPerWindow
      ≤ ((s.meas.entered ⟨l1, l2, l3, ne⟩).formHalf s.now).windowSamples := by
    rw [half]
    exact Nat.le_of_eq last.symm
  have windows : ((s.meas.entered ⟨l1, l2, l3, ne⟩).formHalf s.now).periodWindows = s.meas.periodWindows := by
    rw [half]
    rfl
  rw [take_eq] at taken
  by_cases within : s.meas.periodWindows + 1 < 50
  · rw [formWindow_window s.now full (by omega), half] at taken
    exact ⟨_, _, taken, lastOf_append _ _, rfl, rfl, rfl, rfl, rfl, rfl, rfl, rfl, rfl, rfl, rfl, rfl, rfl,
      fun _ => ⟨rfl, rfl, rfl, rfl⟩, fun c => by omega⟩
  · have rule := frequencyValue_byRule ((s.meas.entered ⟨l1, l2, l3, ne⟩).formHalf s.now)
      (((s.meas.entered ⟨l1, l2, l3, ne⟩).formHalf s.now).windowSet s.now) s.now
    rw [half] at rule
    rw [formWindow_period s.now full (by omega), half] at taken
    refine ⟨_, _, taken, lastOf_append _ _, rfl, rfl, rfl, rfl, rfl, rfl, rfl, rfl, rfl, rfl, rfl, rfl, rfl,
      fun c => absurd c within, fun _ => ?_⟩
    obtain ⟨period, stamp⟩ := frequencyValue_period _ _ s.now
    exact ⟨_, _, List.append_assoc _ _ _, rfl, period, rfl, stamp, rfl, rfl, rule⟩

end Sys2Proof.Machine
end

