-- ==== Sys2Proof/Proofs/Notices.lean ====
section
/-!
PROOFS. Apply notifications (R194, R195): what the closing of R39 does to the tracker table, what serving the requests in flight
leaves alone, what the link unit takes over, and the statement about the five receivers.
-/

namespace Sys2Proof.Machine

/-- A command whose effect the store writer follows completes with that effect. -/
theorem completes_of_exec {c : Instr} {s u : State} (h : exec c s = .next u.pump) : Completes c s u := ⟨_, h, rfl, pump_frame u⟩

/-! ## Closing by settings (R39) -/

def Entry.markClosed (x : Entry) : Entry := { x with flags := { x.flags with closedBySettings := true } }

/-- The entry as closing by settings leaves it, with the stamp of the last value set taken in. -/
def Entry.closed (base : Option Nat) (lastStamp : Option TimeStamp) (x : Entry) : Entry :=
  x.markClosed.ended base (lastStamp.getD x.start)

/-- Closing marks, ends and moves the entry and keeps the rest of it. -/
theorem Entry.closed_spec (base : Option Nat) (lastStamp : Option TimeStamp) (x : Entry) :
    let y := x.closed base lastStamp
    let finish := lastStamp.getD x.start
    y.flags.closedBySettings = true ∧ y.state = x.leavesTo ∧ y.finish = some finish ∧ y.duration = some (x.durationTo finish)
    ∧ (y.kind, y.phases, y.start, y.halfCycles, y.steady, y.slot) = (x.kind, x.phases, x.start, x.halfCycles, x.steady, x.slot) := by
  unfold Entry.closed Entry.ended Entry.finishAt Entry.noteEpoch
  dsimp only
  split <;> exact ⟨rfl, rfl, rfl, rfl, rfl⟩

theorem Entry.leavesTo_ne_opened (x : Entry) : x.leavesTo ≠ .opened := by
  unfold Entry.leavesTo
  split <;> decide

/-- One entry closes. -/
def Tracker.closeOne (base : Option Nat) (i : Nat) (t : Tracker) : Tracker :=
  (t.modify (fun x => x.markClosed.finishAt base (t.lastStamp.getD x.start)) i).leaveOpen i

theorem closeAll_cons (base : Option Nat) (i : Nat) (l : List Nat) (t : Tracker) :
    t.closeAll base (i :: l) = (t.closeOne base i).closeAll base l := rfl

theorem entry_closeOne_of_ne (base : Option Nat) {i j : Nat} (h : j ≠ i) (t : Tracker) :
    (t.closeOne base i).entry j = t.entry j := by
  unfold Tracker.closeOne
  rw [entry_leaveOpen_of_ne h, entry_modify_of_ne _ h]

theorem Entry.finishAt_slot (base : Option Nat) (finish : TimeStamp) (x : Entry) : (x.finishAt base finish).slot = x.slot :=
  x.noteEpoch_slot base finish.epoch

section
variable {t : Tracker} {i : Nat} {x : Entry} (base : Option Nat) (h : t.entry i = some x)
include h

theorem entry_finishing :
    (t.modify (fun x => x.markClosed.finishAt base (t.lastStamp.getD x.start)) i).entry i
      = some (x.markClosed.finishAt base (t.lastStamp.getD x.start)) := by
  rw [entry_modify, h]
  rfl

theorem entry_closeOne : (t.closeOne base i).entry i = some (x.closed base t.lastStamp) := by
  unfold Tracker.closeOne Entry.closed Entry.ended
  dsimp only
  rw [entry_leaveOpen (entry_finishing base h), Entry.finishAt_slot]

theorem queue_closeOne :
    (t.closeOne base i).commitQueue = t.commitQueue ++ if x.leavesTo = .commitWait then [i] else [] := by
  unfold Tracker.closeOne Entry.leavesTo
  rw [queue_leaveOpen (entry_finishing base h), Entry.finishAt_slot, show x.markClosed.slot = x.slot from rfl]
  by_cases filling : x.slot.map (·.full) = some false
  · rw [if_pos filling, if_pos filling, if_neg (by decide), List.append_nil]
    rfl
  · rw [if_neg filling, if_neg filling, if_pos rfl]
    rfl

end

/-- Of the tracker, leaving OPEN changes table and orders only. -/
theorem leaveOpen_kept (i : Nat) (t : Tracker) :
    (t.leaveOpen i).lastStamp = t.lastStamp ∧ (t.leaveOpen i).windowFlag = t.windowFlag ∧ (t.leaveOpen i).missed = t.missed := by
  unfold Tracker.leaveOpen
  repeat' split
  all_goals exact ⟨rfl, rfl, rfl⟩

theorem closeOne_kept (base : Option Nat) (i : Nat) (t : Tracker) :
    (t.closeOne base i).lastStamp = t.lastStamp ∧ (t.closeOne base i).windowFlag = t.windowFlag
    ∧ (t.closeOne base i).missed = t.missed := leaveOpen_kept i _

theorem closeAll_kept (base : Option Nat) (l : List Nat) (t : Tracker) :
    (t.closeAll base l).lastStamp = t.lastStamp ∧ (t.closeAll base l).windowFlag = t.windowFlag
    ∧ (t.closeAll base l).missed = t.missed := by
  induction l generalizing t with
  | nil => exact ⟨rfl, rfl, rfl⟩
  | cons i l ih =>
    obtain ⟨stamp, flag, missed⟩ := closeOne_kept base i t
    rw [closeAll_cons, ← stamp, ← flag, ← missed]
    exact ih _

theorem entry_closeAll (base : Option Nat) {l : List Nat} (distinct : l.Nodup) {j : Nat} {x : Entry} {t : Tracker} (m : j ∈ l)
    (h : t.entry j = some x) : (t.closeAll base l).entry j = some (x.closed base t.lastStamp) := by
  induction l generalizing t with
  | nil => cases m
  | cons i l ih =>
    rw [List.nodup_cons] at distinct
    rw [closeAll_cons]
    by_cases here : j = i
    · subst here
      rw [entry_closeAll_of_notMem base distinct.1, entry_closeOne base h]
    · rw [← (closeOne_kept base i t).1]
      exact ih distinct.2 (List.mem_of_ne_of_mem here m) ((entry_closeOne_of_ne base here t).trans h)

/-- The entries that do not wait for their slot join the commit queue in the order in which they close. -/
theorem queue_closeAll (base : Option Nat) {l : List (Nat × Entry)} (distinct : (l.map (·.1)).Nodup) {t : Tracker}
    (h : ∀ e ∈ l, t.entry e.1 = some e.2) :
    (t.closeAll base (l.map (·.1))).commitQueue
      = t.commitQueue ++ (l.filter fun e => e.2.leavesTo == .commitWait).map (·.1) := by
  induction l generalizing t with
  | nil => exact (List.append_nil _).symm
  | cons a l ih =>
    rw [List.map_cons, List.nodup_cons] at distinct
    have others : ∀ e ∈ l, (t.closeOne base a.1).entry e.1 = some e.2 := fun e m => by
      have apart : e.1 ≠ a.1 := fun c => distinct.1 (List.mem_map.2 ⟨e, m, c⟩)
      exact (entry_closeOne_of_ne base apart t).trans (h e (List.mem_cons_of_mem a m))
    rw [List.map_cons, closeAll_cons, ih distinct.2 others, queue_closeOne base (h a List.mem_cons_self), List.append_assoc]
    by_cases waits : a.2.leavesTo = .commitWait <;> simp [waits]

theorem opened_nodup (t : Tracker) : (t.opened.map (·.1)).Nodup :=
  (filled_nodup t.entries).sublist (List.filter_sublist.map _)

theorem entry_closeStructural (base : Option Nat) {t : Tracker} {i : Nat} {x : Entry} (h : t.entry i = some x) :
    (t.closeStructural base).entry i = some (if x.state = .opened then x.closed base t.lastStamp else x) := by
  show (t.closeAll base (t.opened.map (·.1))).entry i = _
  by_cases opened : x.state = .opened
  · rw [if_pos opened]
    exact entry_closeAll base (opened_nodup t) (List.mem_map_of_mem (mem_opened.2 ⟨h, opened⟩)) h
  · rw [if_neg opened, entry_closeAll_of_notMem, h]
    intro m
    obtain ⟨⟨j, y⟩, listed, rfl⟩ := List.mem_map.1 m
    obtain ⟨stands, c⟩ := mem_opened.1 listed
    exact opened (Option.some.inj (h.symm.trans stands) ▸ c)

theorem entry_closeStructural_free (base : Option Nat) {t : Tracker} {i : Nat} (h : t.entry i = none) :
    (t.closeStructural base).entry i = none := by
  refine (entry_closeAll_of_notMem base (fun m => ?_) t).trans h
  obtain ⟨⟨j, y⟩, listed, rfl⟩ := List.mem_map.1 m
  have stands := (mem_opened.1 listed).1
  rw [h] at stands
  cases stands

/-- Nothing stays OPEN behind a closing by settings. -/
theorem opened_closeStructural (base : Option Nat) (t : Tracker) : (t.closeStructural base).opened = [] := by
  refine List.eq_nil_iff_forall_not_mem.2 fun ⟨i, y⟩ m => ?_
  obtain ⟨stands, opened⟩ := mem_opened.1 m
  cases before : t.entry i with
  | none =>
    rw [entry_closeStructural_free base before] at stands
    cases stands
  | some x =>
    rw [entry_closeStructural base before] at stands
    obtain rfl := Option.some.inj stands
    by_cases o : x.state = .opened
    · rw [if_pos o] at opened
      obtain ⟨-, left, -⟩ := x.closed_spec base t.lastStamp
      exact x.leavesTo_ne_opened (left.symm.trans opened)
    · rw [if_neg o] at opened
      exact o opened

theorem queue_closeStructural (base : Option Nat) (t : Tracker) :
    (t.closeStructural base).commitQueue
      = t.commitQueue
        ++ ((filled t.entries).filter fun e => e.2.state == .opened && e.2.leavesTo == .commitWait).map (·.1) := by
  refine (queue_closeAll base (opened_nodup t) fun e m => (mem_opened.1 m).1).trans ?_
  rw [Tracker.opened, List.filter_filter]
  simp only [Bool.and_comm]

/-- What a closing by settings clears and what it keeps beside table and orders. -/
theorem closeStructural_kept (base : Option Nat) (t : Tracker) :
    (t.closeStructural base).marks = [] ∧ (t.closeStructural base).detectors = Tri.all Detector.warm
    ∧ (t.closeStructural base).windowFlag = t.windowFlag ∧ (t.closeStructural base).missed = t.missed := by
  obtain ⟨-, flag, missed⟩ := closeAll_kept base (t.opened.map (·.1)) t
  exact ⟨rfl, rfl, flag, missed⟩

/-! ## Requests settled -/

theorem serveClaim_windowFlag (c : Claim) (s : State) : (s.serveClaim c).tracker.windowFlag = s.tracker.windowFlag := by
  unfold State.serveClaim
  repeat' split
  all_goals rfl

theorem serveRelink_windowFlag (k e : Nat) (s : State) : (s.serveRelink k e).tracker.windowFlag = s.tracker.windowFlag := by
  unfold State.serveRelink
  dsimp only
  repeat' split
  all_goals rfl

theorem serveHandBack_tracker (k : Nat) (s : State) : (s.serveHandBack k).tracker = s.tracker := by
  unfold State.serveHandBack
  repeat' split
  all_goals rfl

/-- Serving the requests in flight leaves the window flag mark alone. -/
theorem settleRequests_windowFlag (s : State) : s.settleRequests.tracker.windowFlag = s.tracker.windowFlag := by
  have claims (l : List Claim) (t : State) : (serveClaims l t).tracker.windowFlag = t.tracker.windowFlag := by
    induction l generalizing t with
    | nil => rfl
    | cons c l ih => exact (ih _).trans (serveClaim_windowFlag c t)
  have relinks (l : List (Nat × Nat)) (t : State) : (serveRelinks l t).tracker.windowFlag = t.tracker.windowFlag := by
    induction l generalizing t with
    | nil => rfl
    | cons r l ih => exact (ih _).trans (serveRelink_windowFlag r.1 r.2 t)
  have handBacks (l : List Nat) (t : State) : (serveHandBacks l t).tracker = t.tracker := by
    induction l generalizing t with
    | nil => rfl
    | cons k l ih => exact (ih _).trans (serveHandBack_tracker k t)
  unfold State.settleRequests
  dsimp only
  rw [claims, handBacks, relinks]

/-! ## The receivers -/

theorem completes_applyNotification {dest : ApplyReceiver} {n : Notice} {r : Reports} {s u : State} (runs : s.coreRunning = true)
    (taken : s.reports.takeNotice dest = some (n, r)) (effect : (s.setReports r).applyNotice dest n = u) :
    Completes (.applyNotification dest) s u := by
  subst effect
  refine completes_of_exec ?_
  show execApplyNotification dest s = _
  unfold execApplyNotification
  rw [runs, taken]

/-- A notice that the tracker takes leaves the units that its requests do not reach as they stand. -/
theorem applyTracker_elsewhere (n : Notice) (s : State) :
    let u := s.applyTracker n
    (u.time, u.supply, u.meas, u.agg, u.store, u.settings, u.cases)
      = (s.time, s.supply, s.meas, s.agg, s.store, s.settings, s.cases) := by
  have frame := settleRequests_track s
  show (s.settleRequests.time, s.settleRequests.supply, s.settleRequests.meas, s.settleRequests.agg, s.settleRequests.store,
    s.settleRequests.settings, s.settleRequests.cases) = _
  rw [frame.time, frame.supply, frame.meas, frame.agg, frame.store, frame.settings, frame.cases]

theorem applyTracker_structural {n : Notice} (h : structural n.changed = true) (s : State) :
    (s.applyTracker n).tracker
      = { s.settleRequests.tracker.closeStructural s.settleRequests.time.base with inForce := n.inForce } := by
  unfold State.applyTracker
  simp only [h, if_true, State.modifyTracker_tracker]

theorem applyTracker_other {n : Notice} (h : structural n.changed = false) (s : State) :
    (s.applyTracker n).tracker = { s.settleRequests.tracker with inForce := n.inForce } := by
  unfold State.applyTracker
  simp only [h, Bool.false_eq_true, if_false, State.modifyTracker_tracker]

section
variable {n : Notice} (major : structural n.changed = true)
include major

theorem applyTracker_entry {s : State} {i : Nat} {x : Entry} (stands : s.settleRequests.tracker.entry i = some x) :
    (s.applyTracker n).tracker.entry i
      = some (if x.state = .opened then x.closed s.settleRequests.time.base s.tracker.lastStamp else x) := by
  have stamp : s.settleRequests.tracker.lastStamp = s.tracker.lastStamp := (settleRequests_settled s).lastStamp
  rw [applyTracker_structural major, ← stamp]
  exact entry_closeStructural _ stands

theorem applyTracker_entry_free {s : State} {i : Nat} (free : s.settleRequests.tracker.entry i = none) :
    (s.applyTracker n).tracker.entry i = none := by
  rw [applyTracker_structural major]
  exact entry_closeStructural_free _ free

/-- A structural change leaves nothing OPEN, clears marks and detectors, keeps the window flag mark, and lets the entries that do not
wait for their slot join the commit queue in index order (R39). -/
theorem applyTracker_closes (s : State) :
    let t := (s.applyTracker n).tracker
    t.opened = [] ∧ t.marks = [] ∧ t.detectors = Tri.all Detector.warm ∧ t.windowFlag = s.tracker.windowFlag
    ∧ t.commitQueue = s.tracker.commitQueue
      ++ ((filled s.settleRequests.tracker.entries).filter
          fun e => e.2.state == .opened && e.2.leavesTo == .commitWait).map (·.1) := by
  have queue : s.settleRequests.tracker.commitQueue = s.tracker.commitQueue := (settleRequests_settled s).commitQueue
  obtain ⟨marks, detectors, flag, -⟩ := closeStructural_kept s.settleRequests.time.base s.settleRequests.tracker
  rw [applyTracker_structural major, ← settleRequests_windowFlag, ← queue]
  exact ⟨opened_closeStructural _ _, marks, detectors, flag, queue_closeStructural _ _⟩

end

/-- Any other change leaves marks, detectors, window flag mark, commit queue and all entries as they stand (R38). -/
theorem applyTracker_keeps {n : Notice} (minor : structural n.changed = false) (s : State) :
    let t := (s.applyTracker n).tracker
    t.marks = s.tracker.marks ∧ t.detectors = s.tracker.detectors ∧ t.windowFlag = s.tracker.windowFlag
    ∧ t.commitQueue = s.tracker.commitQueue ∧ ∀ i, t.entry i = s.settleRequests.tracker.entry i := by
  have settled := settleRequests_settled s
  rw [applyTracker_other minor]
  exact ⟨settled.marks, settled.detectors, settleRequests_windowFlag s, settled.commitQueue, fun _ => rfl⟩

/-- Judging the EXPORT_READY condition touches none of the link unit's settings. -/
theorem judgeExport_settings (count : Nat) (saturated : Bool) (l : Link) :
    (l.judgeExport count saturated).exportThreshold = l.exportThreshold
    ∧ (l.judgeExport count saturated).lineRate = l.lineRate
    ∧ (l.judgeExport count saturated).mask = l.mask ∧ (l.judgeExport count saturated).mode = l.mode := by
  unfold Link.judgeExport
  dsimp only
  split <;> exact ⟨rfl, rfl, rfl, rfl⟩

/-- The link unit takes the threshold always, and mask and mode together when either changed. -/
theorem applyLink_settings (n : Notice) (s : State) :
    let l := (s.applyLink n).link
    l.exportThreshold = n.inForce.set.exportThreshold ∧ l.lineRate = s.link.lineRate
    ∧ (l.mask, l.mode) =
        if .attentionMask ∈ n.changed ∨ .attentionMode ∈ n.changed then
          (n.inForce.set.attentionMask, n.inForce.set.attentionMode)
        else (s.link.mask, s.link.mode) := by
  unfold State.applyLink
  simp only [State.judgeExport_link, Bool.or_eq_true, List.contains_iff_mem]
  split
  all_goals
    obtain ⟨threshold, rate, mask, mode⟩ := judgeExport_settings s.store.unexportedList.length s.store.saturated _
    exact ⟨threshold, rate, Prod.ext mask mode⟩

section
variable {n : Notice} {rest : List Notice} {r : Reports}

theorem takeNotice_measurement (h : r.applyMeasurement = n :: rest) :
    r.takeNotice .measurement = some (n, { r with applyMeasurement := rest }) := by simp only [Reports.takeNotice, h]

theorem takeNotice_tracker (h : r.applyTracker = n :: rest) :
    r.takeNotice .tracker = some (n, { r with applyTracker := rest }) := by simp only [Reports.takeNotice, h]

theorem takeNotice_capture (h : r.applyCapture = n :: rest) :
    r.takeNotice .capture = some (n, { r with applyCapture := rest }) := by simp only [Reports.takeNotice, h]

theorem takeNotice_aggregator (h : r.applyAggregator = n :: rest) :
    r.takeNotice .aggregator = some (n, { r with applyAggregator := rest }) := by simp only [Reports.takeNotice, h]

theorem takeNotice_link (h : r.applyLink = n :: rest) :
    r.takeNotice .link = some (n, { r with applyLink := rest }) := by simp only [Reports.takeNotice, h]

end

/-- Settles O40: each receiver's own lemma, and for the tracker the closing of R39 behind the requests settled. -/
theorem noticesReachFiveBlocks : Obligations.NoticesReachFiveBlocks := by
  intro n rest s runs
  refine ⟨fun notices => ?_, fun notices => ?_, fun notices => ?_, fun notices => ?_, fun notices => ?_⟩
  · exact ⟨_, completes_applyNotification runs (takeNotice_measurement notices) rfl,
      fun same => if_pos same, fun other => if_neg other⟩
  · refine ⟨_, completes_applyNotification runs (takeNotice_tracker notices) rfl, rfl, applyTracker_elsewhere n _, ?_⟩
    refine ⟨fun major => ?_, fun minor => applyTracker_keeps minor _⟩
    obtain ⟨opened, marks, detectors, flag, queue⟩ :=
      applyTracker_closes major { s with reports := { s.reports with applyTracker := rest } }
    refine ⟨opened, marks, detectors, flag, fun i free => applyTracker_entry_free major free, fun i x stands => ?_, queue⟩
    have closing := applyTracker_entry major stands
    exact ⟨fun stays => closing.trans (congrArg some (if_neg stays)),
      fun opened => ⟨_, closing.trans (congrArg some (if_pos opened)), x.closed_spec _ _⟩⟩
  · exact completes_applyNotification runs (takeNotice_capture notices) rfl
  · exact completes_applyNotification runs (takeNotice_aggregator notices) rfl
  · obtain ⟨threshold, rate, attention⟩ := applyLink_settings n { s with reports := { s.reports with applyLink := rest } }
    refine ⟨_, completes_applyNotification runs (takeNotice_link notices) rfl, rfl, threshold, rate,
      fun changed => ?_, fun maskStays modeStays => ?_⟩
    · exact Prod.mk.inj (attention.trans (if_pos changed))
    · exact Prod.mk.inj (attention.trans (if_neg (not_or.2 ⟨maskStays, modeStays⟩)))

end Sys2Proof.Machine
end

