-- ==== Sys2Proof/Proofs/Capture.lean ====
section
/-!
PROOFS. The capture unit (chapter 3): what serving a claim, a relink and a hand-back does, outcome by outcome, and what a sample block
does to a slot; then the statements about SAMPLE_BLOCK, SLOT_CLAIM, RELINK and HAND_BACK.
-/

namespace Sys2Proof.Machine

/-- Serving a request that has been taken from the reports in flight reaches the tracker and the capture unit alone. -/
theorem sameElsewhere_of_served {r : Reports} {s t : State} (frame : TrackFrame { s with reports := r } t)
    (settled : Settled { s with reports := r } t) : SameElsewhere s t :=
  ⟨frame.pending, frame.supply, frame.time, frame.meas, frame.agg, frame.store, frame.settings, frame.cases, settled.link⟩

/-! ## Claims (R48, R49) -/

/-- Slot `i` is granted to a claim and linked to its entry. -/
def State.grantSlot (c : Claim) (i : Nat) (s : State) : State :=
  { s with
    capture := { s.capture with slots := putSlot (some (s.capture.granted c)) i s.capture.slots }
    tracker := s.tracker.modify (fun x => { x with slot := some ⟨i, false⟩ }) c.entry }

section
variable {c : Claim} {s : State}

theorem claimStands_some {x : Entry} (opened : x.state = .opened) (start : x.start = c.stamp) (unlinked : x.slot = none)
    (unrefused : x.flags.noCapture = none) : claimStands c (some x) = true := by
  simp [claimStands, opened, start, unlinked, unrefused]

theorem serveClaim_stale (stale : claimStands c (s.tracker.entry c.entry) = false) : s.serveClaim c = s := by
  simp [State.serveClaim, stale]

section
variable (stands : claimStands c (s.tracker.entry c.entry) = true)
include stands

theorem serveClaim_holdup (holdup : s.inHoldup = true) :
    s.serveClaim c = s.modifyTracker (·.modify (Entry.refuse .supply) c.entry) := by
  simp [State.serveClaim, stands, holdup]

theorem serveClaim_noSlot (good : s.inHoldup = false) (taken : freeSlot s.capture.slots = none) :
    s.serveClaim c = s.modifyTracker (·.modify (Entry.refuse .slot) c.entry) := by
  simp [State.serveClaim, stands, good, taken]

theorem serveClaim_grants (good : s.inHoldup = false) {i : Nat} (free : freeSlot s.capture.slots = some i) :
    s.serveClaim c = s.grantSlot c i := by
  simp [State.serveClaim, State.grantSlot, stands, good, free]

end

/-- A claim is passed over, refused, or granted a FREE slot. -/
theorem serveClaim_cases (c : Claim) (s : State) :
    s.serveClaim c = s
    ∨ (∃ r, s.serveClaim c = s.modifyTracker (·.modify (Entry.refuse r) c.entry))
    ∨ ∃ i, freeSlot s.capture.slots = some i ∧ s.serveClaim c = s.grantSlot c i := by
  cases stands : claimStands c (s.tracker.entry c.entry) with
  | false => exact .inl (serveClaim_stale stands)
  | true =>
    cases holdup : s.inHoldup with
    | true => exact .inr (.inl ⟨_, serveClaim_holdup stands holdup⟩)
    | false =>
      cases free : freeSlot s.capture.slots with
      | none => exact .inr (.inl ⟨_, serveClaim_noSlot stands holdup free⟩)
      | some i => exact .inr (.inr ⟨i, rfl, serveClaim_grants stands holdup free⟩)

/-- A claim reaches its own entry alone. -/
theorem serveClaim_entry_of_ne {j : Nat} (h : j ≠ c.entry) : (s.serveClaim c).tracker.entry j = s.tracker.entry j := by
  obtain same | ⟨r, refused⟩ | ⟨i, -, granted⟩ := serveClaim_cases c s
  · rw [same]
  · rw [refused]
    exact entry_modify_of_ne _ h _
  · rw [granted]
    exact entry_modify_of_ne _ h _

/-- A claim leaves every slot that is not FREE as it stands. -/
theorem serveClaim_slot_taken {i : Nat} {g : CaptureSlot} (taken : slotAt s.capture.slots i = some g) :
    slotAt (s.serveClaim c).capture.slots i = some g := by
  obtain same | ⟨r, refused⟩ | ⟨k, free, granted⟩ := serveClaim_cases c s
  · rwa [same]
  · rwa [refused]
  · have apart : i ≠ k := by
      rintro rfl
      rw [(freeSlot_some free).1] at taken
      cases taken
    rw [granted]
    exact (slotAt_putSlot_of_ne _ apart _).trans taken

theorem serveClaims_slot_taken {i : Nat} {g : CaptureSlot} (l : List Claim) {s : State}
    (taken : slotAt s.capture.slots i = some g) : slotAt (serveClaims l s).capture.slots i = some g := by
  induction l generalizing s with
  | nil => exact taken
  | cons c l ih => exact ih (serveClaim_slot_taken taken)

theorem serveClaims_settled (l : List Claim) (s : State) : Settled s (serveClaims l s) := by
  induction l generalizing s with
  | nil => exact Settled.refl s
  | cons c l ih => exact (Settled.claim c s).trans (ih _)

/-- A refusal of an entry that carries no reason yet sets its own (R55). -/
theorem entry_refuse (r : NoCapture) {i : Nat} {x : Entry} {t : Tracker} (stands : t.entry i = some x)
    (unrefused : x.flags.noCapture = none) :
    (t.modify (Entry.refuse r) i).entry i = some { x with flags := { x.flags with noCapture := some r } } := by
  rw [entry_modify, stands]
  simp [Entry.refuse, unrefused]

/-- The blocks a granted slot holds are those of its capture that the ring holds (R49). -/
theorem mem_granted_held {b : SampleBlock} (c : Claim) (u : Capture) :
    b ∈ (u.granted c).held ↔ b ∈ u.ring
      ∧ c.halfCycle + 2 ≤ b.number + 2 * u.preCycles ∧ b.number ≤ c.halfCycle + 1 + 2 * u.postCycles :=
  List.mem_filter.trans (and_congr_right fun _ => decide_eq_true_iff)

theorem exec_slotClaim {rest : List Claim} (runs : s.coreRunning = true) (due : s.reports.claims = c :: rest) :
    exec .slotClaim s = .next ({ s with reports := { s.reports with claims := rest } }.serveClaim c) := by
  show execSlotClaim s = _
  simp only [execSlotClaim, due, runs, if_true]

end

/-- Settles O17: the three outcomes of a claim that stands. -/
theorem claimTakesLowestFreeSlot : Obligations.ClaimTakesLowestFreeSlot := by
  intro c rest x s runs due stands opened start unlinked unrefused
  let s' : State := { s with reports := { s.reports with claims := rest } }
  have valid : claimStands c (s'.tracker.entry c.entry) = true := by
    show claimStands c (s.tracker.entry c.entry) = true
    rw [stands]
    exact claimStands_some opened start unlinked unrefused
  have frame : TrackFrame s' (s'.serveClaim c) := serveClaim_track s' c
  have settled : Settled s' (s'.serveClaim c) := Settled.claim c s'
  refine ⟨s'.serveClaim c, exec_slotClaim runs due, sameElsewhere_of_served frame settled, settled.reports, frame.ring,
    fun j h => serveClaim_entry_of_ne h, fun holdup => ?_, fun good taken => ?_, fun i good free => ?_⟩
  · rw [serveClaim_holdup valid holdup]
    exact ⟨rfl, entry_refuse .supply stands unrefused⟩
  · rw [serveClaim_noSlot valid good taken]
    exact ⟨rfl, entry_refuse .slot stands unrefused⟩
  · rw [serveClaim_grants valid good free]
    have linked : (s'.grantSlot c i).tracker.entry c.entry = some { x with slot := some ⟨i, false⟩ } :=
      (entry_modify _ _ _).trans (congrArg (Option.map _) stands)
    exact ⟨linked, fun j h => slotAt_putSlot_of_ne _ h _, s.capture.granted c, slotAt_putSlot _ (freeSlot_some free).2,
      rfl, rfl, rfl, rfl, rfl, rfl, fun b => mem_granted_held c s.capture⟩

/-! ## Relinks and hand-backs (R51, R52) -/

section
variable {k : Nat} {c : CaptureSlot} {s : State}

/-- A slot that its own entry has given up: no entry stands there, or it is linked elsewhere (log 19). -/
theorem stillLinked_eq_false (givenUp : ∀ y, s.tracker.entry c.entry = some y → y.slot.map (·.slot) ≠ some k) :
    s.stillLinked k c = false := by
  unfold State.stillLinked
  cases own : s.tracker.entry c.entry with
  | none => rfl
  | some y => exact beq_eq_false_iff_ne.2 (givenUp y own)

section
variable (held : slotAt s.capture.slots k = some c) (givenUp : s.stillLinked k c = false)
include held givenUp

theorem serveRelink_served (e : Nat) :
    s.serveRelink k e
      = { s with
          capture := s.capture.modifySlot (fun c => { c with entry := e }) k
          tracker := s.tracker.modify (fun x => { x with slot := some ⟨k, c.state != .filling⟩ }) e } := by
  simp [State.serveRelink, held, givenUp]

theorem serveHandBack_served (unwritten : c.state ≠ .writing) : s.serveHandBack k = s.modifyCapture (·.release k) := by
  simp [State.serveHandBack, held, givenUp, unwritten]

end

theorem exec_relink {e : Nat} {rest : List (Nat × Nat)} (runs : s.coreRunning = true) (due : s.reports.relinks = (k, e) :: rest) :
    exec .relink s = .next ({ s with reports := { s.reports with relinks := rest } }.serveRelink k e) := by
  show execRelink s = _
  simp only [execRelink, due, runs, if_true]

theorem exec_handBack {rest : List Nat} (runs : s.coreRunning = true) (due : s.reports.handBacks = k :: rest) :
    exec .handBack s = .next ({ s with reports := { s.reports with handBacks := rest } }.serveHandBack k) := by
  show execHandBack s = _
  simp only [execHandBack, due, runs, if_true]

end

/-- Settles O18: a request for a slot given up is served, and what is served changes one slot and, for a relink, one entry. -/
theorem relinkAndHandBack : Obligations.RelinkAndHandBack := by
  refine ⟨fun k e rest c x s runs due held givenUp stands => ?_, fun k rest c s runs due held unwritten givenUp => ?_⟩
  · let s' : State := { s with reports := { s.reports with relinks := rest } }
    have frame : TrackFrame s' (s'.serveRelink k e) := serveRelink_track s' k e
    have settled : Settled s' (s'.serveRelink k e) := Settled.relink k e s'
    refine ⟨s'.serveRelink k e, exec_relink runs due, sameElsewhere_of_served frame settled, settled.reports, frame.ring, ?_⟩
    rw [serveRelink_served (s := s') held (stillLinked_eq_false givenUp)]
    have relinked : slotAt (s.capture.modifySlot (fun c => { c with entry := e }) k).slots k = some { c with entry := e } :=
      (slotAt_modifySlot _ _ _).trans (congrArg (Option.map _) held)
    have linked : (s.tracker.modify (fun x => { x with slot := some ⟨k, c.state != .filling⟩ }) e).entry e
        = some { x with slot := some ⟨k, c.state != .filling⟩ } :=
      (entry_modify _ _ _).trans (congrArg (Option.map _) stands)
    exact ⟨relinked, fun j h => slotAt_modifySlot_of_ne _ h _, linked, fun j h => entry_modify_of_ne _ h _⟩
  · let s' : State := { s with reports := { s.reports with handBacks := rest } }
    have frame : TrackFrame s' (s'.serveHandBack k) := serveHandBack_track s' k
    have settled : Settled s' (s'.serveHandBack k) := Settled.handBack k s'
    refine ⟨s'.serveHandBack k, exec_handBack runs due, sameElsewhere_of_served frame settled, settled.reports,
      serveHandBack_tracker k s', frame.ring, ?_⟩
    rw [serveHandBack_served (s := s') held (stillLinked_eq_false givenUp) unwritten]
    exact ⟨slotAt_putSlot_none _ _, fun j h => slotAt_putSlot_of_ne _ h _⟩

/-! ## Sample blocks (R46, R50) -/

section
variable {b : SampleBlock} {c : CaptureSlot} {s : State} {i : Nat}

theorem append_included (filling : c.state = .filling) (included : c.includes b.number = true) :
    c.append b = { c with held := c.held ++ [b], state := if b.number = c.lastBlock then .full else .filling } := by
  simp [CaptureSlot.append, filling, included]

theorem append_other (other : c.state ≠ .filling ∨ c.includes b.number = false) : c.append b = c := by
  obtain unfilling | outside := other
  · simp [CaptureSlot.append, unfilling]
  · simp [CaptureSlot.append, outside]

/-- A FILLING slot that takes the last block of its capture is reported for its entry (R50). -/
theorem mem_fullReports {slots : List (Option CaptureSlot)} (holds : slotAt slots i = some c) (filling : c.state = .filling)
    (included : c.includes b.number = true) (last : b.number = c.lastBlock) : (c.entry, i) ∈ fullReports b slots := by
  refine List.mem_filterMap.2 ⟨(i, c), mem_filled.2 holds, ?_⟩
  rw [last] at included
  simp [filling, included, last]

theorem slotAt_takeBlock (holds : slotAt s.capture.slots i = some c) :
    slotAt (s.takeBlock b).capture.slots i = some (c.append b) :=
  (slotAt_map _ _ _).trans (congrArg (Option.map _) holds)

/-- With the block the ring drops all but its newest 16 (R46). -/
theorem takeBlock_ring (b : SampleBlock) (s : State) :
    (s.takeBlock b).capture.ring = (s.capture.ring ++ [b]).drop (s.capture.ring.length + 1 - 16) := by
  simp [State.takeBlock, ringDepth]

/-- A sample block reaches the capture unit and the reports alone. -/
theorem sameElsewhere_takeBlock {s₀ : State} (h : SameElsewhere s₀ s) : SameElsewhere s₀ (s.takeBlock b) :=
  ⟨h.pending, h.supply, h.time, h.meas, h.agg, h.store, h.settings, h.cases, h.link⟩

theorem sameElsewhere_serveOverdueClaims (s : State) : SameElsewhere s s.serveOverdueClaims :=
  sameElsewhere_of_served (serveClaims_track _ _) (serveClaims_settled _ _)

/-- The claims served ahead of a block leave every slot that is not FREE as it stands. -/
theorem serveOverdueClaims_slot_taken (taken : slotAt s.capture.slots i = some c) :
    slotAt s.serveOverdueClaims.capture.slots i = some c := serveClaims_slot_taken _ taken

theorem exec_sampleBlock {rest : List Output} (runs : s.coreRunning = true) (due : dueBlock s.meas.outbox = some (b, rest)) :
    exec .sampleBlock s = .next ((s.setOutbox rest).serveOverdueClaims.takeBlock b) := by
  show execSampleBlock s = _
  simp only [execSampleBlock, due, runs, Bool.not_true, Bool.false_eq_true, if_false]

end

/-- Settles O16: the claims served first keep the ring and the slots that are taken, and the block is then appended slot by slot. -/
theorem sampleBlockEntersRing : Obligations.SampleBlockEntersRing := by
  intro b rest s runs due
  let u : State := (s.setOutbox rest).serveOverdueClaims
  have frame : TrackFrame (s.setOutbox rest) u := serveOverdueClaims_track _
  have elsewhere : SameElsewhere (s.setOutbox rest) u := sameElsewhere_serveOverdueClaims _
  have ring : u.capture.ring = s.capture.ring := frame.ring
  refine ⟨u.takeBlock b, exec_sampleBlock runs due, ring ▸ takeBlock_ring b u, frame.meas, sameElsewhere_takeBlock elsewhere,
    fun i c holds => ?_⟩
  have kept : slotAt u.capture.slots i = some c := serveOverdueClaims_slot_taken holds
  have taken := slotAt_takeBlock (b := b) kept
  refine ⟨fun filling included => ⟨?_, fun last => ?_⟩, fun other => ?_⟩
  · rw [taken, append_included filling included]
    rfl
  · exact List.mem_append_right _ (mem_fullReports kept filling included last)
  · rw [taken, append_other other]

end Sys2Proof.Machine
end

