-- ==== Sys2Proof/Proofs/Aggregate.lean ====
section
/-!
PROOFS. The interval aggregator (chapter 4): how an interval fixes its settings, what a window adds to a tally and what the tally's record
shows of it, what a close does to the output queue; then the statements about WINDOW_VALUE_SET at the boundary, FREQUENCY_VALUE and
MISSED_COUNTER_REPORT.
-/

namespace Sys2Proof.Machine

/-! ## Figures of a record (R66) -/

/-- The rounded quotient is the mean as a record carries it. -/
theorem meanOf_isMean (sum count : Nat) : IsMean sum count (meanOf sum count) := by
  refine ⟨fun empty => if_pos empty, fun positive => ⟨_, if_neg (by omega), ?_, ?_⟩⟩
  · calc 2 * ((2 * sum + count) / (2 * count)) * count
        = (2 * sum + count) / (2 * count) * (2 * count) := by rw [Nat.mul_comm 2, Nat.mul_assoc]
      _ ≤ 2 * sum + count := Nat.div_mul_le_self _ _
  · calc 2 * sum + count
        < 2 * count * ((2 * sum + count) / (2 * count) + 1) := Nat.lt_mul_div_succ _ (by omega)
      _ = 2 * ((2 * sum + count) / (2 * count) + 1) * count := Nat.mul_right_comm _ _ _

theorem optNum_minOpt (a : Option Nat) (n : Nat) : optNum (minOpt a n) = min (a.getD n) n := by
  cases a with
  | none => exact (Nat.min_self n).symm
  | some m => rfl

theorem optNum_maxOpt (a : Option Nat) (n : Nat) : optNum (maxOpt a n) = max (a.getD n) n := by
  cases a with
  | none => exact (Nat.max_self n).symm
  | some m => rfl

theorem optNum_eq_getD (a : Option Nat) : optNum a = a.getD 0 := by cases a <;> rfl

@[simp] theorem Tri.get_mapP {α β : Type} (f : Phase → α → β) (t : Tri α) (p : Phase) : (t.mapP f).get p = f p (t.get p) := by
  cases p <;> rfl

/-- A window enters sum and count when it is unflagged (R62). -/
theorem PhaseTally.take_sums (f : IntervalFixed) (flagged clipped : Bool) (v : Nat) (t : PhaseTally) :
    (t.take f flagged clipped v).sum = t.sum + (if flagged then 0 else 1) * v
    ∧ (t.take f flagged clipped v).count = t.count + if flagged then 0 else 1 := by
  cases flagged <;> simp [PhaseTally.take]

theorem NeTally.take_sums (flagged clipped : Bool) (v : Nat) (t : NeTally) :
    (t.take flagged clipped v).sum = t.sum + (if flagged then 0 else 1) * v
    ∧ (t.take flagged clipped v).count = t.count + if flagged then 0 else 1 := by
  cases flagged <;> simp [NeTally.take]

/-- An unflagged value outside the band is counted so (R62). -/
theorem PhaseTally.take_outside (f : IntervalFixed) (flagged clipped : Bool) (v : Nat) (t : PhaseTally) :
    (t.take f flagged clipped v).outside = t.outside + if !flagged && outsideBand f.udecl f.tolerance v then 1 else 0 := by
  unfold PhaseTally.take
  dsimp only
  split <;> rfl

section
variable (atBoundary : Bool) (f : IntervalFixed) (a : Accumulator)

theorem record_phases (p : Phase) : (a.record atBoundary f).phases.get p = (a.phases.get p).figures := Tri.get_mapP _ _ p

theorem record_clipped_phase (p : Phase) : (a.record atBoundary f).clipped.phase p = (a.phases.get p).clipped := by cases p <;> rfl

theorem record_frequency :
    (a.record atBoundary f).frequency
      = (meanOf a.frequency.sum a.frequency.valid).map fun m => (m, optNum a.frequency.lowest, optNum a.frequency.highest) := by
  unfold Accumulator.record
  cases meanOf a.frequency.sum a.frequency.valid <;> rfl

/-- The record's frequency figures are those of the valid values. -/
theorem record_frequency_figures :
    IsMean a.frequency.sum a.frequency.valid ((a.record atBoundary f).frequency.map (·.1))
    ∧ ∀ m, (a.record atBoundary f).frequency = some m → m.2 = (a.frequency.lowest.getD 0, a.frequency.highest.getD 0) := by
  rw [record_frequency]
  constructor
  · rw [Option.map_map]
    show IsMean _ _ (Option.map id _)
    rw [Option.map_id_apply]
    exact meanOf_isMean _ _
  · intro m shown
    obtain ⟨mean, -, rfl⟩ := Option.map_eq_some_iff.1 shown
    rw [optNum_eq_getD, optNum_eq_getD]

end

/-! ## The settings of an interval (R61) -/

/-- The settings an empty interval fixes at its first window. -/
def Aggregator.settingsAt (t : TimeStamp) (a : Aggregator) : IntervalFixed where
  first := t
  last := t
  boundary := boundaryAfter a.inForce.set.intervalLength t
  generation := a.inForce.generation
  fitted := fittedSet a.inForce.set.threePhases
  length := a.inForce.set.intervalLength
  tolerance := a.inForce.set.tolerance
  udecl := a.inForce.set.udecl

/-- The aggregator with the settings of its open interval fixed, by a window stamped `t` when none came before. -/
def Aggregator.withSettings (t : TimeStamp) (a : Aggregator) : Aggregator := if a.acc.fixed.isNone then a.fix t else a

section
variable (t : TimeStamp) {a : Aggregator}

theorem withSettings_empty (empty : a.acc.fixed = none) : a.withSettings t = a.fix t := if_pos (Option.isNone_iff_eq_none.2 empty)

theorem withSettings_of_fixed (stays : a.acc.fixed ≠ none) : a.withSettings t = a := if_neg (mt Option.isNone_iff_eq_none.1 stays)

/-- Fixing the settings tallies nothing and leaves queue and settings in force. -/
theorem withSettings_eq (a : Aggregator) :
    a.withSettings t
      = { a with
          previousLength := (a.withSettings t).previousLength
          acc := { a.acc with causes := (a.withSettings t).acc.causes, fixed := some (a.acc.fixed.getD (a.settingsAt t)) } } := by
  obtain ⟨⟨fixed, _⟩, _⟩ := a
  cases fixed <;> rfl

/-- A length that differs from the previous one is a cause. -/
theorem withSettings_causes_changed {l : Nat} (empty : a.acc.fixed = none) (previous : a.previousLength = some l)
    (differs : l ≠ a.inForce.set.intervalLength) :
    (a.withSettings t).acc.causes = { a.acc.causes with lengthChange := true } := by
  rw [withSettings_empty t empty]
  simp [Aggregator.fix, previous, differs]

/-- An interval that is fixed already, and an absent or equal previous length, cause nothing. -/
theorem withSettings_causes_same
    (unchanged : a.acc.fixed ≠ none ∨ a.previousLength = none ∨ a.previousLength = some a.inForce.set.intervalLength) :
    (a.withSettings t).acc.causes = a.acc.causes := by
  by_cases empty : a.acc.fixed = none
  · rw [withSettings_empty t empty]
    obtain fixed | previous | previous := unchanged
    · exact absurd empty fixed
    · simp [Aggregator.fix, previous]
    · simp [Aggregator.fix, previous]
  · rw [withSettings_of_fixed t empty]

theorem withSettings_previousLength (empty : a.acc.fixed = none) :
    (a.withSettings t).previousLength = some a.inForce.set.intervalLength := by
  rw [withSettings_empty t empty]
  rfl

end

/-! ## Closing (R63, R67) -/

section
variable (r : IntervalRecord) {s : State}

theorem queueInterval_room (room : s.agg.queue.length < 4) :
    s.queueInterval r = { s with agg := { s.agg with queue := s.agg.queue ++ [r] } } := if_pos room

theorem queueInterval_full (full : 4 ≤ s.agg.queue.length) : s.queueInterval r = s.raiseLoss .interval 1 :=
  if_neg (Nat.not_lt.2 full)

/-- Queued or discarded, a record reaches the output queue, the store's loss counters, the LOSS cause and the loss reports alone. -/
theorem queueInterval_frame (s : State) :
    let t := s.queueInterval r
    (t.time, t.supply, t.settings, t.cases, t.tracker, t.capture) = (s.time, s.supply, s.settings, s.cases, s.tracker, s.capture)
    ∧ (t.agg.acc, t.agg.inForce, t.agg.previousLength) = (s.agg.acc, s.agg.inForce, s.agg.previousLength)
    ∧ t.reports.boundaries = s.reports.boundaries := by
  unfold State.queueInterval State.raiseLoss
  split <;> exact ⟨rfl, rfl, rfl⟩

end

/-- The settings under which a window is taken: the open interval's, or those it fixes for an empty one. -/
def State.windowSettings (w : WindowSet) (s : State) : IntervalFixed := s.agg.acc.fixed.getD (s.agg.settingsAt w.stamp)

/-- The open interval's tallies with the window among them. -/
def State.windowTallies (w : WindowSet) (s : State) : Accumulator :=
  (s.agg.withSettings w.stamp).acc.take (s.tracker.flagged w.window) w (s.windowSettings w)

/-- The record of an interval that a window closes. -/
def State.closingRecord (w : WindowSet) (s : State) : IntervalRecord :=
  (s.windowTallies w).record true { s.windowSettings w with last := w.stamp }

/-- The interval that is open behind a boundary. -/
def State.openNext (w : WindowSet) (s : State) : State :=
  { s with agg := { s.agg.withSettings w.stamp with acc := Accumulator.empty {} } }

def State.reportBoundary (t : TimeStamp) (s : State) : State :=
  { s with reports := { s.reports with boundaries := s.reports.boundaries ++ [t] } }

/-! The tallies with the window among them, tally by tally (R62). -/

section
variable (w : WindowSet) (s : State)

theorem windowTallies_counted : (s.windowTallies w).counted = s.agg.acc.counted + 1 :=
  congrArg (·.acc.counted + 1) (withSettings_eq w.stamp s.agg)

theorem windowTallies_flagged :
    (s.windowTallies w).flagged = s.agg.acc.flagged + (1 - if s.tracker.flagged w.window then 0 else 1) := by
  have before : (s.agg.withSettings w.stamp).acc.flagged = s.agg.acc.flagged := congrArg (·.acc.flagged) (withSettings_eq w.stamp s.agg)
  unfold State.windowTallies Accumulator.take
  dsimp only
  rw [before]
  cases s.tracker.flagged w.window <;> rfl

theorem windowTallies_phase {p : Phase} (fitted : (s.windowSettings w).fitted.has p = true) :
    (s.windowTallies w).phases.get p
      = (s.agg.acc.phases.get p).take (s.windowSettings w) (s.tracker.flagged w.window) (w.clipped.phase p) (w.values.phase p) := by
  have before : (s.agg.withSettings w.stamp).acc.phases = s.agg.acc.phases := congrArg (·.acc.phases) (withSettings_eq w.stamp s.agg)
  unfold State.windowTallies Accumulator.take
  dsimp only
  rw [before, Tri.get_mapP, if_pos fitted]

theorem windowTallies_ne :
    (s.windowTallies w).ne = s.agg.acc.ne.take (s.tracker.flagged w.window) w.clipped.ne w.values.ne := by
  have before : (s.agg.withSettings w.stamp).acc.ne = s.agg.acc.ne := congrArg (·.acc.ne) (withSettings_eq w.stamp s.agg)
  exact congrArg (·.take (s.tracker.flagged w.window) w.clipped.ne w.values.ne) before

theorem windowTallies_frequency : (s.windowTallies w).frequency = s.agg.acc.frequency :=
  congrArg (·.acc.frequency) (withSettings_eq w.stamp s.agg)

theorem windowTallies_missed : (s.windowTallies w).missed = s.agg.acc.missed :=
  congrArg (·.acc.missed) (withSettings_eq w.stamp s.agg)

theorem openNext_queue : (s.openNext w).agg.queue = s.agg.queue := congrArg (·.queue) (withSettings_eq w.stamp s.agg)

theorem openNext_inForce : (s.openNext w).agg.inForce = s.agg.inForce := congrArg (·.inForce) (withSettings_eq w.stamp s.agg)

end

/-- What the record shows of a fitted phase: mean and outside count of the unflagged windows, lowest, highest and CLIPPED of all (R66). -/
theorem closingRecord_phase (w : WindowSet) (s : State) {p : Phase} (fitted : (s.windowSettings w).fitted.has p = true) :
    let f := s.windowSettings w
    let flagged := s.tracker.flagged w.window
    let once := if flagged then 0 else 1
    let a := s.agg.acc.phases.get p
    let v := w.values.phase p
    let r := s.closingRecord w
    IsMean (a.sum + once * v) (a.count + once) (r.phases.get p).mean
    ∧ (r.phases.get p).lowest = min (a.lowest.getD v) v ∧ (r.phases.get p).highest = max (a.highest.getD v) v
    ∧ (r.phases.get p).outside = a.outside + (if !flagged && outsideBand f.udecl f.tolerance v then 1 else 0)
    ∧ r.clipped.phase p = (a.clipped || w.clipped.phase p) := by
  unfold State.closingRecord
  dsimp only
  rw [record_phases, record_clipped_phase, windowTallies_phase w s fitted]
  obtain ⟨sum, count⟩ := (s.agg.acc.phases.get p).take_sums (s.windowSettings w) (s.tracker.flagged w.window)
    (w.clipped.phase p) (w.values.phase p)
  exact ⟨sum ▸ count ▸ meanOf_isMean _ _, optNum_minOpt _ _, optNum_maxOpt _ _,
    PhaseTally.take_outside _ _ (w.clipped.phase p) _ _, rfl⟩

/-- What the record shows of NE: the mean of the unflagged windows, highest and CLIPPED of all (R66). -/
theorem closingRecord_ne (w : WindowSet) (s : State) :
    let once := if s.tracker.flagged w.window then 0 else 1
    let a := s.agg.acc.ne
    let r := s.closingRecord w
    IsMean (a.sum + once * w.values.ne) (a.count + once) r.neMean
    ∧ r.neHighest = max (a.highest.getD w.values.ne) w.values.ne ∧ r.clipped.ne = (a.clipped || w.clipped.ne) := by
  unfold State.closingRecord Accumulator.record
  dsimp only
  rw [windowTallies_ne]
  obtain ⟨sum, count⟩ := s.agg.acc.ne.take_sums (s.tracker.flagged w.window) w.clipped.ne w.values.ne
  exact ⟨sum ▸ count ▸ meanOf_isMean _ _, optNum_maxOpt _ _, rfl⟩

section
variable {w : WindowSet} {s : State} (reached : (s.windowSettings w).boundary * 1000 ≤ w.stamp.toMs)
include reached

/-- At or after the boundary, the record is handed over, the next interval is open, and the boundary is reported. -/
theorem takeWindow_closes :
    s.takeWindow w = ((s.openNext w).queueInterval (s.closingRecord w)).reportBoundary w.stamp := by
  unfold State.takeWindow
  dsimp only
  have settings := congrArg (·.acc.fixed) (withSettings_eq w.stamp s.agg)
  split
  next absent => exact absurd (settings.symm.trans absent) nofun
  next f present =>
    obtain rfl := Option.some.inj (settings.symm.trans present)
    exact if_pos reached

theorem takeWindow_room (room : s.agg.queue.length < 4) :
    (s.takeWindow w).agg.queue = s.agg.queue ++ [s.closingRecord w] ∧ (s.takeWindow w).agg.acc = Accumulator.empty {}
    ∧ (s.takeWindow w).store = s.store := by
  have queue := openNext_queue w s
  rw [takeWindow_closes reached, queueInterval_room _ (queue ▸ room), queue]
  exact ⟨rfl, rfl, rfl⟩

theorem takeWindow_full (full : 4 ≤ s.agg.queue.length) :
    (s.takeWindow w).agg.queue = s.agg.queue
    ∧ (s.takeWindow w).store = { s.store with
        lost := { s.store.lost with interval := count32 s.store.lost.interval }, lossPending := true }
    ∧ (s.takeWindow w).link = s.link.latch .loss := by
  have queue := openNext_queue w s
  rw [takeWindow_closes reached, queueInterval_full _ (queue ▸ full)]
  exact ⟨queue, rfl, rfl⟩

/-- Of the rest of the part, a close reports its boundary and leaves clock, supply, settings, cases, tracker and capture unit alone. -/
theorem takeWindow_elsewhere :
    let t := s.takeWindow w
    (t.agg.acc, t.agg.inForce, t.agg.previousLength)
      = (Accumulator.empty {}, s.agg.inForce, (s.agg.withSettings w.stamp).previousLength)
    ∧ t.reports.boundaries = s.reports.boundaries ++ [w.stamp]
    ∧ (t.time, t.supply, t.settings, t.cases, t.tracker, t.capture)
        = (s.time, s.supply, s.settings, s.cases, s.tracker, s.capture) := by
  obtain ⟨elsewhere, agg, boundaries⟩ := queueInterval_frame (s.closingRecord w) (s.openNext w)
  rw [takeWindow_closes reached]
  exact ⟨openNext_inForce w s ▸ agg, congrArg (· ++ [w.stamp]) boundaries, elsewhere⟩

end

/-! ## The commands -/

theorem latch_causes (c : Cause) (l : Link) : (l.latch c).causes &&& c.bit = c.bit := by
  show (l.causes ||| c.bit) &&& c.bit = c.bit
  rw [BitVec.or_comm]
  exact cause_kept _ _

/-- Choosing a frame latches and clears no cause (R176). -/
theorem choose_causes (base : Option Nat) (l : Link) : (l.choose base).causes = l.causes := by
  unfold Link.choose
  repeat' split
  all_goals rfl

theorem joinFifo_causes (base : Option Nat) (w : WindowSet) (l : Link) : (l.joinFifo base w).causes = l.causes := by
  unfold Link.joinFifo
  repeat' split
  · rfl
  · exact choose_causes base _
  · rfl

section
variable {s : State} (runs : s.coreRunning = true)
include runs

theorem exec_windowValueSet {w : WindowSet} {rest : List Output} (due : dueWindow s.meas.outbox = some (w, rest)) :
    let t := (s.setOutbox rest).takeWindow w
    Completes .windowValueSet s { t with link := t.link.joinFifo t.time.base w } := by
  refine completes_of_exec ?_
  show execWindowValueSet s = _
  simp only [execWindowValueSet, runs, due]

theorem exec_frequencyValue {f : FrequencyValue} {rest : List Output} (due : dueFrequency s.meas.outbox = some (f, rest)) :
    exec .frequencyValue s = .next ((s.setOutbox rest).takeFrequency f) := by
  show execFrequencyValue s = _
  simp only [execFrequencyValue, runs, due]

theorem exec_missedCounterReport {k : Kind} {rest : List Kind} (due : s.reports.missedToAggregator = k :: rest) :
    exec (.missedCounterReport .aggregator) s
      = .next ((s.setReports { s.reports with missedToAggregator := rest }).takeMiss k) := by
  show execMissedCounterReport .aggregator s = _
  simp only [execMissedCounterReport, runs, due]

end

/-- Settles O21: the record figure by figure, and the queue with room and without. -/
theorem windowAtBoundaryClosesInterval : Obligations.WindowAtBoundaryClosesInterval := by
  intro w rest s runs due set f flagged once reached
  let s' : State := s.setOutbox rest
  have closes : (s'.windowSettings w).boundary * 1000 ≤ w.stamp.toMs := reached
  obtain ⟨agg, boundaries, elsewhere⟩ := takeWindow_elsewhere closes
  simp only [Prod.mk.injEq] at agg
  obtain ⟨acc, inForce, previousLength⟩ := agg
  obtain ⟨neMean, neHighest, neClipped⟩ := closingRecord_ne w s
  obtain ⟨frequencyMean, frequencyExtremes⟩ :=
    record_frequency_figures true { s.windowSettings w with last := w.stamp } (s.windowTallies w)
  rw [windowTallies_frequency] at frequencyMean frequencyExtremes
  refine ⟨_, s.closingRecord w, exec_windowValueSet runs due, acc, inForce, boundaries, rfl, rfl, rfl, rfl, rfl,
    windowTallies_counted w s, windowTallies_missed w s, windowTallies_flagged w s, fun p fitted => closingRecord_phase w s fitted,
    neMean, neHighest, neClipped, ?_, frequencyMean, frequencyExtremes,
    fun l empty previous differs => withSettings_causes_changed w.stamp empty previous differs,
    fun unchanged => withSettings_causes_same w.stamp unchanged,
    fun empty => previousLength.trans (withSettings_previousLength w.stamp empty), fun room => ?_, fun full => ?_, elsewhere⟩
  · rw [← windowTallies_frequency w s]
    rfl
  · obtain ⟨queue, -, store⟩ := takeWindow_room closes room
    exact ⟨queue, store⟩
  · obtain ⟨queue, store, link⟩ := takeWindow_full closes full
    refine ⟨queue, store, ?_⟩
    dsimp only
    rw [joinFifo_causes, link]
    exact latch_causes .loss _

/-- Settles O22: the tally of a valid value and of an invalid one. -/
theorem frequencyIsTallied : Obligations.FrequencyIsTallied := by
  intro f rest s runs due
  rw [exec_frequencyValue runs due]
  unfold State.takeFrequency FrequencyTally.take
  cases f.frequency <;> rfl

/-- Settles O23: the report reaches the open interval's count alone, so the record of a close that follows holds it, and the record of a
close before it does not. -/
theorem missIsCountedIntoOpenInterval : Obligations.MissIsCountedIntoOpenInterval := by
  refine ⟨fun k p q s => ⟨rfl, rfl⟩, fun k rest s runs due => exec_missedCounterReport runs due,
    fun k w f s fixed reached room => ?_⟩
  have closes : (s.windowSettings w).boundary * 1000 ≤ w.stamp.toMs := by
    rw [State.windowSettings, fixed]
    exact reached
  constructor
  · obtain ⟨queue, acc, -⟩ := takeWindow_room (s := s.takeMiss k) closes room
    exact ⟨_, queue, windowTallies_missed w (s.takeMiss k), congrArg (·.missed) acc⟩
  · obtain ⟨queue, acc, -⟩ := takeWindow_room closes room
    exact ⟨_, queue, windowTallies_missed w s, congrArg (·.missed.add k) acc⟩

end Sys2Proof.Machine
end

/-!
PROOFS. Every step keeps the queue bounds and the table sizes: one lemma for each command says that its next state is `Sound` behind
the state it runs in, composed of the shared operations' own; then the statement about a step.
-/

namespace Sys2Proof.Machine

/-- A meaning ends in no state but one that is sound behind `s`. -/
def SoundResult (s : State) (r : Result) : Prop := ∀ t, r = .next t → Sound s t

theorem SoundResult.next {s t : State} (h : Sound s t) : SoundResult s (.next t) := by
  rintro u ⟨⟩
  exact h

/-- The store writer goes on behind a sound effect (R104). -/
theorem Sound.pump {s t : State} (h : Sound s t) : Sound s t.pump := h.trans (pump_sound t)

/-- An effect under a condition, or none. -/
theorem Sound.ite {s t : State} {c : Prop} [Decidable c] (h : Sound s t) : Sound s (if c then t else s) := by
  split
  · exact h
  · exact Sound.refl s

/-! ## Measurement and capture -/

theorem setOutbox_sound (s : State) (o : List Output) : Sound s (s.setOutbox o) := Sound.ofMeas s _

theorem execSampleSet_sound (l1 l2 l3 ne : SampleCode) (s : State) : SoundResult s (execSampleSet l1 l2 l3 ne s) :=
  .next (Sound.ite (Sound.ofMeas s _))

theorem execSampleBlock_sound (s : State) : SoundResult s (execSampleBlock s) := by
  refine .next ?_
  split
  · exact Sound.refl s
  · split
    · exact Sound.refl s
    · exact ((setOutbox_sound s _).trans (Sound.ofTrack (serveOverdueClaims_track _))).trans (takeBlock_sound _ _)

theorem execSlotClaim_sound (s : State) : SoundResult s (execSlotClaim s) := by
  refine .next ?_
  split
  · exact Sound.refl s
  · exact Sound.ite ((Sound.ofReports s _).trans (Sound.ofTrack (serveClaim_track _ _)))

theorem execRelink_sound (s : State) : SoundResult s (execRelink s) := by
  refine .next ?_
  split
  · exact Sound.refl s
  · exact Sound.ite ((Sound.ofReports s _).trans (Sound.ofTrack (serveRelink_track _ _ _)))

theorem execHandBack_sound (s : State) : SoundResult s (execHandBack s) := by
  refine .next ?_
  split
  · exact Sound.refl s
  · exact Sound.ite ((Sound.ofReports s _).trans (Sound.ofTrack (serveHandBack_track _ _)))

/-! ## Outcomes of operations on the array -/

theorem execPageProgramDone_sound (s : State) : SoundResult s (execPageProgramDone s) := by
  refine .next ?_
  split
  · exact (programDone_sound s _ _ _ _).pump
  · exact Sound.refl s

theorem execPageProgramTimeout_sound (s : State) : SoundResult s (execPageProgramTimeout s) := by
  refine .next ?_
  split
  · exact (programTimedOut_sound s _ _ _ _).pump
  · exact Sound.refl s

theorem execSettingsAreaTimeout_sound (s : State) : SoundResult s (execSettingsAreaTimeout s) := by
  refine .next ?_
  split
  · exact (programTimedOut_sound s _ _ _ _).pump
  · exact (eraseTimedOut_sound s _ _).pump
  · exact Sound.refl s

theorem execBlockEraseDone_sound (s : State) : SoundResult s (execBlockEraseDone s) := by
  refine .next ?_
  split
  · exact (eraseDone_sound s _ _).pump
  · exact Sound.refl s

theorem execBlockEraseTimeout_sound (s : State) : SoundResult s (execBlockEraseTimeout s) := by
  refine .next ?_
  split
  · exact (eraseTimedOut_sound s _ _).pump
  · exact Sound.refl s

theorem execPageReadDone_sound (s : State) : SoundResult s (execPageReadDone s) :=
  .next (Sound.ite (readDone_sound s).pump)

theorem execCorrectionDone_sound (result : ReadResult) (body : Option (List Byte)) (s : State) :
    SoundResult s (execCorrectionDone result body s) :=
  .next (Sound.ite (correctionEnded_sound s _ _).pump)

/-! ## Deliveries and reports between blocks -/

theorem execHalfCycleValueSet_sound (s : State) : SoundResult s (execHalfCycleValueSet s) := by
  refine .next ?_
  split
  · exact (((setOutbox_sound s _).trans (Sound.ofTrack (settleRequests_track _))).trans (Sound.ofTrack (track_frame _ _))).pump
  · exact Sound.refl s

theorem execWindowValueSet_sound (s : State) : SoundResult s (execWindowValueSet s) := by
  refine .next ?_
  split
  · exact (((setOutbox_sound s _).trans (takeWindow_sound _ _)).trans (joinFifo_sound _ _ _)).pump
  · exact Sound.refl s

theorem execFrequencyValue_sound (s : State) : SoundResult s (execFrequencyValue s) := by
  refine .next ?_
  split
  · exact (setOutbox_sound s _).trans (takeFrequency_sound _ _)
  · exact Sound.refl s

theorem seriesRestart_sound (dest : RestartReceiver) (s : State) : Sound s (s.seriesRestart dest) := by
  cases dest with
  | tracker => exact restartTracker_sound s
  | capture => exact (Sound.ofTrack (settleRequests_track s)).trans (restartCapture_sound _)
  | aggregator => exact Sound.refl s

theorem execSeriesRestart_sound (dest : RestartReceiver) (s : State) : SoundResult s (execSeriesRestart dest s) := by
  refine .next ?_
  split
  · exact ((setOutbox_sound s _).trans (seriesRestart_sound dest _)).pump
  · exact Sound.refl s

theorem execApplyNotification_sound (dest : ApplyReceiver) (s : State) : SoundResult s (execApplyNotification dest s) := by
  refine .next ?_
  split
  · exact ((setReports_sound s _).trans (applyNotice_sound _ dest _)).pump
  · exact Sound.refl s

theorem execSlotFull_sound (s : State) : SoundResult s (execSlotFull s) := by
  refine .next ?_
  split
  · exact ((setReports_sound s _).trans (modifyTracker_sound _ _ (Tracker.Keeps.slotFull _ _ _).1)).pump
  · exact Sound.refl s

theorem execSlotDropped_sound (s : State) : SoundResult s (execSlotDropped s) := by
  refine .next ?_
  split
  · exact ((setReports_sound s _).trans (modifyTracker_sound _ _ (Tracker.Keeps.slotDropped _ _ _).1)).pump
  · exact Sound.refl s

theorem execCommitDelivery_sound (s : State) : SoundResult s (execCommitDelivery s) := by
  refine .next ?_
  split
  · exact ((setReports_sound s _).trans (deliver_sound _ _)).pump
  · exact Sound.refl s

theorem execLossCounterReport_sound (s : State) : SoundResult s (execLossCounterReport s) := by
  refine .next ?_
  split
  · exact ((setReports_sound s _).trans (gapReport_sound _)).pump
  · exact Sound.refl s

theorem execMissedCounterReport_sound (dest : MissReceiver) (s : State) : SoundResult s (execMissedCounterReport dest s) := by
  refine .next ?_
  split
  case h_1 =>
    split
    · exact (setReports_sound s _).trans (takeMiss_sound _ _)
    · exact Sound.refl s
  case h_2 =>
    split
    · exact ((setReports_sound s _).trans (gapReport_sound _)).pump
    · exact Sound.refl s
  case h_3 => exact Sound.refl s

theorem execTimeStepReport_sound (dest : StepReceiver) (s : State) : SoundResult s (execTimeStepReport dest s) := by
  refine .next ?_
  split
  case h_1 =>
    split
    · exact (setReports_sound s _).trans (modifyTracker_sound _ _ (List.length_map _))
    · exact Sound.refl s
  case h_2 =>
    split
    · exact ((setReports_sound s _).trans (cutInterval_sound _ _)).pump
    · exact Sound.refl s
  case h_3 =>
    split
    · exact ((setReports_sound s _).trans (stepCases_sound _)).pump
    · exact Sound.refl s
  case h_4 => exact Sound.refl s

theorem execClockArrival_sound (s : State) : SoundResult s (execClockArrival s) := by
  refine .next ?_
  split
  · exact ((setReports_sound s _).trans (takeArrival_sound _ _ _)).pump
  · exact Sound.refl s

theorem execIntervalBoundary_sound (s : State) : SoundResult s (execIntervalBoundary s) := by
  refine .next ?_
  split
  · dsimp only
    split
    · exact ((setReports_sound s _).trans (activateSettings_sound _ _)).pump
    · exact setReports_sound s _
  · exact Sound.refl s

theorem execHoldPlace_sound (slot : Fin 8) (s : State) : SoundResult s (execHoldPlace slot s) :=
  .next (Sound.ite (placeHolds_sound s _).pump)

theorem execHoldJudgeBlock_sound (slot : Fin 8) (block : Nat) (s : State) : SoundResult s (execHoldJudgeBlock slot block s) :=
  .next (Sound.ite (judgeBlock_sound s _ _).pump)

theorem execHoldRemove_sound (slot : Fin 8) (s : State) : SoundResult s (execHoldRemove slot s) :=
  .next (Sound.ite (removeHolds_sound s _).pump)

/-! ## Clock and supply -/

theorem execClockTick_sound (s : State) : SoundResult s (execClockTick s) :=
  .next (Sound.ite ((Sound.ofTime s _ (tick_ms s.time)).trans (deliverReached_sound _)))

theorem execSupplyFailWarning_sound (s : State) : SoundResult s (execSupplyFailWarning s) := by
  refine .next ?_
  split
  · exact ((Sound.ofSupply s _).trans (enterHoldup_sound _)).pump
  · exact ((Sound.ofSupply s _).trans (enterHoldup_sound _)).pump
  · exact Sound.ofSupply s _

theorem execSupplyGood_sound (s : State) : SoundResult s (execSupplyGood s) := by
  refine .next ?_
  split
  · exact Sound.refl s
  · dsimp only
    split
    · exact (Sound.ofSupply s _).trans (powerUp_sound _)
    · exact Sound.ofSupply s _

theorem execStabilityTimerExpiry_sound (cellLow : Bool) (s : State) : SoundResult s (execStabilityTimerExpiry cellLow s) := by
  refine .next ?_
  split
  · dsimp only
    split
    · exact ((Sound.ofSupply s _).trans (leaveHoldup_sound _)).pump
    · exact (Sound.ofSupply s _).trans (start_sound _ _)
    · exact (Sound.ofSupply s _).trans (start_sound _ _)
    · exact Sound.ofSupply s _
  · exact Sound.refl s

theorem execCorePowerLost_sound (s : State) : SoundResult s (execCorePowerLost s) := by
  refine .next ?_
  have lost (t : State) (u : Supply) (off : Option WTime) :
      Sound t { t with supply := u, time := { t.time with coreOff := off } } :=
    (Sound.ofSupply t u).trans (Sound.ofTime _ _ id)
  split
  · exact (stopCore_sound s _).trans (lost _ _ _)
  · exact lost s _ _
  · exact Sound.refl s

theorem execResetnLow_sound (s : State) : SoundResult s (execResetnLow s) := by
  refine .next ?_
  split
  · exact Sound.refl s
  · have stops := ((Sound.ofSupply s { s.supply with resetnHigh := false, timerRunning := false }).trans
      (stopCore_sound _ .wait)).trans (Sound.ofSupply _ { (State.stopCore .wait
        { s with supply := { s.supply with resetnHigh := false, timerRunning := false } }).supply with resetSeen := true })
    split
    · exact stops
    · exact stops
    · exact stops
    · exact Sound.ofSupply s _
    · exact Sound.ofSupply s _

theorem execResetnHigh_sound (s : State) : SoundResult s (execResetnHigh s) := by
  refine .next ?_
  split
  · exact Sound.refl s
  · exact Sound.ofSupply s _

theorem execBackupDomainLoss_sound (s : State) : SoundResult s (execBackupDomainLoss s) := by
  refine .next ?_
  split
  · split
    · exact Sound.refl s
    · exact loseBackup_sound s
  · exact Sound.refl s

theorem execBackupCellJudgement_sound (low : Bool) (s : State) : SoundResult s (execBackupCellJudgement low s) :=
  .next (Sound.ite ((Sound.ofSupply s _).trans (reportClock_sound _)))

/-! ## The line -/

theorem execRxTimeout_sound (chars : List RxChar) (s : State) : SoundResult s (execRxTimeout chars s) :=
  .next ((receiveAll_sound chars s).trans (rxGap_sound _)).pump

theorem execCheckFailure_sound (chars : List RxChar) (s : State) : SoundResult s (execCheckFailure chars s) :=
  .next (receiveAll_sound chars s).pump

theorem restartStop_sound (s : State) : Sound s s.restartStop := (stopCore_sound s .wait).trans (Sound.ofSupply _ _)

theorem execFrameSent_sound (s : State) : SoundResult s (execFrameSent s) := by
  refine .next ?_
  split
  · split
    · exact restartStop_sound s
    · exact Sound.ofLink s _ (Nat.le_trans (choose_fifo _ _) (Nat.le_max_left _ _))
  · exact Sound.refl s

theorem execAttnPulseEnd_sound (s : State) : SoundResult s (execAttnPulseEnd s) :=
  .next (Sound.ite (link_sound s _))

/-! ## Every command, and every step -/

/-- Whatever the command, its next state is sound behind the state it runs in. -/
theorem exec_sound (c : Instr) (s : State) : SoundResult s (exec c s) := by
  cases c with
  | sampleSet l1 l2 l3 ne => exact execSampleSet_sound l1 l2 l3 ne s
  | sampleBlock => exact execSampleBlock_sound s
  | halfCycleValueSet => exact execHalfCycleValueSet_sound s
  | windowValueSet => exact execWindowValueSet_sound s
  | frequencyValue => exact execFrequencyValue_sound s
  | seriesRestart dest => exact execSeriesRestart_sound dest s
  | applyNotification dest => exact execApplyNotification_sound dest s
  | slotClaim => exact execSlotClaim_sound s
  | relink => exact execRelink_sound s
  | handBack => exact execHandBack_sound s
  | slotFull => exact execSlotFull_sound s
  | slotDropped => exact execSlotDropped_sound s
  | pageProgramDone => exact execPageProgramDone_sound s
  | commitDelivery => exact execCommitDelivery_sound s
  | pageProgramTimeout => exact execPageProgramTimeout_sound s
  | settingsAreaTimeout => exact execSettingsAreaTimeout_sound s
  | blockEraseDone => exact execBlockEraseDone_sound s
  | blockEraseTimeout => exact execBlockEraseTimeout_sound s
  | pageReadDone => exact execPageReadDone_sound s
  | correctionDone result body => exact execCorrectionDone_sound result body s
  | holdPlace slot => exact execHoldPlace_sound slot s
  | holdJudgeBlock slot block => exact execHoldJudgeBlock_sound slot block s
  | holdRemove slot => exact execHoldRemove_sound slot s
  | lossCounterReport => exact execLossCounterReport_sound s
  | missedCounterReport dest => exact execMissedCounterReport_sound dest s
  | timeStepReport dest => exact execTimeStepReport_sound dest s
  | intervalBoundary => exact execIntervalBoundary_sound s
  | clockTick => exact execClockTick_sound s
  | clockArrival => exact execClockArrival_sound s
  | supplyFailWarning => exact execSupplyFailWarning_sound s
  | supplyGood => exact execSupplyGood_sound s
  | stabilityTimerExpiry cellLow => exact execStabilityTimerExpiry_sound cellLow s
  | corePowerLost => exact execCorePowerLost_sound s
  | resetnLow => exact execResetnLow_sound s
  | resetnHigh => exact execResetnHigh_sound s
  | backupDomainLoss => exact execBackupDomainLoss_sound s
  | backupCellJudgement low => exact execBackupCellJudgement_sound low s
  | rxTimeout chars => exact execRxTimeout_sound chars s
  | checkFailure chars => exact execCheckFailure_sound chars s
  | frameSent => exact execFrameSent_sound s
  | attnPulseEnd => exact execAttnPulseEnd_sound s
  -- What is left are frames with their kinds, each one `State.request`.
  | _ => exact .next (request_sound s _ _ _)

/-- A length that grows past the old one only up to the bound keeps a bound that the old one kept. -/
theorem le_of_le_max {a b n : Nat} (h : a ≤ max b n) (k : b ≤ n) : a ≤ n := Nat.le_trans h (Nat.max_le.2 ⟨k, Nat.le_refl n⟩)

/-- What is sound behind a state within the bounds keeps them. -/
theorem Sound.queuesOk {s t : State} (h : Sound s t) (k : s.queuesOk) : t.queuesOk := by
  obtain ⟨markers, records, sets, blocks⟩ := k
  exact ⟨le_of_le_max h.queue markers, le_of_le_max h.intervals records, le_of_le_max h.fifo sets, le_of_le_max h.ring blocks⟩

theorem Sound.tablesOk {s t : State} (h : Sound s t) (k : s.tablesOk) : t.tablesOk := by
  obtain ⟨entries, slots⟩ := k
  exact ⟨h.entries entries, h.slots slots⟩

/-- A step idles, or it runs the front command on the state with the rest of the queue. -/
theorem step_sound {s t : State} (h : step s = .next t) : ∃ rest, Sound { s with pending := rest } t := by
  unfold step at h
  split at h
  · cases h
    exact ⟨s.pending, Sound.refl s⟩
  · exact ⟨_, exec_sound _ _ t h⟩

/-- Settles O5: a step is sound behind its state, and bounds and sizes do not depend on the queue of commands. -/
theorem stepKeepsBoundsAndSizes : Obligations.StepKeepsBoundsAndSizes := by
  intro s t queues tables taken
  obtain ⟨rest, sound⟩ := step_sound taken
  exact ⟨sound.queuesOk queues, sound.tablesOk tables⟩

end Sys2Proof.Machine

/-!
PROOFS. The steps of a format (R97, R98) and the activation of a block (R86): which block a search by rising number finds, what the
operations of the writer leave of the log's identity, floor and mark, and what each step and each end of a format's job does.
-/

namespace Sys2Proof.Machine

/-! ## The lowest block that passes a test -/

/-- The blocks are listed by rising number. -/
theorem blocks_ascending (st : Store) : st.blocks.Pairwise fun x y => x.1 < y.1 := by
  have numbers : logBlocks.Pairwise (· < ·) := by
    unfold logBlocks
    rw [List.pairwise_map]
    exact List.pairwise_lt_range.imp fun h => Nat.add_lt_add_right h _
  unfold Store.blocks
  generalize logBlocks = l at numbers
  generalize st.index = m
  induction l generalizing m with
  | nil => simp
  | cons a l ih =>
    cases m with
    | nil => simp
    | cons e m =>
      obtain ⟨above, rest⟩ := List.pairwise_cons.1 numbers
      exact List.pairwise_cons.2 ⟨fun x hx => above x.1 (List.of_mem_zip hx).1, ih rest m⟩

/-- In a list by rising number the first item that passes a test is the lowest. -/
theorem find?_eq_lowest {α : Type} {l : List (Nat × α)} (ascending : l.Pairwise fun x y => x.1 < y.1) {p : Nat × α → Bool}
    {x : Nat × α} (mem : x ∈ l) (passes : p x = true) (lowest : ∀ y ∈ l, y.1 < x.1 → p y = false) : l.find? p = some x := by
  obtain ⟨before, behind, rfl⟩ := List.append_of_mem mem
  refine List.find?_eq_some_iff_append.2 ⟨passes, before, behind, rfl, fun y hy => ?_⟩
  have below : y.1 < x.1 := (List.pairwise_append.1 ascending).2.2 y hy x List.mem_cons_self
  simp [lowest y (List.mem_append_left _ hy) below]

/-- R86's block: the lowest that is ERASED or STALE. -/
theorem candidate_eq {st : Store} {b : Nat} {e : BlockEntry} (mem : (b, e) ∈ st.blocks) (free : e.state = .erased ∨ e.state = .stale)
    (lowest : ∀ a f, (a, f) ∈ st.blocks → a < b → f.state ≠ .erased ∧ f.state ≠ .stale) : st.candidate = some b := by
  unfold Store.candidate
  rw [find?_eq_lowest (blocks_ascending st) mem (by simpa using free) fun y hy below => by simpa using lowest y.1 y.2 hy below]
  rfl

theorem candidate_none {st : Store} (noRoom : ∀ b e, (b, e) ∈ st.blocks → e.state ≠ .erased ∧ e.state ≠ .stale) :
    st.candidate = none := by
  unfold Store.candidate
  rw [List.find?_eq_none.2 fun y hy => by simpa using noRoom y.1 y.2 hy]
  rfl

/-- R97's block: the lowest from a number on that is not BAD. -/
theorem formatTarget_eq {st : Store} {b c : Nat} {e : BlockEntry} (mem : (c, e) ∈ st.blocks) (from_ : b ≤ c) (good : e.state ≠ .bad)
    (lowest : ∀ a f, (a, f) ∈ st.blocks → b ≤ a → a < c → f.state = .bad) : st.formatTarget b = some c := by
  unfold Store.formatTarget
  rw [find?_eq_lowest (blocks_ascending st) mem (by simp [from_, good]) fun y hy below => ?_]
  · rfl
  · by_cases reached : b ≤ y.1
    · simp [lowest y.1 y.2 hy reached below]
    · simp [reached]

theorem formatTarget_none {st : Store} {b : Nat} (allBad : ∀ a f, (a, f) ∈ st.blocks → b ≤ a → f.state = .bad) :
    st.formatTarget b = none := by
  unfold Store.formatTarget
  rw [List.find?_eq_none.2 fun y hy => ?_]
  · rfl
  · simpa using allBad y.1 y.2 hy

/-! ## The next block sequence (R86) -/

theorem maxOf_none {l : List Nat} (h : maxOf l = none) : l = [] := by
  cases l with
  | nil => rfl
  | cons n l =>
    unfold maxOf at h
    split at h <;> cases h

/-- The largest of a list is in it, and no item is larger. -/
theorem maxOf_some {l : List Nat} {m : Nat} (h : maxOf l = some m) : m ∈ l ∧ ∀ n ∈ l, n ≤ m := by
  induction l generalizing m with
  | nil => cases h
  | cons a l ih =>
    unfold maxOf at h
    split at h
    next none_ =>
      cases h
      rw [maxOf_none none_]
      simp
    next k some_ =>
      cases h
      obtain ⟨mem, above⟩ := ih some_
      refine ⟨?_, fun n hn => ?_⟩
      · rcases Nat.le_total a k with le | le
        · rw [Nat.max_eq_right le]
          exact List.mem_cons_of_mem _ mem
        · rw [Nat.max_eq_left le]
          exact List.mem_cons_self
      · rcases List.mem_cons.1 hn with rfl | hn
        · exact Nat.le_max_left _ _
        · exact Nat.le_trans (above n hn) (Nat.le_max_right _ _)

/-- The next block sequence is above every one held, and one above one that is held unless it is 1. -/
theorem nextBlockSeq_spec (st : Store) :
    (∀ f ∈ st.index, ∀ q, f.blockSeq = some q → q < st.nextBlockSeq)
    ∧ (st.nextBlockSeq = 1 ∨ ∃ f ∈ st.index, f.blockSeq = some (st.nextBlockSeq - 1)) := by
  have held {f : BlockEntry} {q : Nat} (hf : f ∈ st.index) (hq : f.blockSeq = some q) : q ∈ st.index.filterMap (·.blockSeq) :=
    List.mem_filterMap.2 ⟨f, hf, hq⟩
  unfold Store.nextBlockSeq
  cases h : maxOf (st.index.filterMap (·.blockSeq)) with
  | none =>
    refine ⟨fun f hf q hq => ?_, .inl rfl⟩
    have := held hf hq
    rw [maxOf_none h] at this
    cases this
  | some m =>
    obtain ⟨mem, above⟩ := maxOf_some h
    exact ⟨fun f hf q hq => Nat.lt_succ_of_le (above q (held hf hq)), .inr (List.mem_filterMap.1 mem)⟩

/-! ## Activation (R86) -/

theorem activate_erased {s : State} {b : Nat} {e : BlockEntry} (found : s.store.candidate = some b) (block : s.store.block b = some e)
    (erased : e.state = .erased) :
    s.activate = some { s with store := { s.store with
      op := some (.program b 0 (.header b s.store.identity s.store.nextBlockSeq (s.now.resolve s.time.base)) .header) } } := by
  unfold State.activate
  simp only [found, block, erased, if_true]
  rfl

theorem activate_other {s : State} {b : Nat} {e : BlockEntry} (found : s.store.candidate = some b) (block : s.store.block b = some e)
    (other : e.state ≠ .erased) :
    s.activate = some (s.modifyStore fun st =>
      { st.modifyBlock (fun e => { e with state := .erasing, blockSeq := none }) b with op := some (.erase b .activation) }) := by
  unfold State.activate
  simp only [found, block, if_neg other]

theorem activate_none {s : State} (noRoom : s.store.candidate = none) : s.activate = none := by
  unfold State.activate
  simp only [noRoom]

theorem activates (s : State) : Activates s where
  erased b e mem erased lowest := by
    obtain ⟨above, one⟩ := nextBlockSeq_spec s.store
    exact ⟨_, activate_erased (candidate_eq mem (.inl erased) lowest) (block_of_mem_blocks mem) erased,
      fun a f q hf => above f (List.of_mem_zip hf).2 q, one⟩
  stale b e mem stale lowest := by
    have block := block_of_mem_blocks mem
    refine ⟨_, activate_other (candidate_eq mem (.inr stale) lowest) block (by rw [stale]; decide), rfl, ?_, fun a ne => ?_⟩
    · exact (block_index rfl b).trans (block_modifyBlock block)
    · exact (block_index rfl a).trans (block_modifyBlock_of_ne _ ne _)
  noRoom none_ := activate_none (candidate_none none_)

/-! ## What the writer's operations leave of the store -/

/-- A change of one block's entry is a change of the index alone. -/
theorem modifyBlock_eq (f : BlockEntry → BlockEntry) (b : Nat) (st : Store) :
    st.modifyBlock f b = { st with index := (st.modifyBlock f b).index } := by
  unfold Store.modifyBlock
  split <;> rfl

theorem raiseLoss_store (k : LossKind) (n : Nat) (s : State) :
    ∃ lost pending, (s.raiseLoss k n).store = { s.store with lost := lost, lossPending := pending } := by
  unfold State.raiseLoss
  split
  · exact ⟨s.store.lost, s.store.lossPending, rfl⟩
  · exact ⟨_, _, rfl⟩

theorem withdrawProposal_store (st : Status) (s : State) :
    ∃ p, (s.withdrawProposal st).store = { s.store with proposed := p } := by
  unfold State.withdrawProposal
  split
  · exact ⟨s.store.proposed, rfl⟩
  · refine ⟨none, ?_⟩
    split
    · split <;> rfl
    · rfl

/-- What an image discarded in the settings area changes of the store (R102). -/
theorem loseImage_store (d : PageData) (s : State) :
    ∃ lost pending p, (s.loseImage d).store
      = { s.store with storeFault := true, lost := lost, lossPending := pending, proposed := p } := by
  unfold State.loseImage
  dsimp only
  obtain ⟨lost, pending, raised⟩ :=
    raiseLoss_store .marker 1 ((s.modifyStore fun st => { st with storeFault := true }).latch .store)
  have kept : ∃ p, (((s.modifyStore fun st => { st with storeFault := true }).latch .store).raiseLoss .marker 1).store
      = { s.store with storeFault := true, lost := lost, lossPending := pending, proposed := p } := ⟨s.store.proposed, raised⟩
  refine ⟨lost, pending, ?_⟩
  split
  · split
    · obtain ⟨p, withdrawn⟩ := withdrawProposal_store .busyStore
        (((s.modifyStore fun st => { st with storeFault := true }).latch .store).raiseLoss .marker 1)
      exact ⟨p, by rw [withdrawn, raised]; rfl⟩
    · exact kept
  · exact kept

theorem endActive_store (s : State) : ∃ index active, s.endActive.store = { s.store with index := index, active := active } := by
  unfold State.endActive
  split
  · exact ⟨s.store.index, s.store.active, rfl⟩
  · dsimp only [State.modifyStore]
    rw [modifyBlock_eq]
    exact ⟨_, _, rfl⟩

theorem spaceCheck_store (n : Nat) (s : State) :
    ∃ index active, (s.spaceCheck n).store = { s.store with index := index, active := active } := by
  unfold State.spaceCheck
  split
  · exact ⟨s.store.index, s.store.active, rfl⟩
  · exact endActive_store s

/-! ## The steps of a format (R97) -/

theorem formatStep_holdup {s : State} (waits : s.inHoldup = true) (f : FormatStep) : s.formatStep f = none := if_pos waits

/-- Outside HOLDUP a format takes its step (R98). -/
theorem formatStep_erase {s : State} {b c : Nat} (runs : s.inHoldup = false) (target : s.store.formatTarget b = some c) :
    s.formatStep (.erase b) = some (s.modifyStore fun st =>
      { st.modifyBlock (BlockEntry.cleared .erasing) c with
        op := some (.erase c .format)
        format := some (.erase (c + 1))
        active := match st.active with
          | some (a, p) => if a = c then none else some (a, p)
          | none => none }) := by
  unfold State.formatStep
  simp only [runs, target]
  rfl

theorem formatStep_marker {s : State} (runs : s.inHoldup = false) (room : s.store.markerQueue.length < 8) :
    s.formatStep .marker = some
      ((s.setQueue (.marker s.now (.format s.store.identity s.store.floor) :: s.store.markerQueue)).beginMarkers .formatMarker
        [(s.now, .format s.store.identity s.store.floor)]) := by
  have placed : s.queueFormat = s.setQueue (.marker s.now (.format s.store.identity s.store.floor) :: s.store.markerQueue) := by
    unfold State.queueFormat State.makeRoom
    rw [if_pos (show s.store.markerQueue.length < queueDepth from room)]
  unfold State.formatStep
  rw [if_neg (by simp [runs])]
  dsimp only
  rw [placed]
  rfl

theorem formatSteps (s : State) : FormatSteps s where
  waits := formatStep_holdup
  identity runs := by
    refine ⟨{ s.imageWork .settings .formatStart with
      data := .settings s.store.nextCounter
        { s.settingsImage with identity := s.store.newestSeq + 1, floor := s.store.newestSeq } }, _, ?_, rfl, rfl⟩
    unfold State.formatStep
    rw [if_neg (by simp [runs])]
    rfl
  erases b c e runs mem from_ good lowest := by
    have block := block_of_mem_blocks mem
    refine ⟨_, formatStep_erase runs (formatTarget_eq mem from_ good lowest), rfl, ?_, fun a ne => ?_, fun p active => ?_⟩
    · exact (block_index rfl c).trans (block_modifyBlock block)
    · exact (block_index rfl a).trans (block_modifyBlock_of_ne _ ne _)
    · simp [active]
  allErased b runs allBad := by
    unfold State.formatStep
    simp only [runs, formatTarget_none allBad]
    rfl
  firstBlock runs := by
    unfold State.formatStep
    rw [if_neg (by simp [runs])]
    refine ⟨fun active => ?_, fun none_ t activated => ?_, fun none_ noRoom => ?_⟩
    · dsimp only
      split
      · rfl
      · contradiction
    · simp only [none_, activated]
    · simp only [none_, noRoom]
      exact ⟨_, rfl, rfl, rfl⟩
  marker runs room := by
    obtain ⟨index, active, checked⟩ := spaceCheck_store 1
      (s.setQueue (.marker s.now (.format s.store.identity s.store.floor) :: s.store.markerQueue))
    refine ⟨_, _, formatStep_marker runs room, rfl, rfl, rfl, ?_, ?_⟩
    · exact congrArg (·.nextSeq + 1) checked
    · exact congrArg (·.markerQueue.drop 1) checked
  mark runs := by
    refine ⟨s.imageWork .settings .formatEnd, ?_, rfl⟩
    unfold State.formatStep
    rw [if_neg (by simp [runs])]
    rfl

/-! ## The ends of a format's jobs (R97, R98) -/

/-- The running format, and what names and marks the log, stay as they are. -/
structure SameLog (s t : State) : Prop where
  format : t.store.format = s.store.format
  identity : t.store.identity = s.store.identity
  exportMark : t.store.exportMark = s.store.exportMark

namespace SameLog

theorem refl (s : State) : SameLog s s := ⟨rfl, rfl, rfl⟩

theorem trans {s t u : State} (h : SameLog s t) (k : SameLog t u) : SameLog s u :=
  ⟨k.format.trans h.format, k.identity.trans h.identity, k.exportMark.trans h.exportMark⟩

theorem ite {s t u : State} {c : Prop} [Decidable c] (h : SameLog s t) (k : SameLog s u) : SameLog s (if c then t else u) := by
  split
  · exact h
  · exact k

theorem ofStore {s t : State} {st : Store} (h : t.store = st) (format : st.format = s.store.format := by rfl)
    (identity : st.identity = s.store.identity := by rfl) (exportMark : st.exportMark = s.store.exportMark := by rfl) :
    SameLog s t := by
  subst h
  exact ⟨format, identity, exportMark⟩

theorem modifyBlock (s : State) (f : BlockEntry → BlockEntry) (b : Nat) : SameLog s (s.modifyStore (Store.modifyBlock f b)) :=
  ofStore (modifyBlock_eq f b s.store)

theorem raiseLoss (k : LossKind) (n : Nat) (s : State) : SameLog s (s.raiseLoss k n) := by
  obtain ⟨_, _, store⟩ := raiseLoss_store k n s
  exact ofStore store

theorem requestDiscarded (k : ImageKind) (s : State) : SameLog s (s.requestDiscarded k) := by
  unfold State.requestDiscarded
  split
  · split
    · exact refl s
    · obtain ⟨_, store⟩ := withdrawProposal_store .busyStore s
      exact ofStore store
  · exact refl s

theorem queueMarker (b : MarkerBody) (s : State) : SameLog s (s.queueMarker b) := by
  unfold State.queueMarker
  split
  · exact ⟨rfl, rfl, rfl⟩
  · exact raiseLoss _ _ s

theorem queueImage (k : ImageKind) (s : State) : SameLog s (s.queueImage k) := by
  unfold State.queueImage
  split
  · exact refl s
  · split
    · exact ⟨rfl, rfl, rfl⟩
    · exact (raiseLoss _ _ s).trans (requestDiscarded _ _)

theorem loseEvidence (i : Nat) (s : State) : SameLog s (s.loseEvidence i) := by
  unfold State.loseEvidence
  split
  · exact refl s
  · split
    · exact refl s
    · exact trans (t := s.modifyCase (fun c => { c with evidenceLost := true }) i) ⟨rfl, rfl, rfl⟩ (queueImage _ _)

theorem judgeBlock (i b : Nat) (s : State) : SameLog s (s.judgeBlock i b) := by
  unfold State.judgeBlock
  split
  · exact refl s
  · have judged := modifyBlock s (BlockEntry.judge s.nowMs i ‹CaseSlot›) b
    dsimp only
    split
    · exact judged
    · exact ite (judged.trans (loseEvidence _ _)) judged

theorem judgeForSlots (b : Nat) (l : List Nat) (s : State) : SameLog s (judgeForSlots b l s) := by
  induction l generalizing s with
  | nil => exact refl s
  | cons i rest ih => exact (judgeBlock i b s).trans (ih _)

theorem reportCommit (r : Record) (s : State) : SameLog s (s.reportCommit r) := by
  cases r with
  | disturbance d =>
    show SameLog s ((State.modifyStore (Store.joinUnexported d.seq) { s with reports := _ }).judgeExport)
    refine ofStore (st := s.store.joinUnexported d.seq) rfl ?_ ?_ ?_ <;>
    · unfold Store.joinUnexported
      repeat' split
      all_goals rfl
  | interval r => exact ⟨rfl, rfl, rfl⟩
  | marker r => exact ⟨rfl, rfl, rfl⟩

theorem reportAll (l : List Record) (s : State) : SameLog s (l.foldl (fun s r => s.reportCommit r) s) := by
  induction l generalizing s with
  | nil => exact refl s
  | cons r rest ih => exact (reportCommit r s).trans (ih _)

theorem commit (b : Nat) (l : List Record) (s : State) : SameLog s (s.commit b l) := by
  have told := (reportAll l s).trans (modifyBlock _
    (BlockEntry.takeAll (l.foldl (fun s r => s.reportCommit r) s).store.exportMark l) b)
  unfold State.commit
  dsimp only
  split
  · exact ite told (told.trans (judgeForSlots _ _ _))
  · exact told

theorem endActive (s : State) : SameLog s s.endActive := by
  obtain ⟨_, _, store⟩ := endActive_store s
  exact ofStore store

theorem pageUsed (s : State) : SameLog s s.pageUsed := by
  unfold State.pageUsed
  split
  · exact refl s
  · split
    · exact ⟨rfl, rfl, rfl⟩
    · exact (endActive s).trans ⟨rfl, rfl, rfl⟩

theorem discardRecords (j : RecordsJob) (s : State) : SameLog s (s.discardRecords j) := by
  unfold State.discardRecords
  dsimp only
  have counted := raiseLoss (match j.cls with | .interval => .interval | _ => .marker) j.records.length s
  exact ite (counted.trans ⟨rfl, rfl, rfl⟩) counted

end SameLog

/-- The mark rises without a change of any block's state (R120). -/
theorem raiseMark_badCount (mark : Nat) (st : Store) : (st.raiseMark mark).badCount = st.badCount := by
  unfold Store.badCount Store.countState Store.raiseMark
  dsimp only
  rw [List.filter_map, List.length_map]
  congr 2
  funext e
  dsimp only [Function.comp_apply]
  split
  · split <;> rfl
  · rfl

/-- The mark of what the host has taken becomes the new log's identity, and the format goes on to its last step, unless 13 blocks are
BAD (R97, R98). -/
theorem formatMarked_spec {s v : State} (same : SameLog s v) (runs : s.store.format ≠ none) :
    (v.formatMarked.store.badCount < 13 →
      (v.formatMarked.store.format, v.formatMarked.store.exportMark) = (some .mark, s.store.identity))
    ∧ (13 ≤ v.formatMarked.store.badCount →
      (v.formatMarked.store.format, v.formatMarked.store.exportMark) = (s.store.format, s.store.exportMark)) := by
  have on : v.store.format.isSome = true := by
    rw [same.format]
    exact Option.isSome_iff_ne_none.2 runs
  unfold State.formatMarked
  by_cases few : v.store.badCount < Config.badLimit
  · rw [if_pos ⟨on, few⟩]
    have bad : ((v.modifyStore fun st => { st with format := some .mark }).raiseMark v.store.identity).store.badCount
        = v.store.badCount := raiseMark_badCount _ _
    refine ⟨fun _ => Prod.ext rfl same.identity, fun many => absurd (bad ▸ many) (Nat.not_le.2 few)⟩
  · rw [if_neg fun h => few h.2]
    exact ⟨fun less => absurd less few, fun _ => Prod.ext same.format same.exportMark⟩

/-- The commit of the FORMAT marker, and its discard (log 35), come to the same step of the format. -/
theorem formatMarker_ends {s u : State} {j : RecordsJob} {b : Nat} (marker : j.cls = .formatMarker)
    (ends : u = s.recordsCommitted b j ∨ u = s.discardJob (.records j)) : ∃ v, SameLog s v ∧ u = v.formatMarked := by
  rcases ends with rfl | rfl
  · have committed : SameLog s ((s.setJob none).commit b j.records).pageUsed :=
      SameLog.trans (t := s.setJob none) ⟨rfl, rfl, rfl⟩ ((SameLog.commit b j.records _).trans (SameLog.pageUsed _))
    unfold State.recordsCommitted
    simp only [marker]
    refine ⟨_, SameLog.ite (SameLog.trans ?_ (SameLog.queueMarker _ _)) ?_, rfl⟩ <;>
      exact SameLog.ite (committed.trans ⟨rfl, rfl, rfl⟩) committed
  · unfold State.discardJob
    simp only [marker]
    exact ⟨_, SameLog.trans (t := s.setJob none) ⟨rfl, rfl, rfl⟩ (SameLog.discardRecords j _), rfl⟩

theorem workDone_formatStart {s : State} {w : ImageWork} {n : Nat} {image : SettingsImage} (runs : s.store.format ≠ none)
    (who : w.who = .formatStart) (data : w.data = .settings n image) :
    s.workDone false w = (s.dropWork false).beginErasing image := by
  unfold State.workDone
  simp only [who, data]
  exact if_pos (Option.isSome_iff_ne_none.2 runs)

theorem workDone_formatEnd {s : State} {w : ImageWork} (runs : s.store.format ≠ none) (who : w.who = .formatEnd) :
    s.workDone false w = (s.dropWork false).endFormat := by
  unfold State.workDone
  simp only [who]
  exact if_pos (Option.isSome_iff_ne_none.2 runs)

theorem workFailed_format {s : State} {w : ImageWork} (runs : s.store.format ≠ none)
    (who : w.who = .formatStart ∨ w.who = .formatEnd) :
    s.workFailed false w = ((s.dropWork false).loseImage w.data).endFormat := by
  have on : ((s.dropWork false).loseImage w.data).store.format.isSome = true := by
    obtain ⟨_, _, _, store⟩ := loseImage_store w.data (s.dropWork false)
    rw [store]
    exact Option.isSome_iff_ne_none.2 runs
  unfold State.workFailed
  rcases who with who | who <;>
  · simp only [who]
    exact if_pos on

/-- A format that ends leaves the log of before as it stands, and latches STORE (R97). -/
theorem endFormat_spec {s v : State} {fault lossPending : Bool} {lost : LossCounters} {proposed : Option Nat}
    (store : v.store = { s.store with job := none, storeFault := fault, lost := lost, lossPending := lossPending, proposed := proposed }) :
    (v.endFormat.store.job, v.endFormat.store.format) = (none, none)
    ∧ v.endFormat.link.causes &&& Cause.store.bit = Cause.store.bit
    ∧ (v.endFormat.store.identity, v.endFormat.store.floor, v.endFormat.store.exportMark, v.endFormat.store.index)
      = (s.store.identity, s.store.floor, s.store.exportMark, s.store.index)
    ∧ (s.store.active = none → v.endFormat.store.activationDue = true) := by
  have latched : v.endFormat.link.causes = Cause.store.bit ||| v.link.causes := BitVec.or_comm _ _
  refine ⟨?_, ?_, ?_, fun none_ => ?_⟩
  · exact Prod.ext (congrArg (·.job) store) rfl
  · rw [latched]
    exact cause_kept _ _
  · exact congrArg (fun st => (st.identity, st.floor, st.exportMark, st.index)) store
  · show (v.store.activationDue || v.store.active.isNone) = true
    rw [store, none_]
    exact Bool.or_true _

theorem formatEnds (s : State) : FormatEnds s where
  begun w n image runs who data := by
    dsimp only
    rw [workDone_formatStart runs who data]
    refine ⟨rfl, rfl, fun b e block => ?_⟩
    refine (block_map _ s.store b).trans ?_
    rw [block]
    by_cases bad : e.state = .bad
    · simp [BlockEntry.cleared, bad]
    · simp [bad]
  marked j b u runs marker ends := by
    obtain ⟨v, same, rfl⟩ := formatMarker_ends marker ends
    exact formatMarked_spec same runs
  ended w u runs ends := by
    rcases ends with ⟨rfl, who⟩ | ⟨rfl, who⟩
    · rw [workDone_formatEnd runs who]
      exact endFormat_spec (s := s) (v := s.dropWork false) rfl
    · rw [workFailed_format runs who]
      obtain ⟨_, _, _, store⟩ := loseImage_store w.data (s.dropWork false)
      exact endFormat_spec (s := s) store

end Sys2Proof.Machine
/-!
PROOFS. EXPORT_MARK and FORMAT_STORE at their arrival (R119, R97): a request that is served enters the slot and is dispatched, a
reply given at once is sent by the idle transmitter, and each condition of the two requests in its order.
-/

namespace Sys2Proof.Machine

/-! ## A request that is served, and its reply -/

section
variable {s : State} (h : s.serving)
include h

/-- A frame that finds the part serving enters the slot and is dispatched (R173). -/
theorem request_serving (kind tag : Byte) {body : List Byte} (fits : body.length ≤ maxBody) :
    s.request kind tag body = ((s.holdRequest kind tag).dispatch kind tag body).pump := by
  obtain ⟨⟨listens, rx, slot, tx⟩, scan⟩ := h
  have restarting : s.link.restarting = false := by
    unfold State.listens at listens
    simp only [Bool.and_eq_true, Bool.not_eq_true'] at listens
    exact listens.2
  unfold State.request State.arrive State.completeFrame
  simp only [listens, rx, fits, restarting, slot]
  rfl

/-- With the scan concluded, a request of an assigned kind and the length it asks for goes to the block that serves it (R174). -/
theorem dispatch_serving (kind tag : Byte) {body : List Byte} (assigned : assignedKinds.contains kind.toNat = true)
    (suits : lengthSuits kind.toNat body.length = true) :
    (s.holdRequest kind tag).dispatch kind tag body = (s.holdRequest kind tag).serve kind.toNat tag body := by
  unfold State.dispatch
  simp only [assigned, suits, State.holdRequest_store, h.scan]
  rfl

/-- The reply to a request that has just entered the slot is sent at once, the transmitter being IDLE (R175, R176). -/
theorem reply_holdRequest (kind tag : Byte) (st : Status) (rest : List Byte) (other : kind ≠ 0x71) :
    (s.holdRequest kind tag).reply st rest = s.sending (replyKind kind) tag (field 1 st.code ++ rest) := by
  obtain ⟨⟨listens, rx, slot, tx⟩, scan⟩ := h
  unfold State.reply State.answer State.holdRequest State.sending Link.answer Link.choose
  simp only [tx, slot, beq_false_of_ne other, Bool.and_false]

end

/-- Reads and marks are refused as BUSY_STORE in HOLDUP and FORMATTING. -/
theorem readsBusy_iff (s : State) : s.readsBusy = true ↔ s.supply.power = .holdup ∨ s.store.state = .formatting := by
  simp [State.readsBusy, State.inHoldup]

/-! ## EXPORT_MARK (R119) -/

theorem exec_exportMark {s : State} (h : s.serving) (tag : Byte) {body : List Byte} (length : body.length = 4) :
    exec (.exportMark tag body) s = .next ((s.holdRequest 0x2A tag).serveExportMark body).pump := by
  show Host.Outcome.next (s.request 0x2A tag body) = _
  rw [request_serving h _ _ (by rw [length]; decide), dispatch_serving h _ _ (by decide) (by rw [length]; decide)]
  rfl

/-- A mark decided at once completes with its reply. -/
theorem exportMark_replies {s : State} (h : s.serving) {tag : Byte} {body : List Byte} (length : body.length = 4) {st : Status}
    (decided : (s.holdRequest 0x2A tag).serveExportMark body = (s.holdRequest 0x2A tag).reply st []) :
    Completes (.exportMark tag body) s (s.sending 0xAA tag (field 1 st.code)) := by
  refine completes_of_exec ?_
  rw [exec_exportMark h tag length, decided, reply_holdRequest h _ _ _ _ (by decide), List.append_nil]
  rfl

theorem serveExportMark_busy {s : State} {body : List Byte} (busy : s.readsBusy = true) :
    s.serveExportMark body = s.reply .busyStore [] := by
  unfold State.serveExportMark
  simp only [busy]
  rfl

theorem serveExportMark_readOnly {s : State} {body : List Byte} (idle : s.readsBusy = false) (readOnly : s.store.state = .readOnly) :
    s.serveExportMark body = s.reply .readOnly [] := by
  unfold State.serveExportMark
  simp only [idle, if_pos readOnly]
  rfl

theorem serveExportMark_proposed {s : State} {body : List Byte} (idle : s.readsBusy = false) (writable : s.store.state ≠ .readOnly)
    (waits : s.store.proposed.isSome = true) : s.serveExportMark body = s.reply .busyStore [] := by
  unfold State.serveExportMark
  simp only [idle, if_neg writable, if_pos waits]
  rfl

/-- With the store ready for a mark, its number decides. -/
theorem serveExportMark_ready {s : State} {body : List Byte} (idle : s.readsBusy = false) (writable : s.store.state ≠ .readOnly)
    (unproposed : s.store.proposed = none) :
    s.serveExportMark body =
      if fieldAt body 0 4 < s.store.exportMark ∨ s.store.newestSeq < fieldAt body 0 4 then s.reply .badArgument []
      else if fieldAt body 0 4 = s.store.exportMark then s.reply .ok []
      else (s.modifyStore fun st => { st with proposed := some (fieldAt body 0 4) }).queueImage .settings := by
  unfold State.serveExportMark
  simp only [idle, if_neg writable, unproposed]
  rfl

/-- An image request joins a queue with room where none of its kind waits (R116). -/
theorem queueImage_joins {s : State} {k : ImageKind} (room : s.store.markerQueue.length < 8) (absent : .image k ∉ s.store.markerQueue) :
    s.queueImage k = s.setQueue (s.store.markerQueue ++ [.image k]) := by
  have none_ : ¬ s.store.markerQueue.any (QueueItem.isImage k) = true := by
    rw [List.any_eq_true]
    rintro ⟨item, mem, same⟩
    cases item with
    | marker t b => cases same
    | image j => exact absent (by rwa [eq_of_beq same])
  unfold State.queueImage
  rw [if_neg none_, if_pos (show s.store.markerQueue.length < queueDepth from room)]

/-- An accepted mark is proposed and its image asked for; the slot stays HELD until the image is written. -/
theorem exportMark_proposes {s : State} (h : s.serving) {tag : Byte} {body : List Byte} (length : body.length = 4) {seq : Nat}
    (room : s.store.markerQueue.length < 8) (absent : .image .settings ∉ s.store.markerQueue)
    (decided : (s.holdRequest 0x2A tag).serveExportMark body
      = ((s.holdRequest 0x2A tag).modifyStore fun st => { st with proposed := some seq }).queueImage .settings) :
    Completes (.exportMark tag body) s
      { s.holding 0x2A tag with
        store := { s.store with proposed := some seq, markerQueue := s.store.markerQueue ++ [.image .settings] } } := by
  refine completes_of_exec ?_
  rw [exec_exportMark h tag length, decided]
  exact congrArg (fun u : State => Host.Outcome.next u.pump) (queueImage_joins room absent)

/-! ## FORMAT_STORE (R97) -/

theorem exec_formatStore {s : State} (h : s.serving) (tag : Byte) :
    exec (.formatStore tag []) s = .next (s.holdRequest 0x2C tag).serveFormatStore.pump := by
  show Host.Outcome.next (s.request 0x2C tag []) = _
  rw [request_serving h _ _ (by decide), dispatch_serving h _ _ (by decide) (by decide)]
  rfl

theorem formatStore_refuses {s : State} (h : s.serving) {tag : Byte} {st : Status}
    (decided : (s.holdRequest 0x2C tag).serveFormatStore = (s.holdRequest 0x2C tag).reply st []) :
    Completes (.formatStore tag []) s (s.sending 0xAC tag (field 1 st.code)) := by
  refine completes_of_exec ?_
  rw [exec_formatStore h tag, decided, reply_holdRequest h _ _ _ _ (by decide), List.append_nil]
  rfl

/-- An accepted format makes the store FORMATTING before the writer's review (log 35). -/
theorem formatStore_accepts {s : State} (h : s.serving) {tag : Byte}
    (decided : (s.holdRequest 0x2C tag).serveFormatStore
      = ((s.holdRequest 0x2C tag).modifyStore fun st => { st with format := some .start, state := .formatting }).reply .accepted []) :
    Completes (.formatStore tag []) s
      (State.sending 0xAC tag [0x01] { s with store := { s.store with format := some .start, state := .formatting } }) := by
  have begun : (s.modifyStore fun st => { st with format := some .start, state := .formatting }).serving :=
    ⟨⟨h.ready.listens, h.ready.rx, h.ready.slot, h.ready.tx⟩, h.scan⟩
  refine completes_of_exec ?_
  rw [exec_formatStore h tag, decided]
  exact congrArg (fun u : State => Host.Outcome.next u.pump) (reply_holdRequest begun 0x2C tag .accepted [] (by decide))

/-- A slot of the case table is occupied. -/
theorem anyCase_iff (s : State) : s.cases.slots.any Option.isSome = true ↔ ∃ i, (s.case i).isSome = true := by
  unfold State.case
  induction s.cases.slots with
  | nil => simp
  | cons c l ih =>
    rw [List.any_cons, Bool.or_eq_true, ih]
    constructor
    · rintro (here | ⟨i, there⟩)
      · exact ⟨0, by rwa [slotAt_cons_zero]⟩
      · exact ⟨i + 1, there⟩
    · rintro ⟨i, filled⟩
      cases i with
      | zero => exact .inl (by rwa [slotAt_cons_zero] at filled)
      | succ i => exact .inr ⟨i, filled⟩

theorem serveFormatStore_case {s : State} (occupied : s.cases.slots.any Option.isSome = true) :
    s.serveFormatStore = s.reply .refusedState [] := if_pos occupied

theorem serveFormatStore_busy {s : State} (free : s.cases.slots.any Option.isSome = false) (busy : s.readsBusy = true) :
    s.serveFormatStore = s.reply .busyStore [] := by
  unfold State.serveFormatStore
  simp only [free, busy]
  rfl

theorem serveFormatStore_noCase {s : State} (free : s.cases.slots.any Option.isSome = false) (idle : s.readsBusy = false) :
    s.serveFormatStore =
      if s.store.state = .readOnly then s.reply .readOnly []
      else (s.modifyStore fun st => { st with format := some .start, state := .formatting }).reply .accepted [] := by
  unfold State.serveFormatStore
  simp only [free, idle]
  rfl

/-! ## The statement -/

/-- Settles O56: the steps, ends and activation of a format, and the two requests, condition by condition. -/
theorem exportMarkAndFormatDecide : Obligations.ExportMarkAndFormatDecide := by
  refine ⟨fun s => ⟨formatSteps s, formatEnds s, activates s⟩, fun tag body s serving length => ?_⟩
  intro seq newest busy held mark format
  have idle (free : ¬ busy) : s.readsBusy = false := Bool.eq_false_iff.2 fun b => free ((readsBusy_iff s).1 b)
  have noCase (free : ¬ held) : s.cases.slots.any Option.isSome = false := Bool.eq_false_iff.2 fun b => free ((anyCase_iff s).1 b)
  refine ⟨fun b => ?_, fun free ro => ?_, fun free w waits => ?_, fun free w unproposed => ?_, fun occupied => ?_,
    fun free b => ?_, fun free calm ro => ?_, fun free calm w => ?_⟩
  · exact exportMark_replies (st := .busyStore) serving length (serveExportMark_busy ((readsBusy_iff s).2 b))
  · exact exportMark_replies (st := .readOnly) serving length (serveExportMark_readOnly (idle free) ro)
  · exact exportMark_replies (st := .busyStore) serving length (serveExportMark_proposed (idle free) w waits)
  · have ready := serveExportMark_ready (s := s.holdRequest 0x2A tag) (body := body) (idle free) w unproposed
    refine ⟨fun out => ?_, fun within old => ?_, fun within new room absent => ?_⟩
    · exact exportMark_replies (st := .badArgument) serving length (ready.trans (if_pos out))
    · exact exportMark_replies (st := .ok) serving length (ready.trans ((if_neg within).trans (if_pos old)))
    · exact exportMark_proposes serving length room absent (ready.trans ((if_neg within).trans (if_neg new)))
  · exact formatStore_refuses (st := .refusedState) serving (serveFormatStore_case ((anyCase_iff s).2 occupied))
  · exact formatStore_refuses (st := .busyStore) serving (serveFormatStore_busy (noCase free) ((readsBusy_iff s).2 b))
  · exact formatStore_refuses (st := .readOnly) serving
      ((serveFormatStore_noCase (s := s.holdRequest 0x2C tag) (noCase free) (idle calm)).trans (if_pos ro))
  · exact formatStore_accepts serving
      ((serveFormatStore_noCase (s := s.holdRequest 0x2C tag) (noCase free) (idle calm)).trans (if_neg w))

end Sys2Proof.Machine

/-!
PROOFS. The settings section (chapter 10): the boundary that makes the pending set active (R194), SET_SETTINGS, APPLY_SETTINGS and
DISCARD_STAGED at their arrival (R191 to R193), and the pairs of GET_SETTINGS read back.
-/

namespace Sys2Proof.Machine

/-! ## The boundary (R194) -/

/-- A marker joins a queue with room (R116). -/
theorem queueMarker_joins {s : State} {b : MarkerBody} (room : s.store.markerQueue.length < 8) :
    s.queueMarker b = s.setQueue (s.store.markerQueue ++ [.marker s.now b]) := if_pos room

/-- An image request and a marker join, in that order, a queue with room for both where no such request waits. -/
theorem queueImage_queueMarker {s : State} {k : ImageKind} {b : MarkerBody} (room : s.store.markerQueue.length < 7)
    (absent : .image k ∉ s.store.markerQueue) :
    (s.queueImage k).queueMarker b = s.setQueue (s.store.markerQueue ++ [.image k, .marker s.now b]) := by
  have behind : (s.setQueue (s.store.markerQueue ++ [.image k])).store.markerQueue.length < 8 := by
    simp only [State.setQueue_store, List.length_append, List.length_singleton]
    omega
  rw [queueImage_joins (by omega) absent, queueMarker_joins behind]
  simp only [State.setQueue_store, List.append_assoc]
  rfl

theorem count32_of_lt {n : Nat} (h : n + 1 < 2 ^ 32) : count32 n = n + 1 := if_pos h

/-- A boundary report without a pending set is only taken. -/
theorem exec_intervalBoundary_none {s : State} {t : TimeStamp} {rest : List TimeStamp} (on : s.coreRunning = true)
    (report : s.reports.boundaries = t :: rest) (idle : s.settings.pending = none) :
    exec .intervalBoundary s = .next (s.setReports { s.reports with boundaries := rest }) := by
  show execIntervalBoundary s = _
  unfold execIntervalBoundary
  simp only [on, report, State.setReports_settings, idle]

/-- A boundary report with a pending set makes it active. -/
theorem exec_intervalBoundary_some {s : State} {t : TimeStamp} {rest : List TimeStamp} {p : Settings} (on : s.coreRunning = true)
    (report : s.reports.boundaries = t :: rest) (waits : s.settings.pending = some p) :
    exec .intervalBoundary s = .next ((s.setReports { s.reports with boundaries := rest }).activateSettings p).pump := by
  show execIntervalBoundary s = _
  unfold execIntervalBoundary
  simp only [on, report, State.setReports_settings, waits]

/-- The pending set becomes the active one under the next generation (R194, step 2). -/
def State.makeActive (p : Settings) (s : State) : State :=
  { s with settings := { s.settings with active := p, generation := count32 s.settings.generation, pending := none } }

/-- A notice goes to each of the five blocks (R194, step 4). -/
def State.notifyApply (n : Notice) (s : State) : State :=
  { s with
    reports :=
      { s.reports with
        applyMeasurement := s.reports.applyMeasurement ++ [n]
        applyTracker := s.reports.applyTracker ++ [n]
        applyCapture := s.reports.applyCapture ++ [n]
        applyAggregator := s.reports.applyAggregator ++ [n]
        applyLink := s.reports.applyLink ++ [n] } }

/-- The steps of R194 in their order. -/
theorem activateSettings_eq (p : Settings) (s : State) :
    s.activateSettings p
      = (((s.makeActive p).queueImage .settings).queueMarker
          (.settingsApplied (count32 s.settings.generation) (changedIds s.settings.active p))).notifyApply
        ⟨⟨p, count32 s.settings.generation⟩, changedIds s.settings.active p⟩ := rfl

/-- With room for both items the steps of R194 fill the queue, and the generation is the next number. -/
theorem activateSettings_room {s : State} (p : Settings) (count : s.settings.generation + 1 < 2 ^ 32)
    (room : s.store.markerQueue.length < 7) (absent : .image .settings ∉ s.store.markerQueue) :
    s.activateSettings p
      = ((s.makeActive p).setQueue (s.store.markerQueue
          ++ [.image .settings, .marker s.now (.settingsApplied (s.settings.generation + 1) (changedIds s.settings.active p))])).notifyApply
        ⟨⟨p, s.settings.generation + 1⟩, changedIds s.settings.active p⟩ := by
  rw [activateSettings_eq, queueImage_queueMarker (s := s.makeActive p) room absent, count32_of_lt count]
  rfl

/-- Settles O41: the report is taken, and a pending set goes through the steps of R194. -/
theorem boundaryAppliesPendingSet : Obligations.BoundaryAppliesPendingSet := by
  intro t rest s on report
  refine ⟨exec_intervalBoundary_none on report, fun p waits count room absent => completes_of_exec ?_⟩
  rw [exec_intervalBoundary_some on report waits,
    activateSettings_room (s := s.setReports { s.reports with boundaries := rest }) p count room absent]
  unfold State.makeActive
  rw [State.setReports_settings, count32_of_lt count]
  rfl

/-! ## A request answered at its arrival -/

/-- The settings section's sets have no part in whether a request is served. -/
theorem State.serving.withSettings {s : State} (h : s.serving) (x : SettingsSection) : State.serving { s with settings := x } :=
  ⟨⟨h.ready.listens, h.ready.rx, h.ready.slot, h.ready.tx⟩, h.scan⟩

/-- A request that its dispatch answers at once, on the state `v`, completes with that reply sent. -/
theorem completes_of_dispatch (kind : Byte) (st : Status) (rest : List Byte) {c : Instr} {s v : State} {tag : Byte} {body : List Byte}
    (h : s.serving) (after : v.serving) (run : exec c s = .next (s.request kind tag body)) (fits : body.length ≤ maxBody)
    (other : kind ≠ 0x71) (answered : (s.holdRequest kind tag).dispatch kind tag body = (v.holdRequest kind tag).reply st rest) :
    Completes c s (v.sending (replyKind kind) tag (field 1 st.code ++ rest)) := by
  apply completes_of_exec
  rw [run, request_serving h _ _ fits, answered, reply_holdRequest after _ _ _ _ other]

theorem exec_setSettings (tag : Byte) (body : List Byte) (s : State) :
    exec (.setSettings tag body) s = .next (s.request 0x11 tag body) := rfl

theorem exec_applySettings (tag : Byte) (body : List Byte) (s : State) :
    exec (.applySettings tag body) s = .next (s.request 0x12 tag body) := rfl

theorem exec_discardStaged (tag : Byte) (body : List Byte) (s : State) :
    exec (.discardStaged tag body) s = .next (s.request 0x13 tag body) := rfl

/-! ## SET_SETTINGS (R191) -/

/-- A body that is not a whole number of pairs goes no further than the dispatch (R174). -/
theorem dispatch_setSettings_badLength {s : State} (h : s.serving) (tag : Byte) {body : List Byte} (part : body.length % 5 ≠ 0) :
    (s.holdRequest 0x11 tag).dispatch 0x11 tag body = (s.holdRequest 0x11 tag).reply .badLength [] := by
  have wrong : lengthSuits (0x11 : Byte).toNat body.length = false := beq_false_of_ne part
  unfold State.dispatch
  simp only [show assignedKinds.contains (0x11 : Byte).toNat = true by decide, wrong, State.holdRequest_store, h.scan]
  rfl

/-- Whole pairs reach the settings section. -/
theorem dispatch_setSettings {s : State} (h : s.serving) (tag : Byte) {body : List Byte} (whole : body.length % 5 = 0) :
    (s.holdRequest 0x11 tag).dispatch 0x11 tag body = (s.holdRequest 0x11 tag).serveSetSettings body :=
  dispatch_serving h _ _ (by decide) (beq_iff_eq.2 whole)

theorem badPair_iff (p : Nat × Nat) : badPair p = true ↔ ∀ i, SettingId.ofCode p.1 = some i → i.inRange p.2 = false := by
  unfold badPair
  cases SettingId.ofCode p.1 with
  | none => simp
  | some i => simp

/-- The first bad pair decides the reply. -/
theorem serveSetSettings_bad {s : State} {body : List Byte} {before after : List (Nat × Nat)} {p : Nat × Nat}
    (split : pairsOf body.length body = before ++ p :: after) (good : ∀ q ∈ before, ¬ badPair q = true) (bad : badPair p = true) :
    s.serveSetSettings body = s.reply .badArgument (field 1 p.1) := by
  have first : (pairsOf body.length body).find? badPair = some p :=
    List.find?_eq_some_iff_append.2 ⟨bad, before, after, split, fun q mem => by simpa using good q mem⟩
  unfold State.serveSetSettings
  simp only [first]

/-- Good pairs are all staged, in list order. -/
theorem serveSetSettings_good {s : State} {body : List Byte} (good : ∀ q ∈ pairsOf body.length body, ¬ badPair q = true) :
    s.serveSetSettings body
      = (s.setStaged ((pairsOf body.length body).foldl Settings.putPair s.settings.staged)).reply .ok [] := by
  unfold State.serveSetSettings
  simp only [List.find?_eq_none.2 good]

theorem inRange_intervalLength_iff (v : Nat) :
    SettingId.intervalLength.inRange v = true ↔ 60 ≤ v ∧ v ≤ 3600 ∧ v ∣ 3600 := by
  simp [SettingId.inRange, Nat.dvd_iff_mod_eq_zero, and_assoc]

/-- A step that puts each pair as `Settings.putPair` does folds to the same set. -/
theorem foldl_eq_putPair {f : Settings → Nat × Nat → Settings} (same : ∀ set p, f set p = set.putPair p) (pairs : List (Nat × Nat))
    (set : Settings) : pairs.foldl f set = pairs.foldl Settings.putPair set := by
  rw [show f = Settings.putPair from funext fun set => funext fun p => same set p]

/-- Settles O42: the body's length, then the first bad pair, then the staging of all pairs. -/
theorem setSettingsJudgesPairs : Obligations.SetSettingsJudgesPairs := by
  refine ⟨inRange_intervalLength_iff, fun tag body s serving fits => ?_⟩
  refine ⟨fun part => ?_, fun whole before p after split good bad => ?_, fun whole good => ?_⟩
  · exact completes_of_dispatch 0x11 .badLength [] serving serving (exec_setSettings ..) fits (by decide)
      (dispatch_setSettings_badLength serving tag part)
  · have first := serveSetSettings_bad (s := s.holdRequest 0x11 tag) split
      (fun q mem isBad => good q mem ((badPair_iff q).1 isBad)) ((badPair_iff p).2 bad)
    exact completes_of_dispatch 0x11 .badArgument _ serving serving (exec_setSettings ..) fits (by decide)
      ((dispatch_setSettings serving tag whole).trans first)
  · have staged := serveSetSettings_good (s := s.holdRequest 0x11 tag) fun q mem isBad => good q mem ((badPair_iff q).1 isBad)
    rw [foldl_eq_putPair]
    · exact completes_of_dispatch 0x11 .ok [] serving (serving.withSettings _) (exec_setSettings ..) fits (by decide)
        ((dispatch_setSettings serving tag whole).trans staged)
    · intro set p
      unfold Settings.putPair
      cases SettingId.ofCode p.1 <;> rfl

/-! ## APPLY_SETTINGS and DISCARD_STAGED (R192, R193) -/

theorem dispatch_applySettings {s : State} (h : s.serving) (tag : Byte) :
    (s.holdRequest 0x12 tag).dispatch 0x12 tag [] = (s.holdRequest 0x12 tag).serveApplySettings :=
  dispatch_serving h _ _ (by decide) (by decide)

theorem dispatch_discardStaged {s : State} (h : s.serving) (tag : Byte) :
    (s.holdRequest 0x13 tag).dispatch 0x13 tag [] = (s.holdRequest 0x13 tag).serveDiscardStaged :=
  dispatch_serving h _ _ (by decide) (by decide)

theorem failed_sum {set : Settings} (long : 32 < set.preCycles + set.postCycles) : set.failed = some .capturePostCycles :=
  if_pos long

theorem failed_dip {set : Settings} (short : set.preCycles + set.postCycles ≤ 32) (low : set.dip ≤ set.interruption + set.hysteresis) :
    set.failed = some .dipThreshold := (if_neg (by omega)).trans (if_pos low)

theorem failed_none {set : Settings} (short : set.preCycles + set.postCycles ≤ 32)
    (high : set.interruption + set.hysteresis < set.dip) : set.failed = none := (if_neg (by omega)).trans (if_neg (by omega))

/-- A failed condition is the reply. -/
theorem serveApplySettings_failed {s : State} {i : SettingId} (failed : s.settings.staged.failed = some i) :
    s.serveApplySettings = s.reply .badArgument (field 1 i.code) := by
  unfold State.serveApplySettings
  simp only [failed]

/-- With both conditions met the staged set is copied. -/
theorem serveApplySettings_holds {s : State} (holds : s.settings.staged.failed = none) :
    s.serveApplySettings
      = State.reply .ok [] { s with settings := { s.settings with pending := some s.settings.staged } } := by
  unfold State.serveApplySettings
  simp only [holds]

/-- APPLY_SETTINGS is refused with the identifier of the condition that fails. -/
theorem applySettings_refused {s : State} (h : s.serving) (tag : Byte) {i : SettingId} (failed : s.settings.staged.failed = some i) :
    Completes (.applySettings tag []) s (s.sending 0x92 tag (field 1 Status.badArgument.code ++ field 1 i.code)) :=
  completes_of_dispatch 0x12 .badArgument _ h h (exec_applySettings ..) (by decide) (by decide)
    ((dispatch_applySettings h tag).trans (serveApplySettings_failed (s := s.holdRequest 0x12 tag) failed))

theorem field_bit (b : Bool) : field 1 (bit b 0) = [if b then 1 else 0] := by cases b <;> rfl

/-- Settles O44: the two conditions in their order, and the discard. -/
theorem applyAndDiscard : Obligations.ApplyAndDiscard := by
  intro tag s serving
  refine ⟨fun long => applySettings_refused (i := .capturePostCycles) serving tag (failed_sum long),
    fun short low => applySettings_refused (i := .dipThreshold) serving tag (failed_dip short low), fun short high => ?_, ?_⟩
  · exact completes_of_dispatch 0x12 .ok [] serving (serving.withSettings _) (exec_applySettings ..) (by decide) (by decide)
      ((dispatch_applySettings serving tag).trans (serveApplySettings_holds (s := s.holdRequest 0x12 tag) (failed_none short high)))
  · have discarded := completes_of_dispatch 0x13 .ok _ serving (serving.withSettings _) (exec_discardStaged ..) (by decide) (by decide)
      (dispatch_discardStaged serving tag)
    rw [State.holdRequest_settings, field_bit] at discarded
    exact discarded

/-! ## Fields read back (R197) -/

theorem length_leBytes (w n : Nat) : (leBytes w n).length = w := by
  induction w generalizing n with
  | zero => rfl
  | succ w ih => exact congrArg (· + 1) (ih _)

theorem leNat_leBytes {w n : Nat} (fits : n < 256 ^ w) : leNat (leBytes w n) = n := by
  induction w generalizing n with
  | zero => exact (Nat.lt_one_iff.1 fits).symm
  | succ w ih =>
    have low : (byte n).toNat = n % 256 := BitVec.toNat_ofNat n 8
    have high : leNat (leBytes w (n / 256)) = n / 256 := ih (Nat.div_lt_of_lt_mul (by rwa [Nat.pow_succ'] at fits))
    show (byte n).toNat + 256 * leNat (leBytes w (n / 256)) = n
    rw [low, high, Nat.mod_add_div]

theorem length_field (w n : Nat) : (field w n).length = w := length_leBytes w _

theorem leNat_field {w n : Nat} (fits : n < 256 ^ w) : leNat (field w n) = n := by
  unfold field
  rw [if_pos fits, leNat_leBytes fits]

/-- A field is read back at the offset where it was written. -/
theorem fieldAt_field {w n : Nat} (fits : n < 256 ^ w) (front back : List Byte) :
    fieldAt (front ++ (field w n ++ back)) front.length w = n := by
  unfold fieldAt
  rw [List.drop_left, List.take_left' (length_field w n), leNat_field fits]

/-! ## The settings pairs (R189, section 11.4) -/

/-- The pair of an identifier in a body. -/
def pairBytes (set : Settings) (i : SettingId) : List Byte := field 1 i.code ++ field 4 (set.get i)

theorem settingsPairs_eq (set : Settings) : settingsPairs set = SettingId.all.flatMap (pairBytes set) := rfl

theorem length_pairBytes (set : Settings) (i : SettingId) : (pairBytes set i).length = 5 := by
  rw [pairBytes, List.length_append, length_field, length_field]

theorem length_settingsPairs (set : Settings) : (settingsPairs set).length = 95 := by
  simp only [settingsPairs_eq, List.length_flatMap, length_pairBytes]
  rfl

theorem code_lt (i : SettingId) : i.code < 256 ^ 1 := by cases i <;> decide

theorem ofCode_code (i : SettingId) : SettingId.ofCode i.code = some i := by cases i <;> rfl

/-- A value in its identifier's range fits the four bytes of a pair. -/
theorem inRange_lt {i : SettingId} {v : Nat} (h : i.inRange v = true) : v < 256 ^ 4 := by
  cases i <;> simp [SettingId.inRange] at h <;> omega

/-- The first pair of a body is read back, and the rest follows it. -/
theorem pairsOf_pairBytes (set : Settings) {i : SettingId} (fits : set.get i < 256 ^ 4) (n : Nat) (rest : List Byte) :
    pairsOf (n + 1) (pairBytes set i ++ rest) = (i.code, set.get i) :: pairsOf n rest := by
  have code : fieldAt (pairBytes set i ++ rest) 0 1 = i.code := by
    rw [pairBytes, List.append_assoc]
    exact fieldAt_field (code_lt i) [] _
  have value : fieldAt (pairBytes set i ++ rest) 1 4 = set.get i := by
    rw [pairBytes, List.append_assoc]
    have read := fieldAt_field fits (field 1 i.code) rest
    rwa [length_field] at read
  have tail : (pairBytes set i ++ rest).drop 5 = rest := List.drop_left' (length_pairBytes set i)
  calc pairsOf (n + 1) (pairBytes set i ++ rest)
    _ = (fieldAt (pairBytes set i ++ rest) 0 1, fieldAt (pairBytes set i ++ rest) 1 4)
          :: pairsOf n ((pairBytes set i ++ rest).drop 5) := rfl
    _ = (i.code, set.get i) :: pairsOf n rest := by rw [code, value, tail]

/-- Every pair of a list of identifiers is read back, in order. -/
theorem pairsOf_flatMap (set : Settings) (fits : ∀ i, set.get i < 256 ^ 4) {n : Nat} {ids : List SettingId} (fuel : ids.length ≤ n) :
    pairsOf n (ids.flatMap (pairBytes set)) = ids.map fun i => (i.code, set.get i) := by
  induction ids generalizing n with
  | nil => cases n <;> rfl
  | cons i ids ih =>
    obtain _ | n := n
    · cases fuel
    · rw [List.flatMap_cons, pairsOf_pairBytes set (fits i), ih (Nat.le_of_succ_le_succ fuel), List.map_cons]

/-- Each identifier's own value, put back, makes any set the one that the values are of. -/
theorem foldl_put_get (set old : Settings) : SettingId.all.foldl (fun acc i => acc.put i (set.get i)) old = set := by
  have freq : (if set.freq.hertz = 50 then Freq.hz50 else .hz60) = set.freq := by cases set.freq <;> rfl
  have phases : ((if set.threePhases then 3 else 1) == 3) = set.threePhases := by cases set.threePhases <;> rfl
  have mode : (if set.get .aggregationMode = 0 then AggMode.polyphase else .perPhase) = set.mode := by
    unfold Settings.get
    cases set.mode <;> rfl
  have capture : ((if set.rvcCapture then 1 else 0) == 1) = set.rvcCapture := by cases set.rvcCapture <;> rfl
  have mask : BitVec.ofNat 8 set.attentionMask.toNat = set.attentionMask := by simp
  have attention : (if set.get .attentionMode = 0 then AttnMode.level else .pulse) = set.attentionMode := by
    unfold Settings.get
    cases set.attentionMode <;> rfl
  calc SettingId.all.foldl (fun acc i => acc.put i (set.get i)) old
    _ = { set with
          freq := if set.freq.hertz = 50 then .hz50 else .hz60
          threePhases := (if set.threePhases then 3 else 1) == 3
          mode := if set.get .aggregationMode = 0 then .polyphase else .perPhase
          rvcCapture := (if set.rvcCapture then 1 else 0) == 1
          attentionMask := BitVec.ofNat 8 set.attentionMask.toNat
          attentionMode := if set.get .attentionMode = 0 then .level else .pulse } := rfl
    _ = set := by rw [freq, phases, mode, capture, mask, attention]

theorem putPair_code (set : Settings) (i : SettingId) (v : Nat) : set.putPair (i.code, v) = set.put i v := by
  unfold Settings.putPair
  simp only [ofCode_code]

theorem badPair_code (i : SettingId) (v : Nat) : badPair (i.code, v) = !i.inRange v := by
  unfold badPair
  simp only [ofCode_code]

/-- Settles O43: the body of GET_SETTINGS is read back pair by pair, and each pair puts its identifier's own value. -/
theorem settingsPairsRoundTrip : Obligations.SettingsPairsRoundTrip := by
  intro set staged inRange
  have read : pairsOf 95 (settingsPairs set) = SettingId.all.map fun i => (i.code, set.get i) :=
    pairsOf_flatMap set (fun i => inRange_lt (inRange i)) (by decide)
  refine ⟨length_settingsPairs set, fun p mem => ?_, ?_⟩
  · rw [read] at mem
    obtain ⟨i, -, rfl⟩ := List.mem_map.1 mem
    rw [badPair_code, inRange i, Bool.not_true]
  · rw [read, List.foldl_map]
    simp only [putPair_code]
    exact foldl_put_get set staged

end Sys2Proof.Machine

/-!
PROOFS. One step of the machine: what `step` does for each shape of the command queue (log 11).
-/

namespace Sys2Proof.Machine

/-- The front command runs with itself already taken from the queue. -/
theorem step_of_pending_cons {c : Instr} {rest : List Instr} {s : State} (front : s.pending = c :: rest) :
    step s = exec c { s with pending := rest } := by
  unfold step
  rw [front]

/-- A part with no command waiting idles. -/
theorem step_of_pending_nil {s : State} (empty : s.pending = []) : step s = .next s := by
  unfold step
  rw [empty]

/-- Settles O1: the queue is empty or has a front command, and `step` has one equation for each. -/
theorem stepRunsFrontCommand : Obligations.StepRunsFrontCommand :=
  ⟨fun _ _ _ front => step_of_pending_cons front, fun _ empty => step_of_pending_nil empty⟩

end Sys2Proof.Machine
